-- ==== Sys2Proof/Word.lean ====
section
/-! DEFINITION. The word types of the block: bytes, 32-bit registers, and addresses and stream positions, whose widths AW and
POSW are parameters (spec/00_scope.md R7). -/

namespace Sys2Proof

/-- One byte of the byte memory (R60). -/
abbrev Byte := BitVec 8

/-- A command word, a pixel, a tag or a register address (R21, R12, R104, R25): 32 bits. -/
abbrev Word := BitVec 32

/-- A register that can hold an address or a number of bytes (R21, R25, R27, R29, R92): 32 bits of it are used, or AW where AW
is larger (R25, log 2). -/
abbrev Reg := BitVec 64

/-- A stream position in bits (R27, R29): POSW bits of it are used, POSW at most 64 (log 2). -/
abbrev Pos := BitVec 64

/-- An address of the byte memory (R60): AW bits of it are used, AW at most 60 (log 2). -/
abbrev Addr := BitVec 64

end Sys2Proof
end

