-- ==== Sys2Proof/Config.lean ====
section
/-! DEFINITION. What an implementation fixes (spec/00_scope.md R7, spec/92_eei_decisions.md section 9) and the free values:
constants without a body, standing where the spec says "any value". -/

namespace Sys2Proof

/-- The nine classes of chunk tags (R271). -/
inductive ChunkClass where
  | dim | icc | anim | exif | xmp | frmh | alpha | image | unknown
  deriving DecidableEq, Repr

/-- What the platform may have placed at an address that is not plain storage: nothing at all (R73), or a device
register (R70). -/
inductive RegionKind where
  | hole | device
  deriving DecidableEq, Repr

/-- The addresses `lo ≤ a < hi` of the byte memory that are no plain storage. -/
structure Region where
  lo : Nat
  hi : Nat
  kind : RegionKind
  deriving DecidableEq, Repr

/-- The OPEN parameters of R7: a model takes them as arguments. `special` lists the addresses the platform does not back
with plain storage (R73, R70). DESIGN CHOICE, log 1: the record travels in `State.cfg`, and no step changes it (R38). -/
structure Config where
  aw : Nat
  csrBase : Word
  rootBits : Nat
  nt : Nat
  nchunk : Nat
  nframe : Nat
  heapLimit : Nat
  abiVersion : Word
  tagMap : List (Word × ChunkClass)
  special : List Region
  deriving DecidableEq, Repr

namespace Config

/-- POSW = AW + 4 (R7). -/
def posw (c : Config) : Nat := c.aw + 4
/-- The width of the registers that can hold an address: 32 bits, widened to AW where AW is larger (R25, log 2). -/
def regWidth (c : Config) : Nat := max 32 c.aw
/-- MAXBITS: the largest n of BR.READ and BW.PUT (R7). -/
def maxBits : Nat := 24
/-- MAXLEN: the largest Huffman code length (R7). -/
def maxLen : Nat := 15
/-- CL_MAXLEN: the largest code length inside the code-length code (R7), what a field of 3 bits can hold (R201). -/
def clMaxLen : Nat := 7
/-- CL_ALPHABET: the size of the code-length alphabet (R7). -/
def clAlphabet : Nat := 19
/-- MAXSYM: the largest alphabet of HUF.BUILD (R7). -/
def maxSym : Nat := 65536
/-- MAXDIM: the largest image width and height (R7). -/
def maxDim : Nat := 16384
/-- PAL_MAX: the largest palette (R7). -/
def palMax : Nat := 256
/-- RANGE_NORM: renormalise when the stored range is below this (R7). -/
def rangeNorm : Nat := 127
/-- NORM_TABLE: the number of renormalisation shifts (R7, R145). -/
def normTable : Nat := 256
/-- NPRED: the number of predictor modes (R7). -/
def nPred : Nat := 14

/-- The default TAGMAP of R272. A tag is the little-endian reading of its four characters (R104). -/
def defaultTags : List (Word × ChunkClass) :=
  [ (0x58385056#32, .dim), (0x50434349#32, .icc), (0x4D494E41#32, .anim), (0x46495845#32, .exif),
    (0x20504D58#32, .xmp), (0x464D4E41#32, .frmh), (0x48504C41#32, .alpha), (0x20385056#32, .image),
    (0x4C385056#32, .image) ]

/-- The defaults R7 gives; CSR_BASE, for which it gives none, 0 (DESIGN CHOICE, log 22); every address backed by plain
storage. -/
def default : Config :=
  { aw := 32, csrBase := 0, rootBits := 8, nt := 8, nchunk := 256, nframe := 64, heapLimit := 2 ^ 20, abiVersion := 0x0108#32,
    tagMap := defaultTags, special := [] }

/-- The ranges R7 and R25 give the parameters: AW at least 1 and at most 60 (log 2), ROOT_BITS in 1..MAXLEN, NT at least 1
(R25: at most 32), and counts that fit the registers that show them. -/
def Legal (c : Config) : Prop :=
  1 ≤ c.aw ∧ c.aw ≤ 60 ∧ 1 ≤ c.rootBits ∧ c.rootBits ≤ maxLen ∧ 1 ≤ c.nt ∧ c.nt ≤ 32 ∧ c.nchunk < 2 ^ 32 ∧
    c.nframe < 2 ^ 32 ∧ c.heapLimit < 2 ^ 33

/-- FREE VALUE (log 4): the byte a read finds in the writer's region while it holds any value (R30, R170), by the step's
tick and the address. -/
opaque regionByte : Nat → Nat → Byte

/-- FREE VALUE (log 5): the byte left in a region whose content was left at any value (R80, R371), by the stamp of the event
and the address. -/
opaque leftByte : Nat → Nat → Byte

/-- FREE VALUE (log 6): which of the old and the new bit the reader delivers from a byte the host wrote in the bound view
(R39, R379), by the step's tick and the bit's index in memory. -/
opaque staleBit : Nat → Nat → Bool

end Config

end Sys2Proof
end

