-- ==== Sys2Proof/Syntax.lean ====
section
/-! DEFINITION. The thirty commands of spec/opcode_table.json, one constructor per row, with the sub-fields of IMM that
spec/30_encoding.md R93 gives each. All other operands are in ARG (R92). -/

namespace Sys2Proof

/-- The reader's two modes: `IMM[0]` of BR.INIT and the register BR.mode (R93, R130). -/
inductive ReaderMode where
  | plain | range
  deriving DecidableEq, Repr

/-- A command (R94). `n`, `prob` are the whole IMM; `slot`, `tileBits` are IMM[3:0]; `copy` is IMM[0] (R93). -/
inductive Instr where
  | sysReset
  | brInit (mode : ReaderMode)
  | brRead (n : BitVec 8)
  | brGetbool (prob : BitVec 8)
  | bwInit
  | bwPut (n : BitVec 8)
  | bwFinalize
  | hufBuild (slot : BitVec 4)
  | hufDecode (slot : BitVec 4)
  | hufReadlengths
  | pteSetimg
  | ptePredFwd (tileBits : BitVec 4)
  | ptePredInv (tileBits : BitVec 4)
  | pteSubgFwd
  | pteSubgInv
  | pteXcolFwd (tileBits : BitVec 4)
  | pteXcolInv (tileBits : BitVec 4)
  | ptePalFwd
  | ptePalInv
  | muxNew
  | muxSet (copy : Bool)
  | muxGet
  | muxDelete
  | muxPush (copy : Bool)
  | muxAssemble
  | muxParse (copy : Bool)
  | muxFetch
  | muxDestroy
  | codecDecode
  | codecEncode
  deriving DecidableEq, Repr

end Sys2Proof
end

