-- ==== Sys2Proof/WellFormed.lean ====
section
/-! DEFINITION. Which command words are legal (spec/30_encoding.md R95: three checks), and which immediates a legal command
may carry without ending in InvalidArgument for their value alone (R93: two checks). A command of `Instr` has no field that
could break the word checks: its types carry them. -/

namespace Sys2Proof

/-- The OP field, bits 31:24 (R91). -/
def opField (cw : Word) : BitVec 8 := cw.extractLsb' 24 8
/-- The ZERO field, bits 23:8 (R91). -/
def zeroField (cw : Word) : BitVec 16 := cw.extractLsb' 8 16
/-- The IMM field, bits 7:0 (R91). -/
def immField (cw : Word) : BitVec 8 := cw.extractLsb' 0 8

/-- The OP column of R94. -/
def opcodes : List (BitVec 8) :=
  [0x01, 0x10, 0x11, 0x12, 0x20, 0x21, 0x22, 0x30, 0x31, 0x32] ++
  [0x40, 0x41, 0x42, 0x43, 0x44, 0x45, 0x46, 0x47, 0x48] ++
  [0x50, 0x51, 0x52, 0x53, 0x54, 0x55, 0x56, 0x57, 0x58, 0x60, 0x61]

/-- `reserved_imm(OP)` of R95: the bits of IMM that must be 0. -/
def reservedImm (op : BitVec 8) : BitVec 8 :=
  if op ∈ [(0x11 : BitVec 8), 0x21, 0x12] then 0x00
  else if op ∈ [(0x10 : BitVec 8), 0x51, 0x54, 0x56] then 0xFE
  else if op ∈ [(0x30 : BitVec 8), 0x31, 0x41, 0x42, 0x45, 0x46] then 0xF0
  else 0xFF

/-- R95: a command word is legal when ZERO is 0, OP is one of R94's, and no reserved bit of IMM is set. -/
def WellFormedWord (cw : Word) : Bool :=
  zeroField cw == 0 && decide (opField cw ∈ opcodes) && immField cw &&& reservedImm (opField cw) == 0

/-- R93's legal values: a bit count is at most MAXBITS and a slot is below NT. Such a command decodes either way; outside
these values it ends with InvalidArgument. -/
def Instr.LegalImmediate (c : Config) : Instr → Bool
  | .brRead n | .bwPut n => decide (n.toNat ≤ Config.maxBits)
  | .hufBuild slot | .hufDecode slot => decide (slot.toNat < c.nt)
  | _ => true

end Sys2Proof
end

