-- ==== Sys2Proof/Decode.lean ====
section
/-! DEFINITION. The decoder of command words (spec/30_encoding.md R95), the encoder (R91, R93, R94) and the host's question
about a table row. -/

namespace Sys2Proof

/-- The command an OP selects, with the sub-fields of IMM (R93, R94); `none` for an OP that is not in R94's column. The
reserved bits of IMM are checked by `decode`. -/
def commandOf (op imm : BitVec 8) : Option Instr :=
  match op.toNat with
  | 0x01 => some .sysReset
  | 0x10 => some (.brInit (if imm.getLsbD 0 then .range else .plain))
  | 0x11 => some (.brRead imm)
  | 0x12 => some (.brGetbool imm)
  | 0x20 => some .bwInit
  | 0x21 => some (.bwPut imm)
  | 0x22 => some .bwFinalize
  | 0x30 => some (.hufBuild (imm.extractLsb' 0 4))
  | 0x31 => some (.hufDecode (imm.extractLsb' 0 4))
  | 0x32 => some .hufReadlengths
  | 0x40 => some .pteSetimg
  | 0x41 => some (.ptePredFwd (imm.extractLsb' 0 4))
  | 0x42 => some (.ptePredInv (imm.extractLsb' 0 4))
  | 0x43 => some .pteSubgFwd
  | 0x44 => some .pteSubgInv
  | 0x45 => some (.pteXcolFwd (imm.extractLsb' 0 4))
  | 0x46 => some (.pteXcolInv (imm.extractLsb' 0 4))
  | 0x47 => some .ptePalFwd
  | 0x48 => some .ptePalInv
  | 0x50 => some .muxNew
  | 0x51 => some (.muxSet (imm.getLsbD 0))
  | 0x52 => some .muxGet
  | 0x53 => some .muxDelete
  | 0x54 => some (.muxPush (imm.getLsbD 0))
  | 0x55 => some .muxAssemble
  | 0x56 => some (.muxParse (imm.getLsbD 0))
  | 0x57 => some .muxFetch
  | 0x58 => some .muxDestroy
  | 0x60 => some .codecDecode
  | 0x61 => some .codecEncode
  | _ => none

/-- R95: total on every word; an illegal word (R96) is refused with `none`. -/
def decode (cw : Word) : Option Instr :=
  if zeroField cw ≠ 0 then none
  else if immField cw &&& reservedImm (opField cw) ≠ 0 then none
  else commandOf (opField cw) (immField cw)

/-- The OP of a command (R94). -/
def opcodeOf : Instr → BitVec 8
  | .sysReset => 0x01
  | .brInit _ => 0x10
  | .brRead _ => 0x11
  | .brGetbool _ => 0x12
  | .bwInit => 0x20
  | .bwPut _ => 0x21
  | .bwFinalize => 0x22
  | .hufBuild _ => 0x30
  | .hufDecode _ => 0x31
  | .hufReadlengths => 0x32
  | .pteSetimg => 0x40
  | .ptePredFwd _ => 0x41
  | .ptePredInv _ => 0x42
  | .pteSubgFwd => 0x43
  | .pteSubgInv => 0x44
  | .pteXcolFwd _ => 0x45
  | .pteXcolInv _ => 0x46
  | .ptePalFwd => 0x47
  | .ptePalInv => 0x48
  | .muxNew => 0x50
  | .muxSet _ => 0x51
  | .muxGet => 0x52
  | .muxDelete => 0x53
  | .muxPush _ => 0x54
  | .muxAssemble => 0x55
  | .muxParse _ => 0x56
  | .muxFetch => 0x57
  | .muxDestroy => 0x58
  | .codecDecode => 0x60
  | .codecEncode => 0x61

/-- The IMM of a command (R93): 0 where the command has no sub-field. -/
def immediateOf : Instr → BitVec 8
  | .brInit mode => match mode with
    | .plain => 0
    | .range => 1
  | .brRead n | .brGetbool n | .bwPut n => n
  | .hufBuild k | .hufDecode k | .ptePredFwd k | .ptePredInv k | .pteXcolFwd k | .pteXcolInv k => k.zeroExtend 8
  | .muxSet copy | .muxPush copy | .muxParse copy => if copy then 1 else 0
  | .sysReset | .bwInit | .bwFinalize | .hufReadlengths | .pteSetimg | .pteSubgFwd | .pteSubgInv | .ptePalFwd
  | .ptePalInv | .muxNew | .muxGet | .muxDelete | .muxAssemble | .muxFetch | .muxDestroy | .codecDecode
  | .codecEncode => 0

/-- The command word of a command: OP, then ZERO, then IMM (R91). -/
def encode (i : Instr) : Word := opcodeOf i ++ (0 : BitVec 16) ++ immediateOf i

/-- The host's question: the command the decoder reads from a word whose low `nbits` bits are `w`, the rest 0. A command is
one 32-bit word (R97). -/
def decodeTableWord (nbits w : Nat) : Option Instr := decode (BitVec.ofNat 32 (w % 2 ^ nbits))

end Sys2Proof
end

