-- ==== Sys2Proof/Machine/State.lean ====
section
/-! DEFINITION. The state of the block and of its host as plain data (spec/10_state.md R20 to R40), the reasons a step can
stop, and the state after reset (R40). -/

namespace Sys2Proof.Machine

/-- The eight status codes of R340 (U7: codes 8..255 are never produced). -/
inductive Status where
  | ok | malformedTable | truncatedStream | duplicateChunk | notFound | unsupportedVersion | allocationFailure
  | invalidArgument
  deriving DecidableEq, Repr

/-- The reader BR (R27, R28). `stale` is the model's own (log 6): old values of view bytes the host has written since
BR.INIT (R39). -/
structure Reader where
  bound : Bool
  mode : ReaderMode
  base : Reg
  len : Reg
  pos : Pos
  eos : Bool
  range : Byte
  value : Byte
  stale : List Host.Cell
  deriving DecidableEq, Repr

/-- The writer BW (R29, R30). `bits` holds the appended bits, the first appended first. -/
structure Writer where
  bound : Bool
  final : Bool
  err : Bool
  base : Reg
  cap : Reg
  limit : Reg
  pos : Pos
  bits : List Bool
  deriving DecidableEq, Repr

/-- A Huffman table entry (R31). -/
structure Entry where
  nbits : BitVec 5
  value : BitVec 16
  deriving DecidableEq, Repr

/-- A Huffman slot `HT[t]` (R31); `size` is the number of entries in use. -/
structure Slot where
  valid : Bool
  size : BitVec 17
  entries : List Entry
  deriving DecidableEq, Repr

/-- The image descriptor PTE (R33). -/
structure Image where
  valid : Bool
  w : BitVec 15
  h : BitVec 15
  deriving DecidableEq, Repr

/-- A chunk record (R34, R35): `addr` means something when borrowed, `data` when owned. -/
structure ChunkRec where
  present : Bool
  tag : Word
  owner : Bool
  addr : Addr
  len : Word
  data : List Byte
  deriving DecidableEq, Repr

/-- A frame (R36). -/
structure Frame where
  hdr : Option Nat
  alpha : Option Nat
  img : Option Nat
  unk : List Nat
  deriving DecidableEq, Repr

/-- The chunk store MUX (R34, R36, R37): the arena, the six ordered lists, the frames, the heap accounting. -/
structure Store where
  valid : Bool
  recs : List ChunkRec
  dim : List Nat
  icc : List Nat
  anim : List Nat
  exif : List Nat
  xmp : List Nat
  unknown : List Nat
  frames : List Frame
  heapUsed : BitVec 33
  deriving DecidableEq, Repr

/-- The addresses `lo ≤ a < hi` whose bytes were left at any value (log 5) by the event with this stamp. -/
structure Junk where
  lo : Nat
  hi : Nat
  stamp : Nat
  deriving DecidableEq, Repr

/-- The byte memory (R60): the written bytes in canonical form, and the intervals left at any value. -/
structure Memory where
  cells : List Host.Cell
  junk : List Junk
  deriving DecidableEq, Repr

/-- What the host can do to the block (R21, R25, R74, R370, R371): aligned register accesses by address in the register space
(32 bits, or the whole of a widened register: log 2), byte accesses of the memory, the reset input, and the reset input
arriving while the command of a word runs. -/
inductive HostAccess where
  | writeReg (addr : Word) (value : Reg)
  | readReg (addr : Word)
  | writeByte (addr : Addr) (value : Byte)
  | readByte (addr : Addr)
  | resetInput
  | resetDuring (cw : Word)
  deriving DecidableEq, Repr

/-- The whole machine. The last five fields are the model's own: the parameters (log 1), the host's accesses to come
(log 8), what its last read returned (log 9), and the counter that keeps free values fresh (log 10). -/
structure State where
  cmd : Word
  arg0 : Reg
  arg1 : Reg
  arg2 : Reg
  arg3 : Reg
  status : Status
  res0 : Reg
  res1 : Reg
  br : Reader
  bw : Writer
  ht : List Slot
  pte : Image
  mux : Store
  mem : Memory
  cfg : Config
  host : List HostAccess
  hostData : Reg
  tick : Nat
  deriving DecidableEq, Repr

/-- Why the machine is stuck. -/
inductive Fault where
  /-- Raised by any access of a command or of the host to an address the platform does not back (R73, R354, U5: the model is
  stuck there). Safe. -/
  | unbackedAddress
  /-- Raised by any access at or above 2^AW, an address that does not exist (R60, R71): by the host's own access of one, or by
  a command in a state no run reaches, since every command checks its operand regions first. Safe. -/
  | outsideAddressSpace
  deriving DecidableEq, Repr

/-- Why the model gives no result. -/
inductive Refusal where
  /-- Raised by exec for an instruction without a meaning. Safe. -/
  | notModelled (mnemonic : String)
  /-- Raised by any access of a command or of the host to an address where the platform has placed a device register (R70,
  U11: outside the spec). Safe. -/
  | deviceAddress
  /-- Raised by CODEC.DECODE once its argument check has passed: its function is open and a model refuses it (R334, U3).
  Safe. -/
  | codecDecodeOpen
  /-- Raised by CODEC.ENCODE once its argument checks have passed: its function is open and a model refuses it (R335, U3).
  Safe. -/
  | codecEncodeOpen
  /-- Raised by a host access to the register space at an offset that is no multiple of 4 (R67, U9). Safe. -/
  | misalignedRegisterAccess
  deriving DecidableEq, Repr

/-- The outcome of a command or of a step. -/
abbrev Out := Host.Outcome State Fault Refusal

/-- BR at reset (R40). -/
def Reader.reset : Reader :=
  { bound := false, mode := .plain, base := 0, len := 0, pos := 0, eos := false, range := 0, value := 0, stale := [] }

/-- BW at reset (R40). -/
def Writer.reset : Writer :=
  { bound := false, final := false, err := false, base := 0, cap := 0, limit := 0, pos := 0, bits := [] }

/-- A slot at reset (R40: invalid, the rest unspecified; R372, log 11: no entries). -/
def Slot.reset : Slot := { valid := false, size := 0, entries := [] }

/-- PTE at reset (R40). -/
def Image.reset : Image := { valid := false, w := 0, h := 0 }

/-- A record at reset (R40: absent, the rest unspecified; R372, log 11: zeros). -/
def ChunkRec.reset : ChunkRec := { present := false, tag := 0, owner := false, addr := 0, len := 0, data := [] }

/-- MUX at reset with `n` records (R40). -/
def Store.reset (n : Nat) : Store :=
  { valid := false, recs := List.replicate n ChunkRec.reset, dim := [], icc := [], anim := [], exif := [], xmp := [],
    unknown := [], frames := [], heapUsed := 0 }

/-- The state at power-on for given parameters (R40), with nothing yet to come from the host. -/
def State.power (cfg : Config) : State :=
  { cmd := 0, arg0 := 0, arg1 := 0, arg2 := 0, arg3 := 0, status := .ok, res0 := 0, res1 := 0, br := Reader.reset,
    bw := Writer.reset, ht := List.replicate cfg.nt Slot.reset, pte := Image.reset, mux := Store.reset cfg.nchunk,
    mem := { cells := [], junk := [] }, cfg := cfg, host := [], hostData := 0, tick := 0 }

/-- The machine right after power-on reset (R40), with the parameters R7 suggests. -/
def State.reset : State := State.power Config.default

end Sys2Proof.Machine
end

