-- ==== Sys2Proof/Machine/Ops.lean ====
section
/-! DEFINITION. The named operations over memory and registers: reading and writing bytes (spec/20_memory.md R60 to R63),
the any-value regions (R30, R170, R371), what an access needs of the platform (R70, R73), the success end and the error entry
of a command (spec/60_exceptions.md R349, R350), and reset (spec/45_system_codec.md R330). -/

namespace Sys2Proof.Machine

/-! Bits and bytes. -/

/-- The number whose bits are given, bit 0 first (R8). -/
def natOfBits : List Bool → Nat
  | [] => 0
  | b :: bs => b.toNat + 2 * natOfBits bs

/-- The little-endian value of a byte sequence (R10, R63). -/
def natOfBytes : List Byte → Nat
  | [] => 0
  | b :: bs => b.toNat + 256 * natOfBytes bs

/-- The low `n` bytes of `v`, least significant first (R10, R63). -/
def bytesOfNat : Nat → Nat → List Byte
  | 0, _ => []
  | n + 1, v => BitVec.ofNat 8 v :: bytesOfNat n (v / 256)

/-- The numbers of a byte sequence. -/
def byteNats (bs : List Byte) : List Nat := bs.map fun b => b.toNat

/-- `rev_L(c)`: the L-bit number whose bit i is bit L-1-i of c (R8). -/
def revBits (l c : Nat) : Nat := natOfBits ((List.range l).map fun i => c.testBit (l - 1 - i))

/-- ceil(a / b). -/
def ceilDiv (a b : Nat) : Nat := (a + b - 1) / b

/-- A flag in a register. -/
def flagWord (b : Bool) : Reg := if b then 1 else 0

/-- What a register that can hold an address keeps of a value: the bits of its width (R25, log 2). -/
def regValue (c : Config) (v : Reg) : Reg := BitVec.ofNat 64 (v.toNat % 2 ^ c.regWidth)

/-! The byte memory. -/

/-- The listed byte at an address. -/
def findCell : List Host.Cell → Nat → Option Byte
  | [], _ => none
  | c :: rest, a => if c.1 = a then some c.2 else findCell rest a

/-- List a byte at an address, keeping the addresses rising. -/
def insertCell : List Host.Cell → Nat → Byte → List Host.Cell
  | [], a, b => [(a, b)]
  | c :: rest, a, b =>
    if a < c.1 then (a, b) :: c :: rest
    else if a = c.1 then (a, b) :: rest
    else c :: insertCell rest a b

/-- Take the listed byte at an address away. -/
def eraseCell (cells : List Host.Cell) (a : Nat) : List Host.Cell := cells.filter fun c => c.1 ≠ a

/-- The parts of a left-over interval outside `lo ≤ a < hi`. -/
def Junk.cut (lo hi : Nat) (j : Junk) : List Junk :=
  [Junk.mk j.lo (min j.hi lo) j.stamp, Junk.mk (max j.lo hi) j.hi j.stamp].filter fun p => p.lo < p.hi

/-- Whether an address is in a left-over interval. -/
def Junk.has (x : Nat) (j : Junk) : Bool := decide (j.lo ≤ x ∧ x < j.hi)

/-- What an address with no listed byte reads as: any value where one was left behind (log 5), else 0 (log 3). -/
def Memory.unlisted (m : Memory) (a : Nat) : Byte :=
  match m.junk.find? (Junk.has a) with
  | some j => Config.leftByte j.stamp a
  | none => 0

/-- `Mem[a]` (R10, R60). -/
def Memory.read (m : Memory) (a : Nat) : Byte :=
  match findCell m.cells a with
  | some b => b
  | none => m.unlisted a

/-- `Mem[a] <- b` (R10, R60). -/
def Memory.write (m : Memory) (a : Nat) (b : Byte) : Memory :=
  { cells := if b = 0 then eraseCell m.cells a else insertCell m.cells a b
    junk := m.junk.flatMap (Junk.cut a (a + 1)) }

/-- `MemStore(a, bytes)` (R10). -/
def Memory.store (m : Memory) (a : Nat) : List Byte → Memory
  | [] => m
  | b :: bs => Memory.store (m.write a b) (a + 1) bs

/-- Whether a listed byte is outside `lo ≤ a < hi`. -/
def cellOutside (lo hi : Nat) (c : Host.Cell) : Bool := decide (¬(lo ≤ c.1 ∧ c.1 < hi))

/-- Leave the addresses `lo ≤ a < hi` at any value, under a stamp (log 5). -/
def Memory.leave (m : Memory) (lo hi stamp : Nat) : Memory :=
  if lo < hi then
    { cells := m.cells.filter (cellOutside lo hi)
      junk := m.junk.flatMap (Junk.cut lo hi) ++ [Junk.mk lo hi stamp] }
  else m

/-- The canonical form: addresses strictly rising, no listed byte equal to what an unlisted address reads as (0), none inside
an interval left at any value; the intervals not empty and apart from each other. -/
abbrev Memory.wf (m : Memory) : Prop :=
  m.cells.Pairwise (fun c d => c.1 < d.1) ∧
  (∀ c ∈ m.cells, c.2 ≠ 0 ∧ ∀ j ∈ m.junk, ¬(j.lo ≤ c.1 ∧ c.1 < j.hi)) ∧
  (∀ j ∈ m.junk, j.lo < j.hi) ∧
  m.junk.Pairwise (fun j k => j.hi ≤ k.lo ∨ k.hi ≤ j.lo)

/-- Every listed byte and every interval lies below `top`: with `top` = 2^AW, no address is listed that does not exist (R60). -/
abbrev Memory.within (m : Memory) (top : Nat) : Prop := (∀ c ∈ m.cells, c.1 < top) ∧ ∀ j ∈ m.junk, j.hi ≤ top

/-- R71: `a + n <= 2^AW`. -/
def fits (c : Config) (a n : Nat) : Bool := a + n ≤ 2 ^ c.aw

/-! The writer's region (R29, R30, R170). -/

/-- How many bytes at the start of the writer's region are defined: none before BW.FINALIZE succeeds, then the stream's
bytes (R170). -/
def Writer.definedBytes (w : Writer) : Nat := if w.final then ceilDiv w.pos.toNat 8 else 0

/-- Whether an address is in the part of the writer's region that holds any value now (R30, R170). -/
def Writer.holds (w : Writer) (a : Nat) : Bool :=
  w.bound && decide (w.base.toNat + w.definedBytes ≤ a ∧ a < w.base.toNat + w.limit.toNat)

/-- The byte any agent finds at an address (R60): a free value where the writer's region holds any value (log 4). -/
def State.readByte (s : State) (a : Nat) : Byte :=
  if s.bw.holds a then Config.regionByte s.tick a else s.mem.read a

/-- `MemBytes(a, n)` (R10). -/
def State.readBytes (s : State) (a n : Nat) : List Byte := (List.range n).map fun k => s.readByte (a + k)

/-- `MemRead(a, n)` (R10). -/
def State.readNat (s : State) (a n : Nat) : Nat := natOfBytes (s.readBytes a n)

/-- `MemStore(a, bytes)` in the state (R10). No address at or above 2^AW exists (R60), so a store that passes it, which the
checks before every store keep away, would store nothing. -/
def State.storeBytes (s : State) (a : Nat) (bs : List Byte) : State :=
  { s with mem := if fits s.cfg a bs.length then s.mem.store a bs else s.mem }

/-- A memory with the addresses `lo ≤ a < hi` left at any value by this step (log 5), as far as they exist (R60). -/
def State.leaving (s : State) (m : Memory) (lo hi : Nat) : Memory := m.leave lo (min hi (2 ^ s.cfg.aw)) s.tick

/-- The memory when the writer gives its region up (BW.INIT, reset: R80): the part that held any value is left at any value,
now fixed; the finalised bytes stay (R163). -/
def State.releasedMem (s : State) : Memory :=
  if s.bw.bound then
    s.leaving s.mem (s.bw.base.toNat + s.bw.definedBytes) (s.bw.base.toNat + s.bw.limit.toNat)
  else s.mem

/-! What an access needs of the platform. A span is an address and a number of bytes. -/

/-- Why the bytes of a span cannot be accessed, if they cannot: outside the address space (R71), not backed (R73), a device
(R70). An empty span needs nothing. -/
def State.barred (s : State) (span : Nat × Nat) : Option Out :=
  if span.2 = 0 then none
  else if ¬ fits s.cfg span.1 span.2 then some (.fault .outsideAddressSpace)
  else
    match s.cfg.special.find? fun r => r.lo < r.hi ∧ span.1 < r.hi ∧ r.lo < span.1 + span.2 with
    | some r => match r.kind with
      | .hole => some (.fault .unbackedAddress)
      | .device => some (.refused .deviceAddress)
    | none => none

/-- Go on with `k` when every span can be accessed, else stop at the first that cannot. -/
def State.touching (s : State) (spans : List (Nat × Nat)) (k : Out) : Out :=
  match spans.findSome? s.barred with
  | some stop => stop
  | none => k

/-! The end of a command. -/

/-- R349, the success end: STATUS OK and the results the rule gives. -/
def State.finish (s : State) (r0 r1 : Reg) : State := { s with status := .ok, res0 := r0, res1 := r1 }

/-- R350, the error entry, the block's only exception: STATUS the code, both results 0, nothing else. -/
def State.raised (s : State) (x : Status) : State := { s with status := x, res0 := 0, res1 := 0 }

/-- A command that reaches its end (R349). -/
def succeed (s : State) (r0 r1 : Reg) : Out := .next (s.finish r0 r1)

/-- A command that ends with `raise x` (R350). There is no return from it (R351): the next command simply runs. -/
def raise (s : State) (x : Status) : Out := .next (s.raised x)

/-! Reset. -/

/-- R330, R370: every piece of block state at its reset value (R40) but CMD, which holds `cmd`; the byte memory is not
changed, and the writer gives its region up; the parameters, the host and the model's counter go on. -/
def State.blockReset (s : State) (cmd : Word) : State :=
  { State.power s.cfg with cmd := cmd, mem := s.releasedMem, host := s.host, hostData := s.hostData, tick := s.tick }

end Sys2Proof.Machine
end

