-- ==== Sys2Proof/Machine/Operands.lean ====
section
/-! DEFINITION. Every operand form: pixels and their channels (spec/00_scope.md R12, spec/30_encoding.md R108), tile arrays
(R109), palettes and packed rows (R110, spec/43_pixel_transforms.md R249 to R251), tags, payload lengths and classes (R104,
R105, spec/44_chunkstore_mux.md R271 to R273), and the spans of memory each form names (spec/20_memory.md R62). -/

namespace Sys2Proof.Machine

/-! Pixels (R12). -/

def chA (p : Word) : Byte := p.extractLsb' 24 8
def chR (p : Word) : Byte := p.extractLsb' 16 8
def chG (p : Word) : Byte := p.extractLsb' 8 8
def chB (p : Word) : Byte := p.extractLsb' 0 8

/-- `argb(a, r, g, b)` (R12). -/
def argb (a r g b : Byte) : Word := a ++ r ++ g ++ b

/-- Apply an operation to the four channels separately (R12, R224). -/
def perChannel (f : Byte → Byte → Byte) (p q : Word) : Word :=
  argb (f (chA p) (chA q)) (f (chR p) (chR q)) (f (chG p) (chG q)) (f (chB p) (chB q))

/-- The bytes of pixels in memory: B, G, R, A of each, in order (R63, R108). -/
def pixelBytes (ps : List Word) : List Byte := ps.flatMap fun p => [chB p, chG p, chR p, chA p]

/-- The pixel `MemRead(a, 4)` (R108). -/
def State.readPixel (s : State) (a : Nat) : Word := BitVec.ofNat 32 (s.readNat a 4)

/-- `n` pixels from `a` in raster order (R108). -/
def State.readPixels (s : State) (a n : Nat) : List Word := (List.range n).map fun k => s.readPixel (a + 4 * k)

/-- The black pixel of R230 and R231. -/
def blackPixel : Word := 0xFF000000#32

/-- Pixel (x, y) of an image of width `w` held as pixels in raster order (R108). -/
def pixelAt (w : Nat) (ps : List Word) (x y : Nat) : Word := ps.getD (y * w + x) 0

/-- The coordinates of an image in raster order: `f x y` for every y, and in it every x (R108). -/
def raster {α : Type} (w h : Nat) (f : Nat → Nat → α) : List α :=
  (List.range (w * h)).map fun i => f (i % w) (i / w)

/-! The image descriptor and its spans (R33, R62). -/

/-- `PTE.w`. -/
def State.imgW (s : State) : Nat := s.pte.w.toNat
/-- `PTE.h`. -/
def State.imgH (s : State) : Nat := s.pte.h.toNat
/-- The `4*w*h` bytes of an image at an address (R62). -/
def State.imageSpan (s : State) (a : Reg) : Nat × Nat := (a.toNat, 4 * s.imgW * s.imgH)

/-! Tiles (R109, R233). -/

/-- `tpr = ceil(w / 2^tb)`, tiles per row; `tpc` is the same of the height (R109). -/
def tilesAcross (extent tb : Nat) : Nat := ceilDiv extent (2 ^ tb)

/-- The tile of pixel (x, y) (R109). -/
def tileOf (w tb x y : Nat) : Nat := (y / 2 ^ tb) * tilesAcross w tb + x / 2 ^ tb

/-- The number of tiles of the current image. -/
def State.tiles (s : State) (tb : Nat) : Nat := tilesAcross s.imgW tb * tilesAcross s.imgH tb

/-- The mode array's span (R109). -/
def State.modeSpan (s : State) (a : Reg) (tb : Nat) : Nat × Nat := (a.toNat, s.tiles tb)

/-- The multiplier array's span (R109). -/
def State.multSpan (s : State) (a : Reg) (tb : Nat) : Nat × Nat := (a.toNat, 3 * s.tiles tb)

/-! Palettes and packed rows (R110, R247 to R251). -/

/-- Bits per pixel from the palette size (R249). -/
def bitsPerPixel (n : Nat) : Nat := if n ≤ 2 then 1 else if n ≤ 4 then 2 else if n ≤ 16 then 4 else 8

/-- Pixels per byte (R249). -/
def pixelsPerByte (n : Nat) : Nat := 8 / bitsPerPixel n

/-- `prb`, the bytes of a packed row (R250). -/
def packedRowBytes (w n : Nat) : Nat := ceilDiv w (pixelsPerByte n)

/-- The palette's span (R110). -/
def paletteSpan (a : Reg) (n : Nat) : Nat × Nat := (a.toNat, 4 * n)

/-- The packed image's span (R250). -/
def State.packedSpan (s : State) (a : Reg) (n : Nat) : Nat × Nat := (a.toNat, packedRowBytes s.imgW n * s.imgH)

/-! Tags and payload lengths (R104, R105, R271, R272). -/

/-- The tag operand: a tag has 32 bits (R92, R104); of a wider register the low 32 (log 2). -/
def State.tagOperand (s : State) : Word := s.arg0.setWidth 32

/-- The payload length operand of MUX.SET and MUX.PUSH: a chunk's length has 32 bits (R34, R105); of a wider register the low
32 (log 2). -/
def State.lenOperand (s : State) : Word := s.arg2.setWidth 32

/-- The class TAGMAP gives a tag: UNKNOWN where it gives none (R272). -/
def classOf (c : Config) (tag : Word) : ChunkClass :=
  match c.tagMap.find? fun e => e.1 = tag with
  | some e => e.2
  | none => .unknown

/-- R273: the classes that copy whatever the copy flag says. -/
def alwaysCopies : ChunkClass → Bool
  | .dim | .anim | .frmh => true
  | .icc | .exif | .xmp | .alpha | .image | .unknown => false

/-- The classes of chunks that live in frames (R271, R282). -/
def frameClass : ChunkClass → Bool
  | .frmh | .alpha | .image => true
  | .dim | .icc | .anim | .exif | .xmp | .unknown => false

/-- Whether a new record owns its payload (R279). -/
def ownsCopy (c : Config) (tag : Word) (copy : Bool) : Bool := copy || alwaysCopies (classOf c tag)

end Sys2Proof.Machine
end

