-- ==== Sys2Proof/Machine/Flags.lean ====
section
/-! DEFINITION. Every flag computation: the degraded-mode flag of the reader (spec/10_state.md R24, R27), the status codes
(spec/60_exceptions.md R340), and the registers of R25 that show flags and state to the host. -/

namespace Sys2Proof.Machine

/-- `BR.eos`: the cursor is past the end of the view (R24, R27, R135). -/
def eosAt (pos len : Nat) : Bool := decide (8 * len < pos)

/-- The status codes (R340). -/
def Status.code : Status → Reg
  | .ok => 0
  | .malformedTable => 1
  | .truncatedStream => 2
  | .duplicateChunk => 3
  | .notFound => 4
  | .unsupportedVersion => 5
  | .allocationFailure => 6
  | .invalidArgument => 7

/-- The number of records in use (R25, R297). -/
def Store.presentCount (m : Store) : Nat := (m.recs.filter fun r => r.present).length

/-- `BR_STAT` (R25): bound, mode, eos in bits 0 to 2. -/
def Reader.stat (r : Reader) : Reg :=
  flagWord r.bound ||| (flagWord (r.mode = .range) <<< 1) ||| (flagWord r.eos <<< 2)

/-- `BW_STAT` (R25): bound, final, err in bits 0 to 2. -/
def Writer.stat (w : Writer) : Reg := flagWord w.bound ||| (flagWord w.final <<< 1) ||| (flagWord w.err <<< 2)

/-- `HUF_VALID` (R25): bit t is the valid flag of slot t. -/
def hufValid (ht : List Slot) : Word := BitVec.ofNat 32 (natOfBits (ht.map fun t => t.valid))

/-- `PTE_DIM` (R25): w in bits 14:0, h in bits 30:16, valid in bit 31. -/
def Image.dimWord (p : Image) : Reg := (flagWord p.valid <<< 31) ||| (p.h.setWidth 64 <<< 16) ||| p.w.setWidth 64

/-- What a read of the register at a byte offset gives (R25): bits not named read as 0, and so do offsets not listed. Reading
changes no state. The registers that can hold an address show their whole width (log 2). DESIGN CHOICE, log 24: `MUX_HEAP`
shows bits 31:0 of the 33 bits of `MUX.heap_used` (R37); R25 does not say what it shows when `HEAP_LIMIT` is 2^32 or more and
bit 32 is set. -/
def State.regRead (s : State) (offset : Word) : Reg :=
  match offset.toNat with
  | 0x00 => s.cmd.setWidth 64
  | 0x04 => s.arg0
  | 0x08 => s.arg1
  | 0x0C => s.arg2
  | 0x10 => s.arg3
  | 0x14 => s.status.code
  | 0x18 => s.res0
  | 0x1C => s.res1
  | 0x20 => s.cfg.abiVersion.setWidth 64
  | 0x24 => s.br.stat
  | 0x28 => s.br.base
  | 0x2C => s.br.len
  | 0x30 => (s.br.pos.extractLsb' 0 32).setWidth 64
  | 0x34 => (s.br.pos.extractLsb' 32 32).setWidth 64
  | 0x38 => s.br.range.setWidth 64
  | 0x3C => s.br.value.setWidth 64
  | 0x40 => s.bw.stat
  | 0x44 => s.bw.base
  | 0x48 => s.bw.cap
  | 0x4C => s.bw.limit
  | 0x50 => (s.bw.pos.extractLsb' 0 32).setWidth 64
  | 0x54 => (s.bw.pos.extractLsb' 32 32).setWidth 64
  | 0x58 => (hufValid s.ht).setWidth 64
  | 0x5C => s.pte.dimWord
  | 0x60 => flagWord s.mux.valid
  | 0x64 => (BitVec.ofNat 32 s.mux.presentCount).setWidth 64
  | 0x68 => (BitVec.ofNat 32 s.mux.frames.length).setWidth 64
  | 0x6C => (s.mux.heapUsed.extractLsb' 0 32).setWidth 64
  | _ => 0

end Sys2Proof.Machine
end

