-- ==== Sys2Proof/Machine/BitReader.lean ====
section
/-! DEFINITION. The bit reader BR: its primitives and its three commands (spec/40_bitreader.md). The primitives take the
stream as a function from bit index to bit, which `State.bitLsb` and `State.bitMsb` give (R133). -/

namespace Sys2Proof.Machine

/-- Bit `k` of the view's byte at an address, as the reader delivers it: the byte's bit, or, where the host has written the
byte since BR.INIT, the old or the new bit (R39, R379, log 6): a free value where they differ. DESIGN CHOICE, log 6: a byte the
host has written and a command of the block then stores over keeps its old values in `stale`, so its bits stay free between
those and the stored one, which R75, R39 and R379 leave open; a byte only the block has stored into reads as new (R75). -/
def State.viewBit (s : State) (a k : Nat) : Bool :=
  if s.br.stale.all fun c => c.1 ≠ a || c.2.getLsbD k == (s.readByte a).getLsbD k then (s.readByte a).getLsbD k
  else Config.staleBit s.tick (8 * a + k)

/-- `br_bit_lsb(i)` (R133, R64): 0 at and past the end. -/
def State.bitLsb (s : State) (i : Nat) : Bool :=
  if i < 8 * s.br.len.toNat then s.viewBit (s.br.base.toNat + i / 8) (i % 8) else false

/-- `br_bit_msb(i)` (R133, R65): 0 at and past the end. -/
def State.bitMsb (s : State) (i : Nat) : Bool :=
  if i < 8 * s.br.len.toNat then s.viewBit (s.br.base.toNat + i / 8) (7 - i % 8) else false

/-- `br_peek(n)` at a position (R134): the first bit is bit 0. -/
def brPeek (bit : Nat → Bool) (pos n : Nat) : Nat := natOfBits ((List.range n).map fun k => bit (pos + k))

/-- The position `n` bits on: it saturates at 2^POSW - 1 (R135). -/
def Reader.posAfter (c : Config) (r : Reader) (n : Nat) : Nat := min (r.pos.toNat + n) (2 ^ c.posw - 1)

/-- `br_skip(n)` (R135), the only thing that moves the cursor. -/
def Reader.skip (c : Config) (r : Reader) (n : Nat) : Reader :=
  { r with pos := BitVec.ofNat 64 (r.posAfter c n), eos := eosAt (r.posAfter c n) r.len.toNat }

/-- `br_read(n)` (R136): the value is taken at the old position. -/
def Reader.read (bit : Nat → Bool) (c : Config) (r : Reader) (n : Nat) : Nat × Reader :=
  (brPeek bit r.pos.toNat n, r.skip c n)

/-- The value `br_pull_msb(n)` gives at a position (R137): the first bit uppermost. -/
def brPull (bit : Nat → Bool) (pos n : Nat) : Nat := (List.range n).foldl (fun v k => 2 * v + (bit (pos + k)).toNat) 0

/-- The view's bytes that hold the stream bits `p ≤ i < q`: none past the end (R133: no byte outside the view is read). -/
def Reader.span (r : Reader) (p q : Nat) : Nat × Nat :=
  if p < min q (8 * r.len.toNat) then
    (r.base.toNat + p / 8, (min q (8 * r.len.toNat) - 1) / 8 + 1 - p / 8)
  else (r.base.toNat, 0)

/-- The reader a BR.INIT binds, before range mode loads its registers (R138). -/
def Reader.bind (mode : ReaderMode) (base len : Reg) : Reader :=
  { Reader.reset with bound := true, mode := mode, base := base, len := len }

/-- BR.INIT (R138, R139). -/
def execBrInit (mode : ReaderMode) (s : State) : Out :=
  if ¬ fits s.cfg s.arg0.toNat s.arg1.toNat then raise s .invalidArgument
  else
    let r := Reader.bind mode s.arg0 s.arg1
    match mode with
    | .plain => succeed { s with br := r } 0 0
    | .range =>
      let v := brPull (State.bitMsb { s with br := r }) 0 8
      let r' := { r.skip s.cfg 8 with range := 254, value := BitVec.ofNat 8 v }
      s.touching [r.span 0 8] (succeed { s with br := r' } 0 (flagWord r'.eos))

/-- BR.READ (R140, R141). -/
def execBrRead (n : BitVec 8) (s : State) : Out :=
  if s.br.bound = false then raise s .invalidArgument
  else if s.br.mode ≠ .plain then raise s .invalidArgument
  else if Config.maxBits < n.toNat then raise s .invalidArgument
  else
    let (v, r) := s.br.read s.bitLsb s.cfg n.toNat
    s.touching [s.br.span s.br.pos.toNat (s.br.pos.toNat + n.toNat)]
      (succeed { s with br := r } (BitVec.ofNat 64 v) (flagWord r.eos))

/-- `NORM_SHIFT` (R145), computed: the left shifts that bring r + 1 into 128..255. -/
def normShift (r : Nat) : Nat :=
  if 127 ≤ r then 0
  else if 63 ≤ r then 1
  else if 31 ≤ r then 2
  else if 15 ≤ r then 3
  else if 7 ≤ r then 4
  else if 3 ≤ r then 5
  else if 1 ≤ r then 6
  else 7

/-- The split of R146, `(range * prob) >> 8`. -/
def boolSplit (range prob : Byte) : Byte := BitVec.ofNat 8 (range.toNat * prob.toNat / 256)

/-- The bit a boolean decode gives, and range and value before renormalisation (R146). -/
def boolDecode (range value prob : Byte) : Bool × Byte × Byte :=
  if boolSplit range prob < value then (true, range - boolSplit range prob - 1, value - boolSplit range prob - 1)
  else (false, boolSplit range prob, value)

/-- The renormalisation of R146: shift range and value left and pull new bits in, when the range is below RANGE_NORM. -/
def renormalise (bit : Nat → Bool) (c : Config) (r : Reader) (range value : Byte) : Reader :=
  if range.toNat < Config.rangeNorm then
    let k := normShift range.toNat
    { r.skip c k with
      range := ((range + 1) <<< k) - 1
      value := (value <<< k) ||| BitVec.ofNat 8 (brPull bit r.pos.toNat k) }
  else { r with range := range, value := value }

/-- BR.GETBOOL (R146, R148, R149). -/
def execBrGetbool (prob : BitVec 8) (s : State) : Out :=
  if s.br.bound = false then raise s .invalidArgument
  else if s.br.mode ≠ .range then raise s .invalidArgument
  else
    let (b, range, value) := boolDecode s.br.range s.br.value prob
    let r := renormalise s.bitMsb s.cfg s.br range value
    s.touching [s.br.span s.br.pos.toNat r.pos.toNat] (succeed { s with br := r } (flagWord b) (flagWord r.eos))

end Sys2Proof.Machine
end

