-- ==== Sys2Proof/Machine/BitWriter.lean ====
section
/-! DEFINITION. The bit writer BW: its three commands (spec/41_bitwriter.md). -/

namespace Sys2Proof.Machine

/-- The writer a BW.INIT binds (R162). -/
def Writer.bind (base cap limit : Reg) : Writer :=
  { Writer.reset with bound := true, base := base, cap := cap, limit := limit }

/-- BW.INIT (R162, R163). It writes no memory; its region holds any value from now on (R30), and an earlier region is given
up with what it held (R80, R163). -/
def execBwInit (s : State) : Out :=
  if ¬ fits s.cfg s.arg0.toNat s.arg2.toNat then raise s .invalidArgument
  else if s.arg2 < s.arg1 then raise s .invalidArgument
  else succeed { s with bw := Writer.bind s.arg0 s.arg1 s.arg2, mem := s.releasedMem } 0 0

/-- The bytes the writer needs once `n` more bits are appended (R165). -/
def Writer.needed (w : Writer) (n : Nat) : Nat := ceilDiv (w.pos.toNat + n) 8

/-- The capacity after growth to `needed` bytes, if growth is needed (R165, R167). -/
def Writer.grownCap (w : Writer) (needed : Nat) : Reg :=
  if w.cap.toNat < needed then BitVec.ofNat 64 (min w.limit.toNat (max (2 * w.cap.toNat) needed)) else w.cap

/-- The low `n` bits of a value, bit 0 first (R165). -/
def lowBits (n : Nat) (v : Reg) : List Bool := (List.range n).map fun k => v.getLsbD k

/-- Append the low `n` bits of a value (R165). -/
def Writer.append (w : Writer) (n : Nat) (v : Reg) : Writer :=
  { w with
    cap := w.grownCap (w.needed n)
    bits := w.bits ++ lowBits n v
    pos := BitVec.ofNat 64 (w.pos.toNat + n) }

/-- BW.PUT (R165, R166, R168). The writer's sticky error comes before the range of the bit count, the order of checks R346
gives every command and R168 and R344 ask for; R165 writes the two lines the other way round (DESIGN CHOICE, log 17). -/
def execBwPut (n : BitVec 8) (s : State) : Out :=
  if s.bw.bound = false then raise s .invalidArgument
  else if s.bw.final then raise s .invalidArgument
  else if s.bw.err then raise s .allocationFailure
  else if Config.maxBits < n.toNat then raise s .invalidArgument
  else if n.toNat = 0 then succeed s 0 0
  else if s.bw.cap.toNat < s.bw.needed n.toNat ∧ s.bw.limit.toNat < s.bw.needed n.toNat then
    raise { s with bw := { s.bw with err := true } } .allocationFailure
  else succeed { s with bw := s.bw.append n.toNat s.arg0 } 0 0

/-- The bytes of a finalised stream (R169): bit i of the stream is bit i mod 8 of byte i / 8, and 0 pads the last byte. -/
def Writer.image (w : Writer) : List Byte :=
  (List.range (ceilDiv w.pos.toNat 8)).map fun j =>
    BitVec.ofNat 8 (natOfBits ((List.range 8).map fun k =>
      if 8 * j + k < w.pos.toNat then w.bits.getD (8 * j + k) false else false))

/-- The bits that pad the last byte (R169). -/
def Writer.padBits (w : Writer) : Nat := (8 - w.pos.toNat % 8) % 8

/-- BW.FINALIZE (R169, R170). -/
def execBwFinalize (s : State) : Out :=
  if s.bw.bound = false then raise s .invalidArgument
  else if s.bw.final then raise s .invalidArgument
  else if s.bw.err then raise s .allocationFailure
  else
    s.touching [(s.bw.base.toNat, ceilDiv s.bw.pos.toNat 8)]
      (succeed { s.storeBytes s.bw.base.toNat s.bw.image with bw := { s.bw with final := true } }
        (BitVec.ofNat 64 (ceilDiv s.bw.pos.toNat 8)) (BitVec.ofNat 64 s.bw.padBits))

end Sys2Proof.Machine
end

