-- ==== Sys2Proof/Machine/Codec.lean ====
section
/-! DEFINITION. The two codec entry points (spec/45_system_codec.md R333 to R336): the argument checks their contracts give,
and then the refusal the rules demand of a model. -/

namespace Sys2Proof.Machine

/-- CODEC.DECODE (R334): its region checks; then its function is open, and the model refuses the command (log 13). -/
def execCodecDecode (s : State) : Out :=
  if ¬ fits s.cfg s.arg0.toNat s.arg1.toNat ∨ ¬ fits s.cfg s.arg2.toNat s.arg3.toNat then raise s .invalidArgument
  else .refused .codecDecodeOpen

/-- CODEC.ENCODE (R335): the image must be set, and its region checks; then its function is open, and the model refuses the
command (log 13). -/
def execCodecEncode (s : State) : Out :=
  if s.pte.valid = false then raise s .invalidArgument
  else if ¬ fits s.cfg s.arg0.toNat (4 * s.imgW * s.imgH) ∨ ¬ fits s.cfg s.arg1.toNat s.arg2.toNat then raise s .invalidArgument
  else .refused .codecEncodeOpen

end Sys2Proof.Machine
end

