-- ==== Sys2Proof/Machine/Huffman.lean ====
section
/-! DEFINITION. The Huffman unit HUF: table construction, symbol decode, and the decoding of a run-length-encoded length
array (spec/42_huffman.md). -/

namespace Sys2Proof.Machine

/-! Canonical codes (R183 to R186). -/

/-- `count[l]` (R183). -/
def lengthCount (lens : List Nat) (l : Nat) : Nat := (lens.filter fun x => x = l).length

/-- The Kraft sum of R183, over the lengths 1 to MAXLEN. -/
def kraftSum (lens : List Nat) : Nat :=
  ((List.range Config.maxLen).map fun k => lengthCount lens (k + 1) * 2 ^ (Config.maxLen - (k + 1))).sum

/-- R183, R184: no length above MAXLEN, and Kraft equality. -/
def validLengths (lens : List Nat) : Bool :=
  lens.all (fun l => decide (l ≤ Config.maxLen)) && kraftSum lens == 2 ^ Config.maxLen

/-- The present symbols with their lengths, sorted by (length, symbol index) (R185). -/
def canonicalOrder (lens : List Nat) : List (Nat × Nat) :=
  (List.range Config.maxLen).flatMap fun k => lens.zipIdx.filter fun e => e.1 = k + 1

/-- A symbol's code word: `code` is a number of `len` bits (R185). -/
structure CodeWord where
  sym : Nat
  len : Nat
  code : Nat
  deriving DecidableEq, Repr

/-- `key(s) = rev_l(code(s))` (R186). -/
def CodeWord.key (w : CodeWord) : Nat := revBits w.len w.code

/-- The codes of the symbols after one whose code and length are given (R185). -/
def codesAfter (code len : Nat) : List (Nat × Nat) → List CodeWord
  | [] => []
  | e :: rest =>
    let c := (code + 1) * 2 ^ (e.1 - len)
    ⟨e.2, e.1, c⟩ :: codesAfter c e.1 rest

/-- R185: the first symbol in the order gets the code of all zeros. -/
def assignCodes : List (Nat × Nat) → List CodeWord
  | [] => []
  | e :: rest => ⟨e.2, e.1, 0⟩ :: codesAfter 0 e.1 rest

/-- The canonical code of a length array (R185). -/
def canonicalCode (lens : List Nat) : List CodeWord := assignCodes (canonicalOrder lens)

/-! The two-level table (R187), with R = ROOT_BITS. -/

/-- The word whose leaf is at root index `i`, if there is one (R187). -/
def rootLeaf (r : Nat) (ws : List CodeWord) (i : Nat) : Option CodeWord :=
  ws.find? fun w => w.len ≤ r && i % 2 ^ w.len == w.key

/-- `S_i`: the words longer than R whose root index is `i` (R187). -/
def subWords (r : Nat) (ws : List CodeWord) (i : Nat) : List CodeWord :=
  ws.filter fun w => r < w.len && w.key % 2 ^ r == i

/-- `w_i`: the index width of the second-level table of `i` (R187). -/
def subWidth (r : Nat) (ws : List CodeWord) (i : Nat) : Nat :=
  ((subWords r ws i).map fun w => w.len - r).foldl max 0

/-- The link indices, in the order of increasing `rev_R` (R187). -/
def linkOrder (r : Nat) (ws : List CodeWord) : List Nat :=
  ((List.range (2 ^ r)).map fun k => revBits r k).filter fun i => (rootLeaf r ws i).isNone

/-- `base_i` (R187). -/
def subBase (r : Nat) (ws : List CodeWord) (i : Nat) : Nat :=
  2 ^ r + (((linkOrder r ws).filter fun j => revBits r j < revBits r i).map fun j => 2 ^ subWidth r ws j).sum

/-- A table entry from numbers (R31). -/
def entryOf (nbits value : Nat) : Entry := ⟨BitVec.ofNat 5 nbits, BitVec.ofNat 16 value⟩

/-- The root entry `i`: a leaf or a link (R187). -/
def rootEntry (r : Nat) (ws : List CodeWord) (i : Nat) : Entry :=
  match rootLeaf r ws i with
  | some w => entryOf w.len w.sym
  | none => entryOf (r + subWidth r ws i) (subBase r ws i)

/-- Entry `j` of the second-level table of `i` (R187). -/
def subEntry (r : Nat) (ws : List CodeWord) (i j : Nat) : Entry :=
  match (subWords r ws i).find? fun w => j % 2 ^ (w.len - r) == (w.key / 2 ^ r) % 2 ^ (w.len - r) with
  | some w => entryOf (w.len - r) w.sym
  | none => entryOf 0 0

/-- The entry array of a code: the root table, then the second-level tables (R187). -/
def tableEntries (r : Nat) (ws : List CodeWord) : List Entry :=
  (List.range (2 ^ r)).map (rootEntry r ws) ++
    (linkOrder r ws).flatMap fun i => (List.range (2 ^ subWidth r ws i)).map (subEntry r ws i)

/-- `build_table(L)` (R183 to R187): `none` is MalformedTable. -/
def buildTable (r : Nat) (lens : List Nat) : Option (List Entry) :=
  if validLengths lens then some (tableEntries r (canonicalCode lens)) else none

/-- `HT[t]` (R31). -/
def State.slot (s : State) (t : Nat) : Slot := s.ht.getD t Slot.reset

/-- Write slot t: no other slot changes (R208). -/
def State.setSlot (s : State) (t : Nat) (x : Slot) : State := { s with ht := s.ht.set t x }

/-- HUF.BUILD (R182). -/
def execHufBuild (slot : BitVec 4) (s : State) : Out :=
  if s.cfg.nt ≤ slot.toNat then raise s .invalidArgument
  else if s.arg1.toNat = 0 ∨ Config.maxSym < s.arg1.toNat then raise s .invalidArgument
  else if ¬ fits s.cfg s.arg0.toNat s.arg1.toNat then raise s .invalidArgument
  else
    s.touching [(s.arg0.toNat, s.arg1.toNat)]
      (match buildTable s.cfg.rootBits (byteNats (s.readBytes s.arg0.toNat s.arg1.toNat)) with
      | none => raise (s.setSlot slot.toNat { s.slot slot.toNat with valid := false }) .malformedTable
      | some es =>
        succeed (s.setSlot slot.toNat { valid := true, size := BitVec.ofNat 17 es.length, entries := es })
          (BitVec.ofNat 64 es.length) 0)

/-! Symbol decode (R192). -/

/-- What one `huf_decode` gives: the symbol, the bits it used, the reader after it, and the first bit index it did not peek
at. -/
structure Decoded where
  sym : Nat
  used : Nat
  reader : Reader
  reach : Nat
  deriving DecidableEq, Repr

/-- Entry `i` of a table. R187 keeps every index in the table; beyond it an empty entry (log 18). -/
def entryAt (es : List Entry) (i : Nat) : Entry := es.getD i (entryOf 0 0)

/-- `huf_decode(T)` (R192). -/
def hufDecode (bit : Nat → Bool) (c : Config) (es : List Entry) (br : Reader) : Decoded :=
  let r := c.rootBits
  let e := entryAt es (brPeek bit br.pos.toNat r)
  if r < e.nbits.toNat then
    let br1 := br.skip c r
    let w := e.nbits.toNat - r
    let e2 := entryAt es (e.value.toNat + brPeek bit br1.pos.toNat w)
    { sym := e2.value.toNat, used := r + e2.nbits.toNat, reader := br1.skip c e2.nbits.toNat, reach := br1.pos.toNat + w }
  else
    { sym := e.value.toNat, used := e.nbits.toNat, reader := br.skip c e.nbits.toNat, reach := br.pos.toNat + r }

/-- HUF.DECODE (R191). -/
def execHufDecode (slot : BitVec 4) (s : State) : Out :=
  if s.cfg.nt ≤ slot.toNat then raise s .invalidArgument
  else if s.br.bound = false ∨ s.br.mode ≠ .plain then raise s .invalidArgument
  else if (s.slot slot.toNat).valid = false then raise s .invalidArgument
  else
    let d := hufDecode s.bitLsb s.cfg (s.slot slot.toNat).entries s.br
    s.touching [s.br.span s.br.pos.toNat d.reach]
      (succeed { s with br := d.reader } (BitVec.ofNat 64 d.sym) (BitVec.ofNat 64 d.used))

/-! The length array description (R199 to R206). -/

/-- `ORDER` (R200). -/
def clOrder : List Nat := [17, 18, 0, 1, 2, 3, 4, 5, 16, 6, 7, 8, 9, 10, 11, 12, 13, 14, 15]

/-- Read one 3-bit length for each code-length symbol named (R201). -/
def readClLengths (bit : Nat → Bool) (c : Config) : List Nat → Reader → List (Nat × Nat) × Reader
  | [], br => ([], br)
  | sym :: rest, br =>
    let (v, br1) := br.read bit c 3
    let (tail, br2) := readClLengths bit c rest br1
    ((sym, v) :: tail, br2)

/-- `CL[0..18]`: a code-length symbol not transmitted has length 0 (R201). -/
def clLengths (got : List (Nat × Nat)) : List Nat :=
  (List.range Config.clAlphabet).map fun sym => ((got.find? fun e => e.1 = sym).map fun e => e.2).getD 0

/-- The second pass as it runs: the reader, the lengths filled so far, the last non-zero length, the tokens decoded, and the
first bit index not yet peeked at. -/
structure LengthRun where
  reader : Reader
  out : List Nat
  prev : Nat
  tokens : Nat
  reach : Nat
  deriving DecidableEq, Repr

/-- The extra bits, the offset and the repeated value of the tokens 16, 17 and 18 (R204). -/
def runToken (sym prev : Nat) : Nat × Nat × Nat :=
  if sym = 16 then (2, 3, prev) else if sym = 17 then (3, 3, 0) else (7, 11, 0)

/-- The second pass (R204): at most `limit` tokens, until `n` lengths are filled; `false` when a run would pass `n`. -/
def lengthTokens (bit : Nat → Bool) (c : Config) (es : List Entry) (n : Nat) : Nat → LengthRun → LengthRun × Bool
  | 0, run => (run, true)
  | limit + 1, run =>
    if run.out.length < n then
      let d := hufDecode bit c es run.reader
      let reach := max run.reach d.reach
      if d.sym < 16 then
        lengthTokens bit c es n limit
          { reader := d.reader, out := run.out ++ [d.sym], prev := if d.sym = 0 then run.prev else d.sym,
            tokens := run.tokens + 1, reach := reach }
      else
        let (xb, off, val) := runToken d.sym run.prev
        let (x, br) := d.reader.read bit c xb
        if n < run.out.length + (off + x) then
          ({ run with reader := br, tokens := run.tokens + 1, reach := reach }, false)
        else
          lengthTokens bit c es n limit
            { reader := br, out := run.out ++ List.replicate (off + x) val, prev := run.prev,
              tokens := run.tokens + 1, reach := reach }
    else (run, true)

/-- How a description ends: the reader after it, the first bit index not peeked at, and the lengths with the number of
tokens; `none` is MalformedTable. -/
structure Description where
  reader : Reader
  reach : Nat
  lengths : Option (List Nat × Nat)
  deriving DecidableEq, Repr

/-- The token limit (R203): the reader after it and `max_symbol`; `none` when it is above `n`. -/
def readTokenLimit (bit : Nat → Bool) (c : Config) (n : Nat) (br : Reader) : Reader × Option Nat :=
  let (flag, br1) := br.read bit c 1
  if flag = 1 then
    let (x, br2) := br1.read bit c 3
    let (y, br3) := br2.read bit c (2 + 2 * x)
    (br3, if n < 2 + y then none else some (2 + y))
  else (br1, some n)

/-- R199 up to its end or its `fail`: lengths not reached are 0 (R204). -/
def readDescription (bit : Nat → Bool) (c : Config) (n : Nat) (br : Reader) : Description :=
  let (count, br1) := br.read bit c 4
  let (got, br2) := readClLengths bit c (clOrder.take (4 + count)) br1
  match buildTable c.rootBits (clLengths got) with
  | none => { reader := br2, reach := br2.pos.toNat, lengths := none }
  | some es =>
    match readTokenLimit bit c n br2 with
    | (br3, none) => { reader := br3, reach := br3.pos.toNat, lengths := none }
    | (br3, some limit) =>
      match lengthTokens bit c es n limit
          { reader := br3, out := [], prev := 8, tokens := 0, reach := br3.pos.toNat } with
      | (run, false) => { reader := run.reader, reach := max run.reach run.reader.pos.toNat, lengths := none }
      | (run, true) =>
        { reader := run.reader, reach := max run.reach run.reader.pos.toNat
          lengths := some (run.out ++ List.replicate (n - run.out.length) 0, run.tokens) }

/-- HUF.READLENGTHS (R199, R205). -/
def execHufReadlengths (s : State) : Out :=
  if s.br.bound = false ∨ s.br.mode ≠ .plain then raise s .invalidArgument
  else if s.arg1.toNat = 0 ∨ Config.maxSym < s.arg1.toNat then raise s .invalidArgument
  else if ¬ fits s.cfg s.arg0.toNat s.arg1.toNat then raise s .invalidArgument
  else
    let d := readDescription s.bitLsb s.cfg s.arg1.toNat s.br
    let t := { s with br := d.reader }
    s.touching [s.br.span s.br.pos.toNat d.reach]
      (if d.reader.eos then raise t .truncatedStream
      else match d.lengths with
        | none => raise t .malformedTable
        | some (out, tokens) =>
          s.touching [(s.arg0.toNat, s.arg1.toNat)]
            (succeed (t.storeBytes s.arg0.toNat (out.map fun l => BitVec.ofNat 8 l))
              (BitVec.ofNat 64 tokens) (flagWord d.reader.eos)))

end Sys2Proof.Machine
end

