-- ==== Sys2Proof/Machine/Mux.lean ====
section
/-! DEFINITION. The chunk store and multiplexer MUX: allocation, routing, validation, serialisation and the nine commands
(spec/44_chunkstore_mux.md). -/

namespace Sys2Proof.Machine

/-! Records (R279, R281). -/

/-- `record[i]` (R34); an index outside the arena names an absent record. -/
def Store.record (m : Store) (i : Nat) : ChunkRec := m.recs.getD i ChunkRec.reset

/-- The lowest index of an absent record (R279). -/
def Store.freeIndex (m : Store) : Option Nat := m.recs.findIdx? fun r => !r.present

/-- `release(i)` (R279). -/
def Store.release (m : Store) (i : Nat) : Store :=
  let r := m.record i
  { m with
    recs := m.recs.set i { r with present := false }
    heapUsed := if r.owner then BitVec.ofNat 33 (m.heapUsed.toNat - r.len.toNat) else m.heapUsed }

/-- Release several records, one after the other. -/
def Store.releaseAll (m : Store) (is : List Nat) : Store := is.foldl Store.release m

/-- Release every present record, with all lists and frames empty (R276, R278, R300). -/
def Store.emptied (m : Store) (valid : Bool) : Store :=
  { valid := valid, recs := m.recs.map fun r => { r with present := false }, dim := [], icc := [], anim := [],
    exif := [], xmp := [], unknown := [], frames := [], heapUsed := 0 }

/-- What a MUX.SET, MUX.PUSH or MUX.PARSE brings in: the operands of `alloc` and the payload's bytes at this time (R279). -/
structure Incoming where
  tag : Word
  addr : Addr
  len : Word
  copy : Bool
  payload : List Byte
  deriving DecidableEq, Repr

/-- The record `alloc` makes (R279): a private copy, or a borrow. The field that means nothing is empty (log 12). -/
def Incoming.record (c : Config) (x : Incoming) : ChunkRec :=
  if ownsCopy c x.tag x.copy then
    { present := true, tag := x.tag, owner := true, addr := 0, len := x.len, data := x.payload }
  else { present := true, tag := x.tag, owner := false, addr := x.addr, len := x.len, data := [] }

/-- `alloc(tag, addr, len, copy)` (R279). -/
def Store.alloc (c : Config) (m : Store) (x : Incoming) : Except Status (Nat × Store) :=
  match m.freeIndex with
  | none => .error .allocationFailure
  | some i =>
    if ownsCopy c x.tag x.copy then
      if c.heapLimit < m.heapUsed.toNat + x.len.toNat then .error .allocationFailure
      else .ok (i, { m with
        recs := m.recs.set i (x.record c)
        heapUsed := BitVec.ofNat 33 (m.heapUsed.toNat + x.len.toNat) })
    else .ok (i, { m with recs := m.recs.set i (x.record c) })

/-! Lists and frames (R36). -/

/-- The empty frame. -/
def Frame.empty : Frame := { hdr := none, alpha := none, img := none, unk := [] }

/-- Whether a frame holds nothing (R289). -/
def Frame.isEmpty (f : Frame) : Bool := f.hdr.isNone && f.alpha.isNone && f.img.isNone && f.unk.isEmpty

/-- A frame's records in the order of R296. -/
def Frame.walk (f : Frame) : List Nat := f.hdr.toList ++ f.alpha.toList ++ f.img.toList ++ f.unk

/-- The serialisation order of the records (R296), also the search order of MUX.GET. -/
def Store.walk (m : Store) : List Nat :=
  m.dim ++ m.icc ++ m.anim ++ m.exif ++ m.xmp ++ m.unknown ++ m.frames.flatMap Frame.walk

/-- `MUX.list[c]` for a store-level class; the frame classes have no such list (R36). -/
def Store.list (m : Store) : ChunkClass → List Nat
  | .dim => m.dim
  | .icc => m.icc
  | .anim => m.anim
  | .exif => m.exif
  | .xmp => m.xmp
  | .unknown => m.unknown
  | .frmh | .alpha | .image => []

/-- Replace `MUX.list[c]`. -/
def Store.setList (m : Store) (c : ChunkClass) (l : List Nat) : Store :=
  match c with
  | .dim => { m with dim := l }
  | .icc => { m with icc := l }
  | .anim => { m with anim := l }
  | .exif => { m with exif := l }
  | .xmp => { m with xmp := l }
  | .unknown => { m with unknown := l }
  | .frmh | .alpha | .image => m

/-- Change the last frame, if there is one (R291). -/
def Store.mapLast (m : Store) (f : Frame → Frame) : Store :=
  { m with frames := match m.frames.reverse with
    | [] => []
    | last :: before => (f last :: before).reverse }

/-- The last frame (R291). -/
def Store.lastFrame (m : Store) : Option Frame := m.frames.getLast?

/-- `new_frame()` (R291), with the frame the caller fills in. -/
def Store.newFrame (c : Config) (m : Store) (x : Incoming) (fill : Nat → Frame) : Except Status (Nat × Store) :=
  if c.nframe ≤ m.frames.length then .error .allocationFailure
  else
    match m.alloc c x with
    | .error e => .error e
    | .ok (i, m') => .ok (i, { m' with frames := m'.frames ++ [fill i] })

/-- Allocate a record and put it in its place (R291). -/
def Store.place (c : Config) (m : Store) (x : Incoming) (put : Nat → Store → Store) : Except Status (Nat × Store) :=
  match m.alloc c x with
  | .error e => .error e
  | .ok (i, m') => .ok (i, put i m')

/-- Insert a singleton chunk (R291): a second one is DuplicateChunk. -/
def Store.insertSingleton (c : Config) (m : Store) (k : ChunkClass) (x : Incoming) : Except Status (Nat × Store) :=
  if m.list k ≠ [] then .error .duplicateChunk else m.place c x fun i m' => m'.setList k [i]

/-- Insert an ALPHA chunk (R291). -/
def Store.insertAlpha (c : Config) (m : Store) (x : Incoming) : Except Status (Nat × Store) :=
  match m.lastFrame with
  | some last =>
    if last.img.isNone then
      if last.alpha.isSome then .error .duplicateChunk
      else m.place c x fun i m' => m'.mapLast fun f => { f with alpha := some i }
    else m.newFrame c x fun i => { Frame.empty with alpha := some i }
  | none => m.newFrame c x fun i => { Frame.empty with alpha := some i }

/-- Insert an IMAGE chunk (R291). -/
def Store.insertImage (c : Config) (m : Store) (x : Incoming) : Except Status (Nat × Store) :=
  match m.lastFrame with
  | some last =>
    if last.img.isNone then m.place c x fun i m' => m'.mapLast fun f => { f with img := some i }
    else m.newFrame c x fun i => { Frame.empty with img := some i }
  | none => m.newFrame c x fun i => { Frame.empty with img := some i }

/-- Insert an UNKNOWN chunk (R291): in the store before the first frame, in the last frame after. -/
def Store.insertUnknown (c : Config) (m : Store) (x : Incoming) : Except Status (Nat × Store) :=
  m.place c x fun i m' =>
    if m'.frames = [] then { m' with unknown := m'.unknown ++ [i] }
    else m'.mapLast fun f => { f with unk := f.unk ++ [i] }

/-- `route(tag, addr, len, copy)` (R291): any failure leaves the store as it was. -/
def Store.route (c : Config) (m : Store) (x : Incoming) : Except Status (Nat × Store) :=
  match classOf c x.tag with
  | .dim => m.insertSingleton c .dim x
  | .icc => m.insertSingleton c .icc x
  | .anim => m.insertSingleton c .anim x
  | .exif => m.insertSingleton c .exif x
  | .xmp => m.insertSingleton c .xmp x
  | .frmh => m.newFrame c x fun i => { Frame.empty with hdr := some i }
  | .alpha => m.insertAlpha c x
  | .image => m.insertImage c x
  | .unknown => m.insertUnknown c x

/-- `validate()` (R295): `false` is NotFound. -/
def Store.complete (m : Store) : Bool :=
  !m.frames.isEmpty && m.frames.all (fun f => f.img.isSome) &&
    (!(decide (1 < m.frames.length) || !m.icc.isEmpty || !m.anim.isEmpty || !m.exif.isEmpty || !m.xmp.isEmpty) ||
      !m.dim.isEmpty)

/-! Payloads and chunks (R35, R105). -/

/-- The payload of a record (R35): the private copy, or the borrowed bytes as they are now. -/
def State.payload (s : State) (r : ChunkRec) : List Byte :=
  if r.owner then r.data else s.readBytes r.addr.toNat r.len.toNat

/-- The memory a payload is read from: none when owned (R62). -/
def ChunkRec.span (r : ChunkRec) : Nat × Nat := (r.addr.toNat, if r.owner then 0 else r.len.toNat)

/-- A payload length with its pad byte (R105). -/
def paddedLen (n : Nat) : Nat := n + n % 2

/-- The serialised form of one chunk (R105, R297). -/
def State.chunkBytes (s : State) (r : ChunkRec) : List Byte :=
  bytesOfNat 4 r.tag.toNat ++ bytesOfNat 4 r.len.toNat ++ s.payload r ++ List.replicate (r.len.toNat % 2) 0

/-- The serialised size of the store (R297). -/
def Store.serialSize (m : Store) : Nat :=
  ((m.recs.filter fun r => r.present).map fun r => 8 + paddedLen r.len.toNat).sum

/-- The serialised stream (R297). -/
def State.serialised (s : State) : List Byte := s.mux.walk.flatMap fun i => s.chunkBytes (s.mux.record i)

/-- What comes in from a tag, an address, a length and a copy flag (R279): the payload is read now if it is copied, and not at
all if it is borrowed (R62, R75). -/
def State.incoming (s : State) (tag : Word) (addr : Addr) (len : Word) (copy : Bool) : Incoming :=
  { tag := tag, addr := addr, len := len, copy := copy
    payload := if ownsCopy s.cfg tag copy then s.readBytes addr.toNat len.toNat else [] }

/-- The memory an insertion reads: the payload if it is copied, nothing if it is borrowed (R62). -/
def Incoming.span (c : Config) (x : Incoming) : Nat × Nat :=
  (x.addr.toNat, if ownsCopy c x.tag x.copy then x.len.toNat else 0)

/-! The commands. -/

/-- MUX.NEW (R275, R276). -/
def execMuxNew (s : State) : Out :=
  if s.arg0 ≠ s.cfg.abiVersion.setWidth 64 then raise s .unsupportedVersion
  else succeed { s with mux := s.mux.emptied true } 0 0

/-- MUX.DESTROY (R278). -/
def execMuxDestroy (s : State) : Out :=
  if s.mux.valid = false then raise s .invalidArgument
  else succeed { s with mux := s.mux.emptied false } 0 0

/-- The chunks a MUX.SET of a tag replaces (R282). -/
def Store.replacedBy (c : Config) (m : Store) (tag : Word) : List Nat :=
  match classOf c tag with
  | .unknown => m.unknown.filter fun i => (m.record i).tag = tag
  | k => m.list k

/-- The owned bytes of several records (R282). -/
def Store.ownedBytes (m : Store) (is : List Nat) : Nat :=
  ((is.filter fun i => (m.record i).owner).map fun i => (m.record i).len.toNat).sum

/-- The store after a MUX.SET whose checks passed (R282): the old chunks leave and are released, then the new one is allocated
and appended. -/
def Store.replace (c : Config) (m : Store) (x : Incoming) : Except Status (Nat × Store) :=
  let k := classOf c x.tag
  let old := m.replacedBy c x.tag
  let m1 := (m.setList k ((m.list k).filter fun i => !old.contains i)).releaseAll old
  m1.place c x fun i m' => m'.setList k (m'.list k ++ [i])

/-- MUX.SET (R282, R283). -/
def execMuxSet (copy : Bool) (s : State) : Out :=
  let old := s.mux.replacedBy s.cfg s.tagOperand
  let x := s.incoming s.tagOperand s.arg1 s.lenOperand copy
  if s.mux.valid = false then raise s .invalidArgument
  else if ¬ fits s.cfg s.arg1.toNat s.lenOperand.toNat then raise s .invalidArgument
  else if frameClass (classOf s.cfg s.tagOperand) then raise s .invalidArgument
  else if old = [] ∧ s.mux.freeIndex = none then raise s .allocationFailure
  else if ownsCopy s.cfg s.tagOperand copy ∧
      s.cfg.heapLimit < s.mux.heapUsed.toNat - s.mux.ownedBytes old + s.lenOperand.toNat then raise s .allocationFailure
  else
    s.touching [x.span s.cfg]
      (match s.mux.replace s.cfg x with
      | .error e => raise s e
      | .ok (i, m) => succeed { s with mux := m } (BitVec.ofNat 64 i) 0)

/-- The records with a tag, in the order of R296 (R286, R289). -/
def Store.withTag (m : Store) (tag : Word) : List Nat :=
  m.walk.filter fun i => (m.record i).present && (m.record i).tag == tag

/-- MUX.GET (R286). -/
def execMuxGet (s : State) : Out :=
  if s.mux.valid = false then raise s .invalidArgument
  else if s.arg1.toNat = 0 then raise s .invalidArgument
  else
    match (s.mux.withTag s.tagOperand)[s.arg1.toNat - 1]? with
    | none => raise s .notFound
    | some i => succeed s (BitVec.ofNat 64 i) ((s.mux.record i).len.setWidth 64)

/-- Take records out of an optional frame field (R289). -/
def withoutOpt (d : List Nat) (o : Option Nat) : Option Nat := o.filter fun i => !d.contains i

/-- Take records out of a list (R289). -/
def withoutList (d l : List Nat) : List Nat := l.filter fun i => !d.contains i

/-- Take records out of a frame (R289). -/
def Frame.without (d : List Nat) (f : Frame) : Frame :=
  { hdr := withoutOpt d f.hdr, alpha := withoutOpt d f.alpha, img := withoutOpt d f.img, unk := withoutList d f.unk }

/-- Take records out of every list and frame, and drop the frames left empty (R289); the records stay present. -/
def Store.unlink (m : Store) (d : List Nat) : Store :=
  { m with
    dim := withoutList d m.dim, icc := withoutList d m.icc, anim := withoutList d m.anim, exif := withoutList d m.exif
    xmp := withoutList d m.xmp, unknown := withoutList d m.unknown
    frames := (m.frames.map (Frame.without d)).filter fun f => !f.isEmpty }

/-- MUX.DELETE (R289). -/
def execMuxDelete (s : State) : Out :=
  let d := s.mux.withTag s.tagOperand
  if s.mux.valid = false then raise s .invalidArgument
  else if d = [] then raise s .notFound
  else succeed { s with mux := (s.mux.unlink d).releaseAll d } (BitVec.ofNat 64 d.length) 0

/-- MUX.PUSH (R292, R293). -/
def execMuxPush (copy : Bool) (s : State) : Out :=
  let x := s.incoming s.tagOperand s.arg1 s.lenOperand copy
  if s.mux.valid = false then raise s .invalidArgument
  else if ¬ fits s.cfg s.arg1.toNat s.lenOperand.toNat then raise s .invalidArgument
  else
    match s.mux.route s.cfg x with
    | .error e => raise s e
    | .ok (i, m) =>
      s.touching [x.span s.cfg]
        (succeed { s with mux := m } (BitVec.ofNat 64 i) (BitVec.ofNat 64 m.frames.length))

/-- MUX.ASSEMBLE (R297). -/
def execMuxAssemble (s : State) : Out :=
  if s.mux.valid = false then raise s .invalidArgument
  else if ¬ fits s.cfg s.arg0.toNat s.arg1.toNat then raise s .invalidArgument
  else if s.mux.complete = false then raise s .notFound
  else if s.arg1.toNat < s.mux.serialSize then raise s .allocationFailure
  else
    s.touching (s.mux.walk.map (fun i => (s.mux.record i).span) ++ [(s.arg0.toNat, s.mux.serialSize)])
      (succeed (s.storeBytes s.arg0.toNat s.serialised) (BitVec.ofNat 64 s.mux.serialSize)
        (BitVec.ofNat 64 s.mux.presentCount))

/-- The tag of the chunk whose header is at an address (R105, R300). -/
def State.headerTag (s : State) (a : Nat) : Word := BitVec.ofNat 32 (s.readNat a 4)

/-- The declared length of the chunk whose header is at an address (R105, R300). -/
def State.headerLen (s : State) (a : Nat) : Word := BitVec.ofNat 32 (s.readNat (a + 4) 4)

/-- The chunk whose header is at an address, its payload right after it (R105, R300). DESIGN CHOICE, log 23: the payload
address of an empty chunk that ends at 2^AW is 2^AW, one more than the AW bits of the field `addr` (R34) can hold; R10, R34 and
R300 do not say what the field then holds. The model keeps the address whole, and no byte is ever read there. -/
def State.chunkAt (s : State) (a : Nat) (copy : Bool) : Incoming :=
  s.incoming (s.headerTag a) (BitVec.ofNat 64 (a + 8)) (s.headerLen a) copy

/-- How a walk over a container ends: the store and the number of chunks, or the error; and the memory it read. -/
structure ParseRun where
  result : Except Status (Store × Nat)
  spans : List (Nat × Nat)

/-- The walk of MUX.PARSE from an offset, with the chunks seen and the memory read so far (R300). Each chunk takes at least 8
bytes, so `len / 8 + 1` rounds are enough. -/
def State.parseFrom (s : State) (src len : Nat) (copy : Bool) : Nat → Nat → Store → Nat → List (Nat × Nat) → ParseRun
  | 0, _, m, n, spans => { result := .ok (m, n), spans := spans }
  | fuel + 1, off, m, n, spans =>
    if len ≤ off then { result := .ok (m, n), spans := spans }
    else if len - off < 8 then { result := .error .truncatedStream, spans := spans }
    else if len - off - 8 < paddedLen (s.headerLen (src + off)).toNat then
      { result := .error .truncatedStream, spans := spans ++ [(src + off, 8)] }
    else
      match m.route s.cfg (s.chunkAt (src + off) copy) with
      | .error e => { result := .error e, spans := spans ++ [(src + off, 8)] }
      | .ok (_, m') =>
        s.parseFrom src len copy fuel (off + 8 + paddedLen (s.headerLen (src + off)).toNat) m' (n + 1)
          (spans ++ [(src + off, 8), (s.chunkAt (src + off) copy).span s.cfg])

/-- MUX.PARSE (R300, R301): once the version check has passed the old store is gone, and every later error leaves a valid,
empty store. DESIGN CHOICE, log 12: on such an error the records, all absent, have the other fields they had before the
command, those of the records the command had made too; the release of R279 clears `present` alone, and R372 and U10 leave the
other fields of an absent record unspecified. No command or register shows them. -/
def execMuxParse (copy : Bool) (s : State) : Out :=
  if ¬ fits s.cfg s.arg0.toNat s.arg1.toNat then raise s .invalidArgument
  else if s.arg2 ≠ s.cfg.abiVersion.setWidth 64 then raise s .unsupportedVersion
  else
    let m0 := s.mux.emptied true
    let run := s.parseFrom s.arg0.toNat s.arg1.toNat copy (s.arg1.toNat / 8 + 1) 0 m0 0 []
    s.touching run.spans
      (match run.result with
      | .error e => raise { s with mux := m0 } e
      | .ok (m, n) =>
        if m.complete = false then raise { s with mux := m0 } .notFound
        else succeed { s with mux := m } (BitVec.ofNat 64 n) (BitVec.ofNat 64 m.frames.length))

/-- MUX.FETCH (R288). -/
def execMuxFetch (s : State) : Out :=
  let r := s.mux.record s.arg0.toNat
  if s.mux.valid = false then raise s .invalidArgument
  else if s.cfg.nchunk ≤ s.arg0.toNat then raise s .invalidArgument
  else if r.present = false then raise s .notFound
  else if ¬ fits s.cfg s.arg1.toNat r.len.toNat then raise s .invalidArgument
  else
    s.touching [r.span, (s.arg1.toNat, r.len.toNat)]
      (succeed (s.storeBytes s.arg1.toNat (s.payload r)) (r.len.setWidth 64) 0)

end Sys2Proof.Machine
end

