-- ==== Sys2Proof/Machine/Pixels.lean ====
section
/-! DEFINITION. The pixel transform engine PTE: PTE.SETIMG and the eight transform commands (spec/43_pixel_transforms.md). -/

namespace Sys2Proof.Machine

/-- PTE.SETIMG (R222). -/
def execPteSetimg (s : State) : Out :=
  if s.arg0.toNat = 0 ∨ Config.maxDim < s.arg0.toNat ∨ s.arg1.toNat = 0 ∨ Config.maxDim < s.arg1.toNat then
    raise s .invalidArgument
  else succeed { s with pte := { valid := true, w := s.arg0.setWidth 15, h := s.arg1.setWidth 15 } } 0 0

/-- The common part of the transform commands (R223): the image must be set, every region must fit, the inputs must pass the
command's own check, and only then is the output written. All of `out` is computed from the state before the write (R72). -/
def State.transform (s : State) (reads : List (Nat × Nat)) (dst : Nat × Nat) (inputsOk : Bool) (out : List Byte)
    (r0 r1 : Reg) : Out :=
  if s.pte.valid = false then raise s .invalidArgument
  else if (reads ++ [dst]).any (fun p => ! fits s.cfg p.1 p.2) then raise s .invalidArgument
  else
    s.touching reads
      (if inputsOk = false then raise s .invalidArgument
      else s.touching [dst] (succeed (s.storeBytes dst.1 out) r0 r1))

/-- The source image of a transform: the snapshot `in` (R223). -/
def State.srcImage (s : State) : List Word := s.readPixels s.arg0.toNat (s.imgW * s.imgH)

/-! Pixel arithmetic (R224 to R228). -/

/-- `add_px` (R224): modulo 256 in each channel. -/
def addPx (p q : Word) : Word := perChannel (fun a b => a + b) p q
/-- `sub_px` (R224): modulo 256 in each channel. -/
def subPx (p q : Word) : Word := perChannel (fun a b => a - b) p q

/-- `Average2` (R225): rounds down. -/
def average2 (p q : Word) : Word := perChannel (fun a b => BitVec.ofNat 8 ((a.toNat + b.toNat) / 2)) p q
/-- `Average3` (R226). -/
def average3 (p q r : Word) : Word := average2 (average2 p r) q
/-- `Average4` (R226). -/
def average4 (p q r t : Word) : Word := average2 (average2 p q) (average2 r t)

/-- `abs(a - b)` of two channel values. -/
def chDiff (a b : Byte) : Nat := ((a.toNat : Int) - (b.toNat : Int)).natAbs

/-- The sum of the absolute channel differences of two pixels (R227). -/
def pixelDistance (p q : Word) : Nat :=
  chDiff (chA p) (chA q) + chDiff (chR p) (chR q) + chDiff (chG p) (chG q) + chDiff (chB p) (chB q)

/-- `Select(L, T, TL)` (R227): a tie returns T. -/
def select (l t tl : Word) : Word := if pixelDistance t tl < pixelDistance l tl then l else t

/-- `clamp255` (R228). -/
def clamp255 (v : Int) : Byte := if v < 0 then 0 else if 255 < v then 255 else BitVec.ofInt 8 v

/-- `ClampedAddSubtractFull`, one channel (R228). -/
def clampFull (p q r : Byte) : Byte := clamp255 ((p.toNat : Int) + q.toNat - r.toNat)
/-- `ClampedAddSubtractHalf`, one channel: the half rounds toward zero (R228). -/
def clampHalf (p q : Byte) : Byte := clamp255 ((p.toNat : Int) + Int.tdiv ((p.toNat : Int) - q.toNat) 2)

/-- `ClampedAddSubtractFull(p, q, r)` (R228). -/
def clampedAddSubtractFull (p q r : Word) : Word :=
  argb (clampFull (chA p) (chA q) (chA r)) (clampFull (chR p) (chR q) (chR r)) (clampFull (chG p) (chG q) (chG r))
    (clampFull (chB p) (chB q) (chB r))
/-- `ClampedAddSubtractHalf(p, q)` (R228). -/
def clampedAddSubtractHalf (p q : Word) : Word := perChannel clampHalf p q

/-! Prediction (R230 to R233). -/

/-- `P(mode; L, T, TL, TR)` (R230). A mode above 13 never reaches it: R233 refuses it first (log 18: black). -/
def predict (mode : Nat) (l t tl tr : Word) : Word :=
  match mode with
  | 0 => blackPixel
  | 1 => l
  | 2 => t
  | 3 => tr
  | 4 => tl
  | 5 => average3 l t tr
  | 6 => average2 l tl
  | 7 => average2 l t
  | 8 => average2 tl t
  | 9 => average2 t tr
  | 10 => average4 l tl t tr
  | 11 => select l t tl
  | 12 => clampedAddSubtractFull l t tl
  | 13 => clampedAddSubtractHalf (average2 l t) tl
  | _ => blackPixel

/-- TR of a pixel (R231); at the right edge it is the first pixel of the current row (R232). -/
def topRight (w : Nat) (img : List Word) (x y : Nat) : Word :=
  if x + 1 = w then pixelAt w img 0 y else pixelAt w img (x + 1) (y - 1)

/-- `pred(img, mode, x, y)` with the boundary fallbacks (R231). -/
def predAt (w : Nat) (img : List Word) (mode x y : Nat) : Word :=
  if x = 0 ∧ y = 0 then blackPixel
  else if y = 0 then pixelAt w img (x - 1) y
  else if x = 0 then pixelAt w img x (y - 1)
  else predict mode (pixelAt w img (x - 1) y) (pixelAt w img x (y - 1)) (pixelAt w img (x - 1) (y - 1))
    (topRight w img x y)

/-- The mode array as read (R233). -/
def State.modes (s : State) (tb : Nat) : List Nat := byteNats (s.readBytes s.arg2.toNat (s.tiles tb))

/-- `mode(x, y)` (R233). -/
def modeAt (modes : List Nat) (w tb x y : Nat) : Nat := modes.getD (tileOf w tb x y) 0

/-- R233: every byte of the mode array is one of the 14 modes. -/
def modesLegal (modes : List Nat) : Bool := modes.all fun m => decide (m < Config.nPred)

/-- The residual image of the forward predictor (R236): every prediction is made from the input. -/
def predForward (w h tb : Nat) (modes : List Nat) (img : List Word) : List Word :=
  raster w h fun x y => subPx (pixelAt w img x y) (predAt w img (modeAt modes w tb x y) x y)

/-- The first `n` pixels in raster order of the image the inverse predictor reconstructs (R237): every prediction is made
from the pixels reconstructed before. -/
def predRebuild (w tb : Nat) (modes : List Nat) (res : List Word) : Nat → List Word
  | 0 => []
  | n + 1 =>
    let done := predRebuild w tb modes res n
    done ++ [addPx (pixelAt w res (n % w) (n / w)) (predAt w done (modeAt modes w tb (n % w) (n / w)) (n % w) (n / w))]

/-- The image of the inverse predictor (R237). -/
def predInverse (w h tb : Nat) (modes : List Nat) (res : List Word) : List Word := predRebuild w tb modes res (w * h)

/-- PTE.PRED.FWD (R236). -/
def execPtePredFwd (tileBits : BitVec 4) (s : State) : Out :=
  s.transform [s.imageSpan s.arg0, s.modeSpan s.arg2 tileBits.toNat] (s.imageSpan s.arg1) (modesLegal (s.modes tileBits.toNat))
    (pixelBytes (predForward s.imgW s.imgH tileBits.toNat (s.modes tileBits.toNat) s.srcImage)) 0 0

/-- PTE.PRED.INV (R237). -/
def execPtePredInv (tileBits : BitVec 4) (s : State) : Out :=
  s.transform [s.imageSpan s.arg0, s.modeSpan s.arg2 tileBits.toNat] (s.imageSpan s.arg1) (modesLegal (s.modes tileBits.toNat))
    (pixelBytes (predInverse s.imgW s.imgH tileBits.toNat (s.modes tileBits.toNat) s.srcImage)) 0 0

/-! Subtract green (R240, R241). -/

/-- The forward transform of a pixel (R240). -/
def subGreen (p : Word) : Word := argb (chA p) (chR p - chG p) (chG p) (chB p - chG p)
/-- The inverse transform of a pixel (R241). -/
def addGreen (p : Word) : Word := argb (chA p) (chR p + chG p) (chG p) (chB p + chG p)

/-- PTE.SUBG.FWD (R240). -/
def execPteSubgFwd (s : State) : Out :=
  s.transform [s.imageSpan s.arg0] (s.imageSpan s.arg1) true (pixelBytes (s.srcImage.map subGreen)) 0 0

/-- PTE.SUBG.INV (R241). -/
def execPteSubgInv (s : State) : Out :=
  s.transform [s.imageSpan s.arg0] (s.imageSpan s.arg1) true (pixelBytes (s.srcImage.map addGreen)) 0 0

/-! Cross-colour decorrelation (R242 to R246). -/

/-- `ColorTransformDelta(m, c)` (R242): both signed, the product floor-divided by 32. -/
def colorDelta (m c : Byte) : Int := (m.toInt * c.toInt) / 32

/-- The multiplier triple of a tile (R243). -/
structure Multipliers where
  g2r : Byte
  g2b : Byte
  r2b : Byte
  deriving DecidableEq, Repr

/-- The triple of tile `t` in a multiplier array (R109, R243). -/
def multipliersAt (mults : List Byte) (t : Nat) : Multipliers :=
  { g2r := mults.getD (3 * t) 0, g2b := mults.getD (3 * t + 1) 0, r2b := mults.getD (3 * t + 2) 0 }

/-- The forward transform of a pixel (R245): blue is corrected by the input red. -/
def colorForward (m : Multipliers) (p : Word) : Word :=
  argb (chA p) (BitVec.ofInt 8 ((chR p).toNat - colorDelta m.g2r (chG p))) (chG p)
    (BitVec.ofInt 8 ((chB p).toNat - colorDelta m.g2b (chG p) - colorDelta m.r2b (chR p)))

/-- The inverse transform of a pixel (R246): red first, and blue is corrected by the red just restored. -/
def colorInverse (m : Multipliers) (q : Word) : Word :=
  let r : Byte := BitVec.ofInt 8 ((chR q).toNat + colorDelta m.g2r (chG q))
  argb (chA q) r (chG q) (BitVec.ofInt 8 ((chB q).toNat + colorDelta m.g2b (chG q) + colorDelta m.r2b r))

/-- The multiplier array as read (R243). -/
def State.mults (s : State) (tb : Nat) : List Byte := s.readBytes s.arg2.toNat (3 * s.tiles tb)

/-- Apply a pixel transform with the triple of each pixel's tile (R245, R246). -/
def colorImage (f : Multipliers → Word → Word) (w h tb : Nat) (mults : List Byte) (img : List Word) : List Word :=
  raster w h fun x y => f (multipliersAt mults (tileOf w tb x y)) (pixelAt w img x y)

/-- PTE.XCOL.FWD (R245). -/
def execPteXcolFwd (tileBits : BitVec 4) (s : State) : Out :=
  s.transform [s.imageSpan s.arg0, s.multSpan s.arg2 tileBits.toNat] (s.imageSpan s.arg1) true
    (pixelBytes (colorImage colorForward s.imgW s.imgH tileBits.toNat (s.mults tileBits.toNat) s.srcImage)) 0 0

/-- PTE.XCOL.INV (R246). -/
def execPteXcolInv (tileBits : BitVec 4) (s : State) : Out :=
  s.transform [s.imageSpan s.arg0, s.multSpan s.arg2 tileBits.toNat] (s.imageSpan s.arg1) true
    (pixelBytes (colorImage colorInverse s.imgW s.imgH tileBits.toNat (s.mults tileBits.toNat) s.srcImage)) 0 0

/-! Colour indexing (R247 to R253). -/

/-- The smallest palette index of a colour (R252). -/
def paletteIndex (pal : List Word) (p : Word) : Option Nat := pal.findIdx? fun c => c = p

/-- The packed bytes of an image (R251, R252): positions beyond the last pixel of a row are 0. -/
def packImage (w h n : Nat) (pal img : List Word) : List Byte :=
  raster (packedRowBytes w n) h fun k y =>
    BitVec.ofNat 8 (((List.range (pixelsPerByte n)).map fun j =>
      if k * pixelsPerByte n + j < w then
        (paletteIndex pal (pixelAt w img (k * pixelsPerByte n + j) y)).getD 0 * 2 ^ (bitsPerPixel n * j)
      else 0).sum)

/-- The index of pixel (x, y) in a packed image (R251, R253). -/
def packedIndex (w n : Nat) (packed : List Byte) (x y : Nat) : Nat :=
  (packed.getD (y * packedRowBytes w n + x / pixelsPerByte n) 0).toNat / 2 ^ (bitsPerPixel n * (x % pixelsPerByte n)) %
    2 ^ bitsPerPixel n

/-- The pixels of a packed image (R253): an index at or above N gives transparent black. -/
def unpackImage (w h n : Nat) (pal : List Word) (packed : List Byte) : List Word :=
  raster w h fun x y => if packedIndex w n packed x y < n then pal.getD (packedIndex w n packed x y) 0 else 0

/-- The palette as read (R252). -/
def State.palette (s : State) : List Word := s.readPixels s.arg2.toNat s.arg3.toNat

/-- R247: the palette size is 1 to PAL_MAX. -/
def paletteSizeLegal (n : Nat) : Bool := decide (1 ≤ n ∧ n ≤ Config.palMax)

/-- `RES[0]` of the palette commands: the size of the packed image (R252, R253). -/
def State.packedBytes (s : State) : Reg := BitVec.ofNat 64 (packedRowBytes s.imgW s.arg3.toNat * s.imgH)
/-- `RES[1]` of the palette commands: the bits per pixel (R252, R253). -/
def State.paletteBpp (s : State) : Reg := BitVec.ofNat 64 (bitsPerPixel s.arg3.toNat)

/-- PTE.PAL.FWD (R252). -/
def execPtePalFwd (s : State) : Out :=
  if ¬ paletteSizeLegal s.arg3.toNat then raise s .invalidArgument
  else
    s.transform [s.imageSpan s.arg0, paletteSpan s.arg2 s.arg3.toNat] (s.packedSpan s.arg1 s.arg3.toNat)
      (s.srcImage.all fun p => (paletteIndex s.palette p).isSome)
      (packImage s.imgW s.imgH s.arg3.toNat s.palette s.srcImage) s.packedBytes s.paletteBpp

/-- PTE.PAL.INV (R253). -/
def execPtePalInv (s : State) : Out :=
  if ¬ paletteSizeLegal s.arg3.toNat then raise s .invalidArgument
  else
    s.transform [s.packedSpan s.arg0 s.arg3.toNat, paletteSpan s.arg2 s.arg3.toNat] (s.imageSpan s.arg1) true
      (pixelBytes (unpackImage s.imgW s.imgH s.arg3.toNat s.palette
        (s.readBytes s.arg0.toNat (packedRowBytes s.imgW s.arg3.toNat * s.imgH)))) s.packedBytes s.paletteBpp

end Sys2Proof.Machine
end

