-- ==== Sys2Proof/Machine/System.lean ====
section
/-! DEFINITION. The system command (spec/45_system_codec.md R330, R332). -/

namespace Sys2Proof.Machine

/-- SYS.RESET (R330): all block state to R40 but CMD, which keeps the command word; STATUS OK, results 0. It cannot fail. -/
def execSysReset (s : State) : Out := succeed (s.blockReset s.cmd) 0 0

end Sys2Proof.Machine
end

