-- ==== Sys2Proof/Machine/Dispatch.lean ====
section
/-! DEFINITION. One arm per command: the meaning of each (spec/30_encoding.md R94). -/

namespace Sys2Proof.Machine

def exec (i : Instr) (s : State) : Host.Outcome State Fault Refusal :=
  match i with
  | .sysReset => Sys2Proof.Machine.execSysReset s
  | .brInit mode => Sys2Proof.Machine.execBrInit mode s
  | .brRead n => Sys2Proof.Machine.execBrRead n s
  | .brGetbool prob => Sys2Proof.Machine.execBrGetbool prob s
  | .bwInit => Sys2Proof.Machine.execBwInit s
  | .bwPut n => Sys2Proof.Machine.execBwPut n s
  | .bwFinalize => Sys2Proof.Machine.execBwFinalize s
  | .hufBuild slot => Sys2Proof.Machine.execHufBuild slot s
  | .hufDecode slot => Sys2Proof.Machine.execHufDecode slot s
  | .hufReadlengths => Sys2Proof.Machine.execHufReadlengths s
  | .pteSetimg => Sys2Proof.Machine.execPteSetimg s
  | .ptePredFwd tileBits => Sys2Proof.Machine.execPtePredFwd tileBits s
  | .ptePredInv tileBits => Sys2Proof.Machine.execPtePredInv tileBits s
  | .pteSubgFwd => Sys2Proof.Machine.execPteSubgFwd s
  | .pteSubgInv => Sys2Proof.Machine.execPteSubgInv s
  | .pteXcolFwd tileBits => Sys2Proof.Machine.execPteXcolFwd tileBits s
  | .pteXcolInv tileBits => Sys2Proof.Machine.execPteXcolInv tileBits s
  | .ptePalFwd => Sys2Proof.Machine.execPtePalFwd s
  | .ptePalInv => Sys2Proof.Machine.execPtePalInv s
  | .muxNew => Sys2Proof.Machine.execMuxNew s
  | .muxSet copy => Sys2Proof.Machine.execMuxSet copy s
  | .muxGet => Sys2Proof.Machine.execMuxGet s
  | .muxDelete => Sys2Proof.Machine.execMuxDelete s
  | .muxPush copy => Sys2Proof.Machine.execMuxPush copy s
  | .muxAssemble => Sys2Proof.Machine.execMuxAssemble s
  | .muxParse copy => Sys2Proof.Machine.execMuxParse copy s
  | .muxFetch => Sys2Proof.Machine.execMuxFetch s
  | .muxDestroy => Sys2Proof.Machine.execMuxDestroy s
  | .codecDecode => Sys2Proof.Machine.execCodecDecode s
  | .codecEncode => Sys2Proof.Machine.execCodecEncode s

end Sys2Proof.Machine
end

