-- ==== Sys2Proof/Machine/Port.lean ====
section
/-! DEFINITION. The command port and what else the host can do: register accesses (spec/10_state.md R21, R25), the command
cycle (spec/45_system_codec.md R331), memory accesses between commands (spec/20_memory.md R74, R75), and the reset input
(spec/70_reset_and_hazards.md R370, R371). -/

namespace Sys2Proof.Machine

/-- R331: the write of a word to CMD is one whole command. An illegal word ends with InvalidArgument (R95, R96). -/
def commandCycle (s : State) (cw : Word) : Out :=
  match decode cw with
  | none => raise { s with cmd := cw } .invalidArgument
  | some i => exec i { s with cmd := cw }

/-- A host write of a register (R25): CMD, of 32 bits, executes; ARG keeps the bits of its width
(log 2); every other offset ignores the value. -/
def regWrite (s : State) (offset : Word) (v : Reg) : Out :=
  match offset.toNat with
  | 0x00 => commandCycle s (v.setWidth 32)
  | 0x04 => .next { s with arg0 := regValue s.cfg v }
  | 0x08 => .next { s with arg1 := regValue s.cfg v }
  | 0x0C => .next { s with arg2 := regValue s.cfg v }
  | 0x10 => .next { s with arg3 := regValue s.cfg v }
  | _ => .next s

/-- Whether an address is in the bound view (R80). -/
def Reader.views (r : Reader) (a : Nat) : Bool :=
  r.bound && decide (r.base.toNat ≤ a ∧ a < r.base.toNat + r.len.toNat)

/-- The reader after the host has changed a byte: a byte of the bound view keeps its old value on record (R39, log 6). -/
def State.readerAfterHostWrite (s : State) (a : Nat) : Reader :=
  if s.br.views a then { s.br with stale := (a, s.readByte a) :: s.br.stale } else s.br

/-- A host write of a byte of memory, between commands (R74, R75, R80). -/
def hostWriteByte (s : State) (a : Nat) (v : Byte) : Out :=
  s.touching [(a, 1)] (.next { s.storeBytes a [v] with br := s.readerAfterHostWrite a })

/-- A host read of a byte of memory: the byte is what the host gets (log 9). -/
def hostReadByte (s : State) (a : Nat) : Out :=
  s.touching [(a, 1)] (.next { s with hostData := (s.readByte a).setWidth 64 })

/-- The region a command writes (R62), which a reset during it leaves at any value (R371). -/
def destination (i : Instr) (s : State) : Nat × Nat :=
  match i with
  | .bwFinalize => (s.bw.base.toNat, ceilDiv s.bw.pos.toNat 8)
  | .hufReadlengths => (s.arg0.toNat, s.arg1.toNat)
  | .ptePredFwd _ | .ptePredInv _ | .pteSubgFwd | .pteSubgInv | .pteXcolFwd _ | .pteXcolInv _ | .ptePalInv =>
    s.imageSpan s.arg1
  | .ptePalFwd => s.packedSpan s.arg1 s.arg3.toNat
  | .muxAssemble => (s.arg0.toNat, s.mux.serialSize)
  | .muxFetch => (s.arg1.toNat, (s.mux.record s.arg0.toNat).len.toNat)
  | .codecDecode => (s.arg2.toNat, s.arg3.toNat)
  | .codecEncode => (s.arg1.toNat, s.arg2.toNat)
  | .sysReset | .brInit _ | .brRead _ | .brGetbool _ | .bwInit | .bwPut _ | .hufBuild _ | .hufDecode _ | .pteSetimg
  | .muxNew | .muxSet _ | .muxGet | .muxDelete | .muxPush _ | .muxParse _ | .muxDestroy => (0, 0)

/-- Whether a command ends with an error: then it writes no memory (R348). -/
def endsInError (o : Out) : Bool :=
  match o with
  | .next t => decide (t.status ≠ .ok)
  | .fault _ => false
  | .refused _ => false

/-- The reset input (R370): the reset state with CMD 0. -/
def resetInput (s : State) : State := s.blockReset 0

/-- The reset input while the command of a word runs (R371): the reset state, and the region the command was writing holds
any value; a command that would have ended with an error was writing none (log 21). -/
def resetDuring (s : State) (cw : Word) : State :=
  match decode cw with
  | none => resetInput s
  | some i =>
    if endsInError (exec i { s with cmd := cw }) then resetInput s
    else
      let d := destination i s
      { resetInput s with mem := s.leaving (resetInput s).mem d.1 (d.1 + d.2) }

/-- The byte offset of a register address from CSR_BASE (R25, log 22). -/
def State.offsetOf (s : State) (addr : Word) : Word := addr - s.cfg.csrBase

/-- One access of the host. A register access must be an aligned word (R25, R67, U9). -/
def hostAccess (a : HostAccess) (s : State) : Out :=
  match a with
  | .writeReg addr v =>
    if (s.offsetOf addr).toNat % 4 ≠ 0 then .refused .misalignedRegisterAccess else regWrite s (s.offsetOf addr) v
  | .readReg addr =>
    if (s.offsetOf addr).toNat % 4 ≠ 0 then .refused .misalignedRegisterAccess
    else .next { s with hostData := s.regRead (s.offsetOf addr) }
  | .writeByte addr v => hostWriteByte s addr.toNat v
  | .readByte addr => hostReadByte s addr.toNat
  | .resetInput => .next (resetInput s)
  | .resetDuring cw => .next (resetDuring s cw)

/-- The state an access finds: the access taken from the queue, the counter of free values advanced (log 8, log 10). -/
def State.afterTake (s : State) (rest : List HostAccess) : State := { s with host := rest, tick := s.tick + 1 }

/-- One step of the machine: the host's next access. With none to come the block, being passive, stays as it is (R16). -/
def hostStep (s : State) : Out :=
  match s.host with
  | [] => .next { s with tick := s.tick + 1 }
  | a :: rest => hostAccess a (s.afterTake rest)

/-- Put a command word in front of the host's accesses: its next access writes the word to CMD. -/
def State.placeCommand (s : State) (cw : Word) : State := { s with host := .writeReg s.cfg.csrBase (cw.setWidth 64) :: s.host }

end Sys2Proof.Machine
end

