-- ==== Sys2Proof/Machine/Step.lean ====
section
/-! DEFINITION. The step of the machine and the host's way to place a command. -/

namespace Sys2Proof.Machine

/-- One step: the host's next access, and with a write of CMD one whole command (R16, R331). -/
def step (s : State) : Host.Outcome State Fault Refusal := hostStep s

/-- `s` with the command of a table row placed where the step takes its next command: the host's next access writes the word
to CMD (log 8). -/
def State.withFetchWord (s : State) (nbits w : Nat) : State := s.placeCommand (BitVec.ofNat 32 (w % 2 ^ nbits))

end Sys2Proof.Machine
end

