-- ==== Sys2Proof/Safety.lean ====
section
/-! DEFINITION. What claims are stated in: what a command needs of the platform, the invariants of each unit
(spec/10_state.md R27 to R37, spec/44_chunkstore_mux.md R294), and the host's discipline (spec/20_memory.md R80). -/

namespace Sys2Proof.Machine

/-- The platform backs an address with plain storage (R60, R70, R73). -/
abbrev State.Backed (s : State) (a : Nat) : Prop := a < 2 ^ s.cfg.aw ∧ ∀ r ∈ s.cfg.special, ¬(r.lo ≤ a ∧ a < r.hi)

/-- Every byte of the spans is plain storage the platform backs. A span is an address and a number of bytes. -/
abbrev State.Accessible (s : State) (spans : List (Nat × Nat)) : Prop := ∀ p ∈ spans, ∀ k < p.2, s.Backed (p.1 + k)

/-- An address is one of a span's bytes. -/
abbrev InSpan (p : Nat × Nat) (a : Nat) : Prop := p.1 ≤ a ∧ a < p.1 + p.2

/-- Every byte of the bound view that holds one of the stream bits `p ≤ i < q` is backed; past the end of the view there is
none (R133). -/
abbrev State.ViewBacked (s : State) (p q : Nat) : Prop :=
  ∀ i < q, p ≤ i → i < 8 * s.br.len.toNat → s.Backed (s.br.base.toNat + i / 8)

/-- What a command that stores bytes does: only memory differs, each byte is at its address, and every address outside reads
as before. Where the writer's region holds any value no agent reads a byte (R30, log 4), and neither is said. -/
def State.Stores (s t : State) (a : Nat) (bs : List Byte) : Prop :=
  (∃ m, t = { s with mem := m }) ∧
    (∀ k < bs.length, s.bw.holds (a + k) = false → t.readByte (a + k) = bs.getD k 0) ∧
    ∀ x, ¬InSpan (a, bs.length) x → s.bw.holds x = false → t.readByte x = s.readByte x

/-- R71: the regions a command's operands name, checked before it touches any of them. -/
def operandSpans (i : Instr) (s : State) : List (Nat × Nat) :=
  match i with
  | .brInit _ | .hufBuild _ | .hufReadlengths | .muxAssemble | .muxParse _ => [(s.arg0.toNat, s.arg1.toNat)]
  | .bwInit => [(s.arg0.toNat, s.arg2.toNat)]
  | .ptePredFwd tb | .ptePredInv tb => [s.imageSpan s.arg0, s.imageSpan s.arg1, s.modeSpan s.arg2 tb.toNat]
  | .pteXcolFwd tb | .pteXcolInv tb => [s.imageSpan s.arg0, s.imageSpan s.arg1, s.multSpan s.arg2 tb.toNat]
  | .pteSubgFwd | .pteSubgInv => [s.imageSpan s.arg0, s.imageSpan s.arg1]
  | .ptePalFwd => [s.imageSpan s.arg0, s.packedSpan s.arg1 s.arg3.toNat, paletteSpan s.arg2 s.arg3.toNat]
  | .ptePalInv => [s.packedSpan s.arg0 s.arg3.toNat, s.imageSpan s.arg1, paletteSpan s.arg2 s.arg3.toNat]
  | .muxSet _ | .muxPush _ => [(s.arg1.toNat, s.lenOperand.toNat)]
  | .muxFetch => [(s.arg1.toNat, (s.mux.record s.arg0.toNat).len.toNat)]
  | .codecDecode => [(s.arg0.toNat, s.arg1.toNat), (s.arg2.toNat, s.arg3.toNat)]
  | .codecEncode => [s.imageSpan s.arg0, (s.arg1.toNat, s.arg2.toNat)]
  | .sysReset | .brRead _ | .brGetbool _ | .bwPut _ | .bwFinalize | .hufDecode _ | .pteSetimg | .muxNew | .muxGet
  | .muxDelete | .muxDestroy => []

/-- A field of a register of 32 bits: the value of the field's bits from `lo` up (R25). -/
def fieldWord (v lo : Nat) : Reg := BitVec.ofNat 64 (v / 2 ^ lo % 2 ^ 32)

/-- R40: every piece of block state but CMD is at its reset value; the fields R40 leaves unspecified are left out. -/
def State.UnitsAtReset (s : State) : Prop :=
  (s.arg0 = 0 ∧ s.arg1 = 0 ∧ s.arg2 = 0 ∧ s.arg3 = 0 ∧ s.status = .ok ∧ s.res0 = 0 ∧ s.res1 = 0) ∧
  (s.br.bound = false ∧ s.br.mode = .plain ∧ s.br.eos = false ∧ s.br.base = 0 ∧ s.br.len = 0 ∧ s.br.pos = 0 ∧
    s.br.range = 0 ∧ s.br.value = 0) ∧
  (s.bw.bound = false ∧ s.bw.final = false ∧ s.bw.err = false ∧ s.bw.base = 0 ∧ s.bw.cap = 0 ∧ s.bw.limit = 0 ∧
    s.bw.pos = 0 ∧ s.bw.bits = []) ∧
  (s.ht.length = s.cfg.nt ∧ ∀ x ∈ s.ht, x.valid = false) ∧
  (s.pte.valid = false ∧ s.pte.w = 0 ∧ s.pte.h = 0) ∧
  (s.mux.valid = false ∧ s.mux.recs.length = s.cfg.nchunk ∧ (∀ r ∈ s.mux.recs, r.present = false) ∧ s.mux.dim = [] ∧
    s.mux.icc = [] ∧ s.mux.anim = [] ∧ s.mux.exif = [] ∧ s.mux.xmp = [] ∧ s.mux.unknown = [] ∧ s.mux.frames = [] ∧
    s.mux.heapUsed = 0)

/-- R276, R278, R300: a store with every record absent (the other fields of the records kept), every list empty and nothing on
the heap. -/
def Store.EmptyOf (m m' : Store) : Prop :=
  m'.recs = m.recs.map (fun r => { r with present := false }) ∧ m'.dim = [] ∧ m'.icc = [] ∧ m'.anim = [] ∧ m'.exif = [] ∧
    m'.xmp = [] ∧ m'.unknown = [] ∧ m'.frames = [] ∧ m'.heapUsed = 0

/-- R279: `m'` is `m` with a record made for an incoming chunk at index `i`, the lowest absent one: owned with the payload's
bytes, or borrowed with its address; the heap grows by an owned payload, and nothing else changes. -/
def Store.Allocates (c : Config) (m : Store) (x : Incoming) (i : Nat) (m' : Store) : Prop :=
  (i < m.recs.length ∧ (m.record i).present = false ∧ ∀ j < i, (m.record j).present = true) ∧
  (m'.recs.length = m.recs.length ∧ ∀ j, j ≠ i → m'.record j = m.record j) ∧
  ((m'.record i).present = true ∧ (m'.record i).tag = x.tag ∧ (m'.record i).len = x.len ∧
    (m'.record i).owner = ownsCopy c x.tag x.copy ∧
    (ownsCopy c x.tag x.copy = true → (m'.record i).data = x.payload) ∧
    (ownsCopy c x.tag x.copy = false → (m'.record i).addr = x.addr)) ∧
  m'.heapUsed = (if ownsCopy c x.tag x.copy then m.heapUsed + x.len.setWidth 33 else m.heapUsed) ∧
  m' = { m with recs := m'.recs, heapUsed := m'.heapUsed }

/-- R279: there is room for one more record, and on the heap for an owned payload. -/
def Store.HasRoom (c : Config) (m : Store) (x : Incoming) : Prop :=
  (∃ i < m.recs.length, (m.record i).present = false) ∧
    (ownsCopy c x.tag x.copy = true → m.heapUsed.toNat + x.len.toNat ≤ c.heapLimit)

/-- R291: no frame is open for image data: there is none, or the last one has its image. -/
def Store.LastWhole (m : Store) : Prop := ∀ f, m.frames.getLast? = some f → f.img ≠ none

/-- R291: a second singleton chunk, or a second ALPHA in a frame without its image. -/
def Store.Duplicates (c : Config) (m : Store) (x : Incoming) : Prop :=
  match classOf c x.tag with
  | .dim => m.dim ≠ []
  | .icc => m.icc ≠ []
  | .anim => m.anim ≠ []
  | .exif => m.exif ≠ []
  | .xmp => m.xmp ≠ []
  | .alpha => ∃ f, m.frames.getLast? = some f ∧ f.img = none ∧ f.alpha ≠ none
  | .frmh | .image | .unknown => False

/-- R291: the chunk starts a frame. -/
def Store.Opens (c : Config) (m : Store) (x : Incoming) : Prop :=
  match classOf c x.tag with
  | .frmh => True
  | .alpha | .image => m.LastWhole
  | .dim | .icc | .anim | .exif | .xmp | .unknown => False

/-- R279, R291: there is room for a chunk's record, and for a frame where it starts one. -/
def Store.RoomFor (c : Config) (m : Store) (x : Incoming) : Prop :=
  m.HasRoom c x ∧ (m.Opens c x → m.frames.length < c.nframe)

/-- R291: `m'` is `m` with the chunk's record made at index `i` and put in its place: its list, a new frame, or the last
frame. -/
def Store.Puts (c : Config) (m : Store) (x : Incoming) (i : Nat) (m' : Store) : Prop :=
  ∃ m0, m.Allocates c x i m0 ∧
    let append (f : Frame) : Store := { m0 with frames := m.frames ++ [f] }
    let inLast (f : Frame → Frame) : Store := { m0 with frames := m.frames.dropLast ++ m.frames.getLast?.toList.map f }
    match classOf c x.tag with
    | .dim => m' = { m0 with dim := [i] }
    | .icc => m' = { m0 with icc := [i] }
    | .anim => m' = { m0 with anim := [i] }
    | .exif => m' = { m0 with exif := [i] }
    | .xmp => m' = { m0 with xmp := [i] }
    | .frmh => m' = append (Frame.mk (some i) none none [])
    | .alpha =>
      (m.LastWhole → m' = append (Frame.mk none (some i) none [])) ∧
        (¬m.LastWhole → m' = inLast fun f => { f with alpha := some i })
    | .image =>
      (m.LastWhole → m' = append (Frame.mk none none (some i) [])) ∧
        (¬m.LastWhole → m' = inLast fun f => { f with img := some i })
    | .unknown =>
      m' = if m.frames = [] then { m0 with unknown := m.unknown ++ [i] } else inLast fun f => { f with unk := f.unk ++ [i] }

/-! The description of a length array (R199 to R204), said in the bits of the stream from its first one on. -/

/-- The field of `w` bits at bit `j`, the first bit lowest (R136). -/
def fieldAt (bit : Nat → Bool) (j w : Nat) : Nat := ((List.range w).map fun k => (bit (j + k)).toNat * 2 ^ k).sum

/-- `ORDER` (R200). -/
def lengthOrder : List Nat := [17, 18, 0, 1, 2, 3, 4, 5, 16, 6, 7, 8, 9, 10, 11, 12, 13, 14, 15]

/-- `CL[0..18]` of the header: `ncl` is 4 and the 4-bit field, the i-th 3-bit field after it is the length of `ORDER[i]`, and
a symbol not transmitted has length 0 (R201). -/
def headerLengths (bit : Nat → Bool) : List Nat :=
  (List.range 19).map fun sym =>
    let i := lengthOrder.idxOf sym
    if i < 4 + fieldAt bit 0 4 then fieldAt bit (4 + 3 * i) 3 else 0

/-- Where the second pass stands: the bits used, the lengths filled, and the last non-zero literal (R204). -/
structure TokenState where
  pos : Nat
  out : List Nat
  prev : Nat
  deriving DecidableEq, Repr

/-- R204: one token: a code word of the code-length code stands next in the stream, and its symbol, with the extra bits of a
run, adds lengths. -/
def TokenStep (bit : Nat → Bool) (code : List CodeWord) (a b : TokenState) : Prop :=
  ∃ w ∈ code, (∀ k < w.len, bit (a.pos + k) = w.code.testBit (w.len - 1 - k)) ∧
    let e := a.pos + w.len
    if w.sym < 16 then b = ⟨e, a.out ++ [w.sym], if w.sym = 0 then a.prev else w.sym⟩
    else if w.sym = 16 then b = ⟨e + 2, a.out ++ List.replicate (3 + fieldAt bit e 2) a.prev, a.prev⟩
    else if w.sym = 17 then b = ⟨e + 3, a.out ++ List.replicate (3 + fieldAt bit e 3) 0, a.prev⟩
    else b = ⟨e + 7, a.out ++ List.replicate (11 + fieldAt bit e 7) 0, a.prev⟩

/-- R204: `count` tokens one after the other, from bit `start` on, none of which passes `n` lengths and each of which is
decoded while some are missing. -/
def TokenRun (bit : Nat → Bool) (code : List CodeWord) (n start count : Nat) (run : Nat → TokenState) : Prop :=
  run 0 = ⟨start, [], 8⟩ ∧
    ∀ k < count, (run k).out.length < n ∧ TokenStep bit code (run k) (run (k + 1)) ∧ (run (k + 1)).out.length ≤ n

/-- R31, R182: a valid slot holds the table of some legal length array (R181), and its size counts the entries. -/
abbrev State.SlotsInv (s : State) : Prop :=
  s.ht.length = s.cfg.nt ∧
    ∀ x ∈ s.ht, x.valid = true →
      ∃ lens : List Nat, lens.length ≤ Config.maxSym ∧ buildTable s.cfg.rootBits lens = some x.entries ∧
        x.size = BitVec.ofNat 17 x.entries.length

/-- The invariants R27 and R28 state for a bound reader. -/
abbrev Reader.Inv (c : Config) (r : Reader) : Prop :=
  r.bound = true →
    r.base.toNat + r.len.toNat ≤ 2 ^ c.aw ∧ r.pos.toNat < 2 ^ c.posw ∧ r.eos = eosAt r.pos.toNat r.len.toNat ∧
      (r.mode = .range → 127 ≤ r.range.toNat ∧ r.range.toNat ≤ 254) ∧
      (r.mode = .plain → r.range = 0 ∧ r.value = 0)

/-- The invariants R29 and R164 state for a bound writer; `pos` counts the appended bits (R29). -/
abbrev Writer.Inv (c : Config) (w : Writer) : Prop :=
  w.bound = true →
    w.base.toNat + w.limit.toNat ≤ 2 ^ c.aw ∧ w.cap.toNat ≤ w.limit.toNat ∧ w.pos.toNat = w.bits.length ∧
      ceilDiv w.pos.toNat 8 ≤ w.cap.toNat

/-- R25, R92: no register that can hold an address holds more bits than its width. -/
abbrev State.RegistersFit (s : State) : Prop :=
  ∀ n ∈ [s.arg0, s.arg1, s.arg2, s.arg3, s.br.base, s.br.len, s.bw.base, s.bw.cap, s.bw.limit].map BitVec.toNat,
    n < 2 ^ s.cfg.regWidth

/-- R33: a set image has 1 to MAXDIM columns and rows. -/
abbrev Image.Inv (p : Image) : Prop :=
  p.valid = true → 1 ≤ p.w.toNat ∧ p.w.toNat ≤ Config.maxDim ∧ 1 ≤ p.h.toNat ∧ p.h.toNat ≤ Config.maxDim

/-- The class of a record's tag. -/
def Store.classAt (c : Config) (m : Store) (i : Nat) : ChunkClass := classOf c (m.record i).tag

/-- R37: the owned bytes of the present records. -/
def Store.ownedTotal (m : Store) : Nat :=
  ((m.recs.filter fun r => r.present && r.owner).map fun r => r.len.toNat).sum

/-- R36, R294: a frame's fields hold records of their class, and it is not empty. -/
abbrev Frame.Inv (c : Config) (m : Store) (f : Frame) : Prop :=
  (∀ i ∈ f.hdr.toList, m.classAt c i = .frmh) ∧ (∀ i ∈ f.alpha.toList, m.classAt c i = .alpha) ∧
    (∀ i ∈ f.img.toList, m.classAt c i = .image) ∧ (∀ i ∈ f.unk, m.classAt c i = .unknown) ∧ f.isEmpty = false

/-- R36: every present record is in exactly one list or frame field, and only present records are. -/
abbrev Store.Linked (m : Store) : Prop :=
  m.walk.Nodup ∧ (∀ i ∈ m.walk, i < m.recs.length ∧ (m.record i).present = true) ∧
    (∀ i < m.recs.length, (m.record i).present = true → i ∈ m.walk)

/-- R36, R294: each singleton list holds at most one record, and every list only records of its class. -/
abbrev Store.Classified (c : Config) (m : Store) : Prop :=
  (m.dim.length ≤ 1 ∧ m.icc.length ≤ 1 ∧ m.anim.length ≤ 1 ∧ m.exif.length ≤ 1 ∧ m.xmp.length ≤ 1) ∧
  (∀ k ∈ [ChunkClass.dim, .icc, .anim, .exif, .xmp, .unknown], ∀ i ∈ m.list k, m.classAt c i = k) ∧
  (∀ f ∈ m.frames, f.Inv c m)

/-- R34, R35: a present record's payload is `len` owned bytes, or `len` bytes of memory that fit the address space. -/
abbrev Store.PayloadsFit (c : Config) (m : Store) : Prop :=
  ∀ r ∈ m.recs, r.present = true →
    (r.owner = true → r.data.length = r.len.toNat) ∧ (r.owner = false → r.addr.toNat + r.len.toNat ≤ 2 ^ c.aw)

/-- R294, R36, R37: the invariants of the chunk store. -/
abbrev Store.Inv (c : Config) (m : Store) : Prop :=
  m.recs.length = c.nchunk ∧ m.frames.length ≤ c.nframe ∧ m.heapUsed.toNat = m.ownedTotal ∧
    m.heapUsed.toNat ≤ c.heapLimit ∧ m.Linked ∧ m.Classified c ∧ m.PayloadsFit c

/-- R80, R379, R380: the host's access writes no byte of the bound view and none of the writer's region. -/
abbrev HostKeepsRegions (s : State) (a : HostAccess) : Prop :=
  match a with
  | .writeByte addr _ => s.br.views addr.toNat = false ∧
      ¬(s.bw.bound = true ∧ InSpan (s.bw.base.toNat, s.bw.limit.toNat) addr.toNat)
  | .writeReg _ _ | .readReg _ | .readByte _ | .resetInput | .resetDuring _ => True

/-- The host's program that writes fields: for each, the value into ARG[0], then BW.PUT (R165). -/
def putFields : List (BitVec 8 × Reg) → State → Out
  | [], s => .next s
  | f :: rest, s =>
    match exec (.bwPut f.1) { s with arg0 := f.2 } with
    | .next t => putFields rest t
    | .fault e => .fault e
    | .refused e => .refused e

/-- The host's program that reads fields of given widths with BR.READ: the values and the flags it gets, when every command
ends with OK (R140). -/
def readFields : List (BitVec 8) → State → Option (List (Reg × Bool))
  | [], _ => some []
  | n :: rest, s =>
    match exec (.brRead n) s with
    | .next t => if t.status = .ok then (readFields rest t).map fun l => (t.res0, t.br.eos) :: l else none
    | .fault _ => none
    | .refused _ => none

/-- A safe run never stops: every step answers a next state. -/
def SafeFor : Nat → State → Prop
  | 0, _ => True
  | k + 1, s => ∃ t, step s = .next t ∧ SafeFor k t

end Sys2Proof.Machine
end

