-- ==== Sys2Proof/Certificates/Slice0/Obligations.lean ====
section
/-! DEFINITION. The statements of this model for the provers: each formalises rules of spec/, named in its docstring. -/

open Sys2Proof Sys2Proof.Machine

/-! The command word (spec/30_encoding.md). -/

/-- R91, R93 to R95: no bit of a command is lost in its word. -/
def Obligations.DecodeOfEncode : Prop := ∀ i : Instr, decode (encode i) = some i

/-- R91, R93 to R95: a word that decodes is the encoding of what it decodes to. -/
def Obligations.EncodeOfDecode : Prop := ∀ (cw : Word) (i : Instr), decode cw = some i → encode i = cw

/-- R95: which words are illegal, and that every other word gives the command of its OP with its IMM. -/
def Obligations.DecodeExactlyTheLegalWords : Prop :=
  ∀ cw : Word,
    let op := cw.extractLsb' 24 8
    let reserved : BitVec 8 :=
      if op = 0x11 ∨ op = 0x21 ∨ op = 0x12 then 0x00
      else if op = 0x10 ∨ op = 0x51 ∨ op = 0x54 ∨ op = 0x56 then 0xFE
      else if op = 0x30 ∨ op = 0x31 ∨ op = 0x41 ∨ op = 0x42 ∨ op = 0x45 ∨ op = 0x46 then 0xF0
      else 0xFF
    let illegal := cw.extractLsb' 8 16 ≠ 0 ∨ op ∉ opcodes ∨ cw.extractLsb' 0 8 &&& reserved ≠ 0
    (illegal → decode cw = none) ∧
      (¬illegal → ∃ i, decode cw = some i ∧ opcodeOf i = op ∧ immediateOf i = cw.extractLsb' 0 8)

/-- R91, R93, R94: words written out field by field from the opcode map, one or more of each unit. -/
def Obligations.SampleWordsDecode : Prop :=
  decode 0x01000000 = some .sysReset ∧ decode 0x10000001 = some (.brInit .range) ∧
  decode 0x10000000 = some (.brInit .plain) ∧ decode 0x11000018 = some (.brRead 24) ∧
  decode 0x120000FF = some (.brGetbool 255) ∧ decode 0x21000005 = some (.bwPut 5) ∧
  decode 0x22000000 = some .bwFinalize ∧ decode 0x3000000F = some (.hufBuild 15) ∧
  decode 0x31000002 = some (.hufDecode 2) ∧ decode 0x42000003 = some (.ptePredInv 3) ∧
  decode 0x47000000 = some .ptePalFwd ∧ decode 0x51000001 = some (.muxSet true) ∧
  decode 0x56000000 = some (.muxParse false) ∧ decode 0x58000000 = some .muxDestroy ∧
  decode 0x60000000 = some .codecDecode ∧ decode 0x00000000 = none

/-! The port (spec/10_state.md, spec/20_memory.md, spec/45_system_codec.md). -/

/-- R331, R96: one step with the host writing CMD is one whole command; an illegal word ends with InvalidArgument and changes
CMD, STATUS and RES alone. The step takes the access from the host's queue and advances the model's counter (logs 8, 10). -/
def Obligations.StepRunsDecodedCommand : Prop :=
  ∀ (s : State) (cw : Word) (rest : List HostAccess), s.host = .writeReg s.cfg.csrBase (cw.setWidth 64) :: rest →
    let u := { s with cmd := cw, host := rest, tick := s.tick + 1 }
    (∀ i, decode cw = some i → step s = exec i u) ∧
      (decode cw = none → step s = .next { u with status := .invalidArgument, res0 := 0, res1 := 0 })

/-- R25, R340: the register map, at CSR_BASE, with the eight numbers STATUS shows. A write of ARG keeps the value, a write of
any other register but CMD is ignored, a read changes nothing and gives the fields at their places. What a read gives stands
in the model's `hostData` (log 9). What MUX_HEAP shows of 2^32 bytes or more is left out (log 24). R25 has a model with
another AW widen the registers that can hold an address: that these have 32 bits, or AW where AW is larger, and that one
access moves the whole of one, is the model's choice (log 2). -/
def Obligations.RegisterMap : Prop :=
  ∀ (s : State) (rest : List HostAccess) (off : Word) (v : Reg), off.toNat % 4 = 0 →
    let u := { s with host := rest, tick := s.tick + 1 }
    let kept : Reg := BitVec.ofNat 64 (v.toNat % 2 ^ max 32 s.cfg.aw)
    let status : Reg := match s.status with
      | .ok => 0
      | .malformedTable => 1
      | .truncatedStream => 2
      | .duplicateChunk => 3
      | .notFound => 4
      | .unsupportedVersion => 5
      | .allocationFailure => 6
      | .invalidArgument => 7
    (s.host = .writeReg (s.cfg.csrBase + off) v :: rest → off ≠ 0 →
      step s = .next (if off = 0x04 then { u with arg0 := kept } else if off = 0x08 then { u with arg1 := kept }
        else if off = 0x0C then { u with arg2 := kept } else if off = 0x10 then { u with arg3 := kept } else u)) ∧
    (s.host = .readReg (s.cfg.csrBase + off) :: rest →
      ∃ d, step s = .next { u with hostData := d } ∧
        (off ≠ 0x58 → (off = 0x6C → s.mux.heapUsed.toNat < 2 ^ 32) →
          d = (([(0x00, fieldWord s.cmd.toNat 0), (0x04, s.arg0), (0x08, s.arg1), (0x0C, s.arg2), (0x10, s.arg3),
              (0x14, status), (0x18, s.res0), (0x1C, s.res1), (0x20, fieldWord s.cfg.abiVersion.toNat 0),
              (0x24, fieldWord (s.br.bound.toNat + 2 * (if s.br.mode = .range then 1 else 0) + 4 * s.br.eos.toNat) 0),
              (0x28, s.br.base), (0x2C, s.br.len), (0x30, fieldWord s.br.pos.toNat 0), (0x34, fieldWord s.br.pos.toNat 32),
              (0x38, fieldWord s.br.range.toNat 0), (0x3C, fieldWord s.br.value.toNat 0),
              (0x40, fieldWord (s.bw.bound.toNat + 2 * s.bw.final.toNat + 4 * s.bw.err.toNat) 0),
              (0x44, s.bw.base), (0x48, s.bw.cap), (0x4C, s.bw.limit), (0x50, fieldWord s.bw.pos.toNat 0),
              (0x54, fieldWord s.bw.pos.toNat 32),
              (0x5C, fieldWord (s.pte.w.toNat + 2 ^ 16 * s.pte.h.toNat + 2 ^ 31 * s.pte.valid.toNat) 0),
              (0x60, fieldWord s.mux.valid.toNat 0),
              (0x64, fieldWord (s.mux.recs.countP fun r => r.present) 0),
              (0x68, fieldWord s.mux.frames.length 0), (0x6C, fieldWord s.mux.heapUsed.toNat 0)] : List (Word × Reg)).lookup
                off).getD 0) ∧
        (off = 0x58 → ∀ t, d.getLsbD t = (decide (t < 32) && (s.slot t).valid)))

/-- R60, R70, R71, R73, R74, R39: the host's own accesses of the byte memory. A byte the platform backs is written and read;
a byte of the bound view keeps its old value in the reader's record of host writes (log 6), from which StreamBits delivers
the old or the new bit. Where the writer's region holds any value no byte read is stated (R30, log 4). A byte outside the
backed memory stops the model, under the name of what stands there (log 7). -/
def Obligations.HostMemoryAccess : Prop :=
  ∀ (s : State) (rest : List HostAccess) (a : Addr) (v : Byte),
    let u := { s with host := rest, tick := s.tick + 1 }
    (s.host = .writeByte a v :: rest → s.Backed a.toNat →
      ∃ m t, t = { u with
            mem := m
            br := { s.br with stale := if s.br.views a.toNat then (a.toNat, u.readByte a.toNat) :: s.br.stale
              else s.br.stale } } ∧
        step s = .next t ∧ (s.bw.holds a.toNat = false → t.readByte a.toNat = v) ∧
        ∀ x, x ≠ a.toNat → s.bw.holds x = false → t.readByte x = s.readByte x) ∧
    (s.host = .readByte a :: rest → s.Backed a.toNat →
      step s = .next { u with hostData := (u.readByte a.toNat).setWidth 64 }) ∧
    (s.host = .writeByte a v :: rest ∨ s.host = .readByte a :: rest →
      (2 ^ s.cfg.aw ≤ a.toNat → step s = .fault .outsideAddressSpace) ∧
      (a.toNat < 2 ^ s.cfg.aw → ¬s.Backed a.toNat →
        step s = .fault .unbackedAddress ∨ step s = .refused .deviceAddress))

/-! Reset (spec/10_state.md R40, spec/45_system_codec.md R330, spec/70_reset_and_hazards.md). -/

/-- R40: the state after power-on reset, for every choice of the parameters and for the model's own. -/
def Obligations.PowerOnValues : Prop :=
  (∀ c : Config, (State.power c).UnitsAtReset ∧ (State.power c).cmd = 0 ∧ (State.power c).cfg = c) ∧
    State.reset.UnitsAtReset ∧ State.reset.cmd = 0 ∧ State.reset.cfg.Legal

/-- R330, R40: SYS.RESET from every state. CMD keeps the command word, and no byte of memory changes; the writer's region,
which held any value, is given up (R80). -/
def Obligations.SysResetRule : Prop :=
  ∀ s : State, ∃ t, exec .sysReset s = .next t ∧ t.UnitsAtReset ∧ t.cmd = s.cmd ∧ t.cfg = s.cfg ∧ t.host = s.host ∧
    ∀ a, s.bw.holds a = false → t.readByte a = s.readByte a

/-- R370, R371: the reset input between commands, and while the command of a word runs. Block state is at reset with CMD 0;
every byte of memory outside the region the abandoned command was writing is unchanged. -/
def Obligations.ResetInputRule : Prop :=
  ∀ (s : State) (rest : List HostAccess) (cw : Word),
    (s.host = .resetInput :: rest →
      ∃ t, step s = .next t ∧ t.UnitsAtReset ∧ t.cmd = 0 ∧ t.cfg = s.cfg ∧ t.host = rest ∧
        ∀ a, s.bw.holds a = false → t.readByte a = s.readByte a) ∧
    (s.host = .resetDuring cw :: rest →
      ∃ t, step s = .next t ∧ t.UnitsAtReset ∧ t.cmd = 0 ∧ t.cfg = s.cfg ∧ t.host = rest ∧
        ∀ a, s.bw.holds a = false → (∀ i, decode cw = some i → ¬InSpan (destination i s) a) →
          t.readByte a = s.readByte a)

/-! Rules about every command. -/

/-- R348, R350: a command that ends with an error leaves the state as it was, but for STATUS, RES and the listed effects. That
a failed MUX.PARSE leaves the other fields of the absent records as they were is the model's choice (log 12). -/
def Obligations.ErrorChangesOnlyListedState : Prop :=
  ∀ (i : Instr) (s t : State), exec i s = .next t → t.status ≠ .ok →
    let u := { s with status := t.status, res0 := 0, res1 := 0 }
    match i with
    | .bwPut _ => t = if t.status = .allocationFailure then { u with bw := { s.bw with err := true } } else u
    | .hufBuild k =>
      t = if t.status = .malformedTable then { u with ht := s.ht.set k.toNat { s.slot k.toNat with valid := false } } else u
    | .hufReadlengths =>
      if t.status = .invalidArgument then t = u
      else (t.status = .malformedTable ∨ t.status = .truncatedStream) ∧
        t = { u with br := { s.br with pos := t.br.pos, eos := t.br.eos } }
    | .muxParse _ =>
      if t.status = .invalidArgument ∨ t.status = .unsupportedVersion then t = u
      else t = { u with mux := t.mux } ∧ t.mux.valid = true ∧ Store.EmptyOf s.mux t.mux
    | _ => t = u

/-- R340, R341 to R344: which statuses a command can end with. That the CODEC commands end with InvalidArgument alone is the
model's choice: past their argument checks it refuses them (log 13), where R340, R334 and R335 let the real commands end with
other codes. -/
def Obligations.StatusesByCommand : Prop :=
  ∀ (i : Instr) (s t : State), exec i s = .next t →
    match i with
    | .sysReset => t.status = .ok
    | .brInit _ | .brRead _ | .brGetbool _ | .bwInit | .hufDecode _ | .pteSetimg | .ptePredFwd _ | .ptePredInv _
    | .pteSubgFwd | .pteSubgInv | .pteXcolFwd _ | .pteXcolInv _ | .ptePalFwd | .ptePalInv | .muxDestroy =>
      t.status ∈ [.ok, .invalidArgument]
    | .bwPut _ | .bwFinalize | .muxSet _ => t.status ∈ [.ok, .invalidArgument, .allocationFailure]
    | .hufBuild _ => t.status ∈ [.ok, .invalidArgument, .malformedTable]
    | .hufReadlengths => t.status ∈ [.ok, .invalidArgument, .malformedTable, .truncatedStream]
    | .muxNew => t.status ∈ [.ok, .unsupportedVersion]
    | .muxGet | .muxDelete | .muxFetch => t.status ∈ [.ok, .invalidArgument, .notFound]
    | .muxPush _ => t.status ∈ [.ok, .invalidArgument, .duplicateChunk, .allocationFailure]
    | .muxAssemble => t.status ∈ [.ok, .invalidArgument, .notFound, .allocationFailure]
    | .muxParse _ =>
      t.status ∈ [.ok, .invalidArgument, .unsupportedVersion, .truncatedStream, .duplicateChunk, .allocationFailure, .notFound]
    | .codecDecode | .codecEncode => t.status = .invalidArgument

/-- R71, R341: a region that passes 2^AW ends the command with InvalidArgument and nothing else. MUX.FETCH checks the
region of its destination only when its record is present (R288). -/
def Obligations.RegionPastEndIsInvalidArgument : Prop :=
  ∀ (i : Instr) (s : State) (p : Nat × Nat), p ∈ operandSpans i s → 2 ^ s.cfg.aw < p.1 + p.2 →
    (i = .muxFetch → (s.mux.record s.arg0.toNat).present = true) →
      exec i s = .next { s with status := .invalidArgument, res0 := 0, res1 := 0 }

/-- R21, R24, R62, R208: what each command may change, and that it changes nothing else: the frame of all thirty commands.
The argument registers and CMD change in none but SYS.RESET, which keeps CMD. That the CODEC commands change STATUS and RES
alone is the model's choice: past their argument checks it refuses them (log 13), where R334 and R335 let the real commands
change BR, BW, HT and PTE. -/
def Obligations.CommandsChangeOnlyTheirUnit : Prop :=
  ∀ (i : Instr) (s t : State), exec i s = .next t →
    let done (u : State) : State := { u with status := t.status, res0 := t.res0, res1 := t.res1 }
    match i with
    | .sysReset => t.cmd = s.cmd ∧ t.cfg = s.cfg ∧ t.host = s.host ∧ t.hostData = s.hostData ∧ t.tick = s.tick
    | .brInit _ => t = done { s with br := t.br }
    | .brRead _ | .hufDecode _ => t = done { s with br := { s.br with pos := t.br.pos, eos := t.br.eos } }
    | .brGetbool _ =>
      t = done { s with br := { s.br with pos := t.br.pos, eos := t.br.eos, range := t.br.range, value := t.br.value } }
    | .hufReadlengths => t = done { s with br := { s.br with pos := t.br.pos, eos := t.br.eos }, mem := t.mem }
    | .bwInit => t = done { s with bw := t.bw, mem := t.mem }
    | .bwPut _ =>
      t = done { s with bw := { s.bw with cap := t.bw.cap, pos := t.bw.pos, bits := t.bw.bits, err := t.bw.err } }
    | .bwFinalize => t = done { s with bw := { s.bw with final := t.bw.final }, mem := t.mem }
    | .hufBuild k => t = done { s with ht := t.ht } ∧ t.ht.length = s.ht.length ∧ ∀ u, u ≠ k.toNat → t.slot u = s.slot u
    | .pteSetimg => t = done { s with pte := t.pte }
    | .ptePredFwd _ | .ptePredInv _ | .pteSubgFwd | .pteSubgInv | .pteXcolFwd _ | .pteXcolInv _ | .ptePalFwd | .ptePalInv
    | .muxAssemble | .muxFetch => t = done { s with mem := t.mem }
    | .muxNew | .muxSet _ | .muxDelete | .muxPush _ | .muxParse _ | .muxDestroy => t = done { s with mux := t.mux }
    | .muxGet | .codecDecode | .codecEncode => t = done s

/-- R62, R348, R371: the memory frame of all thirty commands: every byte outside the region a command writes reads as before,
and every byte of it too when the command ends with an error. A byte that the writer's region holds at any value, before the
command or (BW.INIT) after it, is left out: no agent reads one value there (R30, log 4). That a CODEC command that ends
writes no byte is the model's choice: past the argument checks it refuses them (log 13), where R334, R335 and R348 let the
real commands write their destination. The two commands that write payloads out need the store's invariant (R294), which says
how many bytes those are. -/
def Obligations.CommandsKeepMemoryOutsideDestination : Prop :=
  ∀ (i : Instr) (s t : State), exec i s = .next t → (i = .muxAssemble ∨ i = .muxFetch → s.mux.Inv s.cfg) →
    ∀ a, ¬InSpan (destination i s) a ∨ t.status ≠ .ok → s.bw.holds a = false → (i = .bwInit → t.bw.holds a = false) →
      t.readByte a = s.readByte a

/-- R7, R38: no step changes a parameter. -/
def Obligations.NoStepChangesParameters : Prop := ∀ s t : State, step s = .next t → t.cfg = s.cfg

/-! The bit reader (spec/40_bitreader.md). -/

/-- R133, R64, R65, R39: the stream bits of both modes. At and past the end they are 0. Inside the view they are the byte's
bits in the mode's order; from a byte the host has written since BR.INIT, each is the bit of one of the values the byte has
had. -/
def Obligations.StreamBits : Prop :=
  ∀ (s : State) (i : Nat),
    (8 * s.br.len.toNat ≤ i → s.bitLsb i = false ∧ s.bitMsb i = false) ∧
    (i < 8 * s.br.len.toNat → (∀ c ∈ s.br.stale, c.1 ≠ s.br.base.toNat + i / 8) →
      s.bitLsb i = (s.readByte (s.br.base.toNat + i / 8)).getLsbD (i % 8) ∧
        s.bitMsb i = (s.readByte (s.br.base.toNat + i / 8)).getLsbD (7 - i % 8)) ∧
    (i < 8 * s.br.len.toNat →
      (s.bitLsb i = (s.readByte (s.br.base.toNat + i / 8)).getLsbD (i % 8) ∨
        ∃ c ∈ s.br.stale, c.1 = s.br.base.toNat + i / 8 ∧ s.bitLsb i = c.2.getLsbD (i % 8)) ∧
      (s.bitMsb i = (s.readByte (s.br.base.toNat + i / 8)).getLsbD (7 - i % 8) ∨
        ∃ c ∈ s.br.stale, c.1 = s.br.base.toNat + i / 8 ∧ s.bitMsb i = c.2.getLsbD (7 - i % 8)))

/-- R138: BR.INIT. In range mode the value is the first byte of the view, or 0 when there is none. With AW below 32 the
registers hold a base or a length of 2^AW itself whole, which is the model's choice (log 2). -/
def Obligations.BrInitRule : Prop :=
  ∀ s : State,
    (2 ^ s.cfg.aw < s.arg0.toNat + s.arg1.toNat → ∀ mode, exec (.brInit mode) s = .next (s.raised .invalidArgument)) ∧
    (s.arg0.toNat + s.arg1.toNat ≤ 2 ^ s.cfg.aw →
      exec (.brInit .plain) s = .next
        ({ s with br :=
            { bound := true, mode := .plain, base := s.arg0, len := s.arg1, pos := 0, eos := false, range := 0, value := 0,
              stale := [] } }.finish 0 0)) ∧
    (s.arg0.toNat + s.arg1.toNat ≤ 2 ^ s.cfg.aw → (s.arg1 ≠ 0 → s.Backed s.arg0.toNat) →
      exec (.brInit .range) s = .next
        ({ s with br :=
            { bound := true, mode := .range, base := s.arg0, len := s.arg1, pos := 8, eos := decide (s.arg1 = 0), range := 254,
              value := if s.arg1 = 0 then 0 else s.readByte s.arg0.toNat, stale := [] } }.finish 0
          (if s.arg1 = 0 then 1 else 0)))

/-- R140, R134 to R136: BR.READ, for every n and every position. The result's bit k is the stream's bit at the old position
plus k, the position saturates at 2^POSW - 1, and RES[1] is the flag after the advance. -/
def Obligations.BrReadRule : Prop :=
  ∀ (n : BitVec 8) (s : State),
    (s.br.bound = false ∨ s.br.mode = .range ∨ 24 < n.toNat → exec (.brRead n) s = .next (s.raised .invalidArgument)) ∧
    (s.br.bound = true → s.br.mode = .plain → n.toNat ≤ 24 → s.ViewBacked s.br.pos.toNat (s.br.pos.toNat + n.toNat) →
      let pos := min (s.br.pos.toNat + n.toNat) (2 ^ (s.cfg.aw + 4) - 1)
      let eos := decide (8 * s.br.len.toNat < pos)
      ∃ v : Reg,
        exec (.brRead n) s = .next
          ({ s with br := { s.br with pos := BitVec.ofNat 64 pos, eos := eos } }.finish v (if eos then 1 else 0)) ∧
        ∀ k, v.getLsbD k = (decide (k < n.toNat) && s.bitLsb (s.br.pos.toNat + k)))

/-- R145: the renormalisation shifts, and what they bring the range to. -/
def Obligations.NormShiftTable : Prop :=
  ∀ r < Config.normTable, normShift r = (if 127 ≤ r then 0 else 7 - Nat.log2 (r + 1)) ∧
    (r < 127 → 128 ≤ (r + 1) * 2 ^ normShift r ∧ (r + 1) * 2 ^ normShift r ≤ 255)

/-- R146, R137, R65: BR.GETBOOL, for every probability. The renormalisation shifts the value left by `k` and fills the `k`
low bits with the next bits of the range stream, the first of them uppermost. The premise on the range is the reader's
invariant (R147). -/
def Obligations.BrGetboolRule : Prop :=
  ∀ (prob : BitVec 8) (s : State),
    (s.br.bound = false ∨ s.br.mode = .plain → exec (.brGetbool prob) s = .next (s.raised .invalidArgument)) ∧
    (s.br.bound = true → s.br.mode = .range → s.br.Inv s.cfg →
      let split := s.br.range.toNat * prob.toNat / 256
      let bit := decide (split < s.br.value.toNat)
      let range := if bit then s.br.range.toNat - split - 1 else split
      let value := if bit then s.br.value.toNat - split - 1 else s.br.value.toNat
      let k := if range < 127 then 7 - Nat.log2 (range + 1) else 0
      let pos := min (s.br.pos.toNat + k) (2 ^ (s.cfg.aw + 4) - 1)
      let eos := decide (8 * s.br.len.toNat < pos)
      s.ViewBacked s.br.pos.toNat (s.br.pos.toNat + k) →
        ∃ v : Byte,
          (∀ b < 8, v.getLsbD b =
            if b < k then s.bitMsb (s.br.pos.toNat + (k - 1 - b)) else value.testBit (b - k)) ∧
          exec (.brGetbool prob) s = .next
            ({ s with br := { s.br with
                pos := BitVec.ofNat 64 pos, eos := eos, range := BitVec.ofNat 8 ((range + 1) * 2 ^ k - 1)
                value := v } }.finish (if bit then 1 else 0) (if eos then 1 else 0)))

/-- R147: a value not above the range stays not above it, and the range stays normalised. -/
def Obligations.RangeValueStaysInRange : Prop :=
  ∀ (prob : BitVec 8) (s t : State), s.br.bound = true → s.br.mode = .range → s.br.Inv s.cfg →
    s.br.value.toNat ≤ s.br.range.toNat → exec (.brGetbool prob) s = .next t →
      t.br.value.toNat ≤ t.br.range.toNat ∧ 127 ≤ t.br.range.toNat ∧ t.br.range.toNat ≤ 254

/-! The bit writer (spec/41_bitwriter.md). -/

/-- R162: BW.INIT. It writes no memory; the region of the writer it unbinds, where it held any value, is given up (R80). With
AW below 32 the registers hold a base or a limit of 2^AW itself whole, which is the model's choice (log 2). -/
def Obligations.BwInitRule : Prop :=
  ∀ s : State,
    (2 ^ s.cfg.aw < s.arg0.toNat + s.arg2.toNat ∨ s.arg2.toNat < s.arg1.toNat →
      exec .bwInit s = .next (s.raised .invalidArgument)) ∧
    (s.arg0.toNat + s.arg2.toNat ≤ 2 ^ s.cfg.aw → s.arg1.toNat ≤ s.arg2.toNat →
      ∃ m, exec .bwInit s = .next
          ({ s with
              bw := { bound := true, final := false, err := false, base := s.arg0, cap := s.arg1, limit := s.arg2, pos := 0,
                      bits := [] }
              mem := m }.finish 0 0) ∧
        ∀ a, s.bw.holds a = false → m.read a = s.mem.read a)

/-- R165, R166, R168, R344, R346: BW.PUT, for every n. A writer in error answers AllocationFailure for every n, and only then
is n above 24 InvalidArgument: that order of the two checks, R346's over the order of R165's lines, is the model's choice
(log 17). -/
def Obligations.BwPutRule : Prop :=
  ∀ (n : BitVec 8) (s : State),
    let needed := (s.bw.pos.toNat + n.toNat + 7) / 8
    (s.bw.bound = false ∨ s.bw.final = true → exec (.bwPut n) s = .next (s.raised .invalidArgument)) ∧
    (s.bw.bound = true → s.bw.final = false →
      (s.bw.err = true → exec (.bwPut n) s = .next (s.raised .allocationFailure)) ∧
      (s.bw.err = false → 24 < n.toNat → exec (.bwPut n) s = .next (s.raised .invalidArgument)) ∧
      (s.bw.err = false → n = 0 → exec (.bwPut n) s = .next (s.finish 0 0)) ∧
      (s.bw.err = false → n ≠ 0 → n.toNat ≤ 24 → s.bw.cap.toNat < needed → s.bw.limit.toNat < needed →
        exec (.bwPut n) s = .next ({ s with bw := { s.bw with err := true } }.raised .allocationFailure)) ∧
      (s.bw.err = false → n ≠ 0 → n.toNat ≤ 24 → needed ≤ s.bw.cap.toNat ∨ needed ≤ s.bw.limit.toNat →
        exec (.bwPut n) s = .next
          ({ s with bw := { s.bw with
              cap := if needed ≤ s.bw.cap.toNat then s.bw.cap
                else BitVec.ofNat 64 (min s.bw.limit.toNat (max (2 * s.bw.cap.toNat) needed))
              bits := s.bw.bits ++ (List.range n.toNat).map s.arg0.getLsbD
              pos := BitVec.ofNat 64 (s.bw.pos.toNat + n.toNat) } }.finish 0 0)))

/-- R168, R344, R346: the writer's error is sticky: whatever commands come, until BW.INIT or SYS.RESET, it stays and it
refuses every BW.PUT and BW.FINALIZE with AllocationFailure. That a BW.PUT with n above 24 is AllocationFailure then too is
the model's choice (log 17): the lines of R165 give InvalidArgument there, R346's order of checks AllocationFailure. -/
def Obligations.WriterErrorIsSticky : Prop :=
  ∀ (i : Instr) (s t : State), s.bw.bound = true → s.bw.final = false → s.bw.err = true → i ≠ .bwInit → i ≠ .sysReset →
    exec i s = .next t →
      (t.bw.bound = true ∧ t.bw.final = false ∧ t.bw.err = true) ∧
        (∀ n : BitVec 8, exec (.bwPut n) t = .next (t.raised .allocationFailure)) ∧
        exec .bwFinalize t = .next (t.raised .allocationFailure)

/-- R169, R170: BW.FINALIZE. The bytes are the stream's bits in order, padded with 0; every agent reads them from now on, and
every other address reads as before, where the writer's region does not hold any value (R30, log 4). -/
def Obligations.BwFinalizeRule : Prop :=
  ∀ s : State,
    let nbytes := (s.bw.pos.toNat + 7) / 8
    (s.bw.bound = false ∨ s.bw.final = true → exec .bwFinalize s = .next (s.raised .invalidArgument)) ∧
    (s.bw.bound = true → s.bw.final = false → s.bw.err = true →
      exec .bwFinalize s = .next (s.raised .allocationFailure)) ∧
    (s.bw.bound = true → s.bw.final = false → s.bw.err = false → s.Accessible [(s.bw.base.toNat, nbytes)] →
      ∃ m t, t = { s with mem := m, bw := { s.bw with final := true } }.finish (BitVec.ofNat 64 nbytes)
          (BitVec.ofNat 64 ((8 - s.bw.pos.toNat % 8) % 8)) ∧
        exec .bwFinalize s = .next t ∧
        (∀ j < nbytes, ∀ k < 8, (t.readByte (s.bw.base.toNat + j)).getLsbD k =
          (decide (8 * j + k < s.bw.pos.toNat) && s.bw.bits.getD (8 * j + k) false)) ∧
        ∀ a, ¬InSpan (s.bw.base.toNat, nbytes) a → s.bw.holds a = false → t.readByte a = s.readByte a)

/-- R150, R172: fields written with BW.PUT, finalised, and read back with BR.READ in a plain view of the finalised bytes give
the low bits of what was written, in order, with the degraded-mode flag clear all along, for all legal parameters (log 2). -/
def Obligations.WriterReaderRoundTrip : Prop :=
  ∀ (fields : List (BitVec 8 × Reg)) (s : State),
    s.cfg.Legal → s.bw.bound = true → s.bw.final = false → s.bw.err = false → s.bw.pos = 0 → s.bw.bits = [] →
    s.bw.Inv s.cfg →
    (∀ f ∈ fields, f.1.toNat ≤ 24) → (fields.map fun f => f.1.toNat).sum ≤ 8 * s.bw.limit.toNat →
    s.Accessible [(s.bw.base.toNat, s.bw.limit.toNat)] →
      ∃ t u w, putFields fields s = .next t ∧ exec .bwFinalize t = .next u ∧
        exec (.brInit .plain) { u with arg0 := s.bw.base, arg1 := u.res0 } = .next w ∧
        readFields (fields.map fun f => f.1) w =
          some (fields.map fun f => (BitVec.ofNat 64 (f.2.toNat % 2 ^ f.1.toNat), false))

/-! The Huffman unit (spec/42_huffman.md). -/

/-- R182, R183, R187: HUF.BUILD. The lengths are legal when none is above 15 and the present ones fill the code space
exactly; then the slot holds the table of their canonical code, else it is left invalid. With R the root width, the table has
2^R root entries and, for each root index that no word of at most R bits reaches (a link), 2^(w_i) second-level entries, laid
out in the order of the links' reversed indices. -/
def Obligations.HufBuildRule : Prop :=
  ∀ (slot : BitVec 4) (s : State),
    let lens := byteNats (s.readBytes s.arg0.toNat s.arg1.toNat)
    let legal := (∀ l ∈ lens, l ≤ 15) ∧ ((lens.filter fun l => l ≠ 0).map fun l => 2 ^ (15 - l)).sum = 2 ^ 15
    let r := s.cfg.rootBits
    let code := canonicalCode lens
    let rev (l v : Nat) : Nat := ((List.range l).map fun i => (v.testBit (l - 1 - i)).toNat * 2 ^ i).sum
    let key (w : CodeWord) : Nat := rev w.len w.code
    let below (i : Nat) : List CodeWord := code.filter fun w => r < w.len ∧ key w % 2 ^ r = i
    let width (i : Nat) : Nat := ((below i).map fun w => w.len - r).foldr max 0
    let links := (List.range (2 ^ r)).filter fun i => ∀ w ∈ code, w.len ≤ r → i % 2 ^ w.len ≠ key w
    let base (i : Nat) : Nat := 2 ^ r + ((links.filter fun j => rev r j < rev r i).map fun j => 2 ^ width j).sum
    let entry (nbits value : Nat) : Entry := ⟨BitVec.ofNat 5 nbits, BitVec.ofNat 16 value⟩
    (s.cfg.nt ≤ slot.toNat ∨ s.arg1.toNat = 0 ∨ 65536 < s.arg1.toNat ∨ 2 ^ s.cfg.aw < s.arg0.toNat + s.arg1.toNat →
      exec (.hufBuild slot) s = .next (s.raised .invalidArgument)) ∧
    (slot.toNat < s.cfg.nt → 1 ≤ s.arg1.toNat → s.arg1.toNat ≤ 65536 → s.Accessible [(s.arg0.toNat, s.arg1.toNat)] →
      (¬legal → exec (.hufBuild slot) s = .next
        ({ s with ht := s.ht.set slot.toNat { s.slot slot.toNat with valid := false } }.raised .malformedTable)) ∧
      (legal → ∃ es : List Entry,
        exec (.hufBuild slot) s = .next
          ({ s with ht := s.ht.set slot.toNat (Slot.mk true (BitVec.ofNat 17 es.length) es) }.finish
            (BitVec.ofNat 64 es.length) 0) ∧
        es.length = 2 ^ r + (links.map fun i => 2 ^ width i).sum ∧
        (∀ i < 2 ^ r, ∀ w ∈ code, w.len ≤ r → i % 2 ^ w.len = key w → es[i]? = some (entry w.len w.sym)) ∧
        (∀ i ∈ links, es[i]? = some (entry (r + width i) (base i))) ∧
        (∀ i ∈ links, ∀ j < 2 ^ width i, ∃ w ∈ below i,
          j % 2 ^ (w.len - r) = key w / 2 ^ r % 2 ^ (w.len - r) ∧ es[base i + j]? = some (entry (w.len - r) w.sym))))

/-- R185: the canonical code of a legal length array: every present symbol has one word of its length, in the order of
(length, symbol); the first is all zeros, each next one is the successor shifted to its length, the last is all ones. -/
def Obligations.CanonicalCodeRule : Prop :=
  ∀ lens : List Nat, validLengths lens = true →
    (∀ sym len, (∃ code, (⟨sym, len, code⟩ : CodeWord) ∈ canonicalCode lens) ↔ lens[sym]? = some len ∧ len ≠ 0) ∧
    (canonicalCode lens).Pairwise (fun v w => v.len < w.len ∨ v.len = w.len ∧ v.sym < w.sym) ∧
    (∀ w, (canonicalCode lens).head? = some w → w.code = 0) ∧
    (∀ k v w, (canonicalCode lens)[k]? = some v → (canonicalCode lens)[k + 1]? = some w →
      w.code = (v.code + 1) * 2 ^ (w.len - v.len)) ∧
    (∀ w, (canonicalCode lens).getLast? = some w → w.code = 2 ^ w.len - 1)

/-- R184: a length above 15, an empty set, a single present symbol, and a set that over- or underfills the code space are
malformed; a legal set has two present symbols at least. -/
def Obligations.BadLengthsAreMalformed : Prop :=
  ∀ (r : Nat) (lens : List Nat),
    let present := lens.filter fun l => l ≠ 0
    ((∃ l ∈ lens, 15 < l) ∨ present.length ≤ 1 ∨ (present.map fun l => 2 ^ (15 - l)).sum ≠ 2 ^ 15 →
      buildTable r lens = none) ∧
    (buildTable r lens ≠ none → 2 ≤ present.length)

/-- R191, R192: HUF.DECODE. A root entry of at most ROOT_BITS bits is a leaf; a longer one links to a second-level table,
which the bits after the root's index. -/
def Obligations.HufDecodeRule : Prop :=
  ∀ (slot : BitVec 4) (s : State),
    let r := s.cfg.rootBits
    let es := (s.slot slot.toNat).entries
    let e := entryAt es (brPeek s.bitLsb s.br.pos.toNat r)
    let br1 := s.br.skip s.cfg r
    let e2 := entryAt es (e.value.toNat + brPeek s.bitLsb br1.pos.toNat (e.nbits.toNat - r))
    (s.cfg.nt ≤ slot.toNat ∨ s.br.bound = false ∨ s.br.mode = .range ∨ (s.slot slot.toNat).valid = false →
      exec (.hufDecode slot) s = .next (s.raised .invalidArgument)) ∧
    (slot.toNat < s.cfg.nt → s.br.bound = true → s.br.mode = .plain → (s.slot slot.toNat).valid = true →
      (e.nbits.toNat ≤ r → s.ViewBacked s.br.pos.toNat (s.br.pos.toNat + r) →
        exec (.hufDecode slot) s = .next
          ({ s with br := s.br.skip s.cfg e.nbits.toNat }.finish (e.value.setWidth 64) (e.nbits.setWidth 64))) ∧
      (r < e.nbits.toNat → s.ViewBacked s.br.pos.toNat (br1.pos.toNat + (e.nbits.toNat - r)) →
        exec (.hufDecode slot) s = .next
          ({ s with br := br1.skip s.cfg e2.nbits.toNat }.finish (e2.value.setWidth 64)
            (BitVec.ofNat 64 (r + e2.nbits.toNat)))))

/-- R193, R186: for every legal length array and every ROOT_BITS, a slot HUF.BUILD has filled decodes each symbol's code word,
fed through the reader, to the symbol and its length, whatever bits follow. -/
def Obligations.HufDecodeInvertsCode : Prop :=
  ∀ (slot : BitVec 4) (s t u : State) (w : CodeWord), s.cfg.Legal → s.SlotsInv →
    exec (.hufBuild slot) s = .next t → t.status = .ok →
    u.cfg = s.cfg → u.slot slot.toNat = t.slot slot.toNat → u.br.bound = true → u.br.mode = .plain →
    w ∈ canonicalCode (byteNats (s.readBytes s.arg0.toNat s.arg1.toNat)) → u.br.pos.toNat + 15 < 2 ^ (s.cfg.aw + 4) →
    u.ViewBacked u.br.pos.toNat (u.br.pos.toNat + 15) →
    (∀ k < w.len, u.bitLsb (u.br.pos.toNat + k) = w.code.testBit (w.len - 1 - k)) →
      exec (.hufDecode slot) u = .next
        ({ u with br := u.br.skip u.cfg w.len }.finish (BitVec.ofNat 64 w.sym) (BitVec.ofNat 64 w.len))

/-- R199 to R206: HUF.READLENGTHS, in the bits of the stream from the position on. `cl` is the code-length code's length
array as the header gives it (R200, R201); `h` is the first bit after the header, the token limit's flag (R203); `start` is
the first bit of the first token. The command stops at the header when `cl` is malformed, at the limit when it is above the
number of lengths, and at a run that passes that number; else it ends when all lengths are filled or the limit is used up,
with 0 for the lengths not reached (R204). Whenever the flag for the end of the view is set there, it ends with
TruncatedStream (R205). On every error nothing is stored and the reader stays where it got to. A table lookup peeks at most
15 bits past the bits used. A bit that more than one lookup peeks at counts as one value within the command, also where the
byte holds any value or the host has written it (the model's choice, logs 4 and 6). -/
def Obligations.HufReadlengthsRule : Prop :=
  ∀ s : State,
    let n := s.arg1.toNat
    let p := s.br.pos.toNat
    let bit (j : Nat) : Bool := s.bitLsb (p + j)
    let cl := headerLengths bit
    let code := canonicalCode cl
    let legal := ((cl.filter fun l => l ≠ 0).map fun l => 2 ^ (15 - l)).sum = 2 ^ 15
    let h := 4 + 3 * (4 + fieldAt bit 0 4)
    let nb := 2 + 2 * fieldAt bit (h + 1) 3
    let limit := if bit h then 2 + fieldAt bit (h + 4) nb else n
    let start := if bit h then h + 4 + nb else h + 1
    let ended (j : Nat) : State := { s with br := s.br.skip s.cfg j }
    let stops (j : Nat) : Prop := exec .hufReadlengths s =
      .next ((ended j).raised (if (ended j).br.eos then .truncatedStream else .malformedTable))
    (s.br.bound = false ∨ s.br.mode = .range ∨ n = 0 ∨ 65536 < n ∨ 2 ^ s.cfg.aw < s.arg0.toNat + n →
      exec .hufReadlengths s = .next (s.raised .invalidArgument)) ∧
    (s.cfg.Legal → s.br.Inv s.cfg → s.br.bound = true → s.br.mode = .plain → 1 ≤ n → n ≤ 65536 →
        s.arg0.toNat + n ≤ 2 ^ s.cfg.aw →
      (¬legal → s.ViewBacked p (p + h) → stops h) ∧
      (legal → n < limit → s.ViewBacked p (p + start) → stops start) ∧
      (legal → limit ≤ n →
        (∃ (count : Nat) (run : Nat → TokenState), count ≤ limit ∧ TokenRun bit code n start count run ∧
          ((run count).out.length = n ∨ count = limit ∨
            ∃ past, TokenStep bit code (run count) past ∧ n < past.out.length)) ∧
        ∀ (count : Nat) (run : Nat → TokenState), count ≤ limit → TokenRun bit code n start count run →
          let last := run count
          let out := last.out ++ List.replicate (n - last.out.length) 0
          (∀ past, last.out.length < n → count < limit → TokenStep bit code last past → n < past.out.length →
            s.ViewBacked p (p + past.pos + 15) → stops past.pos) ∧
          (last.out.length = n ∨ count = limit → s.ViewBacked p (p + last.pos + 15) →
            ((ended last.pos).br.eos = true →
              exec .hufReadlengths s = .next ((ended last.pos).raised .truncatedStream)) ∧
            ((ended last.pos).br.eos = false → s.Accessible [(s.arg0.toNat, n)] →
              ∃ t, exec .hufReadlengths s = .next (t.finish (BitVec.ofNat 64 count) 0) ∧
                (ended last.pos).Stores t s.arg0.toNat (out.map fun l => BitVec.ofNat 8 l) ∧ out.length = n))))

/-- R206, R204, R201: for every bit stream, the code-length code's lengths are at most CL_MAXLEN, and a description that is
read in full gives lengths of 0 to 15, one for each symbol, and no more tokens than symbols. -/
def Obligations.ReadLengthsAreLegal : Prop :=
  ∀ (bit : Nat → Bool) (c : Config) (n : Nat) (br : Reader),
    (∀ syms, ∀ l ∈ clLengths (readClLengths bit c syms br).1, l ≤ Config.clMaxLen) ∧
    ∀ (out : List Nat) (tokens : Nat), (readDescription bit c n br).lengths = some (out, tokens) →
      out.length = n ∧ (∀ l ∈ out, l ≤ 15) ∧ tokens ≤ n

/-! The pixel transforms (spec/43_pixel_transforms.md). -/

/-- R222: PTE.SETIMG. -/
def Obligations.PteSetimgRule : Prop :=
  ∀ s : State,
    (s.arg0 = 0 ∨ 16384 < s.arg0.toNat ∨ s.arg1 = 0 ∨ 16384 < s.arg1.toNat →
      exec .pteSetimg s = .next (s.raised .invalidArgument)) ∧
    (1 ≤ s.arg0.toNat → s.arg0.toNat ≤ 16384 → 1 ≤ s.arg1.toNat → s.arg1.toNat ≤ 16384 →
      exec .pteSetimg s = .next
        ({ s with pte :=
            { valid := true, w := BitVec.ofNat 15 s.arg0.toNat, h := BitVec.ofNat 15 s.arg1.toNat } }.finish 0 0))

/-- R224 to R228, R230: the pixel arithmetic channel by channel, and the fourteen predictor modes. -/
def Obligations.PredictorFunctions : Prop :=
  (∀ (p q r : Word), ∀ ch ∈ [chA, chR, chG, chB],
    ch (addPx p q) = ch p + ch q ∧ ch (subPx p q) = ch p - ch q ∧
    (ch (average2 p q)).toNat = ((ch p).toNat + (ch q).toNat) / 2 ∧
    ((ch (clampedAddSubtractFull p q r)).toNat : Int) = max 0 (min 255 ((ch p).toNat + (ch q).toNat - (ch r).toNat)) ∧
    ((ch (clampedAddSubtractHalf p q)).toNat : Int) =
      max 0 (min 255 ((ch p).toNat + Int.tdiv ((ch p).toNat - (ch q).toNat) 2))) ∧
  (∀ l t tl : Word,
    let far (p : Word) : Nat :=
      ([chA, chR, chG, chB].map fun ch => (((ch p).toNat : Int) - ((ch tl).toNat : Int)).natAbs).sum
    select l t tl = if far t < far l then l else t) ∧
  (∀ l t tl tr : Word,
    predict 0 l t tl tr = 0xFF000000 ∧ predict 1 l t tl tr = l ∧ predict 2 l t tl tr = t ∧ predict 3 l t tl tr = tr ∧
    predict 4 l t tl tr = tl ∧ predict 5 l t tl tr = average2 (average2 l tr) t ∧ predict 6 l t tl tr = average2 l tl ∧
    predict 7 l t tl tr = average2 l t ∧ predict 8 l t tl tr = average2 tl t ∧ predict 9 l t tl tr = average2 t tr ∧
    predict 10 l t tl tr = average2 (average2 l tl) (average2 t tr) ∧ predict 11 l t tl tr = select l t tl ∧
    predict 12 l t tl tr = clampedAddSubtractFull l t tl ∧
    predict 13 l t tl tr = clampedAddSubtractHalf (average2 l t) tl)

/-- R231, R232: the neighbours of a pixel and the boundary fallbacks; at the right edge the top right neighbour is the first
pixel of the current row. -/
def Obligations.PredictorNeighbours : Prop :=
  ∀ (w : Nat) (img : List Word) (mode x y : Nat), x < w →
    let at_ (x y : Nat) : Word := img.getD (y * w + x) 0
    predAt w img mode 0 0 = 0xFF000000 ∧
    (0 < x → predAt w img mode x 0 = at_ (x - 1) 0) ∧
    (0 < y → predAt w img mode 0 y = at_ 0 (y - 1)) ∧
    (0 < x → 0 < y → predAt w img mode x y =
      predict mode (at_ (x - 1) y) (at_ x (y - 1)) (at_ (x - 1) (y - 1))
        (if x + 1 < w then at_ (x + 1) (y - 1) else at_ 0 y))

/-- R236, R237, R223, R233: the two predictor commands. The forward one predicts every pixel from the input, the inverse one
from the image it reconstructs; a mode above 13 anywhere in the mode array, a missing image and a region past the end are
InvalidArgument. -/
def Obligations.PredictorCommandsRule : Prop :=
  ∀ (tb : BitVec 4) (s : State),
    let w := s.imgW
    let h := s.imgH
    let side := 2 ^ tb.toNat
    let across := (w + side - 1) / side
    let modes := s.readBytes s.arg2.toNat (across * ((h + side - 1) / side))
    let mode (x y : Nat) : Nat := (s.readByte (s.arg2.toNat + (y / side * across + x / side))).toNat
    let reads := [(s.arg0.toNat, 4 * w * h), (s.arg2.toNat, across * ((h + side - 1) / side))]
    let dst := (s.arg1.toNat, 4 * w * h)
    let pixel (x y : Nat) : Word := s.readPixel (s.arg0.toNat + 4 * (y * w + x))
    (s.pte.valid = false ∨ (∃ p ∈ reads ++ [dst], 2 ^ s.cfg.aw < p.1 + p.2) ∨
        (s.Accessible reads ∧ ∃ m ∈ modes, 13 < m.toNat) →
      exec (.ptePredFwd tb) s = .next (s.raised .invalidArgument) ∧
        exec (.ptePredInv tb) s = .next (s.raised .invalidArgument)) ∧
    (s.pte.valid = true → (∀ p ∈ reads ++ [dst], p.1 + p.2 ≤ 2 ^ s.cfg.aw) → s.Accessible (reads ++ [dst]) →
        (∀ m ∈ modes, m.toNat ≤ 13) →
      (∃ t out, exec (.ptePredFwd tb) s = .next (t.finish 0 0) ∧ s.Stores t s.arg1.toNat (pixelBytes out) ∧
        out.length = w * h ∧ ∀ x < w, ∀ y < h,
          out.getD (y * w + x) 0 = subPx (pixel x y) (predAt w s.srcImage (mode x y) x y)) ∧
      (∃ t out, exec (.ptePredInv tb) s = .next (t.finish 0 0) ∧ s.Stores t s.arg1.toNat (pixelBytes out) ∧
        out.length = w * h ∧ ∀ x < w, ∀ y < h,
          out.getD (y * w + x) 0 = addPx (pixel x y) (predAt w out (mode x y) x y)))

/-- R238: for every image, mode array and tile size, the inverse predictor undoes the forward one, and the forward one the
inverse. -/
def Obligations.PredictorRoundTrip : Prop :=
  ∀ (w h tb : Nat) (modes : List Nat) (img : List Word), img.length = w * h →
    predInverse w h tb modes (predForward w h tb modes img) = img ∧
      predForward w h tb modes (predInverse w h tb modes img) = img

/-- R240, R241, R223: the two subtract-green commands, each of which undoes the other pixel by pixel. -/
def Obligations.SubtractGreenRule : Prop :=
  ∀ s : State,
    let w := s.imgW
    let h := s.imgH
    let spans := [(s.arg0.toNat, 4 * w * h), (s.arg1.toNat, 4 * w * h)]
    let pixel (x y : Nat) : Word := s.readPixel (s.arg0.toNat + 4 * (y * w + x))
    let fwd (p : Word) : Word := argb (chA p) (chR p - chG p) (chG p) (chB p - chG p)
    let inv (p : Word) : Word := argb (chA p) (chR p + chG p) (chG p) (chB p + chG p)
    (s.pte.valid = false ∨ (∃ p ∈ spans, 2 ^ s.cfg.aw < p.1 + p.2) →
      exec .pteSubgFwd s = .next (s.raised .invalidArgument) ∧ exec .pteSubgInv s = .next (s.raised .invalidArgument)) ∧
    (s.pte.valid = true → (∀ p ∈ spans, p.1 + p.2 ≤ 2 ^ s.cfg.aw) → s.Accessible spans →
      (∃ t out, exec .pteSubgFwd s = .next (t.finish 0 0) ∧ s.Stores t s.arg1.toNat (pixelBytes out) ∧
        out.length = w * h ∧ ∀ x < w, ∀ y < h, out.getD (y * w + x) 0 = fwd (pixel x y)) ∧
      (∃ t out, exec .pteSubgInv s = .next (t.finish 0 0) ∧ s.Stores t s.arg1.toNat (pixelBytes out) ∧
        out.length = w * h ∧ ∀ x < w, ∀ y < h, out.getD (y * w + x) 0 = inv (pixel x y))) ∧
    ∀ p : Word, inv (fwd p) = p ∧ fwd (inv p) = p

/-- R242, R243, R245, R246, R223: the two cross-colour commands. The delta is the signed product of multiplier and channel,
floor-divided by 32, modulo 256; the inverse corrects blue by the red it has just restored. With the same triple each undoes
the other pixel by pixel. -/
def Obligations.CrossColourRule : Prop :=
  ∀ (tb : BitVec 4) (s : State),
    let w := s.imgW
    let h := s.imgH
    let side := 2 ^ tb.toNat
    let across := (w + side - 1) / side
    let spans := [(s.arg0.toNat, 4 * w * h), (s.arg2.toNat, 3 * (across * ((h + side - 1) / side))),
      (s.arg1.toNat, 4 * w * h)]
    let pixel (x y : Nat) : Word := s.readPixel (s.arg0.toNat + 4 * (y * w + x))
    let mult (x y k : Nat) : Byte := s.readByte (s.arg2.toNat + (3 * (y / side * across + x / side) + k))
    let delta (m c : Byte) : Byte := BitVec.ofInt 8 (m.toInt * c.toInt / 32)
    let fwd (g2r g2b r2b : Byte) (p : Word) : Word :=
      argb (chA p) (chR p - delta g2r (chG p)) (chG p) (chB p - delta g2b (chG p) - delta r2b (chR p))
    let inv (g2r g2b r2b : Byte) (p : Word) : Word :=
      let r := chR p + delta g2r (chG p)
      argb (chA p) r (chG p) (chB p + delta g2b (chG p) + delta r2b r)
    (s.pte.valid = false ∨ (∃ p ∈ spans, 2 ^ s.cfg.aw < p.1 + p.2) →
      exec (.pteXcolFwd tb) s = .next (s.raised .invalidArgument) ∧
        exec (.pteXcolInv tb) s = .next (s.raised .invalidArgument)) ∧
    (s.pte.valid = true → (∀ p ∈ spans, p.1 + p.2 ≤ 2 ^ s.cfg.aw) → s.Accessible spans →
      (∃ t out, exec (.pteXcolFwd tb) s = .next (t.finish 0 0) ∧ s.Stores t s.arg1.toNat (pixelBytes out) ∧
        out.length = w * h ∧ ∀ x < w, ∀ y < h,
          out.getD (y * w + x) 0 = fwd (mult x y 0) (mult x y 1) (mult x y 2) (pixel x y)) ∧
      (∃ t out, exec (.pteXcolInv tb) s = .next (t.finish 0 0) ∧ s.Stores t s.arg1.toNat (pixelBytes out) ∧
        out.length = w * h ∧ ∀ x < w, ∀ y < h,
          out.getD (y * w + x) 0 = inv (mult x y 0) (mult x y 1) (mult x y 2) (pixel x y))) ∧
    ∀ (g2r g2b r2b : Byte) (p : Word),
      inv g2r g2b r2b (fwd g2r g2b r2b p) = p ∧ fwd g2r g2b r2b (inv g2r g2b r2b p) = p

/-- R224, R241, R242, R246: each direction of the per-pixel transforms undoes the other, for every pixel and every multiplier
triple; alpha and green pass through; the delta lies in -508..512. -/
def Obligations.ChannelTransformsInvert : Prop :=
  (∀ p q : Word, addPx (subPx p q) q = p ∧ subPx (addPx p q) q = p) ∧
  (∀ p : Word, addGreen (subGreen p) = p ∧ subGreen (addGreen p) = p) ∧
  (∀ (m : Multipliers) (p : Word), colorInverse m (colorForward m p) = p ∧ colorForward m (colorInverse m p) = p ∧
    ∀ f ∈ [subGreen, addGreen, colorForward m, colorInverse m], chA (f p) = chA p ∧ chG (f p) = chG p) ∧
  (∀ m c : Byte, -508 ≤ colorDelta m c ∧ colorDelta m c ≤ 512)

/-- R247, R249 to R252: PTE.PAL.FWD. Every pixel's index is the smallest that holds its colour, at its bits of its byte; the
bits beyond the last pixel of a row are 0. -/
def Obligations.PaletteForwardRule : Prop :=
  ∀ s : State,
    let w := s.imgW
    let h := s.imgH
    let n := s.arg3.toNat
    let bpp := if n ≤ 2 then 1 else if n ≤ 4 then 2 else if n ≤ 16 then 4 else 8
    let ppb := 8 / bpp
    let prb := (w + ppb - 1) / ppb
    let reads := [(s.arg0.toNat, 4 * w * h), (s.arg2.toNat, 4 * n)]
    let dst := (s.arg1.toNat, prb * h)
    let pixel (x y : Nat) : Word := s.readPixel (s.arg0.toNat + 4 * (y * w + x))
    let pal (i : Nat) : Word := s.readPixel (s.arg2.toNat + 4 * i)
    (n = 0 ∨ 256 < n ∨ s.pte.valid = false ∨ (∃ p ∈ reads ++ [dst], 2 ^ s.cfg.aw < p.1 + p.2) ∨
        (s.Accessible reads ∧ ∃ x < w, ∃ y < h, ∀ i < n, pal i ≠ pixel x y) →
      exec .ptePalFwd s = .next (s.raised .invalidArgument)) ∧
    (1 ≤ n → n ≤ 256 → s.pte.valid = true → (∀ p ∈ reads ++ [dst], p.1 + p.2 ≤ 2 ^ s.cfg.aw) →
      s.Accessible (reads ++ [dst]) →
      (∀ x < w, ∀ y < h, ∃ i < n, pal i = pixel x y) →
        ∃ t out, exec .ptePalFwd s = .next (t.finish (BitVec.ofNat 64 (prb * h)) (BitVec.ofNat 64 bpp)) ∧
          s.Stores t s.arg1.toNat out ∧ out.length = prb * h ∧
          (∀ x < w, ∀ y < h,
            let i := (out.getD (y * prb + x / ppb) 0).toNat / 2 ^ (bpp * (x % ppb)) % 2 ^ bpp
            i < n ∧ pal i = pixel x y ∧ ∀ j < i, pal j ≠ pixel x y) ∧
          (∀ x < prb * ppb, w ≤ x → ∀ y < h,
            (out.getD (y * prb + x / ppb) 0).toNat / 2 ^ (bpp * (x % ppb)) % 2 ^ bpp = 0))

/-- R247, R249 to R251, R253: PTE.PAL.INV. An index at or above N expands to transparent black. -/
def Obligations.PaletteInverseRule : Prop :=
  ∀ s : State,
    let w := s.imgW
    let h := s.imgH
    let n := s.arg3.toNat
    let bpp := if n ≤ 2 then 1 else if n ≤ 4 then 2 else if n ≤ 16 then 4 else 8
    let ppb := 8 / bpp
    let prb := (w + ppb - 1) / ppb
    let spans := [(s.arg0.toNat, prb * h), (s.arg2.toNat, 4 * n), (s.arg1.toNat, 4 * w * h)]
    (n = 0 ∨ 256 < n ∨ s.pte.valid = false ∨ (∃ p ∈ spans, 2 ^ s.cfg.aw < p.1 + p.2) →
      exec .ptePalInv s = .next (s.raised .invalidArgument)) ∧
    (1 ≤ n → n ≤ 256 → s.pte.valid = true → (∀ p ∈ spans, p.1 + p.2 ≤ 2 ^ s.cfg.aw) → s.Accessible spans →
      ∃ t out, exec .ptePalInv s = .next (t.finish (BitVec.ofNat 64 (prb * h)) (BitVec.ofNat 64 bpp)) ∧
        s.Stores t s.arg1.toNat (pixelBytes out) ∧ out.length = w * h ∧
        ∀ x < w, ∀ y < h,
          let i := (s.readByte (s.arg0.toNat + (y * prb + x / ppb))).toNat / 2 ^ (bpp * (x % ppb)) % 2 ^ bpp
          out.getD (y * w + x) 0 = if i < n then s.readPixel (s.arg2.toNat + 4 * i) else 0)

/-- R254, R256, R381: a forward transform command and then its inverse with the same parameters give the source pixels back,
wherever the buffers lie, as long as the parameters are still there and neither they nor the two images written are in the
part of the writer's region that holds any value. -/
def Obligations.TransformCommandsRoundTrip : Prop :=
  ∀ (i j : Instr) (s t v : State) (dst : Reg),
    let parameters : List (Nat × Nat) := match i with
      | .ptePredFwd tb => [s.modeSpan s.arg2 tb.toNat]
      | .pteXcolFwd tb => [s.multSpan s.arg2 tb.toNat]
      | .ptePalFwd => [paletteSpan s.arg2 s.arg3.toNat]
      | _ => []
    (i, j) ∈ [(Instr.pteSubgFwd, Instr.pteSubgInv), (.ptePalFwd, .ptePalInv)] ∨
      (∃ tb, (i, j) ∈ [(Instr.ptePredFwd tb, Instr.ptePredInv tb), (.pteXcolFwd tb, .pteXcolInv tb)]) →
    (∀ a, InSpan (destination i s) a ∨ InSpan (s.imageSpan dst) a → s.bw.holds a = false) →
    (∀ p ∈ parameters, ∀ a, InSpan p a → ¬InSpan (destination i s) a ∧ s.bw.holds a = false) →
    exec i s = .next t → t.status = .ok →
    exec j { t with arg0 := s.arg1, arg1 := dst } = .next v → v.status = .ok →
      ∀ k < s.imgW * s.imgH, v.readPixel (dst.toNat + 4 * k) = s.readPixel (s.arg0.toNat + 4 * k)

/-! The chunk store (spec/44_chunkstore_mux.md). -/

/-- R275, R276, R278: MUX.NEW and MUX.DESTROY. -/
def Obligations.MuxNewDestroyRule : Prop :=
  ∀ s : State,
    (s.arg0 ≠ s.cfg.abiVersion.setWidth 64 → exec .muxNew s = .next (s.raised .unsupportedVersion)) ∧
    (s.arg0 = s.cfg.abiVersion.setWidth 64 →
      ∃ m, exec .muxNew s = .next ({ s with mux := m }.finish 0 0) ∧ m.valid = true ∧ Store.EmptyOf s.mux m) ∧
    (s.mux.valid = false → exec .muxDestroy s = .next (s.raised .invalidArgument)) ∧
    (s.mux.valid = true →
      ∃ m, exec .muxDestroy s = .next ({ s with mux := m }.finish 0 0) ∧ m.valid = false ∧ Store.EmptyOf s.mux m)

/-- R277: without a store, every MUX command but MUX.NEW and MUX.PARSE is InvalidArgument. -/
def Obligations.MuxCommandsNeedStore : Prop :=
  ∀ (copy : Bool) (i : Instr) (s : State),
    i ∈ [Instr.muxSet copy, .muxGet, .muxDelete, .muxPush copy, .muxAssemble, .muxFetch, .muxDestroy] →
      s.mux.valid = false → exec i s = .next (s.raised .invalidArgument)

/-- R282, R283: MUX.SET, in a store that satisfies its invariant (R294). The old chunks go, the new one takes the lowest
index that is then absent and stands at the end of its list; room is judged as if the old chunks were gone; all else is kept.
With AW below 32 the record of an empty payload may hold the address 2^AW itself, which is the model's choice (log 23); so is
it, with AW above 32, that a tag and a payload length are the low 32 bits of their registers (log 2). -/
def Obligations.MuxSetRule : Prop :=
  ∀ (copy : Bool) (s : State), s.cfg.Legal → s.mux.Inv s.cfg →
    let tag : Word := s.arg0.setWidth 32
    let len : Word := s.arg2.setWidth 32
    let k := classOf s.cfg tag
    let old := if k = .unknown then s.mux.unknown.filter fun i => (s.mux.record i).tag = tag else s.mux.list k
    let owns := copy || decide (k = .dim ∨ k = .anim)
    let freed := ((old.filter fun i => (s.mux.record i).owner).map fun i => (s.mux.record i).len.toNat).sum
    let heap := s.mux.heapUsed.toNat - freed + if owns then len.toNat else 0
    let full := old = [] ∧ (∀ r ∈ s.mux.recs, r.present = true) ∨ owns = true ∧ s.cfg.heapLimit < heap
    (s.mux.valid = false ∨ 2 ^ s.cfg.aw < s.arg1.toNat + len.toNat ∨ k = .frmh ∨ k = .alpha ∨ k = .image →
      exec (.muxSet copy) s = .next (s.raised .invalidArgument)) ∧
    (s.mux.valid = true → s.arg1.toNat + len.toNat ≤ 2 ^ s.cfg.aw → k ≠ .frmh → k ≠ .alpha → k ≠ .image →
      (full → exec (.muxSet copy) s = .next (s.raised .allocationFailure)) ∧
      (¬full → (owns = true → s.Accessible [(s.arg1.toNat, len.toNat)]) →
        ∃ i m, exec (.muxSet copy) s = .next ({ s with mux := m }.finish (BitVec.ofNat 64 i) 0) ∧
          (i < s.cfg.nchunk ∧ (i ∈ old ∨ (s.mux.record i).present = false) ∧
            ∀ j < i, j ∉ old ∧ (s.mux.record j).present = true) ∧
          ((m.record i).present = true ∧ (m.record i).tag = tag ∧ (m.record i).len = len ∧
            (m.record i).owner = owns ∧ (owns = true → (m.record i).data = s.readBytes s.arg1.toNat len.toNat) ∧
            (owns = false → (m.record i).addr = s.arg1)) ∧
          (m.recs.length = s.mux.recs.length ∧ (∀ j ∈ old, j ≠ i → (m.record j).present = false) ∧
            ∀ j, j ≠ i → j ∉ old → m.record j = s.mux.record j) ∧
          m.heapUsed.toNat = heap ∧
          m = { s.mux with recs := m.recs, heapUsed := m.heapUsed }.setList k
            (((s.mux.list k).filter fun j => j ∉ old) ++ [i])))

/-- R286, R296: MUX.GET finds the nth record of a tag in the order of the walk: the store's lists, then each frame. With AW
above 32 a tag is the low 32 bits of its register, which is the model's choice (log 2). -/
def Obligations.MuxGetRule : Prop :=
  ∀ s : State,
    let walk := s.mux.dim ++ s.mux.icc ++ s.mux.anim ++ s.mux.exif ++ s.mux.xmp ++ s.mux.unknown ++
      s.mux.frames.flatMap fun f => f.hdr.toList ++ f.alpha.toList ++ f.img.toList ++ f.unk
    let tag : Word := s.arg0.setWidth 32
    let hit (i : Nat) : Bool := (s.mux.record i).present && decide ((s.mux.record i).tag = tag)
    (s.mux.valid = false ∨ s.arg1 = 0 → exec .muxGet s = .next (s.raised .invalidArgument)) ∧
    (s.mux.valid = true → s.arg1 ≠ 0 →
      (walk.countP hit < s.arg1.toNat → exec .muxGet s = .next (s.raised .notFound)) ∧
      (∀ p i, walk[p]? = some i → hit i = true → (walk.take (p + 1)).countP hit = s.arg1.toNat →
        exec .muxGet s = .next (s.finish (BitVec.ofNat 64 i) ((s.mux.record i).len.setWidth 64))))

/-- R288: MUX.FETCH copies the payload out, in a store that satisfies its invariant (R294). -/
def Obligations.MuxFetchRule : Prop :=
  ∀ s : State, s.mux.Inv s.cfg →
    let r := s.mux.record s.arg0.toNat
    (s.mux.valid = false ∨ s.cfg.nchunk ≤ s.arg0.toNat ∨ r.present = true ∧ 2 ^ s.cfg.aw < s.arg1.toNat + r.len.toNat →
      exec .muxFetch s = .next (s.raised .invalidArgument)) ∧
    (s.mux.valid = true → s.arg0.toNat < s.cfg.nchunk → r.present = false →
      exec .muxFetch s = .next (s.raised .notFound)) ∧
    (s.mux.valid = true → s.arg0.toNat < s.cfg.nchunk → r.present = true →
      s.arg1.toNat + r.len.toNat ≤ 2 ^ s.cfg.aw → s.Accessible [(s.arg1.toNat, r.len.toNat)] → (r.owner = false → s.Accessible [(r.addr.toNat, r.len.toNat)]) →
        ∃ t bs, exec .muxFetch s = .next (t.finish (r.len.setWidth 64) 0) ∧ s.Stores t s.arg1.toNat bs ∧
          bs.length = r.len.toNat ∧ bs = if r.owner then r.data else s.readBytes r.addr.toNat r.len.toNat)

/-- R289: MUX.DELETE takes every record of the tag out of the arena, the lists and the frames, and drops the frames that hold
nothing then, in a store that satisfies its invariant (R294). With AW above 32 a tag is the low 32 bits of its register, which
is the model's choice (log 2). -/
def Obligations.MuxDeleteRule : Prop :=
  ∀ s : State, s.mux.Inv s.cfg →
    let tag : Word := s.arg0.setWidth 32
    let gone (r : ChunkRec) : Bool := r.present && decide (r.tag = tag)
    let keep (i : Nat) : Bool := !gone (s.mux.record i)
    (s.mux.valid = false → exec .muxDelete s = .next (s.raised .invalidArgument)) ∧
    (s.mux.valid = true → (∀ r ∈ s.mux.recs, gone r = false) → exec .muxDelete s = .next (s.raised .notFound)) ∧
    (s.mux.valid = true → (∃ r ∈ s.mux.recs, gone r = true) →
      ∃ m, exec .muxDelete s = .next ({ s with mux := m }.finish (BitVec.ofNat 64 (s.mux.recs.countP gone)) 0) ∧
        m.valid = true ∧
        m.recs = s.mux.recs.map (fun r => if gone r then { r with present := false } else r) ∧
        m.dim = s.mux.dim.filter keep ∧ m.icc = s.mux.icc.filter keep ∧ m.anim = s.mux.anim.filter keep ∧
        m.exif = s.mux.exif.filter keep ∧ m.xmp = s.mux.xmp.filter keep ∧ m.unknown = s.mux.unknown.filter keep ∧
        m.frames = ((s.mux.frames.map fun f =>
          Frame.mk (f.hdr.filter keep) (f.alpha.filter keep) (f.img.filter keep) (f.unk.filter keep)).filter fun f =>
            f.hdr.isSome || f.alpha.isSome || f.img.isSome || !f.unk.isEmpty) ∧
        s.mux.heapUsed.toNat = m.heapUsed.toNat +
          ((s.mux.recs.filter fun r => gone r && r.owner).map fun r => r.len.toNat).sum)

/-- R291 to R293, R279, R273: routing, class by class, and MUX.PUSH, which routes one chunk: a second singleton, and a second
ALPHA in a frame without its image, are DuplicateChunk; a full arena, heap or frame list is AllocationFailure; else one
record is made and stands where R291 says. With AW below 32 the record of an empty payload may hold the address 2^AW itself,
which is the model's choice (log 23); so is it, with AW above 32, that a tag and a payload length are the low 32 bits of their
registers (log 2). -/
def Obligations.MuxPushRule : Prop :=
  (∀ (c : Config) (m : Store) (x : Incoming),
    (ownsCopy c x.tag x.copy = (x.copy ||
      decide (classOf c x.tag = .dim ∨ classOf c x.tag = .anim ∨ classOf c x.tag = .frmh))) ∧
    (m.Duplicates c x → m.route c x = .error .duplicateChunk) ∧
    (¬m.Duplicates c x → ¬m.RoomFor c x → m.route c x = .error .allocationFailure) ∧
    (¬m.Duplicates c x → m.RoomFor c x → ∃ i m', m.route c x = .ok (i, m') ∧ m.Puts c x i m')) ∧
  (∀ (copy : Bool) (s : State),
    let tag : Word := s.arg0.setWidth 32
    let len : Word := s.arg2.setWidth 32
    let owns := ownsCopy s.cfg tag copy
    let x : Incoming :=
      { tag := tag, addr := s.arg1, len := len, copy := copy
        payload := if owns then s.readBytes s.arg1.toNat len.toNat else [] }
    (s.mux.valid = false ∨ 2 ^ s.cfg.aw < s.arg1.toNat + len.toNat →
      exec (.muxPush copy) s = .next (s.raised .invalidArgument)) ∧
    (s.mux.valid = true → s.arg1.toNat + len.toNat ≤ 2 ^ s.cfg.aw →
      (s.mux.Duplicates s.cfg x → exec (.muxPush copy) s = .next (s.raised .duplicateChunk)) ∧
      (¬s.mux.Duplicates s.cfg x → ¬s.mux.RoomFor s.cfg x →
        exec (.muxPush copy) s = .next (s.raised .allocationFailure)) ∧
      (¬s.mux.Duplicates s.cfg x → s.mux.RoomFor s.cfg x →
        (owns = true → s.Accessible [(s.arg1.toNat, len.toNat)]) →
        ∃ i m, s.mux.route s.cfg x = .ok (i, m) ∧ s.mux.Puts s.cfg x i m ∧
          exec (.muxPush copy) s = .next
            ({ s with mux := m }.finish (BitVec.ofNat 64 i) (BitVec.ofNat 64 m.frames.length)))))

/-- R295 to R297, R105: MUX.ASSEMBLE, in a store that satisfies its invariant (R294). The stream is the chunks in the order of
the walk: tag, length, payload, and a zero byte after a payload of odd length. -/
def Obligations.MuxAssembleRule : Prop :=
  ∀ s : State, s.mux.Inv s.cfg →
    let m := s.mux
    let walk := m.dim ++ m.icc ++ m.anim ++ m.exif ++ m.xmp ++ m.unknown ++
      m.frames.flatMap fun f => f.hdr.toList ++ f.alpha.toList ++ f.img.toList ++ f.unk
    let word (v : Word) : List Byte := (List.range 4).map fun k => v.extractLsb' (8 * k) 8
    let chunk (r : ChunkRec) : List Byte :=
      word r.tag ++ word r.len ++ (if r.owner then r.data else s.readBytes r.addr.toNat r.len.toNat) ++
        List.replicate (r.len.toNat % 2) 0
    let size := ((m.recs.filter fun r => r.present).map fun r => 8 + r.len.toNat + r.len.toNat % 2).sum
    let complete := m.frames ≠ [] ∧ (∀ f ∈ m.frames, f.img ≠ none) ∧
      (1 < m.frames.length ∨ m.icc ≠ [] ∨ m.anim ≠ [] ∨ m.exif ≠ [] ∨ m.xmp ≠ [] → m.dim ≠ [])
    (m.valid = false ∨ 2 ^ s.cfg.aw < s.arg0.toNat + s.arg1.toNat → exec .muxAssemble s = .next (s.raised .invalidArgument)) ∧
    (m.valid = true → s.arg0.toNat + s.arg1.toNat ≤ 2 ^ s.cfg.aw →
      (¬complete → exec .muxAssemble s = .next (s.raised .notFound)) ∧
      (complete → s.arg1.toNat < size → exec .muxAssemble s = .next (s.raised .allocationFailure)) ∧
      (complete → size ≤ s.arg1.toNat → s.Accessible [(s.arg0.toNat, size)] →
        (∀ r ∈ m.recs, r.present = true → r.owner = false → s.Accessible [(r.addr.toNat, r.len.toNat)]) →
          ∃ t bs, exec .muxAssemble s = .next
              (t.finish (BitVec.ofNat 64 size) (BitVec.ofNat 64 (m.recs.countP fun r => r.present))) ∧
            s.Stores t s.arg0.toNat bs ∧ bs.length = size ∧ bs = walk.flatMap fun i => chunk (m.record i)))

/-- R300, R301: MUX.PARSE. After its two checks the old store is gone, and the chunks go in one by one, each routed as
MUX.PUSH routes one (MuxPushRule); `off k` and `m k` are the offset and the store after `k` chunks. The first chunk that does
not fit or cannot be put ends the command with its error and an empty store; the walk that reaches the end still has to pass
validation (R295). The last clause is the smallest container, one image chunk that fills the region. The address kept for an
empty chunk that ends at 2^AW, and that an error leaves the other fields of the absent records as they were, are the model's
choices (logs 23 and 12). From the emptied store on it is stated for all legal parameters (log 2). -/
def Obligations.MuxParseRule : Prop :=
  ∀ (copy : Bool) (s : State),
    let len := s.arg1.toNat
    let field (a : Nat) : Word := BitVec.ofNat 32 (s.readNat (s.arg0.toNat + a) 4)
    let padded (a : Nat) : Nat := (field (a + 4)).toNat + (field (a + 4)).toNat % 2
    let chunk (a : Nat) : Incoming :=
      { tag := field a, addr := BitVec.ofNat 64 (s.arg0.toNat + a + 8), len := field (a + 4), copy := copy
        payload := if ownsCopy s.cfg (field a) copy then s.readBytes (s.arg0.toNat + a + 8) (field (a + 4)).toNat else [] }
    let parse := exec (.muxParse copy) s
    (2 ^ s.cfg.aw < s.arg0.toNat + len → parse = .next (s.raised .invalidArgument)) ∧
    (s.arg0.toNat + len ≤ 2 ^ s.cfg.aw → s.arg2 ≠ s.cfg.abiVersion.setWidth 64 →
      parse = .next (s.raised .unsupportedVersion)) ∧
    (s.cfg.Legal → s.arg2 = s.cfg.abiVersion.setWidth 64 → s.Accessible [(s.arg0.toNat, len)] →
      s.arg0.toNat + len ≤ 2 ^ s.cfg.aw →
      ∀ (n : Nat) (off : Nat → Nat) (m : Nat → Store),
        off 0 = 0 → (m 0).valid = true → Store.EmptyOf s.mux (m 0) →
        (∀ k < n, off k + 8 + padded (off k) ≤ len ∧ off (k + 1) = off k + 8 + padded (off k) ∧
          ∃ i, (m k).route s.cfg (chunk (off k)) = .ok (i, m (k + 1))) →
        let fail (x : Status) : Out := .next ({ s with mux := m 0 }.raised x)
        let last := m n
        let complete := last.frames ≠ [] ∧ (∀ f ∈ last.frames, f.img ≠ none) ∧
          (1 < last.frames.length ∨ last.icc ≠ [] ∨ last.anim ≠ [] ∨ last.exif ≠ [] ∨ last.xmp ≠ [] → last.dim ≠ [])
        (off n = len → complete →
          parse = .next ({ s with mux := last }.finish (BitVec.ofNat 64 n) (BitVec.ofNat 64 last.frames.length))) ∧
        (off n = len → ¬complete → parse = fail .notFound) ∧
        (off n < len → len < off n + 8 → parse = fail .truncatedStream) ∧
        (off n + 8 ≤ len → off n < len → len < off n + 8 + padded (off n) → parse = fail .truncatedStream) ∧
        (off n + 8 + padded (off n) ≤ len → last.Duplicates s.cfg (chunk (off n)) → parse = fail .duplicateChunk) ∧
        (off n + 8 + padded (off n) ≤ len → ¬last.Duplicates s.cfg (chunk (off n)) →
          ¬last.RoomFor s.cfg (chunk (off n)) → parse = fail .allocationFailure)) ∧
    (s.cfg.Legal → s.arg2 = s.cfg.abiVersion.setWidth 64 → s.Accessible [(s.arg0.toNat, len)] →
      s.arg0.toNat + len ≤ 2 ^ s.cfg.aw →
      8 ≤ len → len = 8 + padded 0 → classOf s.cfg (field 0) = .image → 1 ≤ s.cfg.nframe → s.mux.recs ≠ [] →
      (copy = true → (field 4).toNat ≤ s.cfg.heapLimit) →
        ∃ m, parse = .next ({ s with mux := m }.finish 1 1) ∧ m.valid = true ∧ m.walk = [0] ∧
          m.frames = [Frame.mk none none (some 0) []] ∧
          (m.record 0).present = true ∧ (m.record 0).tag = field 0 ∧ (m.record 0).len = field 4 ∧
          (m.record 0).owner = copy ∧
          (copy = true → (m.record 0).data = s.readBytes (s.arg0.toNat + 8) (field 4).toNat) ∧
          (copy = false → (m.record 0).addr = BitVec.ofNat 64 (s.arg0.toNat + 8)))

/-- R302: parsing what MUX.ASSEMBLE wrote, with the same version and enough heap, gives the same lists and frames, with the
same tags and payloads at every place, whether the payloads are copied or borrowed. The store meets its invariant (R294), and
the stream is not in the part of the writer's region that holds any value. -/
def Obligations.ContainerRoundTrip : Prop :=
  ∀ (copy : Bool) (s t : State), s.cfg.Legal → s.mux.Inv s.cfg →
    exec .muxAssemble s = .next t → t.status = .ok →
    (∀ a, InSpan (s.arg0.toNat, t.res0.toNat) a → s.bw.holds a = false) →
    ((s.mux.recs.filter fun r => r.present && ownsCopy s.cfg r.tag copy).map fun r => r.len.toNat).sum ≤ s.cfg.heapLimit →
      ∃ u, exec (.muxParse copy) { t with arg1 := t.res0, arg2 := s.cfg.abiVersion.setWidth 64 } = .next u ∧
        u.status = .ok ∧ u.res0 = t.res1 ∧
        let content (v : State) (i : Nat) : Word × List Byte := ((v.mux.record i).tag, v.payload (v.mux.record i))
        (∀ k, (u.mux.list k).map (content u) = (s.mux.list k).map (content s)) ∧
        let frame (v : State) (f : Frame) := (f.hdr.map (content v), f.alpha.map (content v), f.img.map (content v),
          f.unk.map (content v))
        u.mux.frames.map (frame u) = s.mux.frames.map (frame s)

/-! The codec entry points (spec/45_system_codec.md). -/

/-- R334, R335: CODEC.DECODE and CODEC.ENCODE check their operands as their contracts say; past the checks their function is
open, and the model refuses them under their own names (log 13). -/
def Obligations.CodecCommandsStop : Prop :=
  ∀ s : State,
    let inside (a n : Nat) : Prop := a + n ≤ 2 ^ s.cfg.aw
    (¬(inside s.arg0.toNat s.arg1.toNat ∧ inside s.arg2.toNat s.arg3.toNat) →
      exec .codecDecode s = .next (s.raised .invalidArgument)) ∧
    (inside s.arg0.toNat s.arg1.toNat ∧ inside s.arg2.toNat s.arg3.toNat →
      exec .codecDecode s = .refused .codecDecodeOpen) ∧
    (s.pte.valid = false ∨ ¬(inside s.arg0.toNat (4 * s.imgW * s.imgH) ∧ inside s.arg1.toNat s.arg2.toNat) →
      exec .codecEncode s = .next (s.raised .invalidArgument)) ∧
    (s.pte.valid = true ∧ inside s.arg0.toNat (4 * s.imgW * s.imgH) ∧ inside s.arg1.toNat s.arg2.toNat →
      exec .codecEncode s = .refused .codecEncodeOpen)

/-! Invariants every step keeps. -/

/-- R60: every step, whatever the host does, keeps the memory in its canonical form, and lists no address that does not
exist. -/
def Obligations.MemoryFormKept : Prop :=
  ∀ s t : State, s.mem.wf → s.mem.within (2 ^ s.cfg.aw) → step s = .next t →
    t.mem.wf ∧ t.mem.within (2 ^ t.cfg.aw)

/-- R25, R27 to R29, R31, R33, R164, R181: every step keeps the invariants of the reader, the writer, the Huffman slots and
the image descriptor, and the registers that can hold an address within their width (log 2). -/
def Obligations.UnitInvariantsKept : Prop :=
  ∀ s t : State, s.cfg.Legal → s.br.Inv s.cfg → s.bw.Inv s.cfg → s.SlotsInv → s.pte.Inv → s.RegistersFit →
    step s = .next t → t.br.Inv t.cfg ∧ t.bw.Inv t.cfg ∧ t.SlotsInv ∧ t.pte.Inv ∧ t.RegistersFit

/-- R294, R36, R37: every step keeps the invariant of the chunk store. -/
def Obligations.StoreInvariantKept : Prop :=
  ∀ s t : State, s.cfg.Legal → s.mux.Inv s.cfg → step s = .next t → t.mux.Inv t.cfg

/-- R40: the state after reset meets the invariants, for every choice of the parameters. -/
def Obligations.ResetMeetsInvariants : Prop :=
  State.reset.cfg.Legal ∧ ∀ c : Config, (State.power c).mem.wf ∧ (State.power c).mem.within (2 ^ c.aw) ∧
    (State.power c).br.Inv c ∧ (State.power c).bw.Inv c ∧
    (State.power c).SlotsInv ∧ (State.power c).pte.Inv ∧ (State.power c).RegistersFit ∧
    (State.power c).mux.Inv (State.power c).cfg
end

