-- ==== Sys2Proof/Laws/State.lean ====
section
/-! SUPPORT. One lemma per field per update of the state and its parts, each true by unfolding, so that no proof unfolds a
record update. -/

namespace Sys2Proof.Machine

/-! `State.finish`. -/

@[simp] theorem State.finish_cmd (s : State) (r0 r1 : Reg) : (s.finish r0 r1).cmd = s.cmd := rfl
@[simp] theorem State.finish_arg0 (s : State) (r0 r1 : Reg) : (s.finish r0 r1).arg0 = s.arg0 := rfl
@[simp] theorem State.finish_arg1 (s : State) (r0 r1 : Reg) : (s.finish r0 r1).arg1 = s.arg1 := rfl
@[simp] theorem State.finish_arg2 (s : State) (r0 r1 : Reg) : (s.finish r0 r1).arg2 = s.arg2 := rfl
@[simp] theorem State.finish_arg3 (s : State) (r0 r1 : Reg) : (s.finish r0 r1).arg3 = s.arg3 := rfl
@[simp] theorem State.finish_status (s : State) (r0 r1 : Reg) : (s.finish r0 r1).status = .ok := rfl
@[simp] theorem State.finish_res0 (s : State) (r0 r1 : Reg) : (s.finish r0 r1).res0 = r0 := rfl
@[simp] theorem State.finish_res1 (s : State) (r0 r1 : Reg) : (s.finish r0 r1).res1 = r1 := rfl
@[simp] theorem State.finish_br (s : State) (r0 r1 : Reg) : (s.finish r0 r1).br = s.br := rfl
@[simp] theorem State.finish_bw (s : State) (r0 r1 : Reg) : (s.finish r0 r1).bw = s.bw := rfl
@[simp] theorem State.finish_ht (s : State) (r0 r1 : Reg) : (s.finish r0 r1).ht = s.ht := rfl
@[simp] theorem State.finish_pte (s : State) (r0 r1 : Reg) : (s.finish r0 r1).pte = s.pte := rfl
@[simp] theorem State.finish_mux (s : State) (r0 r1 : Reg) : (s.finish r0 r1).mux = s.mux := rfl
@[simp] theorem State.finish_mem (s : State) (r0 r1 : Reg) : (s.finish r0 r1).mem = s.mem := rfl
@[simp] theorem State.finish_cfg (s : State) (r0 r1 : Reg) : (s.finish r0 r1).cfg = s.cfg := rfl
@[simp] theorem State.finish_host (s : State) (r0 r1 : Reg) : (s.finish r0 r1).host = s.host := rfl
@[simp] theorem State.finish_hostData (s : State) (r0 r1 : Reg) : (s.finish r0 r1).hostData = s.hostData := rfl
@[simp] theorem State.finish_tick (s : State) (r0 r1 : Reg) : (s.finish r0 r1).tick = s.tick := rfl

/-! `State.raised`. -/

@[simp] theorem State.raised_cmd (s : State) (x : Status) : (s.raised x).cmd = s.cmd := rfl
@[simp] theorem State.raised_arg0 (s : State) (x : Status) : (s.raised x).arg0 = s.arg0 := rfl
@[simp] theorem State.raised_arg1 (s : State) (x : Status) : (s.raised x).arg1 = s.arg1 := rfl
@[simp] theorem State.raised_arg2 (s : State) (x : Status) : (s.raised x).arg2 = s.arg2 := rfl
@[simp] theorem State.raised_arg3 (s : State) (x : Status) : (s.raised x).arg3 = s.arg3 := rfl
@[simp] theorem State.raised_status (s : State) (x : Status) : (s.raised x).status = x := rfl
@[simp] theorem State.raised_res0 (s : State) (x : Status) : (s.raised x).res0 = 0 := rfl
@[simp] theorem State.raised_res1 (s : State) (x : Status) : (s.raised x).res1 = 0 := rfl
@[simp] theorem State.raised_br (s : State) (x : Status) : (s.raised x).br = s.br := rfl
@[simp] theorem State.raised_bw (s : State) (x : Status) : (s.raised x).bw = s.bw := rfl
@[simp] theorem State.raised_ht (s : State) (x : Status) : (s.raised x).ht = s.ht := rfl
@[simp] theorem State.raised_pte (s : State) (x : Status) : (s.raised x).pte = s.pte := rfl
@[simp] theorem State.raised_mux (s : State) (x : Status) : (s.raised x).mux = s.mux := rfl
@[simp] theorem State.raised_mem (s : State) (x : Status) : (s.raised x).mem = s.mem := rfl
@[simp] theorem State.raised_cfg (s : State) (x : Status) : (s.raised x).cfg = s.cfg := rfl
@[simp] theorem State.raised_host (s : State) (x : Status) : (s.raised x).host = s.host := rfl
@[simp] theorem State.raised_hostData (s : State) (x : Status) : (s.raised x).hostData = s.hostData := rfl
@[simp] theorem State.raised_tick (s : State) (x : Status) : (s.raised x).tick = s.tick := rfl

/-! `State.storeBytes`. -/

@[simp] theorem State.storeBytes_cmd (s : State) (a : Nat) (bs : List Byte) : (s.storeBytes a bs).cmd = s.cmd := rfl
@[simp] theorem State.storeBytes_arg0 (s : State) (a : Nat) (bs : List Byte) : (s.storeBytes a bs).arg0 = s.arg0 := rfl
@[simp] theorem State.storeBytes_arg1 (s : State) (a : Nat) (bs : List Byte) : (s.storeBytes a bs).arg1 = s.arg1 := rfl
@[simp] theorem State.storeBytes_arg2 (s : State) (a : Nat) (bs : List Byte) : (s.storeBytes a bs).arg2 = s.arg2 := rfl
@[simp] theorem State.storeBytes_arg3 (s : State) (a : Nat) (bs : List Byte) : (s.storeBytes a bs).arg3 = s.arg3 := rfl
@[simp] theorem State.storeBytes_status (s : State) (a : Nat) (bs : List Byte) : (s.storeBytes a bs).status = s.status := rfl
@[simp] theorem State.storeBytes_res0 (s : State) (a : Nat) (bs : List Byte) : (s.storeBytes a bs).res0 = s.res0 := rfl
@[simp] theorem State.storeBytes_res1 (s : State) (a : Nat) (bs : List Byte) : (s.storeBytes a bs).res1 = s.res1 := rfl
@[simp] theorem State.storeBytes_br (s : State) (a : Nat) (bs : List Byte) : (s.storeBytes a bs).br = s.br := rfl
@[simp] theorem State.storeBytes_bw (s : State) (a : Nat) (bs : List Byte) : (s.storeBytes a bs).bw = s.bw := rfl
@[simp] theorem State.storeBytes_ht (s : State) (a : Nat) (bs : List Byte) : (s.storeBytes a bs).ht = s.ht := rfl
@[simp] theorem State.storeBytes_pte (s : State) (a : Nat) (bs : List Byte) : (s.storeBytes a bs).pte = s.pte := rfl
@[simp] theorem State.storeBytes_mux (s : State) (a : Nat) (bs : List Byte) : (s.storeBytes a bs).mux = s.mux := rfl
@[simp] theorem State.storeBytes_mem (s : State) (a : Nat) (bs : List Byte) : (s.storeBytes a bs).mem = if fits s.cfg a bs.length then s.mem.store a bs else s.mem := rfl
@[simp] theorem State.storeBytes_cfg (s : State) (a : Nat) (bs : List Byte) : (s.storeBytes a bs).cfg = s.cfg := rfl
@[simp] theorem State.storeBytes_host (s : State) (a : Nat) (bs : List Byte) : (s.storeBytes a bs).host = s.host := rfl
@[simp] theorem State.storeBytes_hostData (s : State) (a : Nat) (bs : List Byte) : (s.storeBytes a bs).hostData = s.hostData := rfl
@[simp] theorem State.storeBytes_tick (s : State) (a : Nat) (bs : List Byte) : (s.storeBytes a bs).tick = s.tick := rfl

/-! `State.setSlot`. -/

@[simp] theorem State.setSlot_cmd (s : State) (t : Nat) (x : Slot) : (s.setSlot t x).cmd = s.cmd := rfl
@[simp] theorem State.setSlot_arg0 (s : State) (t : Nat) (x : Slot) : (s.setSlot t x).arg0 = s.arg0 := rfl
@[simp] theorem State.setSlot_arg1 (s : State) (t : Nat) (x : Slot) : (s.setSlot t x).arg1 = s.arg1 := rfl
@[simp] theorem State.setSlot_arg2 (s : State) (t : Nat) (x : Slot) : (s.setSlot t x).arg2 = s.arg2 := rfl
@[simp] theorem State.setSlot_arg3 (s : State) (t : Nat) (x : Slot) : (s.setSlot t x).arg3 = s.arg3 := rfl
@[simp] theorem State.setSlot_status (s : State) (t : Nat) (x : Slot) : (s.setSlot t x).status = s.status := rfl
@[simp] theorem State.setSlot_res0 (s : State) (t : Nat) (x : Slot) : (s.setSlot t x).res0 = s.res0 := rfl
@[simp] theorem State.setSlot_res1 (s : State) (t : Nat) (x : Slot) : (s.setSlot t x).res1 = s.res1 := rfl
@[simp] theorem State.setSlot_br (s : State) (t : Nat) (x : Slot) : (s.setSlot t x).br = s.br := rfl
@[simp] theorem State.setSlot_bw (s : State) (t : Nat) (x : Slot) : (s.setSlot t x).bw = s.bw := rfl
@[simp] theorem State.setSlot_ht (s : State) (t : Nat) (x : Slot) : (s.setSlot t x).ht = s.ht.set t x := rfl
@[simp] theorem State.setSlot_pte (s : State) (t : Nat) (x : Slot) : (s.setSlot t x).pte = s.pte := rfl
@[simp] theorem State.setSlot_mux (s : State) (t : Nat) (x : Slot) : (s.setSlot t x).mux = s.mux := rfl
@[simp] theorem State.setSlot_mem (s : State) (t : Nat) (x : Slot) : (s.setSlot t x).mem = s.mem := rfl
@[simp] theorem State.setSlot_cfg (s : State) (t : Nat) (x : Slot) : (s.setSlot t x).cfg = s.cfg := rfl
@[simp] theorem State.setSlot_host (s : State) (t : Nat) (x : Slot) : (s.setSlot t x).host = s.host := rfl
@[simp] theorem State.setSlot_hostData (s : State) (t : Nat) (x : Slot) : (s.setSlot t x).hostData = s.hostData := rfl
@[simp] theorem State.setSlot_tick (s : State) (t : Nat) (x : Slot) : (s.setSlot t x).tick = s.tick := rfl

/-! `State.afterTake`. -/

@[simp] theorem State.afterTake_cmd (s : State) (rest : List HostAccess) : (s.afterTake rest).cmd = s.cmd := rfl
@[simp] theorem State.afterTake_arg0 (s : State) (rest : List HostAccess) : (s.afterTake rest).arg0 = s.arg0 := rfl
@[simp] theorem State.afterTake_arg1 (s : State) (rest : List HostAccess) : (s.afterTake rest).arg1 = s.arg1 := rfl
@[simp] theorem State.afterTake_arg2 (s : State) (rest : List HostAccess) : (s.afterTake rest).arg2 = s.arg2 := rfl
@[simp] theorem State.afterTake_arg3 (s : State) (rest : List HostAccess) : (s.afterTake rest).arg3 = s.arg3 := rfl
@[simp] theorem State.afterTake_status (s : State) (rest : List HostAccess) : (s.afterTake rest).status = s.status := rfl
@[simp] theorem State.afterTake_res0 (s : State) (rest : List HostAccess) : (s.afterTake rest).res0 = s.res0 := rfl
@[simp] theorem State.afterTake_res1 (s : State) (rest : List HostAccess) : (s.afterTake rest).res1 = s.res1 := rfl
@[simp] theorem State.afterTake_br (s : State) (rest : List HostAccess) : (s.afterTake rest).br = s.br := rfl
@[simp] theorem State.afterTake_bw (s : State) (rest : List HostAccess) : (s.afterTake rest).bw = s.bw := rfl
@[simp] theorem State.afterTake_ht (s : State) (rest : List HostAccess) : (s.afterTake rest).ht = s.ht := rfl
@[simp] theorem State.afterTake_pte (s : State) (rest : List HostAccess) : (s.afterTake rest).pte = s.pte := rfl
@[simp] theorem State.afterTake_mux (s : State) (rest : List HostAccess) : (s.afterTake rest).mux = s.mux := rfl
@[simp] theorem State.afterTake_mem (s : State) (rest : List HostAccess) : (s.afterTake rest).mem = s.mem := rfl
@[simp] theorem State.afterTake_cfg (s : State) (rest : List HostAccess) : (s.afterTake rest).cfg = s.cfg := rfl
@[simp] theorem State.afterTake_host (s : State) (rest : List HostAccess) : (s.afterTake rest).host = rest := rfl
@[simp] theorem State.afterTake_hostData (s : State) (rest : List HostAccess) : (s.afterTake rest).hostData = s.hostData := rfl
@[simp] theorem State.afterTake_tick (s : State) (rest : List HostAccess) : (s.afterTake rest).tick = s.tick + 1 := rfl

/-! `State.placeCommand`. -/

@[simp] theorem State.placeCommand_cmd (s : State) (cw : Word) : (s.placeCommand cw).cmd = s.cmd := rfl
@[simp] theorem State.placeCommand_arg0 (s : State) (cw : Word) : (s.placeCommand cw).arg0 = s.arg0 := rfl
@[simp] theorem State.placeCommand_arg1 (s : State) (cw : Word) : (s.placeCommand cw).arg1 = s.arg1 := rfl
@[simp] theorem State.placeCommand_arg2 (s : State) (cw : Word) : (s.placeCommand cw).arg2 = s.arg2 := rfl
@[simp] theorem State.placeCommand_arg3 (s : State) (cw : Word) : (s.placeCommand cw).arg3 = s.arg3 := rfl
@[simp] theorem State.placeCommand_status (s : State) (cw : Word) : (s.placeCommand cw).status = s.status := rfl
@[simp] theorem State.placeCommand_res0 (s : State) (cw : Word) : (s.placeCommand cw).res0 = s.res0 := rfl
@[simp] theorem State.placeCommand_res1 (s : State) (cw : Word) : (s.placeCommand cw).res1 = s.res1 := rfl
@[simp] theorem State.placeCommand_br (s : State) (cw : Word) : (s.placeCommand cw).br = s.br := rfl
@[simp] theorem State.placeCommand_bw (s : State) (cw : Word) : (s.placeCommand cw).bw = s.bw := rfl
@[simp] theorem State.placeCommand_ht (s : State) (cw : Word) : (s.placeCommand cw).ht = s.ht := rfl
@[simp] theorem State.placeCommand_pte (s : State) (cw : Word) : (s.placeCommand cw).pte = s.pte := rfl
@[simp] theorem State.placeCommand_mux (s : State) (cw : Word) : (s.placeCommand cw).mux = s.mux := rfl
@[simp] theorem State.placeCommand_mem (s : State) (cw : Word) : (s.placeCommand cw).mem = s.mem := rfl
@[simp] theorem State.placeCommand_cfg (s : State) (cw : Word) : (s.placeCommand cw).cfg = s.cfg := rfl
@[simp] theorem State.placeCommand_host (s : State) (cw : Word) : (s.placeCommand cw).host = .writeReg s.cfg.csrBase (cw.setWidth 64) :: s.host := rfl
@[simp] theorem State.placeCommand_hostData (s : State) (cw : Word) : (s.placeCommand cw).hostData = s.hostData := rfl
@[simp] theorem State.placeCommand_tick (s : State) (cw : Word) : (s.placeCommand cw).tick = s.tick := rfl

/-! `State.blockReset`. -/

@[simp] theorem State.blockReset_cmd (s : State) (c : Word) : (s.blockReset c).cmd = c := rfl
@[simp] theorem State.blockReset_arg0 (s : State) (c : Word) : (s.blockReset c).arg0 = 0 := rfl
@[simp] theorem State.blockReset_arg1 (s : State) (c : Word) : (s.blockReset c).arg1 = 0 := rfl
@[simp] theorem State.blockReset_arg2 (s : State) (c : Word) : (s.blockReset c).arg2 = 0 := rfl
@[simp] theorem State.blockReset_arg3 (s : State) (c : Word) : (s.blockReset c).arg3 = 0 := rfl
@[simp] theorem State.blockReset_status (s : State) (c : Word) : (s.blockReset c).status = .ok := rfl
@[simp] theorem State.blockReset_res0 (s : State) (c : Word) : (s.blockReset c).res0 = 0 := rfl
@[simp] theorem State.blockReset_res1 (s : State) (c : Word) : (s.blockReset c).res1 = 0 := rfl
@[simp] theorem State.blockReset_br (s : State) (c : Word) : (s.blockReset c).br = Reader.reset := rfl
@[simp] theorem State.blockReset_bw (s : State) (c : Word) : (s.blockReset c).bw = Writer.reset := rfl
@[simp] theorem State.blockReset_ht (s : State) (c : Word) : (s.blockReset c).ht = List.replicate s.cfg.nt Slot.reset := rfl
@[simp] theorem State.blockReset_pte (s : State) (c : Word) : (s.blockReset c).pte = Image.reset := rfl
@[simp] theorem State.blockReset_mux (s : State) (c : Word) : (s.blockReset c).mux = Store.reset s.cfg.nchunk := rfl
@[simp] theorem State.blockReset_mem (s : State) (c : Word) : (s.blockReset c).mem = s.releasedMem := rfl
@[simp] theorem State.blockReset_cfg (s : State) (c : Word) : (s.blockReset c).cfg = s.cfg := rfl
@[simp] theorem State.blockReset_host (s : State) (c : Word) : (s.blockReset c).host = s.host := rfl
@[simp] theorem State.blockReset_hostData (s : State) (c : Word) : (s.blockReset c).hostData = s.hostData := rfl
@[simp] theorem State.blockReset_tick (s : State) (c : Word) : (s.blockReset c).tick = s.tick := rfl

/-! `Reader.skip`. -/

@[simp] theorem Reader.skip_bound (c : Config) (r : Reader) (n : Nat) : (r.skip c n).bound = r.bound := rfl
@[simp] theorem Reader.skip_mode (c : Config) (r : Reader) (n : Nat) : (r.skip c n).mode = r.mode := rfl
@[simp] theorem Reader.skip_base (c : Config) (r : Reader) (n : Nat) : (r.skip c n).base = r.base := rfl
@[simp] theorem Reader.skip_len (c : Config) (r : Reader) (n : Nat) : (r.skip c n).len = r.len := rfl
@[simp] theorem Reader.skip_pos (c : Config) (r : Reader) (n : Nat) : (r.skip c n).pos = BitVec.ofNat 64 (r.posAfter c n) := rfl
@[simp] theorem Reader.skip_eos (c : Config) (r : Reader) (n : Nat) : (r.skip c n).eos = eosAt (r.posAfter c n) r.len.toNat := rfl
@[simp] theorem Reader.skip_range (c : Config) (r : Reader) (n : Nat) : (r.skip c n).range = r.range := rfl
@[simp] theorem Reader.skip_value (c : Config) (r : Reader) (n : Nat) : (r.skip c n).value = r.value := rfl
@[simp] theorem Reader.skip_stale (c : Config) (r : Reader) (n : Nat) : (r.skip c n).stale = r.stale := rfl

/-! `Reader.bind`. -/

@[simp] theorem Reader.bind_bound (mode : ReaderMode) (base len : Reg) : (Reader.bind mode base len).bound = true := rfl
@[simp] theorem Reader.bind_mode (mode : ReaderMode) (base len : Reg) : (Reader.bind mode base len).mode = mode := rfl
@[simp] theorem Reader.bind_base (mode : ReaderMode) (base len : Reg) : (Reader.bind mode base len).base = base := rfl
@[simp] theorem Reader.bind_len (mode : ReaderMode) (base len : Reg) : (Reader.bind mode base len).len = len := rfl
@[simp] theorem Reader.bind_pos (mode : ReaderMode) (base len : Reg) : (Reader.bind mode base len).pos = 0 := rfl
@[simp] theorem Reader.bind_eos (mode : ReaderMode) (base len : Reg) : (Reader.bind mode base len).eos = false := rfl
@[simp] theorem Reader.bind_range (mode : ReaderMode) (base len : Reg) : (Reader.bind mode base len).range = 0 := rfl
@[simp] theorem Reader.bind_value (mode : ReaderMode) (base len : Reg) : (Reader.bind mode base len).value = 0 := rfl
@[simp] theorem Reader.bind_stale (mode : ReaderMode) (base len : Reg) : (Reader.bind mode base len).stale = [] := rfl

/-! `Writer.bind`, `Writer.append`. -/

@[simp] theorem Writer.bind_bound (base cap limit : Reg) : (Writer.bind base cap limit).bound = true := rfl
@[simp] theorem Writer.bind_final (base cap limit : Reg) : (Writer.bind base cap limit).final = false := rfl
@[simp] theorem Writer.bind_err (base cap limit : Reg) : (Writer.bind base cap limit).err = false := rfl
@[simp] theorem Writer.bind_base (base cap limit : Reg) : (Writer.bind base cap limit).base = base := rfl
@[simp] theorem Writer.bind_cap (base cap limit : Reg) : (Writer.bind base cap limit).cap = cap := rfl
@[simp] theorem Writer.bind_limit (base cap limit : Reg) : (Writer.bind base cap limit).limit = limit := rfl
@[simp] theorem Writer.bind_pos (base cap limit : Reg) : (Writer.bind base cap limit).pos = 0 := rfl
@[simp] theorem Writer.bind_bits (base cap limit : Reg) : (Writer.bind base cap limit).bits = [] := rfl

/-! `Writer.append`. -/

@[simp] theorem Writer.append_bound (w : Writer) (n : Nat) (v : Reg) : (w.append n v).bound = w.bound := rfl
@[simp] theorem Writer.append_final (w : Writer) (n : Nat) (v : Reg) : (w.append n v).final = w.final := rfl
@[simp] theorem Writer.append_err (w : Writer) (n : Nat) (v : Reg) : (w.append n v).err = w.err := rfl
@[simp] theorem Writer.append_base (w : Writer) (n : Nat) (v : Reg) : (w.append n v).base = w.base := rfl
@[simp] theorem Writer.append_cap (w : Writer) (n : Nat) (v : Reg) : (w.append n v).cap = w.grownCap (w.needed n) := rfl
@[simp] theorem Writer.append_limit (w : Writer) (n : Nat) (v : Reg) : (w.append n v).limit = w.limit := rfl
@[simp] theorem Writer.append_pos (w : Writer) (n : Nat) (v : Reg) : (w.append n v).pos = BitVec.ofNat 64 (w.pos.toNat + n) := rfl
@[simp] theorem Writer.append_bits (w : Writer) (n : Nat) (v : Reg) : (w.append n v).bits = w.bits ++ lowBits n v := rfl

/-! `Store.emptied`. -/

@[simp] theorem Store.emptied_valid (m : Store) (v : Bool) : (m.emptied v).valid = v := rfl
@[simp] theorem Store.emptied_recs (m : Store) (v : Bool) : (m.emptied v).recs = m.recs.map fun r => { r with present := false } := rfl
@[simp] theorem Store.emptied_dim (m : Store) (v : Bool) : (m.emptied v).dim = [] := rfl
@[simp] theorem Store.emptied_icc (m : Store) (v : Bool) : (m.emptied v).icc = [] := rfl
@[simp] theorem Store.emptied_anim (m : Store) (v : Bool) : (m.emptied v).anim = [] := rfl
@[simp] theorem Store.emptied_exif (m : Store) (v : Bool) : (m.emptied v).exif = [] := rfl
@[simp] theorem Store.emptied_xmp (m : Store) (v : Bool) : (m.emptied v).xmp = [] := rfl
@[simp] theorem Store.emptied_unknown (m : Store) (v : Bool) : (m.emptied v).unknown = [] := rfl
@[simp] theorem Store.emptied_frames (m : Store) (v : Bool) : (m.emptied v).frames = [] := rfl
@[simp] theorem Store.emptied_heapUsed (m : Store) (v : Bool) : (m.emptied v).heapUsed = 0 := rfl

/-! `Store.release`. -/

@[simp] theorem Store.release_valid (m : Store) (i : Nat) : (m.release i).valid = m.valid := rfl
@[simp] theorem Store.release_recs (m : Store) (i : Nat) : (m.release i).recs = m.recs.set i { m.record i with present := false } := rfl
@[simp] theorem Store.release_dim (m : Store) (i : Nat) : (m.release i).dim = m.dim := rfl
@[simp] theorem Store.release_icc (m : Store) (i : Nat) : (m.release i).icc = m.icc := rfl
@[simp] theorem Store.release_anim (m : Store) (i : Nat) : (m.release i).anim = m.anim := rfl
@[simp] theorem Store.release_exif (m : Store) (i : Nat) : (m.release i).exif = m.exif := rfl
@[simp] theorem Store.release_xmp (m : Store) (i : Nat) : (m.release i).xmp = m.xmp := rfl
@[simp] theorem Store.release_unknown (m : Store) (i : Nat) : (m.release i).unknown = m.unknown := rfl
@[simp] theorem Store.release_frames (m : Store) (i : Nat) : (m.release i).frames = m.frames := rfl
@[simp] theorem Store.release_heapUsed (m : Store) (i : Nat) : (m.release i).heapUsed = if (m.record i).owner then BitVec.ofNat 33 (m.heapUsed.toNat - (m.record i).len.toNat) else m.heapUsed := rfl

/-! `Store.unlink`. -/

@[simp] theorem Store.unlink_valid (m : Store) (d : List Nat) : (m.unlink d).valid = m.valid := rfl
@[simp] theorem Store.unlink_recs (m : Store) (d : List Nat) : (m.unlink d).recs = m.recs := rfl
@[simp] theorem Store.unlink_dim (m : Store) (d : List Nat) : (m.unlink d).dim = withoutList d m.dim := rfl
@[simp] theorem Store.unlink_icc (m : Store) (d : List Nat) : (m.unlink d).icc = withoutList d m.icc := rfl
@[simp] theorem Store.unlink_anim (m : Store) (d : List Nat) : (m.unlink d).anim = withoutList d m.anim := rfl
@[simp] theorem Store.unlink_exif (m : Store) (d : List Nat) : (m.unlink d).exif = withoutList d m.exif := rfl
@[simp] theorem Store.unlink_xmp (m : Store) (d : List Nat) : (m.unlink d).xmp = withoutList d m.xmp := rfl
@[simp] theorem Store.unlink_unknown (m : Store) (d : List Nat) : (m.unlink d).unknown = withoutList d m.unknown := rfl
@[simp] theorem Store.unlink_frames (m : Store) (d : List Nat) : (m.unlink d).frames = (m.frames.map (Frame.without d)).filter fun f => !f.isEmpty := rfl
@[simp] theorem Store.unlink_heapUsed (m : Store) (d : List Nat) : (m.unlink d).heapUsed = m.heapUsed := rfl

/-! `Store.mapLast`. -/

@[simp] theorem Store.mapLast_valid (m : Store) (g : Frame → Frame) : (m.mapLast g).valid = m.valid := rfl
@[simp] theorem Store.mapLast_recs (m : Store) (g : Frame → Frame) : (m.mapLast g).recs = m.recs := rfl
@[simp] theorem Store.mapLast_dim (m : Store) (g : Frame → Frame) : (m.mapLast g).dim = m.dim := rfl
@[simp] theorem Store.mapLast_icc (m : Store) (g : Frame → Frame) : (m.mapLast g).icc = m.icc := rfl
@[simp] theorem Store.mapLast_anim (m : Store) (g : Frame → Frame) : (m.mapLast g).anim = m.anim := rfl
@[simp] theorem Store.mapLast_exif (m : Store) (g : Frame → Frame) : (m.mapLast g).exif = m.exif := rfl
@[simp] theorem Store.mapLast_xmp (m : Store) (g : Frame → Frame) : (m.mapLast g).xmp = m.xmp := rfl
@[simp] theorem Store.mapLast_unknown (m : Store) (g : Frame → Frame) : (m.mapLast g).unknown = m.unknown := rfl
@[simp] theorem Store.mapLast_frames (m : Store) (g : Frame → Frame) : (m.mapLast g).frames = match m.frames.reverse with | [] => [] | last :: before => (g last :: before).reverse := rfl
@[simp] theorem Store.mapLast_heapUsed (m : Store) (g : Frame → Frame) : (m.mapLast g).heapUsed = m.heapUsed := rfl

/-! What a byte read sees of an update that leaves the writer, the tick and the memory alone. -/

@[simp] theorem State.readByte_finish (s : State) (r0 r1 : Reg) (a : Nat) : (s.finish r0 r1).readByte a = s.readByte a := rfl
@[simp] theorem State.readByte_raised (s : State) (x : Status) (a : Nat) : (s.raised x).readByte a = s.readByte a := rfl
@[simp] theorem State.readByte_setSlot (s : State) (t : Nat) (x : Slot) (a : Nat) :
    (s.setSlot t x).readByte a = s.readByte a := rfl
@[simp] theorem State.readByte_withReader (s : State) (r : Reader) (a : Nat) :
    ({ s with br := r } : State).readByte a = s.readByte a := rfl
@[simp] theorem State.readByte_withStore (s : State) (m : Store) (a : Nat) :
    ({ s with mux := m } : State).readByte a = s.readByte a := rfl
@[simp] theorem State.readByte_withImage (s : State) (p : Image) (a : Nat) :
    ({ s with pte := p } : State).readByte a = s.readByte a := rfl
@[simp] theorem State.barred_finish (s : State) (r0 r1 : Reg) (p : Nat × Nat) : (s.finish r0 r1).barred p = s.barred p := rfl

/-! The two endings of a command. -/

@[simp] theorem succeed_eq_next (s t : State) (r0 r1 : Reg) : succeed s r0 r1 = .next t ↔ s.finish r0 r1 = t := by
  simp [succeed]
@[simp] theorem raise_eq_next (s t : State) (x : Status) : raise s x = .next t ↔ s.raised x = t := by
  simp [raise]

end Sys2Proof.Machine
end

