-- ==== Sys2Proof/Laws/Memory.lean ====
section
/-! SUPPORT. The laws of the byte memory: a read after a write, and that every operation keeps the canonical form. -/

namespace Sys2Proof.Machine

/-! Listed bytes. -/

theorem findCell_insertCell (cells : List Host.Cell) (a : Nat) (b : Byte) (x : Nat) :
    findCell (insertCell cells a b) x = if x = a then some b else findCell cells x := by
  induction cells with
  | nil => simp [insertCell, findCell, eq_comm]
  | cons c rest ih =>
    unfold insertCell
    split_ifs with h1 h2 h3
    · subst h2; simp [findCell]
    · simp [findCell, Ne.symm h2]
    all_goals grind [findCell]

theorem findCell_eraseCell (cells : List Host.Cell) (a x : Nat) :
    findCell (eraseCell cells a) x = if x = a then none else findCell cells x := by
  induction cells with
  | nil => simp [eraseCell, findCell]
  | cons c rest ih =>
    unfold eraseCell at *
    by_cases h : c.1 = a <;> grind [findCell]

theorem findCell_filter (cells : List Host.Cell) (p : Nat → Bool) (x : Nat) :
    findCell (cells.filter fun c => p c.1) x = if p x then findCell cells x else none := by
  induction cells with
  | nil => simp [findCell]
  | cons c rest ih => by_cases h : p c.1 <;> grind [findCell]

theorem mem_insertCell {cells : List Host.Cell} {a : Nat} {b : Byte} {c : Host.Cell} (h : c ∈ insertCell cells a b) :
    c = (a, b) ∨ c ∈ cells := by
  induction cells with
  | nil => simpa [insertCell] using h
  | cons d rest ih => grind [insertCell]

theorem insertCell_sorted {cells : List Host.Cell} (a : Nat) (b : Byte)
    (h : cells.Pairwise fun c d => c.1 < d.1) : (insertCell cells a b).Pairwise fun c d => c.1 < d.1 := by
  induction cells with
  | nil => simp [insertCell]
  | cons d rest ih =>
    rw [List.pairwise_cons] at h
    unfold insertCell
    split_ifs with h1 h2
    · refine List.pairwise_cons.2 ⟨?_, List.pairwise_cons.2 h⟩
      intro c hc
      rcases List.mem_cons.1 hc with rfl | hc
      · exact h1
      · exact Nat.lt_trans h1 (h.1 c hc)
    · subst h2; exact List.pairwise_cons.2 h
    · refine List.pairwise_cons.2 ⟨?_, ih h.2⟩
      intro c hc
      rcases mem_insertCell hc with rfl | hc
      · show d.1 < a
        omega
      · exact h.1 c hc

/-! Left-over intervals. -/

theorem mem_cut {lo hi : Nat} {j p : Junk} (h : p ∈ Junk.cut lo hi j) :
    p.lo < p.hi ∧ j.lo ≤ p.lo ∧ p.hi ≤ j.hi ∧ (p.hi ≤ lo ∨ hi ≤ p.lo) ∧ p.stamp = j.stamp := by
  simp only [Junk.cut, List.mem_filter, List.mem_cons, List.not_mem_nil, or_false, decide_eq_true_eq] at h
  rcases h with ⟨rfl | rfl, h⟩ <;> simp at * <;> omega

theorem mem_flatMap_cut {lo hi : Nat} {js : List Junk} {p : Junk} (h : p ∈ js.flatMap (Junk.cut lo hi)) :
    ∃ j ∈ js, p.lo < p.hi ∧ j.lo ≤ p.lo ∧ p.hi ≤ j.hi ∧ (p.hi ≤ lo ∨ hi ≤ p.lo) ∧ p.stamp = j.stamp := by
  obtain ⟨j, hj, hp⟩ := List.mem_flatMap.1 h
  exact ⟨j, hj, mem_cut hp⟩

theorem cut_pairwise {lo hi : Nat} (hlt : lo < hi) {js : List Junk}
    (h : js.Pairwise fun j k => j.hi ≤ k.lo ∨ k.hi ≤ j.lo) :
    (js.flatMap (Junk.cut lo hi)).Pairwise fun j k => j.hi ≤ k.lo ∨ k.hi ≤ j.lo := by
  induction js with
  | nil => simp
  | cons j rest ih =>
    rw [List.pairwise_cons] at h
    rw [List.flatMap_cons, List.pairwise_append]
    refine ⟨?_, ih h.2, ?_⟩
    · refine List.Pairwise.filter _ ?_
      simp
      omega
    · intro p hp q hq
      obtain ⟨k, hk, hq⟩ := mem_flatMap_cut hq
      have := mem_cut hp
      have := h.1 k hk
      omega

theorem has_iff {x : Nat} {j : Junk} : j.has x = true ↔ j.lo ≤ x ∧ x < j.hi := by simp [Junk.has]

theorem has_eq_false {x : Nat} {j : Junk} (h : ¬(j.lo ≤ x ∧ x < j.hi)) : j.has x = false := by
  simpa [Junk.has] using h

theorem find_has_eq_none {x : Nat} {js : List Junk} (h : ∀ j ∈ js, ¬(j.lo ≤ x ∧ x < j.hi)) :
    js.find? (Junk.has x) = none := by
  rw [List.find?_eq_none]
  exact fun j hj => by rw [has_iff]; exact h j hj

/-- Inside the interval cut away nothing is left over. -/
theorem find_cut_inside {lo hi x : Nat} (js : List Junk) (h : lo ≤ x ∧ x < hi) :
    (js.flatMap (Junk.cut lo hi)).find? (Junk.has x) = none := by
  refine find_has_eq_none fun p hp => ?_
  obtain ⟨j, -, hp⟩ := mem_flatMap_cut hp
  omega

theorem find_cut_one {lo hi x : Nat} {j : Junk} (h : ¬(lo ≤ x ∧ x < hi)) (hj : j.lo ≤ x ∧ x < j.hi) :
    ∃ p, (Junk.cut lo hi j).find? (Junk.has x) = some p ∧ p.stamp = j.stamp := by
  have hsome : ((Junk.cut lo hi j).find? (Junk.has x)).isSome := by
    rw [List.find?_isSome]
    by_cases hx : x < lo
    · refine ⟨⟨j.lo, min j.hi lo, j.stamp⟩, ?_, has_iff.2 ?_⟩
      · simp [Junk.cut]; omega
      · dsimp only; omega
    · refine ⟨⟨max j.lo hi, j.hi, j.stamp⟩, ?_, has_iff.2 ?_⟩
      · simp [Junk.cut]; omega
      · dsimp only; omega
  obtain ⟨p, hp⟩ := Option.isSome_iff_exists.1 hsome
  exact ⟨p, hp, (mem_cut (List.mem_of_find?_eq_some hp)).2.2.2.2⟩

/-- Outside the interval cut away the same event's left-over stays. -/
theorem find_cut_outside {lo hi x : Nat} (js : List Junk) (h : ¬(lo ≤ x ∧ x < hi)) :
    ((js.flatMap (Junk.cut lo hi)).find? (Junk.has x)).map Junk.stamp = (js.find? (Junk.has x)).map Junk.stamp := by
  induction js with
  | nil => rfl
  | cons j rest ih =>
    rw [List.flatMap_cons, List.find?_append, List.find?_cons]
    by_cases hj : j.lo ≤ x ∧ x < j.hi
    · obtain ⟨p, hp, hst⟩ := find_cut_one h hj
      rw [hp, has_iff.2 hj]
      exact congrArg some hst
    · rw [has_eq_false hj, find_has_eq_none, Option.none_or]
      · exact ih
      · intro p hp
        have := mem_cut hp
        omega

theorem unlisted_eq (m : Memory) (x : Nat) :
    m.unlisted x = (((m.junk.find? (Junk.has x)).map Junk.stamp).map fun st => Config.leftByte st x).getD 0 := by
  unfold Memory.unlisted
  cases m.junk.find? (Junk.has x) <;> rfl

theorem read_eq (m : Memory) (x : Nat) : m.read x = (findCell m.cells x).getD (m.unlisted x) := by
  unfold Memory.read
  cases findCell m.cells x <;> rfl

/-! Reading after writing. -/

/-- A read after a write of one byte: the byte written at its address, and every other address reads as before. -/
theorem Memory.read_write (m : Memory) (a : Nat) (b : Byte) (x : Nat) :
    (m.write a b).read x = if x = a then b else m.read x := by
  unfold Memory.write
  rw [read_eq, read_eq, unlisted_eq, unlisted_eq]
  dsimp only
  by_cases hx : x = a
  · subst hx
    rw [find_cut_inside _ (by omega), if_pos rfl]
    by_cases hb : b = 0
    · rw [if_pos hb, findCell_eraseCell, if_pos rfl]
      exact hb.symm
    · rw [if_neg hb, findCell_insertCell, if_pos rfl]
      rfl
  · rw [find_cut_outside _ (by omega), if_neg hx]
    by_cases hb : b = 0
    · rw [if_pos hb, findCell_eraseCell, if_neg hx]
    · rw [if_neg hb, findCell_insertCell, if_neg hx]

/-- A read after a store of several bytes (R10): the byte stored inside the span, and every other address as before. -/
theorem Memory.read_store (m : Memory) (a : Nat) (bs : List Byte) (x : Nat) :
    (m.store a bs).read x = if a ≤ x ∧ x < a + bs.length then bs.getD (x - a) 0 else m.read x := by
  induction bs generalizing m a with
  | nil => rw [if_neg (by simp)]; rfl
  | cons b bs ih =>
    simp only [List.length_cons]
    rw [Memory.store, ih, Memory.read_write]
    by_cases h1 : x = a
    · subst h1
      rw [if_neg (by omega), if_pos rfl, if_pos (by omega), Nat.sub_self]
      rfl
    · by_cases h2 : a + 1 ≤ x ∧ x < a + 1 + bs.length
      · rw [if_pos h2, if_pos (by omega)]
        obtain ⟨k, rfl⟩ : ∃ k, x = a + 1 + k := ⟨x - (a + 1), by omega⟩
        rw [show a + 1 + k - (a + 1) = k by omega, show a + 1 + k - a = k + 1 by omega, List.getD_cons_succ]
      · rw [if_neg h2, if_neg h1, if_neg (by omega)]

/-- An address outside the span of a store reads as before, whatever the span. -/
theorem Memory.read_store_outside (m : Memory) (a : Nat) (bs : List Byte) (x : Nat)
    (h : ¬(a ≤ x ∧ x < a + bs.length)) : (m.store a bs).read x = m.read x := by
  rw [Memory.read_store, if_neg h]

theorem cellOutside_iff {lo hi : Nat} {c : Host.Cell} : cellOutside lo hi c = true ↔ ¬(lo ≤ c.1 ∧ c.1 < hi) :=
  decide_eq_true_iff

theorem findCell_filter_outside (cells : List Host.Cell) {lo hi x : Nat} (h : ¬(lo ≤ x ∧ x < hi)) :
    findCell (cells.filter (cellOutside lo hi)) x = findCell cells x := by
  have := findCell_filter cells (fun a => cellOutside lo hi (a, 0)) x
  rw [if_pos (cellOutside_iff.2 h)] at this
  exact this

/-- Outside an interval left at any value every address reads as before. -/
theorem Memory.read_leave_outside (m : Memory) (lo hi stamp x : Nat) (h : ¬(lo ≤ x ∧ x < hi)) :
    (m.leave lo hi stamp).read x = m.read x := by
  unfold Memory.leave
  by_cases hlt : lo < hi
  · rw [if_pos hlt, read_eq, read_eq, unlisted_eq, unlisted_eq]
    dsimp only
    rw [findCell_filter_outside _ h, List.find?_append, find_has_eq_none (js := [_]), Option.or_none,
      find_cut_outside _ h]
    intro j hj
    rw [List.mem_singleton.1 hj]
    exact h
  · rw [if_neg hlt]

/-! The canonical form. -/

/-- What is left of an interval after a cut is not empty and ends no later. -/
theorem junk_cut_le {lo hi top : Nat} {js : List Junk} (h : ∀ j ∈ js, j.hi ≤ top) :
    ∀ j ∈ js.flatMap (Junk.cut lo hi), j.lo < j.hi ∧ j.hi ≤ top := by
  intro j hj
  obtain ⟨k, hk, hj⟩ := mem_flatMap_cut hj
  have := h k hk
  omega

theorem junk_cut_nonempty {lo hi : Nat} {js : List Junk} : ∀ j ∈ js.flatMap (Junk.cut lo hi), j.lo < j.hi := by
  intro j hj
  obtain ⟨k, -, hj⟩ := mem_flatMap_cut hj
  exact hj.1

theorem not_in_cut {lo hi x : Nat} {js : List Junk} (h : ∀ j ∈ js, ¬(j.lo ≤ x ∧ x < j.hi)) :
    ∀ j ∈ js.flatMap (Junk.cut lo hi), ¬(j.lo ≤ x ∧ x < j.hi) := by
  intro j hj
  obtain ⟨k, hk, hj⟩ := mem_flatMap_cut hj
  have := h k hk
  omega

/-- The bytes listed after a write: those listed before, and the byte written unless it is 0. -/
theorem Memory.mem_write_cells {m : Memory} {a : Nat} {b : Byte} {c : Host.Cell} (h : c ∈ (m.write a b).cells) :
    c ∈ m.cells ∨ (c = (a, b) ∧ b ≠ 0) := by
  unfold Memory.write at h
  by_cases hb : b = 0
  · simp only [hb, if_true] at h
    exact .inl (List.mem_filter.1 h).1
  · simp only [hb, if_false] at h
    exact (mem_insertCell h).elim (fun h => .inr ⟨h, hb⟩) .inl

theorem Memory.wf_write {m : Memory} (a : Nat) (b : Byte) (h : m.wf) : (m.write a b).wf := by
  obtain ⟨h1, h2, h3, h4⟩ := h
  refine ⟨?_, ?_, junk_cut_nonempty, cut_pairwise (by omega) h4⟩
  · unfold Memory.write
    by_cases hb : b = 0
    · simp only [hb, if_true]
      exact h1.filter _
    · simp only [hb, if_false]
      exact insertCell_sorted a b h1
  · intro c hc
    rcases Memory.mem_write_cells hc with hc | ⟨rfl, hb⟩
    · exact ⟨(h2 c hc).1, not_in_cut (h2 c hc).2⟩
    · refine ⟨hb, fun j hj => ?_⟩
      obtain ⟨k, -, hj⟩ := mem_flatMap_cut hj
      dsimp only
      omega

theorem Memory.wf_store {m : Memory} (a : Nat) (bs : List Byte) (h : m.wf) : (m.store a bs).wf := by
  induction bs generalizing m a with
  | nil => exact h
  | cons b bs ih => exact ih _ (Memory.wf_write a b h)

theorem Memory.wf_leave {m : Memory} (lo hi stamp : Nat) (h : m.wf) : (m.leave lo hi stamp).wf := by
  unfold Memory.leave
  by_cases hlt : lo < hi
  · obtain ⟨h1, h2, h3, h4⟩ := h
    rw [if_pos hlt]
    refine ⟨h1.filter _, ?_, ?_, ?_⟩
    · intro c hc
      obtain ⟨hc, hout⟩ := List.mem_filter.1 hc
      refine ⟨(h2 c hc).1, fun j hj => ?_⟩
      rcases List.mem_append.1 hj with hj | hj
      · exact not_in_cut (h2 c hc).2 j hj
      · rw [List.mem_singleton.1 hj]
        exact cellOutside_iff.1 hout
    · intro j hj
      rcases List.mem_append.1 hj with hj | hj
      · exact junk_cut_nonempty j hj
      · rw [List.mem_singleton.1 hj]
        exact hlt
    · refine List.pairwise_append.2 ⟨cut_pairwise hlt h4, List.pairwise_singleton _ _, ?_⟩
      intro j hj k hk
      obtain ⟨i, hi, hj⟩ := mem_flatMap_cut hj
      rw [List.mem_singleton.1 hk]
      dsimp only
      omega
  · rw [if_neg hlt]
    exact h

/-! Below 2^AW. -/

theorem Memory.within_write {m : Memory} {top a : Nat} (b : Byte) (ha : a < top) (h : m.within top) :
    (m.write a b).within top := by
  refine ⟨fun c hc => ?_, fun j hj => (junk_cut_le h.2 j hj).2⟩
  rcases Memory.mem_write_cells hc with hc | ⟨rfl, -⟩
  · exact h.1 c hc
  · exact ha

theorem Memory.within_store {m : Memory} {top a : Nat} {bs : List Byte} (ha : a + bs.length ≤ top) (h : m.within top) :
    (m.store a bs).within top := by
  induction bs generalizing m a with
  | nil => exact h
  | cons b bs ih =>
    rw [List.length_cons] at ha
    exact ih (by omega) (Memory.within_write b (by omega) h)

theorem Memory.within_leave {m : Memory} {top lo hi : Nat} (stamp : Nat) (ha : hi ≤ top) (h : m.within top) :
    (m.leave lo hi stamp).within top := by
  unfold Memory.leave
  split
  · refine ⟨fun c hc => h.1 c (List.mem_filter.1 hc).1, fun j hj => ?_⟩
    rcases List.mem_append.1 hj with hj | hj
    · exact (junk_cut_le h.2 j hj).2
    · rw [List.mem_singleton.1 hj]
      exact ha
  · exact h

/-! The same of the state's operations: both forms are kept, and a byte outside what is stored or left reads as before. -/

theorem State.wf_storeBytes {s : State} (a : Nat) (bs : List Byte) (h : s.mem.wf) : (s.storeBytes a bs).mem.wf := by
  rw [State.storeBytes_mem]
  split
  · exact Memory.wf_store _ _ h
  · exact h

theorem State.within_storeBytes {s : State} (a : Nat) (bs : List Byte) (h : s.mem.within (2 ^ s.cfg.aw)) :
    (s.storeBytes a bs).mem.within (2 ^ s.cfg.aw) := by
  rw [State.storeBytes_mem]
  split
  · rename_i hf
    exact Memory.within_store (by simpa [fits] using hf) h
  · exact h

/-- A read after a store that does not pass 2^AW (R10, R71). -/
theorem State.read_storeBytes {s : State} {a : Nat} {bs : List Byte} (x : Nat) (h : a + bs.length ≤ 2 ^ s.cfg.aw) :
    (s.storeBytes a bs).mem.read x = if a ≤ x ∧ x < a + bs.length then bs.getD (x - a) 0 else s.mem.read x := by
  rw [State.storeBytes_mem, if_pos (by simpa [fits] using h), Memory.read_store]

/-- An address outside the span of a store reads as before, whatever the span. -/
theorem State.read_storeBytes_outside {s : State} {a : Nat} {bs : List Byte} {x : Nat}
    (h : ¬(a ≤ x ∧ x < a + bs.length)) : (s.storeBytes a bs).mem.read x = s.mem.read x := by
  rw [State.storeBytes_mem]
  split
  · exact Memory.read_store_outside _ _ _ _ h
  · rfl

theorem State.wf_leaving {s : State} {m : Memory} (lo hi : Nat) (h : m.wf) : (s.leaving m lo hi).wf :=
  Memory.wf_leave _ _ _ h

theorem State.within_leaving {s : State} {m : Memory} (lo hi : Nat) (h : m.within (2 ^ s.cfg.aw)) :
    (s.leaving m lo hi).within (2 ^ s.cfg.aw) := Memory.within_leave _ (Nat.min_le_right _ _) h

theorem State.read_leaving_outside {s : State} {m : Memory} {lo hi x : Nat} (h : ¬(lo ≤ x ∧ x < hi)) :
    (s.leaving m lo hi).read x = m.read x := Memory.read_leave_outside _ _ _ _ _ (by omega)

/-- Giving the writer's region up keeps the canonical form. -/
theorem State.wf_releasedMem {s : State} (h : s.mem.wf) : s.releasedMem.wf := by
  unfold State.releasedMem
  split_ifs
  · exact State.wf_leaving _ _ h
  · exact h

theorem State.within_releasedMem {s : State} (h : s.mem.within (2 ^ s.cfg.aw)) : s.releasedMem.within (2 ^ s.cfg.aw) := by
  unfold State.releasedMem
  split_ifs
  · exact State.within_leaving _ _ h
  · exact h

/-- The memory at reset is in canonical form. -/
theorem State.reset_mem_wf : State.reset.mem.wf ∧ State.reset.mem.within (2 ^ State.reset.cfg.aw) := by decide

end Sys2Proof.Machine
end

