-- ==== Sys2Proof/Laws/Ops.lean ====
section
/-! SUPPORT. What each shared operation can do, said once: the access check, the common part of the transforms, the reader's
primitives, allocation and routing. -/

namespace Sys2Proof.Machine

/-! The access check. -/

/-- The access check never answers a next state of its own. -/
theorem State.barred_not_next (s t : State) (p : Nat × Nat) : s.barred p ≠ some (.next t) := by
  unfold State.barred
  split
  · simp
  · split
    · simp
    · split
      · split <;> simp
      · simp

/-- The access check lets a span pass when each of its bytes is backed. -/
theorem State.barred_of_backed {s : State} {p : Nat × Nat} (h : ∀ k < p.2, s.Backed (p.1 + k)) : s.barred p = none := by
  unfold State.barred
  by_cases h0 : p.2 = 0
  · rw [if_pos h0]
  · have hfit : fits s.cfg p.1 p.2 = true := by
      have := (h (p.2 - 1) (by omega)).1
      simp only [fits, decide_eq_true_eq]
      omega
    rw [if_neg h0, if_neg (by simp [hfit])]
    have hnone : s.cfg.special.find? (fun r => r.lo < r.hi ∧ p.1 < r.hi ∧ r.lo < p.1 + p.2) = none := by
      rw [List.find?_eq_none]
      intro r hr hc
      have hc := of_decide_eq_true hc
      have := (h (max r.lo p.1 - p.1) (by omega)).2 r hr
      omega
    rw [hnone]

/-- With every span accessible the access check only goes on. -/
theorem State.touching_of_accessible {s : State} {spans : List (Nat × Nat)} (h : s.Accessible spans) (k : Out) :
    s.touching spans k = k := by
  unfold State.touching
  rw [List.findSome?_eq_none_iff.2 fun p hp => State.barred_of_backed (h p hp)]

/-- The access check answers a next state only by going on. -/
theorem State.touching_next {s t : State} {spans : List (Nat × Nat)} {k : Out} (h : s.touching spans k = .next t) :
    k = .next t := by
  unfold State.touching at h
  split at h
  · rename_i o ho
    obtain ⟨p, -, hp⟩ := List.exists_of_findSome?_eq_some ho
    subst h
    exact absurd hp (State.barred_not_next s t p)
  · exact h

/-! The common part of the transform commands. -/

/-- If a transform command answers a next state, it raised InvalidArgument, or it stored its output (R223). -/
theorem State.transform_next {s t : State} {reads : List (Nat × Nat)} {dst : Nat × Nat} {ok : Bool} {out : List Byte}
    {r0 r1 : Reg} (h : s.transform reads dst ok out r0 r1 = .next t) :
    t = s.raised .invalidArgument ∨
      (s.pte.valid = true ∧ (∀ p ∈ reads ++ [dst], fits s.cfg p.1 p.2 = true) ∧ ok = true ∧
        t = (s.storeBytes dst.1 out).finish r0 r1) := by
  unfold State.transform at h
  split at h
  · exact .inl ((raise_eq_next _ _ _).1 h).symm
  · rename_i hv
    split at h
    · exact .inl ((raise_eq_next _ _ _).1 h).symm
    · rename_i hf
      have h := State.touching_next h
      split at h
      · exact .inl ((raise_eq_next _ _ _).1 h).symm
      · rename_i hok
        refine .inr ⟨by simpa using hv, ?_, by simpa using hok, ((succeed_eq_next _ _ _ _).1 (State.touching_next h)).symm⟩
        intro p hp
        by_contra hc
        exact hf (List.any_eq_true.2 ⟨p, hp, by simpa using hc⟩)

/-- A transform whose conditions hold stores its output (R223). -/
theorem State.transform_ok {s : State} {reads : List (Nat × Nat)} {dst : Nat × Nat} {out : List Byte} (r0 r1 : Reg)
    (hv : s.pte.valid = true) (hf : ∀ p ∈ reads ++ [dst], fits s.cfg p.1 p.2 = true) (ha : s.Accessible (reads ++ [dst])) :
    s.transform reads dst true out r0 r1 = .next ((s.storeBytes dst.1 out).finish r0 r1) := by
  unfold State.transform
  have hany : (reads ++ [dst]).any (fun p => !fits s.cfg p.1 p.2) = false := by
    rw [List.any_eq_false]
    intro p hp
    simp [hf p hp]
  rw [if_neg (by simp [hv]), hany, if_neg (by simp), State.touching_of_accessible fun p hp => ha p (by simp [hp]),
    if_neg (by simp), State.touching_of_accessible fun p hp => ha p (by simp_all)]
  rfl

/-! The reader. -/

/-- Only the position and the degraded-mode flag move (R135). -/
theorem Reader.skip_eq (c : Config) (r : Reader) (n : Nat) :
    r.skip c n = { r with pos := (r.skip c n).pos, eos := (r.skip c n).eos } := rfl

/-- The position stays a number of POSW bits (R135). -/
theorem Reader.posAfter_lt (c : Config) (r : Reader) (n : Nat) : r.posAfter c n < 2 ^ c.posw := by
  have := Nat.two_pow_pos c.posw
  unfold Reader.posAfter
  omega

/-- The position saturates at 2^POSW - 1 (R135); POSW is at most 64 (log 2). -/
theorem Reader.skip_pos_toNat (c : Config) (r : Reader) (n : Nat) (h : c.aw ≤ 60) :
    (r.skip c n).pos.toNat = r.posAfter c n := by
  have hp : 2 ^ c.posw ≤ 2 ^ 64 := Nat.pow_le_pow_right (by omega) (by unfold Config.posw; omega)
  rw [Reader.skip_pos, BitVec.toNat_ofNat, Nat.mod_eq_of_lt (lt_of_lt_of_le (r.posAfter_lt c n) hp)]

/-- Away from saturation the position advances by `n` (R135). -/
theorem Reader.posAfter_eq (c : Config) (r : Reader) (n : Nat) (h : r.pos.toNat + n < 2 ^ c.posw) :
    r.posAfter c n = r.pos.toNat + n := by
  unfold Reader.posAfter
  omega

/-- `BR.eos` is recomputed from the new position (R135). -/
theorem Reader.skip_eos_eq (c : Config) (r : Reader) (n : Nat) (h : c.aw ≤ 60) :
    (r.skip c n).eos = eosAt (r.skip c n).pos.toNat r.len.toNat := by
  rw [Reader.skip_eos, Reader.skip_pos_toNat c r n h]

/-- The two parts of a read (R136). -/
theorem Reader.read_eq (bit : Nat → Bool) (c : Config) (r : Reader) (n : Nat) :
    r.read bit c n = (brPeek bit r.pos.toNat n, r.skip c n) := rfl

/-- A plain stream bit at or past the end is 0 (R133). -/
theorem State.bitLsb_past_end (s : State) (i : Nat) (h : 8 * s.br.len.toNat ≤ i) : s.bitLsb i = false := by
  simp [State.bitLsb, Nat.not_lt.2 h]

/-- A range-mode stream bit at or past the end is 0 (R133). -/
theorem State.bitMsb_past_end (s : State) (i : Nat) (h : 8 * s.br.len.toNat ≤ i) : s.bitMsb i = false := by
  simp [State.bitMsb, Nat.not_lt.2 h]

/-- With no byte of the view written by the host, the reader delivers the byte's bit (R133). -/
theorem State.viewBit_fresh (s : State) (a k : Nat) (h : s.br.stale = []) :
    s.viewBit a k = (s.readByte a).getLsbD k := by
  simp [State.viewBit, h]

theorem testBit_natOfBits (bs : List Bool) (k : Nat) : (natOfBits bs).testBit k = bs.getD k false := by
  induction bs generalizing k with
  | nil => simp [natOfBits]
  | cons b bs ih =>
    cases k with
    | zero => cases b <;> simp [natOfBits, Nat.testBit_zero]
    | succ k =>
      have : (natOfBits (b :: bs)) / 2 = natOfBits bs := by cases b <;> (simp [natOfBits]; try omega)
      rw [Nat.testBit_succ, this, ih, List.getD_cons_succ]

theorem natOfBits_lt (bs : List Bool) : natOfBits bs < 2 ^ bs.length := by
  induction bs with
  | nil => simp [natOfBits]
  | cons b bs ih => cases b <;> simp [natOfBits, Nat.pow_succ] <;> omega

/-- Bit `k` of a peek is the stream's bit at the position plus `k` (R134). -/
theorem testBit_brPeek (bit : Nat → Bool) (pos n k : Nat) :
    (brPeek bit pos n).testBit k = (decide (k < n) && bit (pos + k)) := by
  rw [brPeek, testBit_natOfBits]
  by_cases h : k < n <;> simp [h, List.getD_eq_getElem?_getD]

/-- A peek of `n` bits is below 2^n (R134). -/
theorem brPeek_lt (bit : Nat → Bool) (pos n : Nat) : brPeek bit pos n < 2 ^ n := by
  simpa [brPeek] using natOfBits_lt ((List.range n).map fun k => bit (pos + k))

/-- `huf_decode` moves only the reader's position and its flag (R192). -/
theorem hufDecode_reader (bit : Nat → Bool) (c : Config) (es : List Entry) (br : Reader) :
    (hufDecode bit c es br).reader =
      { br with pos := (hufDecode bit c es br).reader.pos, eos := (hufDecode bit c es br).reader.eos } := by
  unfold hufDecode
  dsimp only
  split <;> rfl

/-- Two readers that differ at most in the position and its flag: what every plain read does (R134 to R136). -/
abbrev Reader.SameView (r r' : Reader) : Prop := r' = { r with pos := r'.pos, eos := r'.eos }

theorem Reader.sameView_trans {r1 r2 r3 : Reader} (h : r1.SameView r2) (h' : r2.SameView r3) : r1.SameView r3 := by
  unfold Reader.SameView at *
  rw [h', h]

theorem Reader.sameView_skip (c : Config) (r : Reader) (n : Nat) : r.SameView (r.skip c n) := rfl

theorem Reader.sameView_read (bit : Nat → Bool) (c : Config) (r : Reader) (n : Nat) :
    r.SameView (r.read bit c n).2 := rfl

theorem hufDecode_sameView (bit : Nat → Bool) (c : Config) (es : List Entry) (br : Reader) :
    br.SameView (hufDecode bit c es br).reader := hufDecode_reader bit c es br

theorem readClLengths_sameView (bit : Nat → Bool) (c : Config) (syms : List Nat) (br : Reader) :
    br.SameView (readClLengths bit c syms br).2 := by
  induction syms generalizing br with
  | nil => exact rfl
  | cons sym rest ih => exact Reader.sameView_trans (Reader.sameView_read bit c br 3) (ih _)

theorem readTokenLimit_sameView (bit : Nat → Bool) (c : Config) (n : Nat) (br : Reader) :
    br.SameView (readTokenLimit bit c n br).1 := by
  unfold readTokenLimit
  dsimp only
  split <;> rfl

/-- The second pass moves only the position and its flag, and never fills more than `n` lengths (R204). -/
theorem lengthTokens_run (bit : Nat → Bool) (c : Config) (es : List Entry) (n limit : Nat) (run : LengthRun)
    (h : run.out.length ≤ n) :
    run.reader.SameView (lengthTokens bit c es n limit run).1.reader ∧
      (lengthTokens bit c es n limit run).1.out.length ≤ n := by
  induction limit generalizing run with
  | zero => exact ⟨rfl, h⟩
  | succ limit ih =>
    unfold lengthTokens
    dsimp only
    split
    · split
      · refine ⟨Reader.sameView_trans (hufDecode_sameView bit c es run.reader) (ih _ ?_).1, (ih _ ?_).2⟩ <;>
          · rw [List.length_append]
            exact ‹run.out.length < n›
      · have hd := Reader.sameView_trans (hufDecode_sameView bit c es run.reader) (Reader.sameView_read bit c
          (hufDecode bit c es run.reader).reader (runToken (hufDecode bit c es run.reader).sym run.prev).1)
        split
        · exact ⟨hd, h⟩
        · rename_i hle
          refine ⟨Reader.sameView_trans hd (ih _ ?_).1, (ih _ ?_).2⟩ <;>
            · rw [List.length_append, List.length_replicate]
              exact Nat.not_lt.1 hle
    · exact ⟨rfl, h⟩

/-- Reading a description moves only the reader's position and its flag, and a success gives exactly `n` lengths (R199). -/
theorem readDescription_spec (bit : Nat → Bool) (c : Config) (n : Nat) (br : Reader) :
    br.SameView (readDescription bit c n br).reader ∧
      ∀ out tokens, (readDescription bit c n br).lengths = some (out, tokens) → out.length = n := by
  unfold readDescription
  dsimp only
  have h2 := Reader.sameView_trans (Reader.sameView_read bit c br 4)
    (readClLengths_sameView bit c (clOrder.take (4 + (br.read bit c 4).1)) (br.read bit c 4).2)
  split
  · exact ⟨h2, by simp⟩
  · rename_i es hes
    have h3 := Reader.sameView_trans h2 (readTokenLimit_sameView bit c n _)
    split
    · rename_i br3 hl
      rw [hl] at h3
      exact ⟨h3, by simp⟩
    · rename_i br3 limit hl
      rw [hl] at h3
      have hrun := lengthTokens_run bit c es n limit
        { reader := br3, out := [], prev := 8, tokens := 0, reach := br3.pos.toNat } (Nat.zero_le n)
      split
      · rename_i run hr
        rw [hr] at hrun
        exact ⟨Reader.sameView_trans h3 hrun.1, by simp⟩
      · rename_i run hr
        rw [hr] at hrun
        refine ⟨Reader.sameView_trans h3 hrun.1, ?_⟩
        intro out tokens ho
        simp only [Option.some.injEq, Prod.mk.injEq] at ho
        rw [← ho.1, List.length_append, List.length_replicate]
        have := hrun.2
        dsimp only at this
        omega

/-! The writer. -/

/-- The last bits appended are the low bits of the value (R165). -/
theorem lowBits_length (n : Nat) (v : Reg) : (lowBits n v).length = n := by simp [lowBits]

theorem lowBits_getD (n : Nat) (v : Reg) (k : Nat) (h : k < n) : (lowBits n v).getD k false = v.getLsbD k := by
  simp [lowBits, List.getD_eq_getElem?_getD, h]

/-- The image of a stream has one byte for each 8 bits begun (R169). -/
theorem Writer.image_length (w : Writer) : w.image.length = ceilDiv w.pos.toNat 8 := by simp [Writer.image]

/-! The chunk store. -/

/-- If `alloc` succeeds, the record was absent, and only it and the heap accounting changed (R279). -/
theorem Store.alloc_ok {c : Config} {m m' : Store} {x : Incoming} {i : Nat} (h : m.alloc c x = .ok (i, m')) :
    m.freeIndex = some i ∧ m'.recs = m.recs.set i (x.record c) ∧
      m' = { m with recs := m'.recs, heapUsed := m'.heapUsed } ∧
      (ownsCopy c x.tag x.copy = true → m.heapUsed.toNat + x.len.toNat ≤ c.heapLimit ∧
        m'.heapUsed = BitVec.ofNat 33 (m.heapUsed.toNat + x.len.toNat)) ∧
      (ownsCopy c x.tag x.copy = false → m'.heapUsed = m.heapUsed) := by
  unfold Store.alloc at h
  split at h
  · simp at h
  · rename_i j hj
    split at h
    · rename_i ho
      split at h
      · simp at h
      · rename_i hl
        simp only [Except.ok.injEq, Prod.mk.injEq] at h
        obtain ⟨rfl, rfl⟩ := h
        simp [hj, ho, Nat.not_lt.1 hl]
    · rename_i ho
      simp only [Except.ok.injEq, Prod.mk.injEq] at h
      obtain ⟨rfl, rfl⟩ := h
      simp [hj, ho]

/-- `alloc` fails with AllocationFailure and nothing else (R279). -/
theorem Store.alloc_error {c : Config} {m : Store} {x : Incoming} {e : Status} (h : m.alloc c x = .error e) :
    e = .allocationFailure := by
  unfold Store.alloc at h
  split at h
  · simpa using h.symm
  · split at h
    · split at h
      · simpa using h.symm
      · simp at h
    · simp at h

/-- If `place` succeeds, the record was allocated and put in its place (R291). -/
theorem Store.place_ok {c : Config} {m m' : Store} {x : Incoming} {put : Nat → Store → Store} {i : Nat}
    (h : m.place c x put = .ok (i, m')) : ∃ m1, m.alloc c x = .ok (i, m1) ∧ m' = put i m1 := by
  unfold Store.place at h
  split at h
  · simp at h
  · rename_i j m1 ha
    simp only [Except.ok.injEq, Prod.mk.injEq] at h
    obtain ⟨rfl, rfl⟩ := h
    exact ⟨m1, ha, rfl⟩

/-- If `new_frame` succeeds, there was room, and the frame was appended (R291). -/
theorem Store.newFrame_ok {c : Config} {m m' : Store} {x : Incoming} {fill : Nat → Frame} {i : Nat}
    (h : m.newFrame c x fill = .ok (i, m')) :
    m.frames.length < c.nframe ∧ ∃ m1, m.alloc c x = .ok (i, m1) ∧ m' = { m1 with frames := m1.frames ++ [fill i] } := by
  unfold Store.newFrame at h
  split at h
  · simp at h
  · rename_i hn
    split at h
    · simp at h
    · rename_i j m1 ha
      simp only [Except.ok.injEq, Prod.mk.injEq] at h
      obtain ⟨rfl, rfl⟩ := h
      exact ⟨Nat.not_le.1 hn, m1, ha, rfl⟩

/-- Releasing records changes only the arena and the heap accounting (R279). -/
theorem Store.releaseAll_eq (m : Store) (is : List Nat) :
    m.releaseAll is = { m with recs := (m.releaseAll is).recs, heapUsed := (m.releaseAll is).heapUsed } := by
  induction is generalizing m with
  | nil => rfl
  | cons i is ih => exact ih (m.release i)

/-! The port. -/

/-- One step is the host's next access, or, with none to come, only the counter's advance. -/
theorem step_eq (s : State) :
    step s = match s.host with
      | [] => .next { s with tick := s.tick + 1 }
      | a :: rest => hostAccess a (s.afterTake rest) := rfl

/-- A register keeps the low bits of its width (R25). -/
theorem regValue_toNat (c : Config) (v : Reg) : (regValue c v).toNat = v.toNat % 2 ^ c.regWidth := by
  simp only [regValue, BitVec.toNat_ofNat]
  exact Nat.mod_eq_of_lt (lt_of_le_of_lt (Nat.mod_le _ _) v.isLt)

/-- A value of no more bits than the register's is kept whole (R25, R92). -/
theorem regValue_of_lt (c : Config) (v : Reg) (h : v.toNat < 2 ^ c.regWidth) : regValue c v = v := by
  apply BitVec.eq_of_toNat_eq
  rw [regValue_toNat, Nat.mod_eq_of_lt h]

/-- What a register keeps fits it (R25). -/
theorem regValue_lt (c : Config) (v : Reg) : (regValue c v).toNat < 2 ^ c.regWidth := by
  rw [regValue_toNat]
  exact Nat.mod_lt _ (by positivity)

/-- Registers that hold 32-bit values fit their width, whatever AW (R25). -/
theorem State.registersFit_of_lt (s : State)
    (h : ∀ n ∈ [s.arg0, s.arg1, s.arg2, s.arg3, s.br.base, s.br.len, s.bw.base, s.bw.cap, s.bw.limit].map BitVec.toNat,
      n < 2 ^ 32) :
    s.RegistersFit := fun n hn =>
  lt_of_lt_of_le (h n hn) (Nat.pow_le_pow_right (by decide) (le_max_left _ _))

/-- A tag in the register is the tag operand (R92, R104). -/
theorem State.tagOperand_of_eq (s : State) (tag : Word) (h : s.arg0 = tag.setWidth 64) : s.tagOperand = tag := by
  simp [State.tagOperand, h]

/-- A payload length of 32 bits in the register is the length operand (R92, R105). -/
theorem State.lenOperand_toNat (s : State) (h : s.arg2.toNat < 2 ^ 32) : s.lenOperand.toNat = s.arg2.toNat := by
  simpa [State.lenOperand] using h

/-- The register at CSR_BASE is at offset 0. -/
theorem State.offsetOf_base (s : State) : s.offsetOf s.cfg.csrBase = 0 := by simp [State.offsetOf]

/-- A host write of the register at CSR_BASE, which is CMD, is one command cycle (R25, R331). -/
theorem hostAccess_command (s : State) (cw : Word) :
    hostAccess (.writeReg s.cfg.csrBase (cw.setWidth 64)) s = commandCycle s cw := by
  unfold hostAccess
  dsimp only
  rw [State.offsetOf_base, if_neg (by decide)]
  exact congrArg (commandCycle s) (by simp)

/-- A step with a placed command word is one command cycle (R331). -/
theorem step_placeCommand (s : State) (cw : Word) : step (s.placeCommand cw) = commandCycle (s.afterTake s.host) cw :=
  hostAccess_command (s.afterTake s.host) cw

/-- A command cycle runs the decoded command, or raises InvalidArgument (R331, R96). -/
theorem commandCycle_eq (s : State) (cw : Word) :
    commandCycle s cw = match decode cw with
      | none => raise { s with cmd := cw } .invalidArgument
      | some i => exec i { s with cmd := cw } := rfl

end Sys2Proof.Machine
end

