-- ==== Sys2Proof/Laws/Commands.lean ====
section
/-! SUPPORT. What each command can do when it answers a next state, said once: one inversion lemma per command. -/

namespace Sys2Proof.Machine

/-! System, reader, writer. -/

theorem execSysReset_next {s t : State} (h : execSysReset s = .next t) : t = (s.blockReset s.cmd).finish 0 0 :=
  ((succeed_eq_next _ _ _ _).1 h).symm

theorem execBrInit_next {mode : ReaderMode} {s t : State} (h : execBrInit mode s = .next t) :
    (t = s.raised .invalidArgument ∧ fits s.cfg s.arg0.toNat s.arg1.toNat = false) ∨
      (fits s.cfg s.arg0.toNat s.arg1.toNat = true ∧
        ((mode = .plain ∧ t = { s with br := Reader.bind .plain s.arg0 s.arg1 }.finish 0 0) ∨
          (mode = .range ∧ ∃ r' : Reader,
            r' = { (Reader.bind .range s.arg0 s.arg1).skip s.cfg 8 with
                    range := 254
                    value := BitVec.ofNat 8 (brPull (State.bitMsb { s with br := Reader.bind .range s.arg0 s.arg1 }) 0 8) } ∧
            t = { s with br := r' }.finish 0 (flagWord r'.eos)))) := by
  unfold execBrInit at h
  split at h
  · rename_i hf
    exact .inl ⟨((raise_eq_next _ _ _).1 h).symm, by simpa using hf⟩
  · rename_i hf
    refine .inr ⟨by simpa using hf, ?_⟩
    cases mode with
    | plain => exact .inl ⟨rfl, ((succeed_eq_next _ _ _ _).1 h).symm⟩
    | range => exact .inr ⟨rfl, _, rfl, ((succeed_eq_next _ _ _ _).1 (State.touching_next h)).symm⟩

theorem execBrRead_next {n : BitVec 8} {s t : State} (h : execBrRead n s = .next t) :
    (t = s.raised .invalidArgument ∧ (s.br.bound = false ∨ s.br.mode ≠ .plain ∨ Config.maxBits < n.toNat)) ∨
      ((s.br.bound = true ∧ s.br.mode = .plain ∧ n.toNat ≤ Config.maxBits) ∧
        t = { s with br := s.br.skip s.cfg n.toNat }.finish (BitVec.ofNat 64 (brPeek s.bitLsb s.br.pos.toNat n.toNat))
          (flagWord (s.br.skip s.cfg n.toNat).eos)) := by
  unfold execBrRead at h
  split at h
  · exact .inl ⟨((raise_eq_next _ _ _).1 h).symm, .inl ‹_›⟩
  · split at h
    · exact .inl ⟨((raise_eq_next _ _ _).1 h).symm, .inr (.inl ‹_›)⟩
    · split at h
      · exact .inl ⟨((raise_eq_next _ _ _).1 h).symm, .inr (.inr ‹_›)⟩
      · exact .inr ⟨⟨by simp_all, by simp_all, by omega⟩, ((succeed_eq_next _ _ _ _).1 (State.touching_next h)).symm⟩

theorem execBrGetbool_next {prob : BitVec 8} {s t : State} (h : execBrGetbool prob s = .next t) :
    (t = s.raised .invalidArgument ∧ (s.br.bound = false ∨ s.br.mode ≠ .range)) ∨
      ((s.br.bound = true ∧ s.br.mode = .range) ∧ ∃ r : Reader,
        r = renormalise s.bitMsb s.cfg s.br (boolDecode s.br.range s.br.value prob).2.1
          (boolDecode s.br.range s.br.value prob).2.2 ∧
        t = { s with br := r }.finish (flagWord (boolDecode s.br.range s.br.value prob).1) (flagWord r.eos)) := by
  unfold execBrGetbool at h
  split at h
  · exact .inl ⟨((raise_eq_next _ _ _).1 h).symm, .inl ‹_›⟩
  · split at h
    · exact .inl ⟨((raise_eq_next _ _ _).1 h).symm, .inr ‹_›⟩
    · exact .inr ⟨⟨by simp_all, by simp_all⟩, _, rfl, ((succeed_eq_next _ _ _ _).1 (State.touching_next h)).symm⟩

/-- Renormalisation changes only the position, its flag, the range and the value (R146). -/
theorem renormalise_eq (bit : Nat → Bool) (c : Config) (r : Reader) (range value : Byte) :
    renormalise bit c r range value =
      { r with
        pos := (renormalise bit c r range value).pos, eos := (renormalise bit c r range value).eos
        range := (renormalise bit c r range value).range, value := (renormalise bit c r range value).value } := by
  unfold renormalise
  split <;> rfl

theorem execBwInit_next {s t : State} (h : execBwInit s = .next t) :
    (t = s.raised .invalidArgument ∧ (fits s.cfg s.arg0.toNat s.arg2.toNat = false ∨ s.arg2 < s.arg1)) ∨
      ((fits s.cfg s.arg0.toNat s.arg2.toNat = true ∧ s.arg1 ≤ s.arg2) ∧
        t = { s with bw := Writer.bind s.arg0 s.arg1 s.arg2, mem := s.releasedMem }.finish 0 0) := by
  unfold execBwInit at h
  split at h
  · exact .inl ⟨((raise_eq_next _ _ _).1 h).symm, .inl (by simp_all)⟩
  · split at h
    · exact .inl ⟨((raise_eq_next _ _ _).1 h).symm, .inr ‹_›⟩
    · exact .inr ⟨⟨by simp_all, by simpa using ‹¬s.arg2 < s.arg1›⟩, ((succeed_eq_next _ _ _ _).1 h).symm⟩

theorem execBwPut_next {n : BitVec 8} {s t : State} (h : execBwPut n s = .next t) :
    (t = s.raised .invalidArgument ∧ (s.bw.bound = false ∨ s.bw.final = true)) ∨
      ((s.bw.bound = true ∧ s.bw.final = false) ∧
        ((s.bw.err = true ∧ t = s.raised .allocationFailure) ∨
          (s.bw.err = false ∧
            ((Config.maxBits < n.toNat ∧ t = s.raised .invalidArgument) ∨
              (n.toNat ≤ Config.maxBits ∧
                ((n.toNat = 0 ∧ t = s.finish 0 0) ∨
                  (n.toNat ≠ 0 ∧ s.bw.cap.toNat < s.bw.needed n.toNat ∧ s.bw.limit.toNat < s.bw.needed n.toNat ∧
                    t = { s with bw := { s.bw with err := true } }.raised .allocationFailure) ∨
                  (n.toNat ≠ 0 ∧ (s.bw.needed n.toNat ≤ s.bw.cap.toNat ∨ s.bw.needed n.toNat ≤ s.bw.limit.toNat) ∧
                    t = { s with bw := s.bw.append n.toNat s.arg0 }.finish 0 0))))))) := by
  unfold execBwPut at h
  split at h
  · exact .inl ⟨((raise_eq_next _ _ _).1 h).symm, .inl ‹_›⟩
  · split at h
    · exact .inl ⟨((raise_eq_next _ _ _).1 h).symm, .inr ‹_›⟩
    · refine .inr ⟨⟨by simp_all, by simp_all⟩, ?_⟩
      split at h
      · exact .inl ⟨‹_›, ((raise_eq_next _ _ _).1 h).symm⟩
      · refine .inr ⟨by simp_all, ?_⟩
        split at h
        · exact .inl ⟨‹_›, ((raise_eq_next _ _ _).1 h).symm⟩
        · refine .inr ⟨by omega, ?_⟩
          split at h
          · exact .inl ⟨‹_›, ((succeed_eq_next _ _ _ _).1 h).symm⟩
          · rename_i h0
            split at h
            · rename_i hc
              exact .inr (.inl ⟨h0, hc.1, hc.2, ((raise_eq_next _ _ _).1 h).symm⟩)
            · rename_i hc
              exact .inr (.inr ⟨h0, by omega, ((succeed_eq_next _ _ _ _).1 h).symm⟩)

theorem execBwFinalize_next {s t : State} (h : execBwFinalize s = .next t) :
    (t = s.raised .invalidArgument ∧ (s.bw.bound = false ∨ s.bw.final = true)) ∨
      ((s.bw.bound = true ∧ s.bw.final = false) ∧
        ((s.bw.err = true ∧ t = s.raised .allocationFailure) ∨
          (s.bw.err = false ∧
            t = { s.storeBytes s.bw.base.toNat s.bw.image with bw := { s.bw with final := true } }.finish
              (BitVec.ofNat 64 (ceilDiv s.bw.pos.toNat 8)) (BitVec.ofNat 64 s.bw.padBits)))) := by
  unfold execBwFinalize at h
  split at h
  · exact .inl ⟨((raise_eq_next _ _ _).1 h).symm, .inl ‹_›⟩
  · split at h
    · exact .inl ⟨((raise_eq_next _ _ _).1 h).symm, .inr ‹_›⟩
    · refine .inr ⟨⟨by simp_all, by simp_all⟩, ?_⟩
      split at h
      · exact .inl ⟨‹_›, ((raise_eq_next _ _ _).1 h).symm⟩
      · exact .inr ⟨by simp_all, ((succeed_eq_next _ _ _ _).1 (State.touching_next h)).symm⟩

/-! Huffman. -/

theorem execHufBuild_next {slot : BitVec 4} {s t : State} (h : execHufBuild slot s = .next t) :
    (t = s.raised .invalidArgument ∧
        (s.cfg.nt ≤ slot.toNat ∨ s.arg1.toNat = 0 ∨ Config.maxSym < s.arg1.toNat ∨
          fits s.cfg s.arg0.toNat s.arg1.toNat = false)) ∨
      ((slot.toNat < s.cfg.nt ∧ s.arg1.toNat ≠ 0 ∧ s.arg1.toNat ≤ Config.maxSym ∧
          fits s.cfg s.arg0.toNat s.arg1.toNat = true) ∧
        ((buildTable s.cfg.rootBits (byteNats (s.readBytes s.arg0.toNat s.arg1.toNat)) = none ∧
            t = (s.setSlot slot.toNat { s.slot slot.toNat with valid := false }).raised .malformedTable) ∨
          ∃ es, buildTable s.cfg.rootBits (byteNats (s.readBytes s.arg0.toNat s.arg1.toNat)) = some es ∧
            t = (s.setSlot slot.toNat { valid := true, size := BitVec.ofNat 17 es.length, entries := es }).finish
              (BitVec.ofNat 64 es.length) 0)) := by
  unfold execHufBuild at h
  split at h
  · exact .inl ⟨((raise_eq_next _ _ _).1 h).symm, .inl ‹_›⟩
  · split at h
    · rename_i hc
      exact .inl ⟨((raise_eq_next _ _ _).1 h).symm, by tauto⟩
    · split at h
      · exact .inl ⟨((raise_eq_next _ _ _).1 h).symm, by simp_all⟩
      · refine .inr ⟨⟨by omega, by omega, by omega, by simp_all⟩, ?_⟩
        have h := State.touching_next h
        split at h
        · exact .inl ⟨‹_›, ((raise_eq_next _ _ _).1 h).symm⟩
        · exact .inr ⟨_, ‹_›, ((succeed_eq_next _ _ _ _).1 h).symm⟩

theorem execHufDecode_next {slot : BitVec 4} {s t : State} (h : execHufDecode slot s = .next t) :
    (t = s.raised .invalidArgument ∧
        (s.cfg.nt ≤ slot.toNat ∨ s.br.bound = false ∨ s.br.mode ≠ .plain ∨ (s.slot slot.toNat).valid = false)) ∨
      ((slot.toNat < s.cfg.nt ∧ s.br.bound = true ∧ s.br.mode = .plain ∧ (s.slot slot.toNat).valid = true) ∧
        ∃ d, d = hufDecode s.bitLsb s.cfg (s.slot slot.toNat).entries s.br ∧
          t = { s with br := d.reader }.finish (BitVec.ofNat 64 d.sym) (BitVec.ofNat 64 d.used)) := by
  unfold execHufDecode at h
  split at h
  · exact .inl ⟨((raise_eq_next _ _ _).1 h).symm, .inl ‹_›⟩
  · split at h
    · exact .inl ⟨((raise_eq_next _ _ _).1 h).symm, by tauto⟩
    · split at h
      · exact .inl ⟨((raise_eq_next _ _ _).1 h).symm, by tauto⟩
      · exact .inr ⟨⟨by omega, by simp_all, by simp_all, by simp_all⟩, _, rfl,
          ((succeed_eq_next _ _ _ _).1 (State.touching_next h)).symm⟩

theorem execHufReadlengths_next {s t : State} (h : execHufReadlengths s = .next t) :
    (t = s.raised .invalidArgument ∧
        (s.br.bound = false ∨ s.br.mode ≠ .plain ∨ s.arg1.toNat = 0 ∨ Config.maxSym < s.arg1.toNat ∨
          fits s.cfg s.arg0.toNat s.arg1.toNat = false)) ∨
      ((s.br.bound = true ∧ s.br.mode = .plain ∧ s.arg1.toNat ≠ 0 ∧ s.arg1.toNat ≤ Config.maxSym ∧
          fits s.cfg s.arg0.toNat s.arg1.toNat = true) ∧
        ∃ d, d = readDescription s.bitLsb s.cfg s.arg1.toNat s.br ∧
          ((d.reader.eos = true ∧ t = { s with br := d.reader }.raised .truncatedStream) ∨
            (d.reader.eos = false ∧ d.lengths = none ∧ t = { s with br := d.reader }.raised .malformedTable) ∨
            (d.reader.eos = false ∧ ∃ out tokens, d.lengths = some (out, tokens) ∧
              t = ({ s with br := d.reader }.storeBytes s.arg0.toNat (out.map fun l => BitVec.ofNat 8 l)).finish
                (BitVec.ofNat 64 tokens) 0))) := by
  unfold execHufReadlengths at h
  split at h
  · exact .inl ⟨((raise_eq_next _ _ _).1 h).symm, by tauto⟩
  · split at h
    · exact .inl ⟨((raise_eq_next _ _ _).1 h).symm, by tauto⟩
    · split at h
      · exact .inl ⟨((raise_eq_next _ _ _).1 h).symm, by simp_all⟩
      · refine .inr ⟨⟨by simp_all, by simp_all, by omega, by omega, by simp_all⟩, _, rfl, ?_⟩
        have h := State.touching_next h
        split at h
        · exact .inl ⟨‹_›, ((raise_eq_next _ _ _).1 h).symm⟩
        · rename_i he
          have he := Bool.eq_false_of_not_eq_true he
          refine .inr ?_
          split at h
          · rename_i hn
            exact .inl ⟨he, hn, ((raise_eq_next _ _ _).1 h).symm⟩
          · rename_i out tokens hn
            refine .inr ⟨he, out, tokens, hn, ?_⟩
            have h := ((succeed_eq_next _ _ _ _).1 (State.touching_next h)).symm
            rw [he] at h
            exact h

/-! Pixels. -/

theorem execPteSetimg_next {s t : State} (h : execPteSetimg s = .next t) :
    t = s.raised .invalidArgument ∨
      ((1 ≤ s.arg0.toNat ∧ s.arg0.toNat ≤ Config.maxDim ∧ 1 ≤ s.arg1.toNat ∧ s.arg1.toNat ≤ Config.maxDim) ∧
        t = { s with pte := { valid := true, w := s.arg0.setWidth 15, h := s.arg1.setWidth 15 } }.finish 0 0) := by
  unfold execPteSetimg at h
  split at h
  · exact .inl ((raise_eq_next _ _ _).1 h).symm
  · exact .inr ⟨by omega, ((succeed_eq_next _ _ _ _).1 h).symm⟩

/-! The eight transforms: InvalidArgument, or one store into the destination (R223). -/

theorem execPtePredFwd_next {tb : BitVec 4} {s t : State} (h : execPtePredFwd tb s = .next t) :
    t = s.raised .invalidArgument ∨
      (s.pte.valid = true ∧ modesLegal (s.modes tb.toNat) = true ∧ t = (s.storeBytes s.arg1.toNat
        (pixelBytes (predForward s.imgW s.imgH tb.toNat (s.modes tb.toNat) s.srcImage))).finish 0 0) := by
  rcases State.transform_next h with h | ⟨hv, -, hok, h⟩
  · exact .inl h
  · exact .inr ⟨hv, hok, h⟩

theorem execPtePredInv_next {tb : BitVec 4} {s t : State} (h : execPtePredInv tb s = .next t) :
    t = s.raised .invalidArgument ∨
      (s.pte.valid = true ∧ modesLegal (s.modes tb.toNat) = true ∧ t = (s.storeBytes s.arg1.toNat
        (pixelBytes (predInverse s.imgW s.imgH tb.toNat (s.modes tb.toNat) s.srcImage))).finish 0 0) := by
  rcases State.transform_next h with h | ⟨hv, -, hok, h⟩
  · exact .inl h
  · exact .inr ⟨hv, hok, h⟩

theorem execPteSubgFwd_next {s t : State} (h : execPteSubgFwd s = .next t) :
    t = s.raised .invalidArgument ∨
      (s.pte.valid = true ∧ t = (s.storeBytes s.arg1.toNat
        (pixelBytes (s.srcImage.map subGreen))).finish 0 0) := by
  rcases State.transform_next h with h | ⟨hv, -, hok, h⟩
  · exact .inl h
  · exact .inr ⟨hv, h⟩

theorem execPteSubgInv_next {s t : State} (h : execPteSubgInv s = .next t) :
    t = s.raised .invalidArgument ∨
      (s.pte.valid = true ∧ t = (s.storeBytes s.arg1.toNat
        (pixelBytes (s.srcImage.map addGreen))).finish 0 0) := by
  rcases State.transform_next h with h | ⟨hv, -, hok, h⟩
  · exact .inl h
  · exact .inr ⟨hv, h⟩

theorem execPteXcolFwd_next {tb : BitVec 4} {s t : State} (h : execPteXcolFwd tb s = .next t) :
    t = s.raised .invalidArgument ∨
      (s.pte.valid = true ∧ t = (s.storeBytes s.arg1.toNat
        (pixelBytes (colorImage colorForward s.imgW s.imgH tb.toNat (s.mults tb.toNat) s.srcImage))).finish 0 0) := by
  rcases State.transform_next h with h | ⟨hv, -, hok, h⟩
  · exact .inl h
  · exact .inr ⟨hv, h⟩

theorem execPteXcolInv_next {tb : BitVec 4} {s t : State} (h : execPteXcolInv tb s = .next t) :
    t = s.raised .invalidArgument ∨
      (s.pte.valid = true ∧ t = (s.storeBytes s.arg1.toNat
        (pixelBytes (colorImage colorInverse s.imgW s.imgH tb.toNat (s.mults tb.toNat) s.srcImage))).finish 0 0) := by
  rcases State.transform_next h with h | ⟨hv, -, hok, h⟩
  · exact .inl h
  · exact .inr ⟨hv, h⟩

theorem execPtePalFwd_next {s t : State} (h : execPtePalFwd s = .next t) :
    t = s.raised .invalidArgument ∨
      (s.pte.valid = true ∧ paletteSizeLegal s.arg3.toNat = true ∧
        (s.srcImage.all fun p => (paletteIndex s.palette p).isSome) = true ∧ t = (s.storeBytes s.arg1.toNat
        (packImage s.imgW s.imgH s.arg3.toNat s.palette s.srcImage)).finish s.packedBytes s.paletteBpp) := by
  unfold execPtePalFwd at h
  split at h
  · exact .inl ((raise_eq_next _ _ _).1 h).symm
  · rename_i hn
    rcases State.transform_next h with h | ⟨hv, -, hok, h⟩
    · exact .inl h
    · exact .inr ⟨hv, by simpa using hn, hok, h⟩

theorem execPtePalInv_next {s t : State} (h : execPtePalInv s = .next t) :
    t = s.raised .invalidArgument ∨
      (s.pte.valid = true ∧ paletteSizeLegal s.arg3.toNat = true ∧ t = (s.storeBytes s.arg1.toNat
        (pixelBytes (unpackImage s.imgW s.imgH s.arg3.toNat s.palette
          (s.readBytes s.arg0.toNat (packedRowBytes s.imgW s.arg3.toNat * s.imgH))))).finish s.packedBytes s.paletteBpp) := by
  unfold execPtePalInv at h
  split at h
  · exact .inl ((raise_eq_next _ _ _).1 h).symm
  · rename_i hn
    rcases State.transform_next h with h | ⟨hv, -, hok, h⟩
    · exact .inl h
    · exact .inr ⟨hv, by simpa using hn, h⟩

/-! The chunk store. -/

theorem execMuxNew_next {s t : State} (h : execMuxNew s = .next t) :
    (s.arg0 ≠ s.cfg.abiVersion.setWidth 64 ∧ t = s.raised .unsupportedVersion) ∨
      (s.arg0 = s.cfg.abiVersion.setWidth 64 ∧ t = { s with mux := s.mux.emptied true }.finish 0 0) := by
  unfold execMuxNew at h
  split at h
  · exact .inl ⟨‹_›, ((raise_eq_next _ _ _).1 h).symm⟩
  · exact .inr ⟨by simp_all, ((succeed_eq_next _ _ _ _).1 h).symm⟩

theorem execMuxDestroy_next {s t : State} (h : execMuxDestroy s = .next t) :
    (s.mux.valid = false ∧ t = s.raised .invalidArgument) ∨
      (s.mux.valid = true ∧ t = { s with mux := s.mux.emptied false }.finish 0 0) := by
  unfold execMuxDestroy at h
  split at h
  · exact .inl ⟨‹_›, ((raise_eq_next _ _ _).1 h).symm⟩
  · exact .inr ⟨by simp_all, ((succeed_eq_next _ _ _ _).1 h).symm⟩

/-- `place` fails with AllocationFailure and nothing else. -/
theorem Store.place_error {c : Config} {m : Store} {x : Incoming} {put : Nat → Store → Store} {e : Status}
    (h : m.place c x put = .error e) : e = .allocationFailure := by
  unfold Store.place at h
  split at h
  · rename_i e' he
    rw [← Except.error.inj h]
    exact Store.alloc_error he
  · simp at h

/-- `new_frame` fails with AllocationFailure and nothing else. -/
theorem Store.newFrame_error {c : Config} {m : Store} {x : Incoming} {fill : Nat → Frame} {e : Status}
    (h : m.newFrame c x fill = .error e) : e = .allocationFailure := by
  unfold Store.newFrame at h
  split at h
  · exact (Except.error.inj h).symm
  · split at h
    · rename_i e' he
      rw [← Except.error.inj h]
      exact Store.alloc_error he
    · simp at h

/-- Routing fails with DuplicateChunk or AllocationFailure (R291). -/
theorem Store.route_error {c : Config} {m : Store} {x : Incoming} {e : Status} (h : m.route c x = .error e) :
    e = .duplicateChunk ∨ e = .allocationFailure := by
  have hs : ∀ k, m.insertSingleton c k x = .error e → e = .duplicateChunk ∨ e = .allocationFailure := by
    intro k h
    unfold Store.insertSingleton at h
    split at h
    · exact .inl (Except.error.inj h).symm
    · exact .inr (Store.place_error h)
  unfold Store.route at h
  split at h
  · exact hs _ h
  · exact hs _ h
  · exact hs _ h
  · exact hs _ h
  · exact hs _ h
  · exact .inr (Store.newFrame_error h)
  · unfold Store.insertAlpha at h
    split at h
    · split at h
      · split at h
        · exact .inl (Except.error.inj h).symm
        · exact .inr (Store.place_error h)
      · exact .inr (Store.newFrame_error h)
    · exact .inr (Store.newFrame_error h)
  · unfold Store.insertImage at h
    split at h
    · split at h
      · exact .inr (Store.place_error h)
      · exact .inr (Store.newFrame_error h)
    · exact .inr (Store.newFrame_error h)
  · exact .inr (Store.place_error h)

theorem execMuxSet_next {copy : Bool} {s t : State} (h : execMuxSet copy s = .next t) :
    (t = s.raised .invalidArgument ∧
        (s.mux.valid = false ∨ fits s.cfg s.arg1.toNat s.lenOperand.toNat = false ∨
          frameClass (classOf s.cfg s.tagOperand) = true)) ∨
      ((s.mux.valid = true ∧ fits s.cfg s.arg1.toNat s.lenOperand.toNat = true ∧
          frameClass (classOf s.cfg s.tagOperand) = false) ∧
        (t = s.raised .allocationFailure ∨
          ∃ i m, s.mux.replace s.cfg (s.incoming s.tagOperand s.arg1 s.lenOperand copy) = .ok (i, m) ∧
            t = { s with mux := m }.finish (BitVec.ofNat 64 i) 0)) := by
  unfold execMuxSet at h
  dsimp only at h
  split at h
  · exact .inl ⟨((raise_eq_next _ _ _).1 h).symm, .inl ‹_›⟩
  · split at h
    · exact .inl ⟨((raise_eq_next _ _ _).1 h).symm, by simp_all⟩
    · split at h
      · exact .inl ⟨((raise_eq_next _ _ _).1 h).symm, by simp_all⟩
      · refine .inr ⟨⟨by simp_all, by simp_all, by simp_all⟩, ?_⟩
        split at h
        · exact .inl ((raise_eq_next _ _ _).1 h).symm
        · split at h
          · exact .inl ((raise_eq_next _ _ _).1 h).symm
          · have h := State.touching_next h
            split at h
            · rename_i e he
              obtain rfl : e = .allocationFailure := Store.place_error he
              exact .inl ((raise_eq_next _ _ _).1 h).symm
            · exact .inr ⟨_, _, ‹_›, ((succeed_eq_next _ _ _ _).1 h).symm⟩

theorem execMuxGet_next {s t : State} (h : execMuxGet s = .next t) :
    (t = s.raised .invalidArgument ∧ (s.mux.valid = false ∨ s.arg1.toNat = 0)) ∨
      ((s.mux.valid = true ∧ s.arg1.toNat ≠ 0) ∧
        (((s.mux.withTag s.tagOperand)[s.arg1.toNat - 1]? = none ∧ t = s.raised .notFound) ∨
          ∃ i, (s.mux.withTag s.tagOperand)[s.arg1.toNat - 1]? = some i ∧
            t = s.finish (BitVec.ofNat 64 i) ((s.mux.record i).len.setWidth 64))) := by
  unfold execMuxGet at h
  split at h
  · exact .inl ⟨((raise_eq_next _ _ _).1 h).symm, .inl ‹_›⟩
  · split at h
    · exact .inl ⟨((raise_eq_next _ _ _).1 h).symm, .inr ‹_›⟩
    · refine .inr ⟨⟨by simp_all, by simp_all⟩, ?_⟩
      split at h
      · exact .inl ⟨‹_›, ((raise_eq_next _ _ _).1 h).symm⟩
      · exact .inr ⟨_, ‹_›, ((succeed_eq_next _ _ _ _).1 h).symm⟩

theorem execMuxDelete_next {s t : State} (h : execMuxDelete s = .next t) :
    (s.mux.valid = false ∧ t = s.raised .invalidArgument) ∨
      (s.mux.valid = true ∧
        ((s.mux.withTag s.tagOperand = [] ∧ t = s.raised .notFound) ∨
          (s.mux.withTag s.tagOperand ≠ [] ∧
            t = { s with mux := (s.mux.unlink (s.mux.withTag s.tagOperand)).releaseAll (s.mux.withTag s.tagOperand) }.finish
              (BitVec.ofNat 64 (s.mux.withTag s.tagOperand).length) 0))) := by
  unfold execMuxDelete at h
  dsimp only at h
  split at h
  · exact .inl ⟨‹_›, ((raise_eq_next _ _ _).1 h).symm⟩
  · refine .inr ⟨by simp_all, ?_⟩
    split at h
    · exact .inl ⟨‹_›, ((raise_eq_next _ _ _).1 h).symm⟩
    · exact .inr ⟨‹_›, ((succeed_eq_next _ _ _ _).1 h).symm⟩

theorem execMuxPush_next {copy : Bool} {s t : State} (h : execMuxPush copy s = .next t) :
    (t = s.raised .invalidArgument ∧ (s.mux.valid = false ∨ fits s.cfg s.arg1.toNat s.lenOperand.toNat = false)) ∨
      ((s.mux.valid = true ∧ fits s.cfg s.arg1.toNat s.lenOperand.toNat = true) ∧
        ((∃ e, s.mux.route s.cfg (s.incoming s.tagOperand s.arg1 s.lenOperand copy) = .error e ∧ t = s.raised e) ∨
          ∃ i m, s.mux.route s.cfg (s.incoming s.tagOperand s.arg1 s.lenOperand copy) = .ok (i, m) ∧
            t = { s with mux := m }.finish (BitVec.ofNat 64 i) (BitVec.ofNat 64 m.frames.length))) := by
  unfold execMuxPush at h
  dsimp only at h
  split at h
  · exact .inl ⟨((raise_eq_next _ _ _).1 h).symm, .inl ‹_›⟩
  · split at h
    · exact .inl ⟨((raise_eq_next _ _ _).1 h).symm, by simp_all⟩
    · refine .inr ⟨⟨by simp_all, by simp_all⟩, ?_⟩
      split at h
      · exact .inl ⟨_, ‹_›, ((raise_eq_next _ _ _).1 h).symm⟩
      · exact .inr ⟨_, _, ‹_›, ((succeed_eq_next _ _ _ _).1 (State.touching_next h)).symm⟩

theorem execMuxAssemble_next {s t : State} (h : execMuxAssemble s = .next t) :
    (t = s.raised .invalidArgument ∧ (s.mux.valid = false ∨ fits s.cfg s.arg0.toNat s.arg1.toNat = false)) ∨
      ((s.mux.valid = true ∧ fits s.cfg s.arg0.toNat s.arg1.toNat = true) ∧
        ((s.mux.complete = false ∧ t = s.raised .notFound) ∨
          (s.mux.complete = true ∧
            ((s.arg1.toNat < s.mux.serialSize ∧ t = s.raised .allocationFailure) ∨
              (s.mux.serialSize ≤ s.arg1.toNat ∧
                t = (s.storeBytes s.arg0.toNat s.serialised).finish (BitVec.ofNat 64 s.mux.serialSize)
                  (BitVec.ofNat 64 s.mux.presentCount)))))) := by
  unfold execMuxAssemble at h
  split at h
  · exact .inl ⟨((raise_eq_next _ _ _).1 h).symm, .inl ‹_›⟩
  · split at h
    · exact .inl ⟨((raise_eq_next _ _ _).1 h).symm, by simp_all⟩
    · refine .inr ⟨⟨by simp_all, by simp_all⟩, ?_⟩
      split at h
      · exact .inl ⟨‹_›, ((raise_eq_next _ _ _).1 h).symm⟩
      · refine .inr ⟨by simp_all, ?_⟩
        split at h
        · exact .inl ⟨‹_›, ((raise_eq_next _ _ _).1 h).symm⟩
        · exact .inr ⟨by omega, ((succeed_eq_next _ _ _ _).1 (State.touching_next h)).symm⟩

/-- The walk fails with TruncatedStream or with what routing fails with (R300). -/
theorem State.parseFrom_error {s : State} {src len : Nat} {copy : Bool} {fuel off : Nat} {m : Store} {n : Nat}
    {spans : List (Nat × Nat)} {e : Status} (h : (s.parseFrom src len copy fuel off m n spans).result = .error e) :
    e = .truncatedStream ∨ e = .duplicateChunk ∨ e = .allocationFailure := by
  induction fuel generalizing off m n spans with
  | zero => simp [State.parseFrom] at h
  | succ fuel ih =>
    unfold State.parseFrom at h
    split at h
    · simp at h
    · split at h
      · exact .inl (Except.error.inj h).symm
      · split at h
        · exact .inl (Except.error.inj h).symm
        · split at h
          · rename_i e' he
            rw [← Except.error.inj h]
            exact .inr (Store.route_error he)
          · exact ih h

theorem execMuxParse_next {copy : Bool} {s t : State} (h : execMuxParse copy s = .next t) :
    (t = s.raised .invalidArgument ∧ fits s.cfg s.arg0.toNat s.arg1.toNat = false) ∨
      (fits s.cfg s.arg0.toNat s.arg1.toNat = true ∧
        ((s.arg2 ≠ s.cfg.abiVersion.setWidth 64 ∧ t = s.raised .unsupportedVersion) ∨
          (s.arg2 = s.cfg.abiVersion.setWidth 64 ∧ ∃ run,
            run = s.parseFrom s.arg0.toNat s.arg1.toNat copy (s.arg1.toNat / 8 + 1) 0
              (s.mux.emptied true) 0 [] ∧
            ((∃ e, run.result = .error e ∧ t = { s with mux := s.mux.emptied true }.raised e) ∨
              ∃ m n, run.result = .ok (m, n) ∧
                ((m.complete = false ∧ t = { s with mux := s.mux.emptied true }.raised .notFound) ∨
                  (m.complete = true ∧
                    t = { s with mux := m }.finish (BitVec.ofNat 64 n) (BitVec.ofNat 64 m.frames.length))))))) := by
  unfold execMuxParse at h
  split at h
  · exact .inl ⟨((raise_eq_next _ _ _).1 h).symm, by simp_all⟩
  · refine .inr ⟨by simp_all, ?_⟩
    split at h
    · exact .inl ⟨‹_›, ((raise_eq_next _ _ _).1 h).symm⟩
    · refine .inr ⟨by simp_all, _, rfl, ?_⟩
      have h := State.touching_next h
      split at h
      · exact .inl ⟨_, ‹_›, ((raise_eq_next _ _ _).1 h).symm⟩
      · refine .inr ⟨_, _, ‹_›, ?_⟩
        split at h
        · exact .inl ⟨‹_›, ((raise_eq_next _ _ _).1 h).symm⟩
        · exact .inr ⟨by simp_all, ((succeed_eq_next _ _ _ _).1 h).symm⟩

theorem execMuxFetch_next {s t : State} (h : execMuxFetch s = .next t) :
    (t = s.raised .invalidArgument ∧
        (s.mux.valid = false ∨ s.cfg.nchunk ≤ s.arg0.toNat ∨
          fits s.cfg s.arg1.toNat (s.mux.record s.arg0.toNat).len.toNat = false)) ∨
      ((s.mux.valid = true ∧ s.arg0.toNat < s.cfg.nchunk) ∧
        (((s.mux.record s.arg0.toNat).present = false ∧ t = s.raised .notFound) ∨
          ((s.mux.record s.arg0.toNat).present = true ∧
            fits s.cfg s.arg1.toNat (s.mux.record s.arg0.toNat).len.toNat = true ∧
            t = (s.storeBytes s.arg1.toNat (s.payload (s.mux.record s.arg0.toNat))).finish
              ((s.mux.record s.arg0.toNat).len.setWidth 64) 0))) := by
  unfold execMuxFetch at h
  dsimp only at h
  split at h
  · exact .inl ⟨((raise_eq_next _ _ _).1 h).symm, .inl ‹_›⟩
  · split at h
    · exact .inl ⟨((raise_eq_next _ _ _).1 h).symm, .inr (.inl ‹_›)⟩
    · split at h
      · exact .inr ⟨⟨by simp_all, by omega⟩, .inl ⟨‹_›, ((raise_eq_next _ _ _).1 h).symm⟩⟩
      · split at h
        · exact .inl ⟨((raise_eq_next _ _ _).1 h).symm, by simp_all⟩
        · exact .inr ⟨⟨by simp_all, by omega⟩, .inr ⟨by simp_all, by simp_all,
            ((succeed_eq_next _ _ _ _).1 (State.touching_next h)).symm⟩⟩

/-! The codec. -/

theorem execCodecDecode_next {s t : State} (h : execCodecDecode s = .next t) : t = s.raised .invalidArgument := by
  unfold execCodecDecode at h
  split at h
  · exact ((raise_eq_next _ _ _).1 h).symm
  · simp at h

theorem execCodecEncode_next {s t : State} (h : execCodecEncode s = .next t) : t = s.raised .invalidArgument := by
  unfold execCodecEncode at h
  split at h
  · exact ((raise_eq_next _ _ _).1 h).symm
  · split at h
    · exact ((raise_eq_next _ _ _).1 h).symm
    · simp at h

end Sys2Proof.Machine
end

