-- ==== Sys2Proof/Laws/PerInstr.lean ====
section
/-! SUPPORT. Statements for all commands, one lemma per constructor: the encoder emits only legal command words
(spec/30_encoding.md R91, R93 to R95). -/

namespace Sys2Proof.Laws.EncodesLegally

/-- The command word of a command is legal (R95), carries its OP, and its ZERO field is 0 (R91). -/
def Statement (i : Instr) : Prop :=
  WellFormedWord (encode i) = true ∧ opField (encode i) = opcodeOf i ∧ zeroField (encode i) = 0 ∧
    immField (encode i) = immediateOf i

/-- The fields of a word put together from its fields (R91). -/
theorem fields_of_parts (op imm : BitVec 8) :
    opField (op ++ (0 : BitVec 16) ++ imm) = op ∧ zeroField (op ++ (0 : BitVec 16) ++ imm) = 0 ∧
      immField (op ++ (0 : BitVec 16) ++ imm) = imm := by
  refine ⟨?_, ?_, ?_⟩ <;>
    · ext i hi
      simp [opField, zeroField, immField, BitVec.getElem_extractLsb']
      try grind

/-- It is enough that the OP is one of R94's and that no reserved bit of IMM is set (R95). -/
theorem of_parts (i : Instr) (h : opcodeOf i ∈ opcodes) (hr : immediateOf i &&& reservedImm (opcodeOf i) = 0) :
    Statement i := by
  obtain ⟨h1, h2, h3⟩ := fields_of_parts (opcodeOf i) (immediateOf i)
  have e : encode i = opcodeOf i ++ (0 : BitVec 16) ++ immediateOf i := rfl
  rw [← e] at h1 h2 h3
  refine ⟨?_, h1, h2, h3⟩
  simp [WellFormedWord, h1, h2, h3, h, hr]

theorem sysReset : Statement .sysReset := of_parts _ (by decide) (by decide)
theorem brInit (mode : ReaderMode) : Statement (.brInit mode) :=
  of_parts _ (by simp [opcodeOf, opcodes]) (by cases mode <;> decide)
theorem brRead (n : BitVec 8) : Statement (.brRead n) := of_parts _ (by simp [opcodeOf, opcodes]) BitVec.and_zero
theorem brGetbool (prob : BitVec 8) : Statement (.brGetbool prob) := of_parts _ (by simp [opcodeOf, opcodes]) BitVec.and_zero
theorem bwInit : Statement .bwInit := of_parts _ (by decide) (by decide)
theorem bwPut (n : BitVec 8) : Statement (.bwPut n) := of_parts _ (by simp [opcodeOf, opcodes]) BitVec.and_zero
theorem bwFinalize : Statement .bwFinalize := of_parts _ (by decide) (by decide)
theorem hufBuild (slot : BitVec 4) : Statement (.hufBuild slot) :=
  of_parts _ (by simp [opcodeOf, opcodes]) (by revert slot; decide)
theorem hufDecode (slot : BitVec 4) : Statement (.hufDecode slot) :=
  of_parts _ (by simp [opcodeOf, opcodes]) (by revert slot; decide)
theorem hufReadlengths : Statement .hufReadlengths := of_parts _ (by decide) (by decide)
theorem pteSetimg : Statement .pteSetimg := of_parts _ (by decide) (by decide)
theorem ptePredFwd (tileBits : BitVec 4) : Statement (.ptePredFwd tileBits) :=
  of_parts _ (by simp [opcodeOf, opcodes]) (by revert tileBits; decide)
theorem ptePredInv (tileBits : BitVec 4) : Statement (.ptePredInv tileBits) :=
  of_parts _ (by simp [opcodeOf, opcodes]) (by revert tileBits; decide)
theorem pteSubgFwd : Statement .pteSubgFwd := of_parts _ (by decide) (by decide)
theorem pteSubgInv : Statement .pteSubgInv := of_parts _ (by decide) (by decide)
theorem pteXcolFwd (tileBits : BitVec 4) : Statement (.pteXcolFwd tileBits) :=
  of_parts _ (by simp [opcodeOf, opcodes]) (by revert tileBits; decide)
theorem pteXcolInv (tileBits : BitVec 4) : Statement (.pteXcolInv tileBits) :=
  of_parts _ (by simp [opcodeOf, opcodes]) (by revert tileBits; decide)
theorem ptePalFwd : Statement .ptePalFwd := of_parts _ (by decide) (by decide)
theorem ptePalInv : Statement .ptePalInv := of_parts _ (by decide) (by decide)
theorem muxNew : Statement .muxNew := of_parts _ (by decide) (by decide)
theorem muxSet (copy : Bool) : Statement (.muxSet copy) :=
  of_parts _ (by simp [opcodeOf, opcodes]) (by cases copy <;> decide)
theorem muxGet : Statement .muxGet := of_parts _ (by decide) (by decide)
theorem muxDelete : Statement .muxDelete := of_parts _ (by decide) (by decide)
theorem muxPush (copy : Bool) : Statement (.muxPush copy) :=
  of_parts _ (by simp [opcodeOf, opcodes]) (by cases copy <;> decide)
theorem muxAssemble : Statement .muxAssemble := of_parts _ (by decide) (by decide)
theorem muxParse (copy : Bool) : Statement (.muxParse copy) :=
  of_parts _ (by simp [opcodeOf, opcodes]) (by cases copy <;> decide)
theorem muxFetch : Statement .muxFetch := of_parts _ (by decide) (by decide)
theorem muxDestroy : Statement .muxDestroy := of_parts _ (by decide) (by decide)
theorem codecDecode : Statement .codecDecode := of_parts _ (by decide) (by decide)
theorem codecEncode : Statement .codecEncode := of_parts _ (by decide) (by decide)

end Sys2Proof.Laws.EncodesLegally
end

