-- ==== Sys2Proof/Tests/Slice0.lean ====
section
/-! SUPPORT. The model's own tests. Expected values come from spec/30_encoding.md (words written out field by field) and
spec/95_test_vectors.md (the vector each test names). The last part shows, for each statement with hypotheses, a state and
operands that meet them. -/

namespace Sys2Proof.Tests

open Sys2Proof.Machine

/-! Small states, and how a command ends. -/

/-- Parameters small enough to evaluate, with a hole at F0..F7 and a device at F8..FF. -/
def small : Config :=
  { Config.default with
    rootBits := 2, nt := 2, nchunk := 3, nframe := 2, heapLimit := 16
    special := [Region.mk 0xF0 0xF8 .hole, Region.mk 0xF8 0x100 .device] }

/-- They are legal. -/
theorem small_legal : small.Legal := by
  unfold Config.Legal
  decide

/-- The state after reset, with the small parameters. -/
def st : State := State.power small

/-- The argument registers. -/
def on (s : State) (a b c d : Reg) : State := { s with arg0 := a, arg1 := b, arg2 := c, arg3 := d }

/-- Bytes in memory. -/
def put (s : State) (a : Nat) (bs : List Nat) : State := s.storeBytes a (bs.map fun b => BitVec.ofNat 8 b)

/-- The state a command leaves. -/
def after (o : Out) : State :=
  match o with
  | .next t => t
  | .fault _ => st
  | .refused _ => st

/-- Whether a command answers a next state. -/
def goesOn (o : Out) : Bool :=
  match o with
  | .next _ => true
  | .fault _ => false
  | .refused _ => false

/-- Whether a command answers a next state with this status and these results. -/
def ends (o : Out) (x : Status) (r0 r1 : Reg) : Bool :=
  goesOn o && decide ((after o).status = x ∧ (after o).res0 = r0 ∧ (after o).res1 = r1)

/-- Whether a command ends with this error. -/
def fails (o : Out) (x : Status) : Bool := ends o x 0 0

/-- Bytes of memory, as numbers. -/
def bytes (s : State) (a n : Nat) : List Nat := byteNats (s.readBytes a n)

/-- A reader bound by BR.INIT to these bytes, at 0x40. -/
def reader (mode : ReaderMode) (bs : List Nat) : State :=
  after (exec (.brInit mode) (on (put st 0x40 bs) 0x40 (BitVec.ofNat 64 bs.length) 0 0))

/-- A writer bound by BW.INIT at 0x80. -/
def writer (cap limit : Reg) : State := after (exec .bwInit (on st 0x80 cap limit 0))

/-- A slot 0 built by HUF.BUILD from these lengths, at 0x20. -/
def built (lens : List Nat) : State :=
  after (exec (.hufBuild 0) (on (put st 0x20 lens) 0x20 (BitVec.ofNat 64 lens.length) 0 0))

/-- An image set by PTE.SETIMG. -/
def image (w h : Reg) (s : State) : State := after (exec .pteSetimg (on s w h 0 0))

/-- MUX.NEW, with the version R7 suggests. -/
def newStore : State := after (exec .muxNew (on st 0x108 0 0 0))

/-- MUX.PUSH. -/
def push (copy : Bool) (tag addr len : Reg) (s : State) : State := after (exec (.muxPush copy) (on s tag addr len 0))

/-- A store with one owned "VP8L" chunk, 09 08 07 (V29). -/
def still : State := push true 0x4C385056 0x20 3 (put newStore 0x20 [9, 8, 7])

/-- Its serialised form (V29). -/
def stillBytes : List Nat := [0x56, 0x50, 0x38, 0x4C, 3, 0, 0, 0, 9, 8, 7, 0]

/-- A store with two "VP8L" chunks, so with two frames (V32). -/
def twoFrames : State := push true 0x4C385056 0x21 1 (push true 0x4C385056 0x20 1 (put newStore 0x20 [1, 2]))

/-- Every command, with a legal immediate. -/
def everyCommand : List Instr :=
  [.sysReset, .brInit .plain, .brInit .range, .brRead 24, .brGetbool 128, .bwInit, .bwPut 24, .bwFinalize, .hufBuild 1,
    .hufDecode 1, .hufReadlengths, .pteSetimg, .ptePredFwd 1, .ptePredInv 1, .pteSubgFwd] ++
  [.pteSubgInv, .pteXcolFwd 1, .pteXcolInv 1, .ptePalFwd, .ptePalInv, .muxNew, .muxSet true, .muxGet, .muxDelete,
    .muxPush false, .muxAssemble, .muxParse true, .muxFetch, .muxDestroy, .codecDecode, .codecEncode]

/-! Command words: what is refused (R95), and a word of every constructor (R91, R93, R94). -/

/-- Each check of R95 refuses a word that breaks it alone, and so does the decoder. -/
theorem test_wellformed_refuses :
    WellFormedWord 0x11000100 = false ∧ WellFormedWord 0x58800000 = false ∧ WellFormedWord 0x70000000 = false ∧
      WellFormedWord 0x00000000 = false ∧ WellFormedWord 0x22000001 = false ∧ WellFormedWord 0x10000002 = false ∧
      WellFormedWord 0x30000010 = false ∧ WellFormedWord 0x54000080 = false := by decide

/-- R7, R25: the registers stand at CSR_BASE. -/
theorem test_csrBase :
    let s := State.power { small with csrBase := 0x1000 }
    (after (step { s with host := [.writeReg 0x1008 7] })).arg1 = 7 ∧
      (after (step (s.withFetchWord 32 0x01000000))).cmd = 0x01000000 ∧
      (after (step { s with host := [.readReg 0x1020] })).hostData = 0x108 := by decide

/-- R7, R71, R135: with AW of 8 a region is checked against 2^8, and the position saturates at 2^12 - 1. -/
theorem test_aw :
    let s := State.power { small with aw := 8, special := [] }
    fails (exec (.brInit .plain) (on s 0xFF 2 0 0)) .invalidArgument = true ∧
      ends (exec (.brInit .plain) (on s 0xFF 1 0 0)) .ok 0 0 = true ∧
      ({ Reader.reset with pos := 4090 }.skip s.cfg 10).pos = 4095 ∧
      goesOn (step { s with host := [.writeByte 0xFF 1] }) = true ∧
      goesOn (step { s with host := [.writeByte 0x100 1] }) = false := by decide

/-- R25: with AW of 40 the registers that can hold an address have 40 bits, and a command names addresses above 2^32. -/
theorem test_aw_wide :
    let s := State.power { small with aw := 40, special := [] }
    let t := after (step { s with host := [.writeReg 0x04 0xF00123456789] })
    t.arg0 = 0x123456789 ∧
      (let u := after (exec (.brInit .plain) (on s 0xFFFFFFFFF0 16 0 0))
       u.status = .ok ∧ (after (step { u with host := [.readReg 0x28] })).hostData = 0xFFFFFFFFF0) ∧
      fails (exec (.brInit .plain) (on s 0xFFFFFFFFF0 17 0 0)) .invalidArgument = true := by decide +kernel

/-- R71, R288: an empty payload fetched to an address above 2^AW is InvalidArgument. -/
theorem test_muxFetch_past_end :
    let s := State.power { small with aw := 16, special := [] }
    let t := push false 0x64636261 0x20 0 (after (exec .muxNew (on s 0x108 0 0 0)))
    fails (exec .muxFetch (on t 0 0x20000 0 0)) .invalidArgument = true ∧
      ends (exec .muxFetch (on t 0 0x10000 0 0)) .ok 0 0 = true := by decide

/-- So does the decoder. -/
theorem test_decode_refuses :
    decode 0x11000100 = none ∧ decode 0x58800000 = none ∧ decode 0x70000000 = none ∧ decode 0x00000000 = none ∧
      decode 0x22000001 = none ∧ decode 0x10000002 = none ∧ decode 0x30000010 = none ∧ decode 0x54000080 = none := by decide

/-- A word that breaks none of them is legal. -/
theorem test_wellformed_takes :
    WellFormedWord 0x11000018 = true ∧ WellFormedWord 0x58000000 = true ∧ WellFormedWord 0x22000000 = true ∧
      WellFormedWord 0x10000001 = true ∧ WellFormedWord 0x3000000F = true ∧ WellFormedWord 0x54000001 = true := by decide

/-- Each check of R93's legal values refuses the first value outside it and takes the last one inside. -/
theorem test_immediate_refuses :
    (Instr.brRead 25).LegalImmediate small = false ∧ (Instr.brRead 24).LegalImmediate small = true ∧
      (Instr.bwPut 25).LegalImmediate small = false ∧ (Instr.hufBuild 2).LegalImmediate small = false ∧
      (Instr.hufDecode 1).LegalImmediate small = true := by decide

/-- SYS and BR: OP in bits 31:24, IMM in bits 7:0. -/
theorem test_decode_reader :
    decode 0b00000001000000000000000000000000 = some .sysReset ∧
      decode 0b00010000000000000000000000000000 = some (.brInit .plain) ∧
      decode 0b00010000000000000000000000000001 = some (.brInit .range) ∧
      decode 0b00010001000000000000000000010011 = some (.brRead 19) ∧
      decode 0b00010010000000000000000010000001 = some (.brGetbool 129) := by decide

/-- BW and HUF. -/
theorem test_decode_writer_huffman :
    decode 0b00100000000000000000000000000000 = some .bwInit ∧
      decode 0b00100001000000000000000000000111 = some (.bwPut 7) ∧
      decode 0b00100010000000000000000000000000 = some .bwFinalize ∧
      decode 0b00110000000000000000000000001010 = some (.hufBuild 10) ∧
      decode 0b00110001000000000000000000000101 = some (.hufDecode 5) ∧
      decode 0b00110010000000000000000000000000 = some .hufReadlengths := by decide

/-- PTE. -/
theorem test_decode_pixels :
    decode 0b01000000000000000000000000000000 = some .pteSetimg ∧
      decode 0b01000001000000000000000000000001 = some (.ptePredFwd 1) ∧
      decode 0b01000010000000000000000000001000 = some (.ptePredInv 8) ∧
      decode 0b01000011000000000000000000000000 = some .pteSubgFwd ∧
      decode 0b01000100000000000000000000000000 = some .pteSubgInv ∧
      decode 0b01000101000000000000000000000011 = some (.pteXcolFwd 3) ∧
      decode 0b01000110000000000000000000000110 = some (.pteXcolInv 6) ∧
      decode 0b01000111000000000000000000000000 = some .ptePalFwd ∧
      decode 0b01001000000000000000000000000000 = some .ptePalInv := by decide

/-- MUX and CODEC. -/
theorem test_decode_store :
    decode 0b01010000000000000000000000000000 = some .muxNew ∧
      decode 0b01010001000000000000000000000001 = some (.muxSet true) ∧
      decode 0b01010010000000000000000000000000 = some .muxGet ∧
      decode 0b01010011000000000000000000000000 = some .muxDelete ∧
      decode 0b01010100000000000000000000000000 = some (.muxPush false) ∧
      decode 0b01010101000000000000000000000000 = some .muxAssemble ∧
      decode 0b01010110000000000000000000000001 = some (.muxParse true) ∧
      decode 0b01010111000000000000000000000000 = some .muxFetch ∧
      decode 0b01011000000000000000000000000000 = some .muxDestroy ∧
      decode 0b01100000000000000000000000000000 = some .codecDecode ∧
      decode 0b01100001000000000000000000000000 = some .codecEncode := by decide

/-- Every command the encoder writes is read back, whatever its immediate bits of this list. -/
theorem test_encode : ∀ i ∈ everyCommand, decode (encode i) = some i ∧ WellFormedWord (encode i) = true := by
  decide +kernel

/-! The commands, on the vectors of spec/95_test_vectors.md. -/

/-- P7, R330: after SYS.RESET, STATUS is OK, and CMD holds the word. -/
theorem test_sysReset :
    let t := after (step ((image 2 2 st).withFetchWord 32 0x01000000))
    t.cmd = 0x01000000 ∧ t.status = .ok ∧ t.pte.valid = false ∧ t.arg0 = 0 := by decide

/-- V7: BR.INIT in range mode. -/
theorem test_brInit_range :
    let t := reader .range [0x9A, 0x5C, 0xE3]
    t.br.range = 254 ∧ t.br.value = 154 ∧ t.br.pos = 8 ∧ t.br.eos = false := by decide

/-- V8: an empty view in range mode. -/
theorem test_brInit_empty :
    let o := exec (.brInit .range) (on st 0x40 0 0 0)
    ends o .ok 0 1 = true ∧ (after o).br.range = 254 ∧ (after o).br.value = 0 ∧ (after o).br.pos = 8 := by decide

/-- V3: the first bit of a byte is its bit 0, across a byte boundary. -/
theorem test_brRead_order :
    ends (exec (.brRead 4) (reader .plain [0xB5, 0x3C])) .ok 5 0 = true ∧
      ends (exec (.brRead 5) (after (exec (.brRead 8) (reader .plain [0xB5, 0x3C])))) .ok 0x1C 0 = true := by decide

/-- V4: a read that straddles the end. -/
theorem test_brRead_past_end :
    let o := exec (.brRead 12) (reader .plain [0xFF])
    ends o .ok 0xFF 1 = true ∧ (after o).br.pos = 12 ∧ (after o).br.eos = true := by decide

/-- V7, step 1. -/
theorem test_brGetbool_one :
    let o := exec (.brGetbool 128) (reader .range [0x9A, 0x5C, 0xE3])
    ends o .ok 1 0 = true ∧ (after o).br.range = 253 ∧ (after o).br.value = 52 ∧ (after o).br.pos = 9 := by decide

/-- V9: probability 0, with a renormalisation of seven bits. -/
theorem test_brGetbool_zero_probability :
    let o := exec (.brGetbool 0) (reader .range [0, 0])
    ends o .ok 0 0 = true ∧ (after o).br.range = 127 ∧ (after o).br.value = 0 ∧ (after o).br.pos = 15 := by decide

/-- V5: BW.INIT binds with the capacity and the limit given. -/
theorem test_bwInit : (writer 1 4).bw.cap = 1 ∧ (writer 1 4).bw.limit = 4 ∧ (writer 1 4).bw.pos = 0 := by decide

/-- V5: the capacity doubles, and the writer that needs a fifth byte of four gives up and stays where it was. -/
theorem test_bwPut_grows :
    (after (exec (.bwPut 8) (after (exec (.bwPut 8) (writer 1 4))))).bw.cap = 2 ∧
      let o := exec (.bwPut 1) (after (exec (.bwPut 16) (after (exec (.bwPut 16) (writer 1 4)))))
      fails o .allocationFailure = true ∧ (after o).bw.err = true ∧ (after o).bw.pos = 32 ∧ (after o).bw.cap = 4 := by
  decide

/-- R346: the writer's sticky error comes before the range of the bit count. -/
theorem test_bwPut_error_first :
    fails (exec (.bwPut 25) (after (exec (.bwPut 17) (writer 1 2)))) .allocationFailure = true ∧
      fails (exec (.bwPut 25) (writer 1 2)) .invalidArgument = true := by decide

/-- V1, its first byte: 5 in three bits, then 0x5A in seven. -/
theorem test_bwFinalize :
    let s := after (exec (.bwPut 7) (on (after (exec (.bwPut 3) (on (writer 2 16) 5 0 0 0))) 0x5A 0 0 0))
    let o := exec .bwFinalize s
    ends o .ok 2 6 = true ∧ bytes (after o) 0x80 2 = [0xD5, 0x02] := by decide

/-- V13: the two-level table of root width 2. -/
theorem test_hufBuild :
    ((built [1, 0, 3, 3, 3, 4, 4]).slot 0).entries.map (fun e => (e.nbits.toNat, e.value.toNat)) =
      [(1, 0), (3, 4), (1, 0), (4, 6), (1, 2), (1, 3), (1, 4), (2, 5), (1, 4), (2, 6)] := by decide

/-- V14: malformed length sets leave the slot invalid. -/
theorem test_hufBuild_malformed :
    ∀ lens ∈ [[1, 1, 1], [1], [0, 0], [1, 2], [16, 1, 1]],
      (built lens).status = .malformedTable ∧ ((built lens).slot 0).valid = false := by decide

/-- V15: symbol 6 of V13's code, whose word is 1111, and symbol 0, whose word is 0. -/
theorem test_hufDecode :
    let s := built [1, 0, 3, 3, 3, 4, 4]
    ends (exec (.hufDecode 0) { s with mem := (reader .plain [0x0F]).mem, br := (reader .plain [0x0F]).br }) .ok 6 4 = true ∧
      ends (exec (.hufDecode 0) { s with br := (reader .plain []).br }) .ok 0 1 = true := by decide

/-- V17: the main case. -/
theorem test_hufReadlengths :
    let s := { reader .plain [0x35, 0x0C, 0x12, 0x20, 0xC6, 0x31, 0x00] with arg0 := 0x60, arg1 := 10 }
    let o := exec .hufReadlengths s
    ends o .ok 6 0 = true ∧ bytes (after o) 0x60 10 = [3, 3, 3, 3, 0, 0, 0, 0, 2, 2] ∧ (after o).br.pos = 51 := by
  decide +kernel

/-- V18 (b): a run past the last length. -/
theorem test_hufReadlengths_run_too_long :
    let s := { reader .plain [0x35, 0x0C, 0x12, 0x20, 0xC6, 0x31, 0x00] with arg0 := 0x60, arg1 := 6 }
    let o := exec .hufReadlengths s
    fails o .malformedTable = true ∧ (after o).br.pos = 44 := by decide +kernel

/-- V23: PTE.SETIMG's limits. -/
theorem test_pteSetimg :
    fails (exec .pteSetimg (on st 0 5 0 0)) .invalidArgument = true ∧
      fails (exec .pteSetimg (on st 16385 1 0 0)) .invalidArgument = true ∧
      ends (exec .pteSetimg (on st 16384 1 0 0)) .ok 0 0 = true := by decide

/-- S1: mode 4 on the image of the source's own scenario. -/
theorem test_ptePredFwd :
    let s := image 2 2 (put (put st 0 [0, 0, 0, 255, 1, 1, 1, 255, 2, 2, 2, 255, 3, 3, 3, 255]) 0x30 [4])
    bytes (after (exec (.ptePredFwd 1) (on s 0 0x10 0x30 0))) 0x10 16 =
      [0, 0, 0, 0, 1, 1, 1, 0, 2, 2, 2, 0, 3, 3, 3, 0] := by decide +kernel

/-- S1: its inverse. -/
theorem test_ptePredInv :
    let s := image 2 2 (put (put st 0 [0, 0, 0, 0, 1, 1, 1, 0, 2, 2, 2, 0, 3, 3, 3, 0]) 0x30 [4])
    bytes (after (exec (.ptePredInv 1) (on s 0 0x10 0x30 0))) 0x10 16 =
      [0, 0, 0, 255, 1, 1, 1, 255, 2, 2, 2, 255, 3, 3, 3, 255] := by decide +kernel

/-- V20: every mode on one neighbourhood. -/
theorem test_predict_modes :
    (List.range 14).map (fun k => predict k 0x80402010 0x10FF8040 0x20106080 0xFF00FF01) =
      [0xFF000000, 0x80402010, 0x10FF8040, 0xFF00FF01, 0x20106080, 0x678F8724, 0x50284048, 0x489F5028, 0x18877060, 0x877FBF20,
        0x6B537F34, 0x10FF8040, 0x70FF4000, 0x5CE64800] := by decide +kernel

/-- V26. -/
theorem test_pteSubgFwd :
    (after (exec .pteSubgFwd (on (image 1 1 (put st 0 [0x20, 0xF0, 0x10, 0xFF])) 0 0x10 0 0))).readPixel 0x10 =
      0xFF20F030 := by decide

/-- V26, the other way. -/
theorem test_pteSubgInv :
    (after (exec .pteSubgInv (on (image 1 1 (put st 0 [0x30, 0xF0, 0x20, 0xFF])) 0 0x10 0 0))).readPixel 0x10 =
      0xFF10F020 := by decide

/-- V24, row 1. -/
theorem test_pteXcolFwd :
    let s := image 1 1 (put (put st 0 [0x40, 0xC0, 0x80, 0xFF]) 0x20 [0x20, 0xE0, 0x7F])
    (after (exec (.pteXcolFwd 0) (on s 0 0x10 0x20 0))).readPixel 0x10 = 0xFFC0C0FC := by decide

/-- V24, row 1, the other way: blue is corrected by the restored red. -/
theorem test_pteXcolInv :
    let s := image 1 1 (put (put st 0 [0xFC, 0xC0, 0xC0, 0xFF]) 0x20 [0x20, 0xE0, 0x7F])
    (after (exec (.pteXcolInv 0) (on s 0 0x10 0x20 0))).readPixel 0x10 = 0xFF80C040 := by decide

/-- S2: four colours, two bits each, the first pixel lowest. -/
theorem test_ptePalFwd :
    let s := image 4 1 (put (put st 0 [0, 0, 0, 0, 1, 0, 0, 0, 2, 0, 0, 0, 3, 0, 0, 0]) 0x20
      [0, 0, 0, 0, 1, 0, 0, 0, 2, 0, 0, 0, 3, 0, 0, 0])
    let o := exec .ptePalFwd (on s 0 0x40 0x20 4)
    ends o .ok 1 2 = true ∧ bytes (after o) 0x40 1 = [0xE4] := by decide +kernel

/-- V28: an index at or above N gives transparent black. -/
theorem test_ptePalInv :
    let s := image 4 1 (put (put st 0 [0xE4]) 0x20 [17, 17, 17, 17, 34, 34, 34, 34, 51, 51, 51, 51])
    let t := after (exec .ptePalInv (on s 0 0x40 0x20 3))
    (List.range 4).map (fun k => t.readPixel (0x40 + 4 * k)) = [0x11111111, 0x22222222, 0x33333333, 0] := by
  decide +kernel

/-- P7: MUX.NEW with another version. -/
theorem test_muxNew :
    fails (exec .muxNew (on st 0x107 0 0 0)) .unsupportedVersion = true ∧ newStore.mux.valid = true := by decide

/-- V30: ICCP is set twice, and the second replaces the first (C2). -/
theorem test_muxSet :
    let s := after (exec (.muxSet false) (on newStore 0x50434349 0x20 3 0))
    let o := exec (.muxSet true) (on s 0x50434349 0x30 2 0)
    ends o .ok 0 0 = true ∧ (after o).mux.icc = [0] ∧ (after o).mux.heapUsed = 2 := by decide

/-- V32 (d). -/
theorem test_muxGet :
    ends (exec .muxGet (on twoFrames 0x4C385056 2 0 0)) .ok 1 1 = true ∧
      fails (exec .muxGet (on twoFrames 0x4C385056 3 0 0)) .notFound = true ∧
      fails (exec .muxGet (on twoFrames 0x4C385056 0 0 0)) .invalidArgument = true := by decide

/-- V32 (d). -/
theorem test_muxDelete :
    let o := exec .muxDelete (on twoFrames 0x4C385056 0 0 0)
    ends o .ok 2 0 = true ∧ (after o).mux.frames = [] ∧ (after o).mux.heapUsed = 0 := by decide

/-- R293: a second singleton is a duplicate. -/
theorem test_muxPush :
    let s := push true 0x50434349 0x20 3 newStore
    fails (exec (.muxPush true) (on s 0x50434349 0x20 3 0)) .duplicateChunk = true ∧ s.mux.icc = [0] := by decide

/-- V29: the smallest container. -/
theorem test_muxAssemble :
    let o := exec .muxAssemble (on still 0x60 12 0 0)
    ends o .ok 12 1 = true ∧ bytes (after o) 0x60 12 = stillBytes := by decide +kernel

/-- V32 (a): two frames and no dimension chunk. -/
theorem test_muxAssemble_incomplete : fails (exec .muxAssemble (on twoFrames 0x60 99 0 0)) .notFound = true := by decide

/-- V31, on the container of V29: whole, and cut before the pad byte. -/
theorem test_muxParse :
    let s := put st 0x60 stillBytes
    ends (exec (.muxParse true) (on s 0x60 12 0x108 0)) .ok 1 1 = true ∧
      fails (exec (.muxParse true) (on s 0x60 11 0x108 0)) .truncatedStream = true := by decide +kernel

/-- R288: the payload of V29's chunk. -/
theorem test_muxFetch :
    let o := exec .muxFetch (on still 0 0x60 0 0)
    ends o .ok 3 0 = true ∧ bytes (after o) 0x60 3 = [9, 8, 7] := by decide

/-- R278: the store is gone. -/
theorem test_muxDestroy :
    let o := exec .muxDestroy still
    ends o .ok 0 0 = true ∧ (after o).mux.valid = false ∧ (after o).mux.heapUsed = 0 := by decide

/-- R334: CODEC.DECODE's region checks come before the refusal. -/
theorem test_codecDecode : fails (exec .codecDecode (on st 0xFFFFFFFF 2 0 0)) .invalidArgument = true := by decide

/-- R335: CODEC.ENCODE without an image. -/
theorem test_codecEncode : fails (exec .codecEncode st) .invalidArgument = true := by decide

/-! Witnesses: for each statement with hypotheses, states and operands that meet them, clause by clause, at the edge of each
range. -/

/-- EncodeOfDecode, DecodeExactlyTheLegalWords. -/
theorem witness_words :
    decode 0x120000FF = some (.brGetbool 255) ∧ (0x11000100 : Word).extractLsb' 8 16 ≠ 0 ∧
      (0x62000000 : Word).extractLsb' 24 8 ∉ opcodes ∧ (0x10000002 : Word).extractLsb' 0 8 &&& (0xFE : BitVec 8) ≠ 0 ∧
      (0x61000000 : Word).extractLsb' 24 8 ∈ opcodes ∧ (0x10000001 : Word).extractLsb' 0 8 &&& (0xFE : BitVec 8) = 0 := by
  decide

/-- StepRunsDecodedCommand. -/
theorem witness_step :
    (st.placeCommand 0x11000001).host = [.writeReg st.cfg.csrBase 0x11000001] ∧ decode 0x11000001 = some (.brRead 1) ∧
      decode 0x11000100 = none := by decide

/-- RegisterMap: the lowest and the highest register, HUF_VALID, the write that is kept and the one that is ignored. -/
theorem witness_registers :
    ((0x04 : Word).toNat % 4 = 0 ∧ (0x10 : Word).toNat % 4 = 0 ∧ (0x14 : Word).toNat % 4 = 0 ∧ (0x58 : Word).toNat % 4 = 0 ∧
        (0x6C : Word).toNat % 4 = 0 ∧ (0xFFFFFFFC : Word).toNat % 4 = 0) ∧
      ({ st with host := [.writeReg 0x10 0x100000007] } : State).host = [.writeReg (st.cfg.csrBase + 0x10) 0x100000007] ∧
      ({ st with host := [.readReg 0x00] } : State).host = [.readReg (st.cfg.csrBase + 0x00)] ∧
      st.mux.heapUsed.toNat < 2 ^ 32 := by decide

/-- HostMemoryAccess: the last byte before the hole, its first, the device's last, the first after, the last address and the
first that does not exist. -/
theorem witness_hostMemory :
    (st.Backed (2 ^ 32 - 1) ∧ 2 ^ st.cfg.aw ≤ (0x100000000 : Addr).toNat ∧ st.bw.holds 0xEF = false) ∧
      st.Backed 0xEF ∧ ¬st.Backed 0xF0 ∧ ¬st.Backed 0xFF ∧ st.Backed 0x100 ∧
      ({ st with host := [.writeByte 0xEF 7] } : State).host = [.writeByte 0xEF 7] ∧
      ({ st with host := [.readByte 0xF0] } : State).host = [.readByte 0xF0] := by decide

/-- ResetInputRule. -/
theorem witness_resetInput :
    ({ st with host := [.resetInput] } : State).host = [.resetInput] ∧
      ({ st with host := [.resetDuring 0x22000000] } : State).host = [.resetDuring 0x22000000] := by decide

/-- ErrorChangesOnlyListedState: an error of each kind the statement tells apart. -/
theorem witness_errors :
    fails (exec (.bwPut 1) (writer 0 0)) .allocationFailure = true ∧
      fails (exec (.bwPut 25) (writer 0 0)) .invalidArgument = true ∧
      fails (exec (.hufBuild 0) (on (put st 0x20 [1, 1, 1]) 0x20 3 0 0)) .malformedTable = true ∧
      fails (exec (.hufBuild 2) (on st 0x20 3 0 0)) .invalidArgument = true ∧
      fails (exec .hufReadlengths (on st 0x20 3 0 0)) .invalidArgument = true ∧
      fails (exec .hufReadlengths (on (reader .plain []) 0x20 3 0 0)) .truncatedStream = true ∧
      fails (exec .hufReadlengths (on (reader .plain (List.replicate 9 0)) 0x20 3 0 0)) .malformedTable = true ∧
      fails (exec (.muxParse true) (on st 0xFFFFFFFF 2 0x108 0)) .invalidArgument = true ∧
      fails (exec (.muxParse true) (on st 0x20 1 0x107 0)) .unsupportedVersion = true ∧
      fails (exec (.muxParse true) (on st 0x20 1 0x108 0)) .truncatedStream = true ∧
      fails (exec .muxNew st) .unsupportedVersion = true := by decide +kernel

/-- StatusesByCommand, CommandsChangeOnlyTheirUnit, NoStepChangesParameters: every command answers a next state somewhere, and
so does a step with nothing to come. -/
theorem witness_everyCommandGoesOn :
    (∀ i ∈ everyCommand, goesOn (exec i (on st 0xFFFFFFFF 2 0xFFFFFFFF 2)) = true) ∧ goesOn (step st) = true := by
  decide +kernel

/-- RegionPastEndIsInvalidArgument: every command that names a region names one that passes the end here. -/
theorem witness_pastEnd :
    (∀ i ∈ everyCommand, i ≠ .muxFetch → operandSpans i (on (image 1 1 st) 0xFFFFFFFF 2 0xFFFFFFFF 1) ≠ [] →
      ∃ p ∈ operandSpans i (on (image 1 1 st) 0xFFFFFFFF 2 0xFFFFFFFF 2), 2 ^ 32 < p.1 + p.2) ∧
    ((still.mux.record 0).present = true ∧
      ∃ p ∈ operandSpans .muxFetch (on still 0 0xFFFFFFFE 0 0), 2 ^ 32 < p.1 + p.2) := by decide +kernel

/-- CommandsKeepMemoryOutsideDestination, StoreInvariantKept, MuxFetchRule, MuxDeleteRule, MuxAssembleRule: stores that
satisfy the invariant, the empty one among them. -/
theorem witness_storeInvariant :
    newStore.cfg.Legal ∧ newStore.mux.Inv newStore.cfg ∧ still.mux.Inv still.cfg ∧ twoFrames.mux.Inv twoFrames.cfg :=
  ⟨small_legal, by decide +kernel, by decide +kernel, by decide +kernel⟩

/-- CommandsKeepMemoryOutsideDestination: a command that writes memory, one that fails, and BW.INIT with no writer before. -/
theorem witness_memoryFrame :
    (ends (exec .muxFetch (on still 0 0x60 0 0)) .ok 3 0 = true ∧
      ¬InSpan (destination .muxFetch (on still 0 0x60 0 0)) 0x63) ∧
    fails (exec .muxFetch (on still 1 0x60 0 0)) .notFound = true ∧
    (ends (exec .bwInit (on st 0x80 1 4 0)) .ok 0 0 = true ∧ st.bw.holds 0x84 = false ∧ (writer 1 4).bw.holds 0x84 = false) :=
  by decide +kernel

/-- StreamBits: the last bit of the view, the first past it, and a byte the host has written since BR.INIT. -/
theorem witness_streamBits :
    let s := reader .plain [0xFF]
    (8 * s.br.len.toNat ≤ 8 ∧ 7 < 8 * s.br.len.toNat ∧ ∀ c ∈ s.br.stale, c.1 ≠ s.br.base.toNat + 7 / 8) ∧
      (s.readerAfterHostWrite 0x40).stale = [(0x40, 0xFF)] := by decide

/-- BrInitRule: a region of one byte at the top of the address space, one that passes it, and an empty one. -/
theorem witness_brInit :
    2 ^ 32 < (0xFFFFFFFF : Reg).toNat + (2 : Reg).toNat ∧ (0xFFFFFFFF : Reg).toNat + (1 : Reg).toNat ≤ 2 ^ 32 ∧
      st.Backed (0xFFFFFFFF : Reg).toNat ∧ (on st 0xF0 0 0 0).arg1 = 0 := by decide

/-- BrReadRule: n of 25, and n of 24 over a view of one byte. -/
theorem witness_brRead :
    24 < (25 : BitVec 8).toNat ∧ st.br.bound = false ∧ (reader .range [1]).br.mode = .range ∧
      (let s := reader .plain [1]
       s.br.bound = true ∧ s.br.mode = .plain ∧ s.ViewBacked s.br.pos.toNat (s.br.pos.toNat + 24)) := by decide

/-- BrGetboolRule, RangeValueStaysInRange: a range that renormalises by seven bits. -/
theorem witness_brGetbool :
    st.br.bound = false ∧ (reader .plain [1]).br.mode = .plain ∧
      (let s := reader .range [0x80, 0]
       s.br.bound = true ∧ s.br.mode = .range ∧ s.br.Inv s.cfg ∧ s.br.value.toNat ≤ s.br.range.toNat ∧
         s.ViewBacked s.br.pos.toNat (s.br.pos.toNat + 7) ∧ goesOn (exec (.brGetbool 0) s) = true) :=
  ⟨by decide, by decide, by decide, by decide, by decide, by decide, by decide, by decide⟩

/-- BwInitRule: the region that just fits and the one that does not, a capacity at the limit and one above. -/
theorem witness_bwInit :
    2 ^ 32 < (0xFFFFFFFF : Reg).toNat + (2 : Reg).toNat ∧ (0xFFFFFFFE : Reg).toNat + (2 : Reg).toNat ≤ 2 ^ 32 ∧
      (2 : Reg).toNat < (3 : Reg).toNat ∧ (2 : Reg).toNat ≤ (2 : Reg).toNat := by decide

/-- BwPutRule: each clause, the last byte of the capacity, the last of the limit, and one more. -/
theorem witness_bwPut :
    let w := writer 1 2
    let needed (s : State) (n : Nat) : Nat := (s.bw.pos.toNat + n + 7) / 8
    (st.bw.bound = false ∧ (after (exec .bwFinalize w)).bw.final = true) ∧
      (w.bw.bound = true ∧ w.bw.final = false ∧ w.bw.err = false ∧ needed w 8 ≤ w.bw.cap.toNat ∧
        w.bw.cap.toNat < needed w 16 ∧ needed w 16 ≤ w.bw.limit.toNat ∧ w.bw.limit.toNat < needed w 17) ∧
      (let e := after (exec (.bwPut 17) w)
       e.bw.bound = true ∧ e.bw.final = false ∧ e.bw.err = true) ∧ 24 < (25 : BitVec 8).toNat := by decide

/-- WriterErrorIsSticky. -/
theorem witness_stickyError :
    let s := after (exec (.bwPut 17) (writer 1 2))
    s.bw.bound = true ∧ s.bw.final = false ∧ s.bw.err = true ∧ Instr.bwPut 1 ≠ .bwInit ∧ Instr.bwPut 1 ≠ .sysReset ∧
      goesOn (exec (.bwPut 1) s) = true := by decide

/-- BwFinalizeRule: each clause. -/
theorem witness_bwFinalize :
    st.bw.bound = false ∧ (after (exec .bwFinalize (writer 1 2))).bw.final = true ∧
      (after (exec (.bwPut 17) (writer 1 2))).bw.err = true ∧
      (let s := after (exec (.bwPut 9) (writer 1 2))
       s.bw.bound = true ∧ s.bw.final = false ∧ s.bw.err = false ∧
         s.Accessible [(s.bw.base.toNat, (s.bw.pos.toNat + 7) / 8)]) := by decide

/-- WriterReaderRoundTrip: fields that fill the limit to its last bit. -/
theorem witness_writerReader :
    let s := writer 1 5
    let fields : List (BitVec 8 × Reg) := [(24, 5), (0, 7), (16, 1)]
    s.cfg.Legal ∧
      (s.bw.bound = true ∧ s.bw.final = false ∧ s.bw.err = false ∧ s.bw.pos = 0 ∧ s.bw.bits = [] ∧ s.bw.Inv s.cfg) ∧
      (∀ f ∈ fields, f.1.toNat ≤ 24) ∧ (fields.map fun f => f.1.toNat).sum ≤ 8 * s.bw.limit.toNat ∧
      s.Accessible [(s.bw.base.toNat, s.bw.limit.toNat)] :=
  ⟨small_legal, by decide +kernel, by simp, by decide +kernel, by decide +kernel⟩

/-- HufBuildRule, BadLengthsAreMalformed: one symbol, an over-full set, a length of 16, and a legal set. -/
theorem witness_hufBuild :
    (small.nt ≤ (2 : BitVec 4).toNat ∧ 65536 < (65537 : Reg).toNat ∧ (1 : BitVec 4).toNat < small.nt) ∧
      (on (put st 0x20 [1, 2, 2]) 0x20 3 0 0).Accessible [(0x20, 3)] ∧
      byteNats ((put st 0x20 [1, 2, 2]).readBytes 0x20 3) = [1, 2, 2] ∧ validLengths [1, 2, 2] = true ∧
      (([1, 2, 2].filter fun l => l ≠ 0).map fun l => 2 ^ (15 - l)).sum = 2 ^ 15 ∧
      (([1, 1, 2].filter fun l => l ≠ 0).map fun l => 2 ^ (15 - l)).sum ≠ 2 ^ 15 ∧
      ([0, 1].filter fun l => l ≠ 0).length ≤ 1 ∧ (∃ l ∈ [1, 1, 16], 15 < l) ∧ buildTable 2 [1, 1] ≠ none := by
  decide +kernel

/-- CanonicalCodeRule. -/
theorem witness_canonicalCode : validLengths [2, 1, 3, 3] = true ∧ validLengths [1, 1] = true := by decide

/-- HufDecodeRule: a root leaf, a linked word, and each reason to refuse. -/
theorem witness_hufDecode :
    let s := { built [1, 0, 3, 3, 3, 4, 4] with br := (reader .plain [0]).br }
    let es := (s.slot 0).entries
    (s.br.bound = true ∧ s.br.mode = .plain ∧ (s.slot 0).valid = true ∧ (s.slot 1).valid = false) ∧
      ((entryAt es 0).nbits.toNat ≤ s.cfg.rootBits ∧ s.cfg.rootBits < (entryAt es 3).nbits.toNat) ∧
      brPeek (State.bitLsb { s with mem := (reader .plain [0x0F]).mem }) 0 2 = 3 ∧
      s.ViewBacked s.br.pos.toNat (s.br.pos.toNat + 4) := by decide +kernel

/-- HufDecodeInvertsCode: the word 111 of length 3 in the code of [1, 2, 3, 3], longer than the root. -/
theorem witness_hufInverts :
    let s := on (put st 0x20 [1, 2, 3, 3]) 0x20 4 0 0
    let t := after (exec (.hufBuild 0) s)
    let u := { t with mem := (reader .plain [7, 0]).mem, br := (reader .plain [7, 0]).br }
    s.cfg.Legal ∧ s.SlotsInv ∧ (goesOn (exec (.hufBuild 0) s) = true ∧ t.status = .ok) ∧
      (u.cfg = s.cfg ∧ u.slot 0 = t.slot 0 ∧ u.br.bound = true ∧ u.br.mode = .plain) ∧
      (⟨3, 3, 7⟩ : CodeWord) ∈ canonicalCode (byteNats (s.readBytes s.arg0.toNat s.arg1.toNat)) ∧
      u.br.pos.toNat + 15 < 2 ^ (s.cfg.aw + 4) ∧ u.ViewBacked u.br.pos.toNat (u.br.pos.toNat + 15) ∧
      ∀ k < 3, u.bitLsb (u.br.pos.toNat + k) = (7 : Nat).testBit (3 - 1 - k) := by
  refine ⟨?_, ⟨by decide, ?_⟩, by decide +kernel, by decide +kernel, by decide +kernel, by decide +kernel, by decide +kernel,
    by decide +kernel⟩
  · exact small_legal
  · have h : ∀ x ∈ (on (put st 0x20 [1, 2, 3, 3]) 0x20 4 0 0).ht, x.valid = false := by decide
    intro x hx hv
    simp [h x hx] at hv

/-- HufReadlengthsRule: V17's description, whose limit is the number of lengths, with its first token; a header of zeros,
which is malformed; a limit of 2 for one length. -/
theorem witness_hufReadlengths :
    let s := on (reader .plain [0x35, 0x0C, 0x12, 0x20, 0xC6, 0x31, 0x00]) 0x60 10 0 0
    let bit (j : Nat) : Bool := s.bitLsb (s.br.pos.toNat + j)
    (s.br.Inv s.cfg ∧ s.br.bound = true ∧ s.br.mode = .plain ∧ s.arg0.toNat + s.arg1.toNat ≤ 2 ^ s.cfg.aw) ∧
      (((headerLengths bit).filter fun l => l ≠ 0).map fun l => 2 ^ (15 - l)).sum = 2 ^ 15 ∧
      (fieldAt bit 0 4 = 5 ∧ bit 31 = false) ∧ s.ViewBacked 0 (51 + 15) ∧ s.Accessible [(s.arg0.toNat, s.arg1.toNat)] ∧
      ((headerLengths fun _ => false).filter fun l => l ≠ 0) = [] ∧ 1 < 2 + fieldAt (fun _ => false) 0 2 :=
  ⟨⟨by decide +kernel, by decide +kernel⟩, by decide +kernel, by decide +kernel, by decide +kernel, by decide +kernel,
    by decide +kernel, by decide +kernel⟩

/-- The second pass over V17's description, token by token: 3, a run of the previous length, a run of zeros, 0, 2, 2. -/
def tokenStates (k : Nat) : TokenState :=
  [⟨32, [], 8⟩, ⟨34, [3], 3⟩, ⟨38, [3, 3, 3, 3], 3⟩, ⟨44, [3, 3, 3, 3, 0, 0, 0], 3⟩, ⟨47, [3, 3, 3, 3, 0, 0, 0, 0], 3⟩,
    ⟨49, [3, 3, 3, 3, 0, 0, 0, 0, 2], 2⟩, ⟨51, [3, 3, 3, 3, 0, 0, 0, 0, 2, 2], 2⟩].getD k ⟨0, [], 0⟩

/-- HufReadlengthsRule: V17's six tokens fill its ten lengths; for six lengths the third token passes them (V18 b). -/
theorem witness_tokenRun :
    let s := on (reader .plain [0x35, 0x0C, 0x12, 0x20, 0xC6, 0x31, 0x00]) 0x60 10 0 0
    let code := canonicalCode (headerLengths s.bitLsb)
    TokenRun s.bitLsb code 10 32 6 tokenStates ∧ TokenRun s.bitLsb code 6 32 2 tokenStates ∧
      TokenStep s.bitLsb code (tokenStates 2) (tokenStates 3) ∧ 6 < (tokenStates 3).out.length := by
  dsimp only
  unfold TokenRun TokenStep
  exact ⟨⟨rfl, by decide +kernel⟩, ⟨rfl, by decide +kernel⟩, by decide +kernel, by decide⟩

/-- HufReadlengthsRule, ReadLengthsAreLegal: V17's description is read in full. -/
theorem witness_readLengths :
    let s := on (reader .plain [0x35, 0x0C, 0x12, 0x20, 0xC6, 0x31, 0x00]) 0x60 10 0 0
    (readDescription s.bitLsb s.cfg 10 s.br).lengths = some ([3, 3, 3, 3, 0, 0, 0, 0, 2, 2], 6) := by decide +kernel

/-- PteSetimgRule: the first and the last size that is taken. -/
theorem witness_pteSetimg :
    16384 < (16385 : Reg).toNat ∧ (16384 : Reg).toNat ≤ 16384 ∧ 1 ≤ (1 : Reg).toNat := by decide

/-- PredictorNeighbours, PredictorRoundTrip. -/
theorem witness_predictor : 0 < 1 ∧ 1 < 2 ∧ ([1, 2, 3, 4] : List Word).length = 2 * 2 := by decide

/-- PredictorCommandsRule, SubtractGreenRule, CrossColourRule: an image of three by one pixels in tiles of two, a mode of 13,
a mode of 14, regions that fit and are backed, a region past the end, and no image. -/
theorem witness_pixels :
    let s := on (image 3 1 (put st 0x80 [13, 0])) 0x10 0x20 0x80 0
    s.pte.valid = true ∧ st.pte.valid = false ∧
      s.Accessible [(s.arg0.toNat, 4 * s.imgW * s.imgH), (s.arg2.toNat, 2), (s.arg1.toNat, 4 * s.imgW * s.imgH)] ∧
      (∀ m ∈ s.readBytes 0x80 2, m.toNat ≤ 13) ∧ (∃ m ∈ (put st 0x80 [13, 14]).readBytes 0x80 2, 13 < m.toNat) ∧
      s.Accessible [(s.arg2.toNat, 6)] ∧
      (∀ p ∈ [(s.arg0.toNat, 4 * s.imgW * s.imgH), (s.arg2.toNat, 6), (s.arg1.toNat, 4 * s.imgW * s.imgH)],
        p.1 + p.2 ≤ 2 ^ s.cfg.aw) ∧ 2 ^ 32 < (0xFFFFFFF5 : Reg).toNat + 4 * s.imgW * s.imgH := by decide +kernel

/-- PaletteForwardRule, PaletteInverseRule: sizes 1 and 256, and 0 and 257; a colour that is there, and one that is not. -/
theorem witness_palette :
    let s := on (image 1 1 (put st 0x10 [1, 0, 0, 0])) 0x10 0x20 0x10 1
    (s.pte.valid = true ∧ s.arg3.toNat = 1) ∧ s.Accessible [(0x10, 4), (0x10, 4), (0x20, 1)] ∧
      s.Accessible [(0x10, 1), (0x10, 4), (0x20, 4)] ∧ (∀ p ∈ [(0x10, 4), (0x20, 1), (0x20, 4)], p.1 + p.2 ≤ 2 ^ s.cfg.aw) ∧
      (∀ x < s.imgW, ∀ y < s.imgH, ∃ i < 1, s.readPixel (s.arg2.toNat + 4 * i) =
        s.readPixel (s.arg0.toNat + 4 * (y * s.imgW + x))) ∧
      s.readPixel 0x20 ≠ s.readPixel 0x10 ∧ (256 : Reg).toNat ≤ 256 ∧ 256 < (257 : Reg).toNat := by decide +kernel

/-- TransformCommandsRoundTrip: the image moved back onto itself, the parameters elsewhere. -/
theorem witness_transforms :
    let s := on (image 1 1 (put st 0x10 [1, 2, 3, 4])) 0x10 0x10 0x20 0
    let t := after (exec (.pteXcolFwd 0) s)
    (∀ a, InSpan (destination (.pteXcolFwd 0) s) a ∨ InSpan (s.imageSpan 0x10) a → s.bw.holds a = false) ∧
      (∀ p ∈ [s.multSpan s.arg2 0], ∀ a, InSpan p a → ¬InSpan (destination (.pteXcolFwd 0) s) a ∧ s.bw.holds a = false) ∧
      ends (exec (.pteXcolFwd 0) s) .ok 0 0 = true ∧ ends (exec (.pteXcolInv 0) (on t 0x10 0x10 0x20 0)) .ok 0 0 = true := by
  refine ⟨fun a _ => rfl, ?_, by decide +kernel, by decide +kernel⟩
  simp only [List.mem_singleton, forall_eq]
  intro a ha
  have hm : State.multSpan (on (image 1 1 (put st 0x10 [1, 2, 3, 4])) 0x10 0x10 0x20 0) 0x20 0 = (0x20, 3) := by
    decide +kernel
  have hd : destination (.pteXcolFwd 0) (on (image 1 1 (put st 0x10 [1, 2, 3, 4])) 0x10 0x10 0x20 0) = (0x10, 4) := by
    decide +kernel
  refine ⟨?_, rfl⟩
  rw [hd]
  change InSpan (State.multSpan _ 0x20 0) a at ha
  rw [hm] at ha
  simp only [InSpan] at *
  omega

/-- MuxNewDestroyRule, MuxCommandsNeedStore. -/
theorem witness_muxNew :
    (on st 0x107 0 0 0).arg0 ≠ st.cfg.abiVersion.setWidth 64 ∧ (on st 0x108 0 0 0).arg0 = st.cfg.abiVersion.setWidth 64 ∧
      st.mux.valid = false ∧ newStore.mux.valid = true := by decide

/-- MuxSetRule: an old chunk that is replaced, a new one, an owned payload that fills the heap and one that does not fit, a
frame class, a region past the end. -/
theorem witness_muxSet :
    let s := push true 0x50434349 0x20 3 newStore
    (s.mux.valid = true ∧ s.mux.Inv s.cfg ∧ s.mux.list (classOf s.cfg 0x50434349) = [0]) ∧
      s.mux.heapUsed.toNat - 3 + 16 ≤ s.cfg.heapLimit ∧ s.cfg.heapLimit < s.mux.heapUsed.toNat - 3 + 17 ∧
      s.Accessible [(0x20, 16)] ∧ classOf s.cfg 0x464D4E41 = .frmh ∧ classOf s.cfg 0x64636261 = .unknown ∧
      2 ^ 32 < (0xFFFFFFFF : Reg).toNat + (2 : Reg).toNat := by decide +kernel

/-- MuxGetRule: the second of two, and none. -/
theorem witness_muxGet :
    let s := twoFrames
    let hit (i : Nat) : Bool := (s.mux.record i).present && decide ((s.mux.record i).tag = 0x4C385056)
    s.mux.valid = true ∧ s.mux.walk = [0, 1] ∧ hit 1 = true ∧ (s.mux.walk.take 2).countP hit = 2 ∧
      s.mux.walk.countP hit < 3 := by decide +kernel

/-- MuxFetchRule, MuxDeleteRule: an owned and a borrowed record, an absent one, a handle past the arena, no match. -/
theorem witness_muxFetch :
    let s := push false 0x64636261 0x20 2 still
    s.mux.valid = true ∧ s.mux.Inv s.cfg ∧ (s.mux.record 0).owner = true ∧
      ((s.mux.record 1).present = true ∧ (s.mux.record 1).owner = false) ∧ (s.mux.record 2).present = false ∧
      s.cfg.nchunk ≤ 3 ∧ s.Accessible [(0x60, 3), (0x20, 2)] ∧ 0x60 + 3 ≤ 2 ^ s.cfg.aw ∧
      (∃ r ∈ s.mux.recs, (r.present && decide (r.tag = 0x4C385056)) = true) ∧
      ∀ r ∈ s.mux.recs, (r.present && decide (r.tag = 0x50434349)) = false := by decide +kernel

/-- MuxPushRule: a duplicate, a full frame list, a full heap, and room. -/
theorem witness_muxPush :
    let s := twoFrames
    let x (tag n : Word) (copy : Bool) : Incoming := ⟨tag, 0x20, n, copy, []⟩
    s.mux.valid = true ∧ (push true 0x50434349 0x20 3 newStore).mux.Duplicates s.cfg (x 0x50434349 3 true) ∧
      (¬s.mux.Duplicates s.cfg (x 0x4C385056 1 false) ∧ ¬s.mux.RoomFor s.cfg (x 0x4C385056 1 false)) ∧
      (¬s.mux.Duplicates s.cfg (x 0x64636261 14 true) ∧ s.mux.RoomFor s.cfg (x 0x64636261 14 true)) ∧
      ¬s.mux.RoomFor s.cfg (x 0x64636261 15 true) ∧ s.Accessible [(0x20, 14)] := by
  have c1 : classOf twoFrames.cfg 0x50434349 = .icc := by decide +kernel
  have c2 : classOf twoFrames.cfg 0x4C385056 = .image := by decide +kernel
  have c3 : classOf twoFrames.cfg 0x64636261 = .unknown := by decide +kernel
  refine ⟨by decide +kernel, ?_, ⟨?_, ?_⟩, ⟨?_, ?_⟩, ?_, by decide +kernel⟩
  · simp only [Store.Duplicates, c1]
    decide +kernel
  · simp only [Store.Duplicates, c2, not_false_eq_true]
  · rintro ⟨-, h⟩
    simp only [Store.Opens, c2] at h
    exact absurd (h (by unfold Store.LastWhole; decide +kernel)) (by decide +kernel)
  · simp only [Store.Duplicates, c3, not_false_eq_true]
  · refine ⟨?_, ?_⟩
    · unfold Store.HasRoom
      decide +kernel
    · simp only [Store.Opens, c3, false_implies]
  · rintro ⟨h, -⟩
    exact absurd h (by unfold Store.HasRoom; decide +kernel)

/-- MuxAssembleRule, ContainerRoundTrip: the container of V29 with its exact capacity, one byte less, an incomplete store. -/
theorem witness_muxAssemble :
    let s := on still 0x60 12 0 0
    (s.mux.valid = true ∧ s.mux.Inv s.cfg) ∧
      ((s.mux.recs.filter fun r => r.present).map fun r => 8 + r.len.toNat + r.len.toNat % 2).sum = 12 ∧
      s.Accessible [(0x60, 12)] ∧ ends (exec .muxAssemble s) .ok 12 1 = true ∧ s.bw.bound = false ∧
      ((s.mux.recs.filter fun r => r.present && ownsCopy s.cfg r.tag true).map fun r => r.len.toNat).sum ≤ s.cfg.heapLimit ∧
      (twoFrames.mux.dim = [] ∧ 1 < twoFrames.mux.frames.length) := by decide +kernel

/-- MuxParseRule: no chunk and one chunk of V29's container, whole, cut by a byte, and followed by less than a header; a
chunk the emptied store has no room for. -/
theorem witness_muxParse :
    let s := on (put st 0x60 stillBytes) 0x60 12 0x108 0
    let m0 := s.mux.emptied true
    let chunk (n : Word) : Incoming := ⟨0x4C385056, 0x68, n, true, s.readBytes 0x68 n.toNat⟩
    s.cfg.Legal ∧ (s.arg2 = s.cfg.abiVersion.setWidth 64 ∧ s.Accessible [(s.arg0.toNat, s.arg1.toNat)] ∧
        s.arg0.toNat + s.arg1.toNat ≤ 2 ^ s.cfg.aw) ∧
      (Store.EmptyOf s.mux m0 ∧ m0.valid = true) ∧
      (s.readNat 0x60 4 = 0x4C385056 ∧ s.readNat 0x64 4 = 3 ∧ 0 + 8 + (3 + 3 % 2) = s.arg1.toNat) ∧
      ((m0.route s.cfg (chunk 3)).toOption.map fun r => (r.1, r.2.frames.length)) = some (0, 1) ∧
      (11 < 0 + 8 + (3 + 3 % 2) ∧ 19 < 12 + 8) ∧ ¬m0.RoomFor s.cfg (chunk 17) := by
  refine ⟨small_legal, by decide +kernel, ⟨?_, rfl⟩, by decide +kernel, by decide +kernel, by decide, ?_⟩
  · unfold Store.EmptyOf
    decide +kernel
  · rintro ⟨h, -⟩
    exact absurd h (by unfold Store.HasRoom; decide +kernel)

/-- MuxParseRule, the smallest container: V29's stream, with and without copy. -/
theorem witness_muxParse_smallest :
    let s := on (put st 0x60 stillBytes) 0x60 12 0x108 0
    s.cfg.Legal ∧ s.arg2 = s.cfg.abiVersion.setWidth 64 ∧ s.Accessible [(s.arg0.toNat, 12)] ∧ s.arg0.toNat + 12 ≤ 2 ^ 32 ∧
      12 = 8 + (s.readNat 0x64 4 + s.readNat 0x64 4 % 2) ∧
      classOf s.cfg (BitVec.ofNat 32 (s.readNat (0x60 + 0) 4)) = .image ∧ 1 ≤ s.cfg.nframe ∧ s.mux.recs ≠ [] ∧
      s.readNat 0x64 4 ≤ s.cfg.heapLimit := ⟨small_legal, by decide +kernel⟩

/-- MuxSetRule, ContainerRoundTrip, StoreInvariantKept: their common premises, and a step that answers a next state. -/
theorem witness_containerRoundTrip :
    let s := on still 0x60 12 0 0
    s.cfg.Legal ∧ s.mux.Inv s.cfg ∧ ends (exec .muxAssemble s) .ok 12 1 = true ∧
      (∀ a, InSpan (s.arg0.toNat, 12) a → s.bw.holds a = false) ∧
      ((s.mux.recs.filter fun r => r.present && ownsCopy s.cfg r.tag true).map fun r => r.len.toNat).sum ≤
        s.cfg.heapLimit ∧
      goesOn (step (s.placeCommand 0x58000000)) = true :=
  ⟨small_legal, by decide +kernel, by decide +kernel, fun _ _ => rfl, by decide +kernel, by decide +kernel⟩

/-- CodecCommandsStop: regions that end at the top of the address space, and one byte further. -/
theorem witness_codec :
    (0xFFFFFFFF : Reg).toNat + (1 : Reg).toNat ≤ 2 ^ 32 ∧ ¬(0xFFFFFFFF : Reg).toNat + (2 : Reg).toNat ≤ 2 ^ 32 ∧
      (image 1 1 st).pte.valid = true ∧ (0xFFFFFFFC : Reg).toNat + 4 * (image 1 1 st).imgW * (image 1 1 st).imgH ≤ 2 ^ 32 :=
  by decide

/-- MemoryFormKept, UnitInvariantsKept: a state with a bound reader, a bound writer and an image, and a host that writes. -/
theorem witness_invariants :
    let s := { image 2 2 (reader .range [1, 2]) with bw := (writer 1 4).bw, host := [.writeByte 0x41 7] }
    s.cfg.Legal ∧ (s.mem.wf ∧ s.mem.within (2 ^ s.cfg.aw)) ∧ s.br.Inv s.cfg ∧ s.bw.Inv s.cfg ∧ s.SlotsInv ∧ s.pte.Inv ∧
      s.RegistersFit ∧ goesOn (step s) = true := by
  refine ⟨?_, by decide +kernel, by decide +kernel, by decide +kernel, ⟨by decide, ?_⟩, by decide +kernel,
    State.registersFit_of_lt _ (by decide +kernel), by decide +kernel⟩
  · exact small_legal
  · have h : ∀ x ∈ st.ht, x.valid = false := by decide
    intro x hx hv
    simp [h x hx] at hv

end Sys2Proof.Tests
end

section
/-! PROOFS. The frame of a step for the parameters (spec/00_scope.md R7, spec/10_state.md R38): what each access of the host can
answer, said once, and from it that no step changes a parameter. -/

namespace Sys2Proof.Machine

/-! What the port can do when it answers a next state. -/

/-- A command cycle raises InvalidArgument on an illegal word, and runs the command of a legal one (R331, R96). -/
theorem commandCycle_next {s t : State} {cw : Word} (h : commandCycle s cw = .next t) :
    (decode cw = none ∧ t = { s with cmd := cw }.raised .invalidArgument) ∨
      ∃ i, decode cw = some i ∧ exec i { s with cmd := cw } = .next t := by
  unfold commandCycle at h
  split at h
  · exact .inl ⟨‹_›, ((raise_eq_next _ _ _).1 h).symm⟩
  · exact .inr ⟨_, ‹_›, h⟩

/-- A register write runs a command cycle, writes one ARG, or is ignored (R25). -/
theorem regWrite_next {s t : State} {offset : Word} {v : Reg} (h : regWrite s offset v = .next t) :
    (offset.toNat = 0x00 ∧ commandCycle s (v.setWidth 32) = .next t) ∨
      (offset.toNat = 0x04 ∧ t = { s with arg0 := regValue s.cfg v }) ∨
      (offset.toNat = 0x08 ∧ t = { s with arg1 := regValue s.cfg v }) ∨
      (offset.toNat = 0x0C ∧ t = { s with arg2 := regValue s.cfg v }) ∨
      (offset.toNat = 0x10 ∧ t = { s with arg3 := regValue s.cfg v }) ∨
      (offset.toNat ∉ [0x00, 0x04, 0x08, 0x0C, 0x10] ∧ t = s) := by
  unfold regWrite at h
  split at h
  · exact .inl ⟨‹_›, h⟩
  · exact .inr (.inl ⟨‹_›, (Host.Outcome.next.inj h).symm⟩)
  · exact .inr (.inr (.inl ⟨‹_›, (Host.Outcome.next.inj h).symm⟩))
  · exact .inr (.inr (.inr (.inl ⟨‹_›, (Host.Outcome.next.inj h).symm⟩)))
  · exact .inr (.inr (.inr (.inr (.inl ⟨‹_›, (Host.Outcome.next.inj h).symm⟩))))
  · exact .inr (.inr (.inr (.inr (.inr ⟨by simp_all, (Host.Outcome.next.inj h).symm⟩))))

/-- A host write of a byte stores it and leaves the old value on the reader's record (R74, R75). -/
theorem hostWriteByte_next {s t : State} {a : Nat} {v : Byte} (h : hostWriteByte s a v = .next t) :
    t = { s.storeBytes a [v] with br := s.readerAfterHostWrite a } :=
  (Host.Outcome.next.inj (State.touching_next h)).symm

/-- A host read of a byte changes only what the host holds (R74, log 9). -/
theorem hostReadByte_next {s t : State} {a : Nat} (h : hostReadByte s a = .next t) :
    t = { s with hostData := (s.readByte a).setWidth 64 } :=
  (Host.Outcome.next.inj (State.touching_next h)).symm

/-- A host write of a register is aligned, and writes it (R25, R67). -/
theorem hostAccess_writeReg_next {s t : State} {addr : Word} {v : Reg} (h : hostAccess (.writeReg addr v) s = .next t) :
    (s.offsetOf addr).toNat % 4 = 0 ∧ regWrite s (s.offsetOf addr) v = .next t := by
  simp only [hostAccess] at h
  split at h
  · cases h
  · exact ⟨not_not.1 ‹_›, h⟩

/-- A host read of a register is aligned, and changes only what the host holds (R25, R67, log 9). -/
theorem hostAccess_readReg_next {s t : State} {addr : Word} (h : hostAccess (.readReg addr) s = .next t) :
    (s.offsetOf addr).toNat % 4 = 0 ∧ t = { s with hostData := s.regRead (s.offsetOf addr) } := by
  simp only [hostAccess] at h
  split at h
  · cases h
  · exact ⟨not_not.1 ‹_›, (Host.Outcome.next.inj h).symm⟩

/-! The parameters. -/

/-- No command changes a parameter: each ends in an update of other fields (R38). -/
theorem exec_cfg {i : Instr} {s t : State} (h : exec i s = .next t) : t.cfg = s.cfg := by
  cases i with
  | sysReset => obtain rfl := execSysReset_next h; rfl
  | brInit _ => obtain ⟨rfl, -⟩ | ⟨-, ⟨-, rfl⟩ | ⟨-, _, -, rfl⟩⟩ := execBrInit_next h <;> rfl
  | brRead _ => obtain ⟨rfl, -⟩ | ⟨-, rfl⟩ := execBrRead_next h <;> rfl
  | brGetbool _ => obtain ⟨rfl, -⟩ | ⟨-, _, -, rfl⟩ := execBrGetbool_next h <;> rfl
  | bwInit => obtain ⟨rfl, -⟩ | ⟨-, rfl⟩ := execBwInit_next h <;> rfl
  | bwPut _ =>
    obtain ⟨rfl, -⟩ | ⟨-, ⟨-, rfl⟩ | ⟨-, ⟨-, rfl⟩ | ⟨-, ⟨-, rfl⟩ | ⟨-, -, -, rfl⟩ | ⟨-, -, rfl⟩⟩⟩⟩ :=
      execBwPut_next h <;> rfl
  | bwFinalize => obtain ⟨rfl, -⟩ | ⟨-, ⟨-, rfl⟩ | ⟨-, rfl⟩⟩ := execBwFinalize_next h <;> rfl
  | hufBuild _ => obtain ⟨rfl, -⟩ | ⟨-, ⟨-, rfl⟩ | ⟨_, -, rfl⟩⟩ := execHufBuild_next h <;> rfl
  | hufDecode _ => obtain ⟨rfl, -⟩ | ⟨-, _, -, rfl⟩ := execHufDecode_next h <;> rfl
  | hufReadlengths =>
    obtain ⟨rfl, -⟩ | ⟨-, _, -, ⟨-, rfl⟩ | ⟨-, -, rfl⟩ | ⟨-, _, _, -, rfl⟩⟩ := execHufReadlengths_next h <;> rfl
  | pteSetimg => obtain rfl | ⟨-, rfl⟩ := execPteSetimg_next h <;> rfl
  | ptePredFwd _ => obtain rfl | ⟨-, -, rfl⟩ := execPtePredFwd_next h <;> rfl
  | ptePredInv _ => obtain rfl | ⟨-, -, rfl⟩ := execPtePredInv_next h <;> rfl
  | pteSubgFwd => obtain rfl | ⟨-, rfl⟩ := execPteSubgFwd_next h <;> rfl
  | pteSubgInv => obtain rfl | ⟨-, rfl⟩ := execPteSubgInv_next h <;> rfl
  | pteXcolFwd _ => obtain rfl | ⟨-, rfl⟩ := execPteXcolFwd_next h <;> rfl
  | pteXcolInv _ => obtain rfl | ⟨-, rfl⟩ := execPteXcolInv_next h <;> rfl
  | ptePalFwd => obtain rfl | ⟨-, -, -, rfl⟩ := execPtePalFwd_next h <;> rfl
  | ptePalInv => obtain rfl | ⟨-, -, rfl⟩ := execPtePalInv_next h <;> rfl
  | muxNew => obtain ⟨-, rfl⟩ | ⟨-, rfl⟩ := execMuxNew_next h <;> rfl
  | muxSet _ => obtain ⟨rfl, -⟩ | ⟨-, rfl | ⟨_, _, -, rfl⟩⟩ := execMuxSet_next h <;> rfl
  | muxGet => obtain ⟨rfl, -⟩ | ⟨-, ⟨-, rfl⟩ | ⟨_, -, rfl⟩⟩ := execMuxGet_next h <;> rfl
  | muxDelete => obtain ⟨-, rfl⟩ | ⟨-, ⟨-, rfl⟩ | ⟨-, rfl⟩⟩ := execMuxDelete_next h <;> rfl
  | muxPush _ => obtain ⟨rfl, -⟩ | ⟨-, ⟨_, -, rfl⟩ | ⟨_, _, -, rfl⟩⟩ := execMuxPush_next h <;> rfl
  | muxAssemble => obtain ⟨rfl, -⟩ | ⟨-, ⟨-, rfl⟩ | ⟨-, ⟨-, rfl⟩ | ⟨-, rfl⟩⟩⟩ := execMuxAssemble_next h <;> rfl
  | muxParse _ =>
    obtain ⟨rfl, -⟩ | ⟨-, ⟨-, rfl⟩ | ⟨-, _, -, ⟨_, -, rfl⟩ | ⟨_, _, -, ⟨-, rfl⟩ | ⟨-, rfl⟩⟩⟩⟩ :=
      execMuxParse_next h <;> rfl
  | muxFetch => obtain ⟨rfl, -⟩ | ⟨-, ⟨-, rfl⟩ | ⟨-, -, rfl⟩⟩ := execMuxFetch_next h <;> rfl
  | muxDestroy => obtain ⟨-, rfl⟩ | ⟨-, rfl⟩ := execMuxDestroy_next h <;> rfl
  | codecDecode => obtain rfl := execCodecDecode_next h; rfl
  | codecEncode => obtain rfl := execCodecEncode_next h; rfl

theorem commandCycle_cfg {s t : State} {cw : Word} (h : commandCycle s cw = .next t) : t.cfg = s.cfg := by
  obtain ⟨-, rfl⟩ | ⟨i, -, hi⟩ := commandCycle_next h
  · rfl
  · exact (exec_cfg hi).trans rfl

theorem regWrite_cfg {s t : State} {offset : Word} {v : Reg} (h : regWrite s offset v = .next t) : t.cfg = s.cfg := by
  obtain ⟨-, hc⟩ | ⟨-, rfl⟩ | ⟨-, rfl⟩ | ⟨-, rfl⟩ | ⟨-, rfl⟩ | ⟨-, rfl⟩ := regWrite_next h
  · exact commandCycle_cfg hc
  all_goals rfl

/-- A reset, also one that interrupts a command, keeps the parameters (R370, R371). -/
@[simp] theorem resetDuring_cfg (s : State) (cw : Word) : (resetDuring s cw).cfg = s.cfg := by
  unfold resetDuring
  split
  · rfl
  · split <;> rfl

theorem hostAccess_cfg {a : HostAccess} {s t : State} (h : hostAccess a s = .next t) : t.cfg = s.cfg := by
  cases a with
  | writeReg addr v =>
    obtain ⟨-, hw⟩ := hostAccess_writeReg_next h
    exact regWrite_cfg hw
  | readReg addr => obtain ⟨-, rfl⟩ := hostAccess_readReg_next h; rfl
  | writeByte addr v => obtain rfl := hostWriteByte_next h; rfl
  | readByte addr => obtain rfl := hostReadByte_next h; rfl
  | resetInput => obtain rfl := Host.Outcome.next.inj h; rfl
  | resetDuring cw => obtain rfl := Host.Outcome.next.inj h; exact resetDuring_cfg s cw

/-- Settles O16: a step is one host access, and no access, with the command it may run, writes `cfg`. -/
theorem noStepChangesParameters : Obligations.NoStepChangesParameters := by
  intro s t h
  rw [step_eq] at h
  split at h
  · obtain rfl := Host.Outcome.next.inj h
    rfl
  next a rest _ => exact (hostAccess_cfg h).trans (State.afterTake_cfg s rest)

end Sys2Proof.Machine
end

section
/-! PROOFS. The frame of every command (spec/10_state.md R24): which fields of the state each of the thirty commands may
change. -/

namespace Sys2Proof.Machine

/-- Writing a slot changes no other slot (R208). -/
theorem State.slot_setSlot_ne (s : State) {t u : Nat} (x : Slot) (h : u ≠ t) : (s.setSlot t x).slot u = s.slot u := by
  simp [State.slot, List.getD_eq_getElem?_getD, List.getElem?_set_ne h.symm]

/-- Settles O14: the cases of each command, as its inversion lemma gives them, update the named fields alone. -/
theorem commandsChangeOnlyTheirUnit : Obligations.CommandsChangeOnlyTheirUnit := by
  intro i s t h done
  cases i with
  | sysReset =>
    obtain rfl := execSysReset_next h
    exact ⟨rfl, rfl, rfl, rfl, rfl⟩
  | brInit _ => obtain ⟨rfl, -⟩ | ⟨-, ⟨-, rfl⟩ | ⟨-, _, -, rfl⟩⟩ := execBrInit_next h <;> rfl
  | brRead _ => obtain ⟨rfl, -⟩ | ⟨-, rfl⟩ := execBrRead_next h <;> rfl
  | brGetbool _ =>
    obtain ⟨rfl, -⟩ | ⟨-, r, hr, rfl⟩ := execBrGetbool_next h
    · rfl
    · have hsame := hr ▸ renormalise_eq s.bitMsb s.cfg s.br _ _
      exact congrArg (fun x => State.finish { s with br := x } _ _) hsame
  | bwInit => obtain ⟨rfl, -⟩ | ⟨-, rfl⟩ := execBwInit_next h <;> rfl
  | bwPut _ =>
    obtain ⟨rfl, -⟩ | ⟨-, ⟨-, rfl⟩ | ⟨-, ⟨-, rfl⟩ | ⟨-, ⟨-, rfl⟩ | ⟨-, -, -, rfl⟩ | ⟨-, -, rfl⟩⟩⟩⟩ :=
      execBwPut_next h <;> rfl
  | bwFinalize => obtain ⟨rfl, -⟩ | ⟨-, ⟨-, rfl⟩ | ⟨-, rfl⟩⟩ := execBwFinalize_next h <;> rfl
  | hufBuild k =>
    obtain ⟨rfl, -⟩ | ⟨-, ⟨-, rfl⟩ | ⟨_, -, rfl⟩⟩ := execHufBuild_next h
    · exact ⟨rfl, rfl, fun _ _ => rfl⟩
    all_goals exact ⟨rfl, List.length_set, fun u hu => State.slot_setSlot_ne s _ hu⟩
  | hufDecode k =>
    obtain ⟨rfl, -⟩ | ⟨-, d, hd, rfl⟩ := execHufDecode_next h
    · rfl
    · have hsame : s.br.SameView d.reader := hd ▸ hufDecode_sameView s.bitLsb s.cfg _ s.br
      exact congrArg (fun x => State.finish { s with br := x } _ _) hsame
  | hufReadlengths =>
    obtain ⟨rfl, -⟩ | ⟨-, d, hd, ht⟩ := execHufReadlengths_next h
    · rfl
    · have hsame : s.br.SameView d.reader := hd ▸ (readDescription_spec s.bitLsb s.cfg s.arg1.toNat s.br).1
      obtain ⟨-, rfl⟩ | ⟨-, -, rfl⟩ | ⟨-, out, _, -, rfl⟩ := ht
      · exact congrArg (fun x => State.raised { s with br := x } _) hsame
      · exact congrArg (fun x => State.raised { s with br := x } _) hsame
      · exact congrArg (fun x => State.finish (State.storeBytes { s with br := x } _ _) _ _) hsame
  | pteSetimg => obtain rfl | ⟨-, rfl⟩ := execPteSetimg_next h <;> rfl
  | ptePredFwd _ => obtain rfl | ⟨-, -, rfl⟩ := execPtePredFwd_next h <;> rfl
  | ptePredInv _ => obtain rfl | ⟨-, -, rfl⟩ := execPtePredInv_next h <;> rfl
  | pteSubgFwd => obtain rfl | ⟨-, rfl⟩ := execPteSubgFwd_next h <;> rfl
  | pteSubgInv => obtain rfl | ⟨-, rfl⟩ := execPteSubgInv_next h <;> rfl
  | pteXcolFwd _ => obtain rfl | ⟨-, rfl⟩ := execPteXcolFwd_next h <;> rfl
  | pteXcolInv _ => obtain rfl | ⟨-, rfl⟩ := execPteXcolInv_next h <;> rfl
  | ptePalFwd => obtain rfl | ⟨-, -, -, rfl⟩ := execPtePalFwd_next h <;> rfl
  | ptePalInv => obtain rfl | ⟨-, -, rfl⟩ := execPtePalInv_next h <;> rfl
  | muxNew => obtain ⟨-, rfl⟩ | ⟨-, rfl⟩ := execMuxNew_next h <;> rfl
  | muxSet _ => obtain ⟨rfl, -⟩ | ⟨-, rfl | ⟨_, _, -, rfl⟩⟩ := execMuxSet_next h <;> rfl
  | muxGet => obtain ⟨rfl, -⟩ | ⟨-, ⟨-, rfl⟩ | ⟨_, -, rfl⟩⟩ := execMuxGet_next h <;> rfl
  | muxDelete =>
    obtain ⟨-, rfl⟩ | ⟨-, ⟨-, rfl⟩ | ⟨-, rfl⟩⟩ := execMuxDelete_next h <;> rfl
  | muxPush _ => obtain ⟨rfl, -⟩ | ⟨-, ⟨_, -, rfl⟩ | ⟨_, _, -, rfl⟩⟩ := execMuxPush_next h <;> rfl
  | muxAssemble => obtain ⟨rfl, -⟩ | ⟨-, ⟨-, rfl⟩ | ⟨-, ⟨-, rfl⟩ | ⟨-, rfl⟩⟩⟩ := execMuxAssemble_next h <;> rfl
  | muxParse _ =>
    obtain ⟨rfl, -⟩ | ⟨-, ⟨-, rfl⟩ | ⟨-, _, -, ⟨_, -, rfl⟩ | ⟨_, _, -, ⟨-, rfl⟩ | ⟨-, rfl⟩⟩⟩⟩ :=
      execMuxParse_next h <;> rfl
  | muxFetch => obtain ⟨rfl, -⟩ | ⟨-, ⟨-, rfl⟩ | ⟨-, -, rfl⟩⟩ := execMuxFetch_next h <;> rfl
  | muxDestroy => obtain ⟨-, rfl⟩ | ⟨-, rfl⟩ := execMuxDestroy_next h <;> rfl
  | codecDecode => obtain rfl := execCodecDecode_next h; rfl
  | codecEncode => obtain rfl := execCodecEncode_next h; rfl

end Sys2Proof.Machine
end

section
/-! PROOFS. The invariants of the units (spec/10_state.md R25, R27 to R33, R164) together: which updates of the state keep
them, and that the state after power-on (R40) meets them and that of the chunk store. -/

namespace Sys2Proof.Machine

/-! The invariants together. -/

/-- The invariants of reader, writer, slots, image descriptor and register widths. -/
structure State.UnitsInv (s : State) : Prop where
  reader : s.br.Inv s.cfg
  writer : s.bw.Inv s.cfg
  slots : s.SlotsInv
  image : s.pte.Inv
  registers : s.RegistersFit

/-- CMD, STATUS, RES, the store, the memory and the model's own fields but the parameters are in none of them. -/
theorem State.UnitsInv.frame {s : State} (hs : s.UnitsInv) {cmd : Word} {status : Status} {r0 r1 data : Reg} {mux : Store}
    {mem : Memory} {host : List HostAccess} {tick : Nat} :
    State.UnitsInv { s with
      cmd := cmd, status := status, res0 := r0, res1 := r1, mux := mux, mem := mem, host := host, hostData := data
      tick := tick } :=
  ⟨hs.reader, hs.writer, hs.slots, hs.image, hs.registers⟩

/-- The registers that can hold an address, one by one (R25). -/
theorem State.registersFit_iff (s : State) :
    s.RegistersFit ↔
      (s.arg0.toNat < 2 ^ s.cfg.regWidth ∧ s.arg1.toNat < 2 ^ s.cfg.regWidth ∧ s.arg2.toNat < 2 ^ s.cfg.regWidth ∧
        s.arg3.toNat < 2 ^ s.cfg.regWidth) ∧
      (s.br.base.toNat < 2 ^ s.cfg.regWidth ∧ s.br.len.toNat < 2 ^ s.cfg.regWidth) ∧
      s.bw.base.toNat < 2 ^ s.cfg.regWidth ∧ s.bw.cap.toNat < 2 ^ s.cfg.regWidth ∧ s.bw.limit.toNat < 2 ^ s.cfg.regWidth := by
  simp [State.RegistersFit, and_assoc]

/-- A reader with a base and a length that fit keeps the registers within their width. -/
theorem State.RegistersFit.withReader {s : State} (hs : s.RegistersFit) {r : Reader}
    (hbase : r.base.toNat < 2 ^ s.cfg.regWidth) (hlen : r.len.toNat < 2 ^ s.cfg.regWidth) :
    ({ s with br := r } : State).RegistersFit := by
  obtain ⟨hargs, -, hbw⟩ := s.registersFit_iff.1 hs
  exact (State.registersFit_iff _).2 ⟨hargs, ⟨hbase, hlen⟩, hbw⟩

/-- A writer whose fields fit keeps the registers within their width. -/
theorem State.RegistersFit.withWriter {s : State} (hs : s.RegistersFit) {w : Writer}
    (hbase : w.base.toNat < 2 ^ s.cfg.regWidth) (hcap : w.cap.toNat < 2 ^ s.cfg.regWidth)
    (hlimit : w.limit.toNat < 2 ^ s.cfg.regWidth) : ({ s with bw := w } : State).RegistersFit := by
  obtain ⟨hargs, hbr, -⟩ := s.registersFit_iff.1 hs
  exact (State.registersFit_iff _).2 ⟨hargs, hbr, hbase, hcap, hlimit⟩

/-- A new reader that meets its invariant in registers that fit. -/
theorem State.UnitsInv.withReader {s : State} (hs : s.UnitsInv) {r : Reader} (hr : r.Inv s.cfg)
    (hbase : r.base.toNat < 2 ^ s.cfg.regWidth) (hlen : r.len.toNat < 2 ^ s.cfg.regWidth) :
    State.UnitsInv { s with br := r } :=
  ⟨hr, hs.writer, hs.slots, hs.image, hs.registers.withReader hbase hlen⟩

/-- A new writer that meets its invariant in registers that fit. -/
theorem State.UnitsInv.withWriter {s : State} (hs : s.UnitsInv) {w : Writer} (hw : w.Inv s.cfg)
    (hbase : w.base.toNat < 2 ^ s.cfg.regWidth) (hcap : w.cap.toNat < 2 ^ s.cfg.regWidth)
    (hlimit : w.limit.toNat < 2 ^ s.cfg.regWidth) : State.UnitsInv { s with bw := w } :=
  ⟨hs.reader, hw, hs.slots, hs.image, hs.registers.withWriter hbase hcap hlimit⟩

/-- A reader that has only moved keeps the view's registers. -/
theorem State.UnitsInv.withMovedReader {s : State} (hs : s.UnitsInv) {r : Reader} (hr : r.Inv s.cfg)
    (hsame : s.br.SameView r) : State.UnitsInv { s with br := r } := by
  obtain ⟨-, ⟨hbase, hlen⟩, -⟩ := s.registersFit_iff.1 hs.registers
  refine hs.withReader hr ?_ ?_ <;> rw [hsame]
  · exact hbase
  · exact hlen

/-! Reset (R40). -/

/-- No slot at power-on is valid, so none need hold a table. -/
theorem State.power_slotsInv (c : Config) : (State.power c).SlotsInv := by
  refine ⟨List.length_replicate, fun x hx hv => ?_⟩
  obtain rfl : x = Slot.reset := List.eq_of_mem_replicate hx
  exact absurd hv Bool.false_ne_true

/-- The state after power-on meets the invariants of the units: nothing is bound, valid or set, and every register is 0. -/
theorem State.power_unitsInv (c : Config) : (State.power c).UnitsInv where
  reader := fun hb => absurd hb Bool.false_ne_true
  writer := fun hb => absurd hb Bool.false_ne_true
  slots := State.power_slotsInv c
  image := fun hv => absurd hv Bool.false_ne_true
  registers := State.registersFit_of_lt _ (by simp [State.power, Reader.reset, Writer.reset])

/-- A reset brings the invariants about, whatever the state before (R330, R370). -/
theorem State.blockReset_unitsInv (s : State) (cmd : Word) : (s.blockReset cmd).UnitsInv :=
  (State.power_unitsInv s.cfg).frame

theorem State.reset_legal : State.reset.cfg.Legal := by
  unfold Config.Legal
  decide

/-- Settles O8: each field is the one `State.power` writes out; every slot and record is a copy of the one at reset. -/
theorem powerOnValues : Obligations.PowerOnValues := by
  have hpower : ∀ c : Config, (State.power c).UnitsAtReset := fun c =>
    ⟨by simp [State.power], by simp [State.power, Reader.reset], by simp [State.power, Writer.reset],
      by simp [State.power, Slot.reset], by simp [State.power, Image.reset],
      by simp [State.power, Store.reset, ChunkRec.reset]⟩
  exact ⟨fun c => ⟨hpower c, rfl, rfl⟩, hpower Config.default, rfl, State.reset_legal⟩

/-- An arena of absent records with empty lists meets the invariant of the store (R294). -/
theorem Store.inv_reset (c : Config) : (Store.reset c.nchunk).Inv c := by
  have habsent : ∀ r ∈ (Store.reset c.nchunk).recs, r.present = false := by simp [Store.reset, ChunkRec.reset]
  have howned : (Store.reset c.nchunk).ownedTotal = 0 := by simp [Store.ownedTotal, Store.reset, ChunkRec.reset]
  have hrecord : ∀ i, ((Store.reset c.nchunk).record i).present = false := by
    intro i
    rw [Store.record, Store.reset, List.getD_eq_getElem?_getD, List.getElem?_replicate]
    split <;> rfl
  refine ⟨List.length_replicate, Nat.zero_le _, howned.symm, Nat.zero_le _, ?_, ?_, ?_⟩
  · exact ⟨List.nodup_nil, by simp [Store.walk, Store.reset], by simp [hrecord]⟩
  · exact ⟨by simp [Store.reset], by simp [Store.list, Store.reset], by simp [Store.reset]⟩
  · intro r hr hp
    exact absurd hp (by simp [habsent r hr])

/-- Settles O60: nothing is listed, bound, valid or present at power-on. -/
theorem resetMeetsInvariants : Obligations.ResetMeetsInvariants := by
  refine ⟨State.reset_legal, fun c => ?_⟩
  obtain ⟨hbr, hbw, hht, hpte, hregs⟩ := State.power_unitsInv c
  exact ⟨by simp [State.power, Memory.wf], by simp [State.power, Memory.within], hbr, hbw, hht, hpte, hregs, Store.inv_reset c⟩

end Sys2Proof.Machine
end

section
/-! PROOFS. What the operations of the reader, the writer, the slots and the image descriptor keep of their invariants
(spec/10_state.md R27 to R33, spec/40_bitreader.md, spec/41_bitwriter.md). -/

namespace Sys2Proof.Machine

/-! The reader. -/

/-- A skip inside a view that fits leaves position and flag consistent (R27, R135); range and value are what the mode asks. -/
theorem Reader.inv_skip_with {c : Config} {r : Reader} {range value : Byte} (n : Nat) (haw : c.aw ≤ 60)
    (hfit : r.base.toNat + r.len.toNat ≤ 2 ^ c.aw) (hrange : r.mode = .range → 127 ≤ range.toNat ∧ range.toNat ≤ 254)
    (hplain : r.mode = .plain → range = 0 ∧ value = 0) :
    ({ r.skip c n with range := range, value := value } : Reader).Inv c := by
  intro _
  have hpos : (r.skip c n).pos.toNat < 2 ^ c.posw := Reader.skip_pos_toNat c r n haw ▸ r.posAfter_lt c n
  exact ⟨hfit, hpos, Reader.skip_eos_eq c r n haw, hrange, hplain⟩

theorem Reader.inv_skip {c : Config} {r : Reader} (n : Nat) (haw : c.aw ≤ 60) (h : r.Inv c) : (r.skip c n).Inv c := by
  intro hb
  obtain ⟨hfit, -, -, hrange, hplain⟩ := h hb
  exact Reader.inv_skip_with n haw hfit hrange hplain hb

/-- A view bound in plain mode (R138). -/
theorem Reader.inv_bind_plain {c : Config} {base len : Reg} (hfit : fits c base.toNat len.toNat = true) :
    (Reader.bind .plain base len).Inv c := fun _ =>
  ⟨by simpa [fits] using hfit, by simp, by simp [eosAt], by simp, by simp⟩

/-- A view bound in range mode, its first eight bits loaded (R138). -/
theorem Reader.inv_bind_range {c : Config} {base len : Reg} {value : Byte} (haw : c.aw ≤ 60)
    (hfit : fits c base.toNat len.toNat = true) :
    ({ (Reader.bind .range base len).skip c 8 with range := 254, value := value } : Reader).Inv c :=
  Reader.inv_skip_with 8 haw (by simpa [fits] using hfit) (by simp) (by simp)

/-- The shift of R145 brings range + 1 into 128..255. -/
theorem normShift_scales {r : Nat} (h : r < 127) : 128 ≤ (r + 1) * 2 ^ normShift r ∧ (r + 1) * 2 ^ normShift r ≤ 255 := by
  unfold normShift
  split_ifs <;> omega

/-- The range after a renormalisation is in R147's interval. -/
theorem renormalised_range_bounds {r : Byte} (h : r.toNat < 127) :
    127 ≤ (((r + 1) <<< normShift r.toNat) - 1).toNat ∧ (((r + 1) <<< normShift r.toNat) - 1).toNat ≤ 254 := by
  obtain ⟨hlo, hhi⟩ := normShift_scales h
  have hone : (r + 1).toNat = r.toNat + 1 := by
    have hlt : r.toNat + (1 : Byte).toNat < 2 ^ 8 := by
      have : (1 : Byte).toNat = 1 := rfl
      omega
    rw [BitVec.toNat_add, Nat.mod_eq_of_lt hlt]
    rfl
  have hshift : ((r + 1) <<< normShift r.toNat).toNat = (r.toNat + 1) * 2 ^ normShift r.toNat := by
    rw [BitVec.toNat_shiftLeft, hone, Nat.shiftLeft_eq, Nat.mod_eq_of_lt (by omega)]
  have hsub : (((r + 1) <<< normShift r.toNat) - 1).toNat = (r.toNat + 1) * 2 ^ normShift r.toNat - 1 := by
    rw [BitVec.toNat_sub_of_le, hshift]
    · rfl
    · rw [BitVec.le_def, hshift]
      exact le_trans (by decide) hlo
  omega

/-- A boolean decode leaves the range at most what it was (R146). -/
theorem boolDecode_range_le {range : Byte} (value prob : Byte) (h : 0 < range.toNat) :
    (boolDecode range value prob).2.1.toNat ≤ range.toNat := by
  have hsplit : (boolSplit range prob).toNat < range.toNat := by
    have hmul : range.toNat * prob.toNat ≤ range.toNat * 255 := Nat.mul_le_mul_left _ (by omega)
    have hr := range.isLt
    rw [boolSplit, BitVec.toNat_ofNat, Nat.mod_eq_of_lt] <;> omega
  unfold boolDecode
  split
  · dsimp only
    bv_omega
  · exact hsplit.le

theorem Reader.inv_renormalise {c : Config} {r : Reader} {bit : Nat → Bool} {range value : Byte} (haw : c.aw ≤ 60)
    (h : r.Inv c) (hb : r.bound = true) (hmode : r.mode = .range) (hle : range.toNat ≤ 254) :
    (renormalise bit c r range value).Inv c := by
  obtain ⟨hfit, hpos, heos, -, -⟩ := h hb
  unfold renormalise Config.rangeNorm
  split
  · exact Reader.inv_skip_with _ haw hfit (fun _ => renormalised_range_bounds ‹_›) (by simp [hmode])
  · exact fun _ => ⟨hfit, hpos, heos, fun _ => ⟨Nat.not_lt.1 ‹_›, hle⟩, by simp [hmode]⟩

/-- The reader after a boolean decode (R146, R147). -/
theorem Reader.inv_getbool {c : Config} {r : Reader} (bit : Nat → Bool) (prob : Byte) (haw : c.aw ≤ 60) (h : r.Inv c)
    (hb : r.bound = true) (hmode : r.mode = .range) :
    (renormalise bit c r (boolDecode r.range r.value prob).2.1 (boolDecode r.range r.value prob).2.2).Inv c := by
  obtain ⟨-, -, -, hrange, -⟩ := h hb
  obtain ⟨hlo, hhi⟩ := hrange hmode
  exact Reader.inv_renormalise haw h hb hmode (le_trans (boolDecode_range_le _ _ (by omega)) hhi)

/-! What skips keep, the Huffman decoder keeps: it moves the reader by skips alone (R135). -/

section
variable {P : Reader → Prop} {c : Config} (hskip : ∀ r n, P r → P (r.skip c n)) (bit : Nat → Bool)
include hskip

theorem hufDecode_keeps {br : Reader} (es : List Entry) (h : P br) : P (hufDecode bit c es br).reader := by
  unfold hufDecode
  dsimp only
  split
  · exact hskip _ _ (hskip _ _ h)
  · exact hskip _ _ h

theorem readClLengths_keeps {br : Reader} (syms : List Nat) (h : P br) : P (readClLengths bit c syms br).2 := by
  induction syms generalizing br with
  | nil => exact h
  | cons _ _ ih => exact ih (hskip _ _ h)

theorem readTokenLimit_keeps {br : Reader} (n : Nat) (h : P br) : P (readTokenLimit bit c n br).1 := by
  unfold readTokenLimit
  dsimp only
  split
  · exact hskip _ _ (hskip _ _ (hskip _ _ h))
  · exact hskip _ _ h

theorem lengthTokens_keeps (es : List Entry) (n limit : Nat) {run : LengthRun} (h : P run.reader) :
    P (lengthTokens bit c es n limit run).1.reader := by
  induction limit generalizing run with
  | zero => exact h
  | succ limit ih =>
    unfold lengthTokens
    have hd := hufDecode_keeps hskip bit es h
    dsimp only
    split
    · split
      · exact ih hd
      · have hx := hskip _ (runToken (hufDecode bit c es run.reader).sym run.prev).1 hd
        split
        · exact hx
        · exact ih hx
    · exact h

theorem readDescription_keeps {br : Reader} (n : Nat) (h : P br) : P (readDescription bit c n br).reader := by
  unfold readDescription
  dsimp only
  have h1 : P (br.read bit c 4).2 := hskip br 4 h
  have h2 := readClLengths_keeps hskip bit (clOrder.take (4 + (br.read bit c 4).1)) h1
  split
  · exact h2
  · rename_i es _
    have h3 := readTokenLimit_keeps hskip bit n h2
    split
    · rename_i hl
      rw [hl] at h3
      exact h3
    · rename_i br3 limit hl
      rw [hl] at h3
      have h4 := lengthTokens_keeps hskip bit es n limit
        (run := { reader := br3, out := [], prev := 8, tokens := 0, reach := br3.pos.toNat }) h3
      split <;>
        · rename_i hr
          rw [hr] at h4
          exact h4

end

/-! The writer. -/

/-- A freshly bound writer has appended nothing (R162). -/
theorem Writer.inv_bind {c : Config} {base cap limit : Reg} (hfit : fits c base.toNat limit.toNat = true)
    (hcap : cap ≤ limit) : (Writer.bind base cap limit).Inv c := fun _ =>
  ⟨by simpa [fits] using hfit, BitVec.le_def.1 hcap, by simp, by simp [ceilDiv]⟩

/-- The capacity after growth, as a number (R165, R167). -/
theorem Writer.grownCap_toNat (w : Writer) (k : Nat) :
    (w.grownCap k).toNat = if w.cap.toNat < k then min w.limit.toNat (max (2 * w.cap.toNat) k) else w.cap.toNat := by
  unfold Writer.grownCap
  split
  · rw [BitVec.toNat_ofNat, Nat.mod_eq_of_lt (lt_of_le_of_lt (Nat.min_le_left _ _) w.limit.isLt)]
  · rfl

/-- Growth stays within the limit and gives the bytes needed (R164, R165). -/
theorem Writer.grownCap_bounds {w : Writer} {k : Nat} (hcap : w.cap.toNat ≤ w.limit.toNat) (hk : k ≤ w.limit.toNat) :
    k ≤ (w.grownCap k).toNat ∧ (w.grownCap k).toNat ≤ w.limit.toNat := by
  rw [Writer.grownCap_toNat]
  split <;> omega

/-- An append that has room keeps the writer's invariant (R165). -/
theorem Writer.inv_append {c : Config} {w : Writer} {n : Nat} (v : Reg) (haw : c.aw ≤ 60) (h : w.Inv c)
    (hroom : w.needed n ≤ w.limit.toNat) : (w.append n v).Inv c := by
  intro hb
  obtain ⟨hfit, hcap, hpos, -⟩ := h hb
  obtain ⟨hneed, hlimit⟩ := Writer.grownCap_bounds hcap hroom
  have haw : 2 ^ c.aw ≤ 2 ^ 60 := Nat.pow_le_pow_right (by decide) haw
  have hnew : (w.append n v).pos.toNat = w.pos.toNat + n := by
    rw [Writer.append_pos, BitVec.toNat_ofNat, Nat.mod_eq_of_lt]
    unfold Writer.needed ceilDiv at hroom
    omega
  refine ⟨hfit, hlimit, ?_, ?_⟩ <;> rw [hnew]
  · rw [Writer.append_bits, List.length_append, lowBits_length, hpos]
  · exact hneed

/-! The slots and the image. -/

/-- A slot written with the table of a legal length array, or not valid, keeps the invariant of the slots (R31). -/
theorem State.slotsInv_setSlot {s : State} {t : Nat} {x : Slot} (hs : s.SlotsInv)
    (hx : x.valid = true → ∃ lens : List Nat, lens.length ≤ Config.maxSym ∧
      buildTable s.cfg.rootBits lens = some x.entries ∧ x.size = BitVec.ofNat 17 x.entries.length) :
    (s.setSlot t x).SlotsInv := by
  obtain ⟨hlen, hall⟩ := hs
  refine ⟨List.length_set.trans hlen, fun y hy => ?_⟩
  obtain hy | rfl := List.mem_or_eq_of_mem_set hy
  · exact hall y hy
  · exact hx

theorem State.UnitsInv.setSlot {s : State} {t : Nat} {x : Slot} (hs : s.UnitsInv)
    (hx : x.valid = true → ∃ lens : List Nat, lens.length ≤ Config.maxSym ∧
      buildTable s.cfg.rootBits lens = some x.entries ∧ x.size = BitVec.ofNat 17 x.entries.length) :
    (s.setSlot t x).UnitsInv :=
  ⟨hs.reader, hs.writer, State.slotsInv_setSlot hs.slots hx, hs.image, hs.registers⟩

/-- A size of at most MAXDIM fits the 15 bits of the descriptor (R33). -/
theorem toNat_setWidth_of_le_maxDim {v : Reg} (h : v.toNat ≤ Config.maxDim) : (v.setWidth 15).toNat = v.toNat := by
  unfold Config.maxDim at h
  rw [BitVec.toNat_setWidth, Nat.mod_eq_of_lt (by omega)]

theorem Image.inv_set {w h : Reg} (hw : 1 ≤ w.toNat ∧ w.toNat ≤ Config.maxDim) (hh : 1 ≤ h.toNat ∧ h.toNat ≤ Config.maxDim) :
    ({ valid := true, w := w.setWidth 15, h := h.setWidth 15 } : Image).Inv := fun _ => by
  simp only [toNat_setWidth_of_le_maxDim hw.2, toNat_setWidth_of_le_maxDim hh.2]
  exact ⟨hw.1, hw.2, hh.1, hh.2⟩

end Sys2Proof.Machine
end

section
/-! PROOFS. Every step keeps the invariants of the units (spec/10_state.md R25, R27 to R33, R164): one lemma per command of a
unit, the frame for the other commands, then the host's accesses. -/

namespace Sys2Proof.Machine

/-! The commands of the units. -/

section
variable {s t : State} (hs : s.UnitsInv) (haw : s.cfg.aw ≤ 60)
include hs haw

theorem execBrInit_unitsInv {mode : ReaderMode} (h : execBrInit mode s = .next t) : t.UnitsInv := by
  obtain ⟨⟨hbase, hlen, -⟩, -⟩ := s.registersFit_iff.1 hs.registers
  obtain ⟨rfl, -⟩ | ⟨hfit, ⟨-, rfl⟩ | ⟨-, r, rfl, rfl⟩⟩ := execBrInit_next h
  · exact hs.frame
  · exact (hs.withReader (Reader.inv_bind_plain hfit) hbase hlen).frame
  · exact (hs.withReader (Reader.inv_bind_range haw hfit) hbase hlen).frame

theorem execBrRead_unitsInv {n : BitVec 8} (h : execBrRead n s = .next t) : t.UnitsInv := by
  obtain ⟨rfl, -⟩ | ⟨-, rfl⟩ := execBrRead_next h
  · exact hs.frame
  · exact (hs.withMovedReader (Reader.inv_skip _ haw hs.reader) (Reader.sameView_skip _ _ _)).frame

theorem execBrGetbool_unitsInv {prob : BitVec 8} (h : execBrGetbool prob s = .next t) : t.UnitsInv := by
  obtain ⟨-, ⟨hbase, hlen⟩, -⟩ := s.registersFit_iff.1 hs.registers
  obtain ⟨rfl, -⟩ | ⟨⟨hb, hmode⟩, r, hr, rfl⟩ := execBrGetbool_next h
  · exact hs.frame
  · have hinv : r.Inv s.cfg := hr ▸ Reader.inv_getbool s.bitMsb prob haw hs.reader hb hmode
    have hsame := hr ▸ renormalise_eq s.bitMsb s.cfg s.br _ _
    refine (hs.withReader hinv ?_ ?_).frame <;> rw [hsame]
    · exact hbase
    · exact hlen

theorem execHufDecode_unitsInv {slot : BitVec 4} (h : execHufDecode slot s = .next t) : t.UnitsInv := by
  obtain ⟨rfl, -⟩ | ⟨-, d, hd, rfl⟩ := execHufDecode_next h
  · exact hs.frame
  · have hinv : d.reader.Inv s.cfg := hd ▸ hufDecode_keeps (fun _ n => Reader.inv_skip n haw) s.bitLsb _ hs.reader
    exact (hs.withMovedReader hinv (hd ▸ hufDecode_sameView _ _ _ _)).frame

theorem execHufReadlengths_unitsInv (h : execHufReadlengths s = .next t) : t.UnitsInv := by
  obtain ⟨rfl, -⟩ | ⟨-, d, hd, ht⟩ := execHufReadlengths_next h
  · exact hs.frame
  · have hinv : d.reader.Inv s.cfg :=
      hd ▸ readDescription_keeps (fun _ n => Reader.inv_skip n haw) s.bitLsb _ hs.reader
    have hmoved := hs.withMovedReader hinv (hd ▸ (readDescription_spec _ _ _ _).1)
    obtain ⟨-, rfl⟩ | ⟨-, -, rfl⟩ | ⟨-, _, _, -, rfl⟩ := ht <;> exact hmoved.frame

theorem execBwPut_unitsInv {n : BitVec 8} (h : execBwPut n s = .next t) : t.UnitsInv := by
  obtain ⟨-, -, hbase, hcap, hlimit⟩ := s.registersFit_iff.1 hs.registers
  obtain ⟨rfl, -⟩ | ⟨⟨hb, -⟩, ⟨-, rfl⟩ | ⟨-, ⟨-, rfl⟩ | ⟨-, ⟨-, rfl⟩ | ⟨-, -, -, rfl⟩ | ⟨-, hroom, rfl⟩⟩⟩⟩ :=
    execBwPut_next h
  · exact hs.frame
  · exact hs.frame
  · exact hs.frame
  · exact hs.frame
  · exact (hs.withWriter (w := { s.bw with err := true }) hs.writer hbase hcap hlimit).frame
  · obtain ⟨-, hle, -, -⟩ := hs.writer hb
    have hroom : s.bw.needed n.toNat ≤ s.bw.limit.toNat := hroom.elim (le_trans · hle) id
    have hgrown := lt_of_le_of_lt (Writer.grownCap_bounds hle hroom).2 hlimit
    exact (hs.withWriter (Writer.inv_append _ haw hs.writer hroom) hbase hgrown hlimit).frame

omit haw

theorem execBwInit_unitsInv (h : execBwInit s = .next t) : t.UnitsInv := by
  obtain ⟨⟨hbase, hcap, hlimit, -⟩, -⟩ := s.registersFit_iff.1 hs.registers
  obtain ⟨rfl, -⟩ | ⟨⟨hfit, hle⟩, rfl⟩ := execBwInit_next h
  · exact hs.frame
  · exact (hs.withWriter (Writer.inv_bind hfit hle) hbase hcap hlimit).frame

theorem execBwFinalize_unitsInv (h : execBwFinalize s = .next t) : t.UnitsInv := by
  obtain ⟨-, -, hbase, hcap, hlimit⟩ := s.registersFit_iff.1 hs.registers
  obtain ⟨rfl, -⟩ | ⟨-, ⟨-, rfl⟩ | ⟨-, rfl⟩⟩ := execBwFinalize_next h
  · exact hs.frame
  · exact hs.frame
  · exact (hs.withWriter (w := { s.bw with final := true }) hs.writer hbase hcap hlimit).frame

theorem execHufBuild_unitsInv {slot : BitVec 4} (h : execHufBuild slot s = .next t) : t.UnitsInv := by
  obtain ⟨rfl, -⟩ | ⟨⟨-, -, hn, -⟩, ⟨-, rfl⟩ | ⟨es, hes, rfl⟩⟩ := execHufBuild_next h
  · exact hs.frame
  · exact (hs.setSlot fun hv => absurd hv Bool.false_ne_true).frame
  · exact (hs.setSlot fun _ => ⟨_, by simpa [byteNats, State.readBytes] using hn, hes, rfl⟩).frame

theorem execPteSetimg_unitsInv (h : execPteSetimg s = .next t) : t.UnitsInv := by
  obtain rfl | ⟨⟨hw, hw', hh, hh'⟩, rfl⟩ := execPteSetimg_next h
  · exact hs.frame
  · exact ⟨hs.reader, hs.writer, hs.slots, Image.inv_set ⟨hw, hw'⟩ ⟨hh, hh'⟩, hs.registers⟩

end

/-- Every command keeps the invariants of the units: those that touch none of them by their frame. -/
theorem exec_unitsInv {i : Instr} {s t : State} (hs : s.UnitsInv) (haw : s.cfg.aw ≤ 60) (h : exec i s = .next t) :
    t.UnitsInv := by
  have hframe := commandsChangeOnlyTheirUnit i s t h
  cases i with
  | sysReset =>
    obtain rfl := execSysReset_next h
    exact (s.blockReset_unitsInv s.cmd).frame
  | brInit _ => exact execBrInit_unitsInv hs haw h
  | brRead _ => exact execBrRead_unitsInv hs haw h
  | brGetbool _ => exact execBrGetbool_unitsInv hs haw h
  | bwInit => exact execBwInit_unitsInv hs h
  | bwPut _ => exact execBwPut_unitsInv hs haw h
  | bwFinalize => exact execBwFinalize_unitsInv hs h
  | hufBuild _ => exact execHufBuild_unitsInv hs h
  | hufDecode _ => exact execHufDecode_unitsInv hs haw h
  | hufReadlengths => exact execHufReadlengths_unitsInv hs haw h
  | pteSetimg => exact execPteSetimg_unitsInv hs h
  | ptePredFwd _ | ptePredInv _ | pteSubgFwd | pteSubgInv | pteXcolFwd _ | pteXcolInv _ | ptePalFwd | ptePalInv | muxNew
  | muxSet _ | muxGet | muxDelete | muxPush _ | muxAssemble | muxParse _ | muxFetch | muxDestroy | codecDecode
  | codecEncode =>
    rw [hframe]
    exact hs.frame

/-! The host's accesses. -/

/-- Argument registers that hold no more bits than their width (R25). -/
theorem State.UnitsInv.withArgs {s : State} (hs : s.UnitsInv) {a0 a1 a2 a3 : Reg} (h0 : a0.toNat < 2 ^ s.cfg.regWidth)
    (h1 : a1.toNat < 2 ^ s.cfg.regWidth) (h2 : a2.toNat < 2 ^ s.cfg.regWidth) (h3 : a3.toNat < 2 ^ s.cfg.regWidth) :
    State.UnitsInv { s with arg0 := a0, arg1 := a1, arg2 := a2, arg3 := a3 } := by
  obtain ⟨-, hunits⟩ := s.registersFit_iff.1 hs.registers
  exact ⟨hs.reader, hs.writer, hs.slots, hs.image, (State.registersFit_iff _).2 ⟨⟨h0, h1, h2, h3⟩, hunits⟩⟩

theorem commandCycle_unitsInv {s t : State} {cw : Word} (hs : s.UnitsInv) (haw : s.cfg.aw ≤ 60)
    (h : commandCycle s cw = .next t) : t.UnitsInv := by
  obtain ⟨-, rfl⟩ | ⟨i, -, hi⟩ := commandCycle_next h
  · exact hs.frame
  · exact exec_unitsInv (s := { s with cmd := cw }) hs.frame haw hi

theorem regWrite_unitsInv {s t : State} {offset : Word} {v : Reg} (hs : s.UnitsInv) (haw : s.cfg.aw ≤ 60)
    (h : regWrite s offset v = .next t) : t.UnitsInv := by
  obtain ⟨⟨h0, h1, h2, h3⟩, -⟩ := s.registersFit_iff.1 hs.registers
  have hv := regValue_lt s.cfg v
  obtain ⟨-, hc⟩ | ⟨-, rfl⟩ | ⟨-, rfl⟩ | ⟨-, rfl⟩ | ⟨-, rfl⟩ | ⟨-, rfl⟩ := regWrite_next h
  · exact commandCycle_unitsInv hs haw hc
  · exact hs.withArgs hv h1 h2 h3
  · exact hs.withArgs h0 hv h2 h3
  · exact hs.withArgs h0 h1 hv h3
  · exact hs.withArgs h0 h1 h2 hv
  · exact hs

/-- A host write of a byte changes only the reader's record of such writes (R39). -/
theorem State.readerAfterHostWrite_eq (s : State) (a : Nat) :
    s.readerAfterHostWrite a = { s.br with stale := (s.readerAfterHostWrite a).stale } := by
  unfold State.readerAfterHostWrite
  split <;> rfl

theorem hostWriteByte_unitsInv {s t : State} {a : Nat} {v : Byte} (hs : s.UnitsInv) (h : hostWriteByte s a v = .next t) :
    t.UnitsInv := by
  obtain ⟨-, ⟨hbase, hlen⟩, -⟩ := s.registersFit_iff.1 hs.registers
  obtain rfl := hostWriteByte_next h
  rw [State.readerAfterHostWrite_eq]
  exact (hs.withReader (r := { s.br with stale := (s.readerAfterHostWrite a).stale }) hs.reader hbase hlen).frame

/-- A reset during a command differs from one between commands in the memory alone (R371). -/
theorem resetDuring_eq (s : State) (cw : Word) :
    resetDuring s cw = { resetInput s with mem := (resetDuring s cw).mem } := by
  unfold resetDuring
  split
  · rfl
  · split <;> rfl

theorem hostAccess_unitsInv {a : HostAccess} {s t : State} (hs : s.UnitsInv) (haw : s.cfg.aw ≤ 60)
    (h : hostAccess a s = .next t) : t.UnitsInv := by
  cases a with
  | writeReg addr v =>
    obtain ⟨-, hw⟩ := hostAccess_writeReg_next h
    exact regWrite_unitsInv hs haw hw
  | readReg addr =>
    obtain ⟨-, rfl⟩ := hostAccess_readReg_next h
    exact hs.frame
  | writeByte addr v => exact hostWriteByte_unitsInv hs h
  | readByte addr =>
    obtain rfl := hostReadByte_next h
    exact hs.frame
  | resetInput =>
    obtain rfl := Host.Outcome.next.inj h
    exact s.blockReset_unitsInv 0
  | resetDuring cw =>
    obtain rfl := Host.Outcome.next.inj h
    rw [resetDuring_eq]
    exact (s.blockReset_unitsInv 0).frame

/-- Settles O58: a step is one host access, and each access, with the command it may run, keeps the invariants of the units
together. -/
theorem unitInvariantsKept : Obligations.UnitInvariantsKept := by
  intro s t hlegal hbr hbw hht hpte hregs h
  have hs : s.UnitsInv := ⟨hbr, hbw, hht, hpte, hregs⟩
  obtain ⟨-, haw, -⟩ := hlegal
  suffices ht : t.UnitsInv from ⟨ht.reader, ht.writer, ht.slots, ht.image, ht.registers⟩
  rw [step_eq] at h
  split at h
  · obtain rfl := Host.Outcome.next.inj h
    exact hs.frame
  next a rest _ => exact hostAccess_unitsInv (s := s.afterTake rest) hs.frame haw h

end Sys2Proof.Machine
end

section
/-! PROOFS. The register map (spec/10_state.md R25): what a host write of a register keeps and what a read gives, field by
field. -/

namespace Sys2Proof.Machine

/-! The shapes of a register's value. -/

/-- A field of at most 32 bits shows its value (R25). -/
theorem setWidth_eq_fieldWord {w : Nat} (v : BitVec w) (hw : w ≤ 32) : v.setWidth 64 = fieldWord v.toNat 0 := by
  have hv : v.toNat < 2 ^ 32 := lt_of_lt_of_le v.isLt (Nat.pow_le_pow_right (by decide) hw)
  apply BitVec.eq_of_toNat_eq
  simp only [fieldWord, BitVec.toNat_setWidth, BitVec.toNat_ofNat]
  omega

/-- 32 bits from `lo` up of a longer field (R25: the two halves of a position, the heap). -/
theorem setWidth_extract_eq_fieldWord {w : Nat} (v : BitVec w) (lo : Nat) :
    (v.extractLsb' lo 32).setWidth 64 = fieldWord v.toNat lo := by
  rw [setWidth_eq_fieldWord _ le_rfl]
  simp [fieldWord, Nat.shiftRight_eq_div_pow]

/-- A count shows its low 32 bits (R25). -/
theorem setWidth_ofNat_eq_fieldWord (n : Nat) : (BitVec.ofNat 32 n).setWidth 64 = fieldWord n 0 := by
  rw [setWidth_eq_fieldWord _ le_rfl]
  simp [fieldWord]

theorem flagWord_eq_fieldWord (b : Bool) : flagWord b = fieldWord b.toNat 0 := by cases b <;> rfl

/-- `BR_STAT` (R25). -/
theorem Reader.stat_eq_fieldWord (r : Reader) :
    r.stat = fieldWord (r.bound.toNat + 2 * (if r.mode = .range then 1 else 0) + 4 * r.eos.toNat) 0 := by
  unfold Reader.stat
  cases r.bound <;> cases r.mode <;> cases r.eos <;> rfl

/-- `BW_STAT` (R25). -/
theorem Writer.stat_eq_fieldWord (w : Writer) :
    w.stat = fieldWord (w.bound.toNat + 2 * w.final.toNat + 4 * w.err.toNat) 0 := by
  unfold Writer.stat
  cases w.bound <;> cases w.final <;> cases w.err <;> rfl

/-- `PTE_DIM` (R25): the three fields share no bit, so that their union is their sum. -/
theorem Image.dimWord_eq_fieldWord (p : Image) :
    p.dimWord = fieldWord (p.w.toNat + 2 ^ 16 * p.h.toNat + 2 ^ 31 * p.valid.toNat) 0 := by
  have hw := p.w.isLt
  have hh := p.h.isLt
  have hv := p.valid.toNat_lt
  have hvalid : (flagWord p.valid <<< 31).toNat = 2 ^ 31 * p.valid.toNat := by cases p.valid <;> rfl
  have hheight : (p.h.setWidth 64 <<< 16).toNat = 2 ^ 16 * p.h.toNat := by
    rw [BitVec.toNat_shiftLeft, BitVec.toNat_setWidth, Nat.shiftLeft_eq]
    omega
  have hwidth : (p.w.setWidth 64).toNat = p.w.toNat := by
    rw [BitVec.toNat_setWidth, Nat.mod_eq_of_lt (by omega)]
  apply BitVec.eq_of_toNat_eq
  calc p.dimWord.toNat = (2 ^ 31 * p.valid.toNat ||| 2 ^ 16 * p.h.toNat) ||| p.w.toNat := by
        rw [Image.dimWord, BitVec.toNat_or, BitVec.toNat_or, hvalid, hheight, hwidth]
    _ = 2 ^ 31 * p.valid.toNat + (2 ^ 16 * p.h.toNat + p.w.toNat) := by
        rw [Nat.two_pow_add_eq_or_of_lt (i := 31) (by omega), Nat.two_pow_add_eq_or_of_lt (i := 16) (by omega),
          Nat.lor_assoc]
    _ = (fieldWord (p.w.toNat + 2 ^ 16 * p.h.toNat + 2 ^ 31 * p.valid.toNat) 0).toNat := by
        rw [fieldWord, BitVec.toNat_ofNat]
        omega

/-- Bit t of `HUF_VALID` is the valid flag of slot t (R25). -/
theorem hufValid_getLsbD (s : State) (t : Nat) :
    ((hufValid s.ht).setWidth 64).getLsbD t = (decide (t < 32) && (s.slot t).valid) := by
  have hslot : (s.ht.map fun x => x.valid).getD t false = (s.slot t).valid := by
    rw [State.slot, List.getD_eq_getElem?_getD, List.getD_eq_getElem?_getD, List.getElem?_map]
    cases s.ht[t]? <;> rfl
  rw [BitVec.getLsbD_setWidth, hufValid, BitVec.getLsbD_ofNat, testBit_natOfBits, hslot]
  by_cases h : t < 32
  · simp [h, Nat.lt_trans h]
  · simp [h]

/-! Reading and writing. -/

/-- An offset from its number, to be put in its place where a match has found the number. -/
theorem word_eq_of_toNat {off : Word} {k : Nat} (h : off.toNat = k) : off = BitVec.ofNat 32 k := by
  rw [← h, BitVec.ofNat_toNat, BitVec.setWidth_eq]

/-- The registers R25 lists, but HUF_VALID, with the values the model gives them. -/
def State.registers (s : State) : List (Word × Reg) :=
  [(0x00, s.cmd.setWidth 64), (0x04, s.arg0), (0x08, s.arg1), (0x0C, s.arg2), (0x10, s.arg3),
    (0x14, s.status.code), (0x18, s.res0), (0x1C, s.res1), (0x20, s.cfg.abiVersion.setWidth 64), (0x24, s.br.stat),
    (0x28, s.br.base), (0x2C, s.br.len), (0x30, (s.br.pos.extractLsb' 0 32).setWidth 64),
    (0x34, (s.br.pos.extractLsb' 32 32).setWidth 64), (0x38, s.br.range.setWidth 64), (0x3C, s.br.value.setWidth 64),
    (0x40, s.bw.stat), (0x44, s.bw.base), (0x48, s.bw.cap), (0x4C, s.bw.limit),
    (0x50, (s.bw.pos.extractLsb' 0 32).setWidth 64), (0x54, (s.bw.pos.extractLsb' 32 32).setWidth 64),
    (0x5C, s.pte.dimWord), (0x60, flagWord s.mux.valid), (0x64, (BitVec.ofNat 32 s.mux.presentCount).setWidth 64),
    (0x68, (BitVec.ofNat 32 s.mux.frames.length).setWidth 64), (0x6C, (s.mux.heapUsed.extractLsb' 0 32).setWidth 64)]

/-- A read gives the listed register at its offset, and 0 at an offset R25 does not list. -/
theorem State.regRead_eq_lookup (s : State) {off : Word} (h : off ≠ 0x58) :
    s.regRead off = (s.registers.lookup off).getD 0 := by
  unfold State.regRead
  split
  case h_23 hoff => exact absurd (word_eq_of_toNat hoff) h
  case h_29 =>
    have hnone : s.registers.lookup off = none := by
      rw [List.lookup_eq_none_iff]
      simp_all [State.registers, BitVec.toNat_eq]
    rw [hnone]
    rfl
  all_goals
    obtain rfl := word_eq_of_toNat ‹off.toNat = _›
    rfl

/-- A write of an offset other than CMD's writes the ARG it names, and is ignored elsewhere (R25). -/
theorem regWrite_eq_ite (s : State) {off : Word} (v : Reg) (h : off ≠ 0) :
    regWrite s off v = .next (
      if off = 0x04 then { s with arg0 := regValue s.cfg v } else if off = 0x08 then { s with arg1 := regValue s.cfg v }
      else if off = 0x0C then { s with arg2 := regValue s.cfg v }
      else if off = 0x10 then { s with arg3 := regValue s.cfg v } else s) := by
  unfold regWrite
  split
  case h_1 hoff => exact absurd (word_eq_of_toNat hoff) h
  case h_6 => simp_all [BitVec.toNat_eq]
  all_goals
    obtain rfl := word_eq_of_toNat ‹off.toNat = _›
    rfl

/-- Settles O6: the offset decides which register an access reaches; each field's place is one of the shapes above. -/
theorem registerMap : Obligations.RegisterMap := by
  intro s rest off v halign u kept status
  have hoff : (s.afterTake rest).offsetOf (s.cfg.csrBase + off) = off := by simp [State.offsetOf]
  have hstatus : s.status.code = status := rfl
  refine ⟨fun hhost hne => ?_, fun hhost => ⟨s.regRead off, ?_, fun h58 _ => ?_, ?_⟩⟩
  · rw [step_eq, hhost]
    dsimp only
    rw [hostAccess, hoff, if_neg (not_not.2 halign)]
    exact regWrite_eq_ite (s.afterTake rest) v hne
  · rw [step_eq, hhost]
    dsimp only
    rw [hostAccess, hoff, if_neg (not_not.2 halign)]
    rfl
  · rw [State.regRead_eq_lookup s h58]
    simp only [State.registers, setWidth_eq_fieldWord s.cmd le_rfl, setWidth_eq_fieldWord s.cfg.abiVersion le_rfl,
      setWidth_eq_fieldWord s.br.range (by decide), setWidth_eq_fieldWord s.br.value (by decide),
      setWidth_extract_eq_fieldWord, setWidth_ofNat_eq_fieldWord,
      Reader.stat_eq_fieldWord, Writer.stat_eq_fieldWord, Image.dimWord_eq_fieldWord, flagWord_eq_fieldWord, hstatus,
      Store.presentCount, List.countP_eq_length_filter]
  · rintro rfl t
    exact hufValid_getLsbD s t

end Sys2Proof.Machine
end

section
/-! PROOFS. What each command does to the memory (spec/20_memory.md R62, R80), said once: nothing, the writer's region given up,
or one store of as many bytes as its destination has. -/

namespace Sys2Proof.Machine

/-! How many bytes the commands store. -/

theorem pixelBytes_length (ps : List Word) : (pixelBytes ps).length = 4 * ps.length := by
  simp [pixelBytes, List.length_flatMap, Nat.mul_comm]

theorem raster_length {α : Type} (w h : Nat) (f : Nat → Nat → α) : (raster w h f).length = w * h := by simp [raster]

theorem predRebuild_length (w tb : Nat) (modes : List Nat) (res : List Word) (n : Nat) :
    (predRebuild w tb modes res n).length = n := by
  induction n with
  | zero => rfl
  | succ n ih => rw [predRebuild, List.length_append, ih, List.length_singleton]

theorem State.srcImage_length (s : State) : s.srcImage.length = s.imgW * s.imgH := by
  simp [State.srcImage, State.readPixels]

/-- An image of one pixel for each of the descriptor's fills its span (R62). -/
theorem State.pixelBytes_length_eq_span (s : State) (a : Reg) {ps : List Word} (h : ps.length = s.imgW * s.imgH) :
    (pixelBytes ps).length = (s.imageSpan a).2 := by
  rw [pixelBytes_length, h, State.imageSpan, Nat.mul_assoc]

theorem bytesOfNat_length (n v : Nat) : (bytesOfNat n v).length = n := by
  induction n generalizing v with
  | zero => rfl
  | succ n ih => rw [bytesOfNat, List.length_cons, ih]

/-- The payload of a present record has the length the record gives (R34, R35). -/
theorem State.payload_length {s : State} {r : ChunkRec} (hfit : s.mux.PayloadsFit s.cfg) (hr : r ∈ s.mux.recs)
    (hp : r.present = true) : (s.payload r).length = r.len.toNat := by
  unfold State.payload
  split
  · exact (hfit r hr hp).1 ‹_›
  · simp [State.readBytes]

/-- A record inside the arena is one of the arena's. -/
theorem Store.record_mem {m : Store} {i : Nat} (h : i < m.recs.length) : m.record i ∈ m.recs := by
  rw [Store.record, List.getD_eq_getElem _ _ h]
  exact List.getElem_mem h

/-- A chunk takes its header, its payload and the pad byte of an odd length (R105, R297). -/
theorem State.chunkBytes_length {s : State} {r : ChunkRec} (h : (s.payload r).length = r.len.toNat) :
    (s.chunkBytes r).length = 8 + paddedLen r.len.toNat := by
  simp only [State.chunkBytes, List.length_append, bytesOfNat_length, List.length_replicate, h, paddedLen]
  omega

/-- The walk meets the indices of the present records, each once (R36, R296). -/
theorem Store.walk_perm {m : Store} (h : m.Linked) :
    m.walk.Perm ((List.range m.recs.length).filter fun i => (m.record i).present) := by
  obtain ⟨hnodup, hpresent, hwalked⟩ := h
  refine (List.perm_ext_iff_of_nodup hnodup (List.nodup_range.filter _)).2 fun i => ?_
  rw [List.mem_filter, List.mem_range]
  exact ⟨hpresent i, fun hi => hwalked i hi.1 hi.2⟩

/-- The records at the indices of the arena are the arena. -/
theorem Store.map_record_range (m : Store) : (List.range m.recs.length).map m.record = m.recs := by
  apply List.ext_getElem
  · simp
  · intro i hi _
    simp [Store.record, List.getD_eq_getElem?_getD, List.getElem?_eq_getElem (by simpa using hi : i < m.recs.length)]

/-- The records the walk meets are the present ones, in some order. -/
theorem Store.map_record_walk_perm {m : Store} (h : m.Linked) :
    (m.walk.map m.record).Perm (m.recs.filter fun r => r.present) := by
  have hperm := (Store.walk_perm h).map m.record
  have harena := congrArg (List.filter fun r : ChunkRec => r.present) m.map_record_range
  rw [List.filter_map] at harena
  exact hperm.trans (.of_eq harena)

/-- Under the store's invariant the serialised stream has the serialised size (R294, R297). -/
theorem State.serialised_length {s : State} (hlinked : s.mux.Linked) (hfit : s.mux.PayloadsFit s.cfg) :
    s.serialised.length = s.mux.serialSize := by
  have hchunk : ∀ i ∈ s.mux.walk,
      (s.chunkBytes (s.mux.record i)).length = 8 + paddedLen (s.mux.record i).len.toNat := by
    intro i hi
    obtain ⟨hlt, hp⟩ := hlinked.2.1 i hi
    exact State.chunkBytes_length (State.payload_length hfit (Store.record_mem hlt) hp)
  calc s.serialised.length
      = (s.mux.walk.map fun i => (s.chunkBytes (s.mux.record i)).length).sum := List.length_flatMap
    _ = ((s.mux.walk.map s.mux.record).map fun r => 8 + paddedLen r.len.toNat).sum := by
        rw [List.map_congr_left hchunk, List.map_map]
        rfl
    _ = s.mux.serialSize := ((Store.map_record_walk_perm hlinked).map _).sum_eq

/-! The effect of a command. -/

/-- What a command that goes from `s` to `t` did to the memory: it kept it, it gave the writer's region up (R80), or it ended
with OK and stored bytes from the start of its destination on (R62, R348), as many as the destination has; how many those are
for the two commands that write payloads out the store's invariant says (R294). -/
inductive MemoryEffect (i : Instr) (s t : State) : Prop where
  | kept (hmem : t.mem = s.mem)
  | released (hmem : t.mem = s.releasedMem)
  | stored (bs : List Byte) (hok : t.status = .ok) (hmem : t.mem = (s.storeBytes (destination i s).1 bs).mem)
      (hlen : (i = .muxAssemble ∨ i = .muxFetch → s.mux.Inv s.cfg) → bs.length = (destination i s).2)

/-- A transform that fails writes nothing, and one that ends with OK writes its whole destination (R223). -/
theorem State.transform_memoryEffect {i : Instr} {s t : State} {reads : List (Nat × Nat)} {dst : Nat × Nat} {ok : Bool}
    {out : List Byte} {r0 r1 : Reg} (hdst : destination i s = dst) (hlen : out.length = dst.2)
    (h : s.transform reads dst ok out r0 r1 = .next t) : MemoryEffect i s t := by
  obtain rfl | ⟨-, -, -, rfl⟩ := State.transform_next h
  · exact .kept rfl
  · exact .stored out rfl (by rw [hdst]; rfl) fun _ => hdst ▸ hlen

/-- What each of the thirty commands does to the memory. -/
theorem exec_memoryEffect {i : Instr} {s t : State} (h : exec i s = .next t) : MemoryEffect i s t := by
  have hframe := commandsChangeOnlyTheirUnit i s t h
  cases i with
  | sysReset =>
    obtain rfl := execSysReset_next h
    exact .released rfl
  | bwInit =>
    obtain ⟨rfl, -⟩ | ⟨-, rfl⟩ := execBwInit_next h
    · exact .kept rfl
    · exact .released rfl
  | bwFinalize =>
    obtain ⟨rfl, -⟩ | ⟨-, ⟨-, rfl⟩ | ⟨-, rfl⟩⟩ := execBwFinalize_next h
    · exact .kept rfl
    · exact .kept rfl
    · exact .stored _ rfl rfl fun _ => Writer.image_length _
  | hufReadlengths =>
    obtain ⟨rfl, -⟩ | ⟨-, d, hd, ⟨-, rfl⟩ | ⟨-, -, rfl⟩ | ⟨-, out, tokens, hout, rfl⟩⟩ := execHufReadlengths_next h
    · exact .kept rfl
    · exact .kept rfl
    · exact .kept rfl
    · refine .stored _ rfl rfl fun _ => ?_
      rw [List.length_map]
      exact (readDescription_spec _ _ _ _).2 out tokens (hd ▸ hout)
  | ptePredFwd _ =>
    exact State.transform_memoryEffect rfl (s.pixelBytes_length_eq_span _ (raster_length _ _ _)) h
  | ptePredInv _ =>
    exact State.transform_memoryEffect rfl (s.pixelBytes_length_eq_span _ (predRebuild_length _ _ _ _ _)) h
  | pteSubgFwd | pteSubgInv =>
    exact State.transform_memoryEffect rfl
      (s.pixelBytes_length_eq_span _ ((List.length_map _).trans s.srcImage_length)) h
  | pteXcolFwd _ | pteXcolInv _ =>
    exact State.transform_memoryEffect rfl (s.pixelBytes_length_eq_span _ (raster_length _ _ _)) h
  | ptePalFwd =>
    obtain rfl | ⟨-, -, -, rfl⟩ := execPtePalFwd_next h
    · exact .kept rfl
    · exact .stored _ rfl rfl fun _ => raster_length _ _ _
  | ptePalInv =>
    obtain rfl | ⟨-, -, rfl⟩ := execPtePalInv_next h
    · exact .kept rfl
    · exact .stored _ rfl rfl fun _ => s.pixelBytes_length_eq_span s.arg1 (raster_length _ _ _)
  | muxAssemble =>
    obtain ⟨rfl, -⟩ | ⟨-, ⟨-, rfl⟩ | ⟨-, ⟨-, rfl⟩ | ⟨-, rfl⟩⟩⟩ := execMuxAssemble_next h
    · exact .kept rfl
    · exact .kept rfl
    · exact .kept rfl
    · refine .stored _ rfl rfl fun hinv => ?_
      obtain ⟨-, -, -, -, hlinked, -, hfit⟩ := hinv (.inl rfl)
      exact State.serialised_length hlinked hfit
  | muxFetch =>
    obtain ⟨rfl, -⟩ | ⟨⟨-, hi⟩, ⟨-, rfl⟩ | ⟨hp, -, rfl⟩⟩ := execMuxFetch_next h
    · exact .kept rfl
    · exact .kept rfl
    · refine .stored _ rfl rfl fun hinv => ?_
      obtain ⟨hrecs, -, -, -, -, -, hfit⟩ := hinv (.inr rfl)
      exact State.payload_length hfit (Store.record_mem (hrecs ▸ hi)) hp
  | hufBuild _ => exact .kept (by rw [hframe.1])
  | brInit _ | brRead _ | brGetbool _ | bwPut _ | hufDecode _ | pteSetimg | muxNew | muxSet _ | muxGet | muxDelete
  | muxPush _ | muxParse _ | muxDestroy | codecDecode | codecEncode => exact .kept (by rw [hframe])

end Sys2Proof.Machine
end

section
/-! PROOFS. Every step keeps the memory's canonical form (spec/20_memory.md R60): the rule of each update of the memory stands
among the laws of the memory, and a step is one such update. -/

namespace Sys2Proof.Machine

/-- The memory is in canonical form and lists no address that does not exist (R60). -/
structure State.MemoryForm (s : State) : Prop where
  wf : s.mem.wf
  within : s.mem.within (2 ^ s.cfg.aw)

/-- The form speaks of the memory and the parameters alone. -/
theorem State.MemoryForm.of_eq {s t : State} (hs : s.MemoryForm) (hmem : t.mem = s.mem) (hcfg : t.cfg = s.cfg) :
    t.MemoryForm := ⟨hmem ▸ hs.wf, hcfg ▸ hmem ▸ hs.within⟩

theorem State.MemoryForm.storeBytes {s : State} (hs : s.MemoryForm) (a : Nat) (bs : List Byte) :
    (s.storeBytes a bs).MemoryForm := ⟨State.wf_storeBytes a bs hs.wf, State.within_storeBytes a bs hs.within⟩

/-- A reset gives the writer's region up, and changes no other byte (R80, R330, R370). -/
theorem State.MemoryForm.blockReset {s : State} (hs : s.MemoryForm) (cmd : Word) : (s.blockReset cmd).MemoryForm :=
  ⟨State.wf_releasedMem hs.wf, State.within_releasedMem hs.within⟩

theorem exec_memoryForm {i : Instr} {s t : State} (hs : s.MemoryForm) (h : exec i s = .next t) : t.MemoryForm := by
  cases exec_memoryEffect h with
  | kept hmem => exact hs.of_eq hmem (exec_cfg h)
  | released hmem => exact (hs.blockReset s.cmd).of_eq hmem (exec_cfg (s := s) h)
  | stored bs _ hmem _ => exact (hs.storeBytes _ bs).of_eq hmem (exec_cfg (s := s) h)

theorem commandCycle_memoryForm {s t : State} {cw : Word} (hs : s.MemoryForm) (h : commandCycle s cw = .next t) :
    t.MemoryForm := by
  obtain ⟨-, rfl⟩ | ⟨i, -, hi⟩ := commandCycle_next h
  · exact hs.of_eq rfl rfl
  · exact exec_memoryForm (s := { s with cmd := cw }) (hs.of_eq rfl rfl) hi

theorem regWrite_memoryForm {s t : State} {offset : Word} {v : Reg} (hs : s.MemoryForm)
    (h : regWrite s offset v = .next t) : t.MemoryForm := by
  obtain ⟨-, hc⟩ | ⟨-, rfl⟩ | ⟨-, rfl⟩ | ⟨-, rfl⟩ | ⟨-, rfl⟩ | ⟨-, rfl⟩ := regWrite_next h
  · exact commandCycle_memoryForm hs hc
  all_goals exact hs.of_eq rfl rfl

/-- A reset during a command leaves at most the command's destination at any value besides (R371). -/
theorem resetDuring_memoryForm {s : State} (hs : s.MemoryForm) (cw : Word) : (resetDuring s cw).MemoryForm := by
  have hreset : (resetInput s).MemoryForm := hs.blockReset 0
  unfold resetDuring
  split
  · exact hreset
  · split
    · exact hreset
    · exact ⟨State.wf_leaving _ _ hreset.wf, State.within_leaving _ _ hreset.within⟩

theorem hostAccess_memoryForm {a : HostAccess} {s t : State} (hs : s.MemoryForm) (h : hostAccess a s = .next t) :
    t.MemoryForm := by
  cases a with
  | writeReg addr v =>
    obtain ⟨-, hw⟩ := hostAccess_writeReg_next h
    exact regWrite_memoryForm hs hw
  | readReg addr =>
    obtain ⟨-, rfl⟩ := hostAccess_readReg_next h
    exact hs.of_eq rfl rfl
  | writeByte addr v =>
    obtain rfl := hostWriteByte_next h
    exact (hs.storeBytes addr.toNat [v]).of_eq rfl rfl
  | readByte addr =>
    obtain rfl := hostReadByte_next h
    exact hs.of_eq rfl rfl
  | resetInput =>
    obtain rfl := Host.Outcome.next.inj h
    exact hs.blockReset 0
  | resetDuring cw =>
    obtain rfl := Host.Outcome.next.inj h
    exact resetDuring_memoryForm hs cw

/-- Settles O57: a step is one host access, and each access, with the command it may run, keeps, stores into, releases or
leaves memory. -/
theorem memoryFormKept : Obligations.MemoryFormKept := by
  intro s t hwf hwithin h
  have hs : s.MemoryForm := ⟨hwf, hwithin⟩
  suffices ht : t.MemoryForm from ⟨ht.wf, ht.within⟩
  rw [step_eq] at h
  split at h
  · obtain rfl := Host.Outcome.next.inj h
    exact hs.of_eq rfl rfl
  next a rest _ => exact hostAccess_memoryForm (s := s.afterTake rest) (hs.of_eq rfl rfl) h

end Sys2Proof.Machine
end

section
/-! PROOFS. The memory frame of every command (spec/20_memory.md R62, spec/60_exceptions.md R348): what is read outside the
writer's region, and which bytes that region still holds at any value after a command. -/

namespace Sys2Proof.Machine

/-- Outside the writer's region a read finds the memory's byte (R30, R60). -/
theorem State.readByte_of_not_held {s : State} {a : Nat} (h : s.bw.holds a = false) : s.readByte a = s.mem.read a := by
  rw [State.readByte, h, if_neg Bool.false_ne_true]

/-- Giving the region up changes no byte that it did not hold at any value (R80, R163). -/
theorem State.read_releasedMem_of_not_held {s : State} {a : Nat} (h : s.bw.holds a = false) :
    s.releasedMem.read a = s.mem.read a := by
  unfold State.releasedMem
  split_ifs with hb
  · apply State.read_leaving_outside
    simpa [Writer.holds, hb] using h
  · rfl

/-- While the stream is not finalised, appending to it leaves the whole region at any value (R30, R165). -/
theorem Writer.holds_append {w : Writer} (n : Nat) (v : Reg) (a : Nat) (hf : w.final = false) :
    (w.append n v).holds a = w.holds a := by
  simp [Writer.holds, Writer.definedBytes, hf]

/-- Finalising defines the stream's bytes, and leaves no byte outside the region at any value (R170). -/
theorem Writer.not_held_of_finalised {w : Writer} {a : Nat} (hf : w.final = false) (h : w.holds a = false) :
    ({ w with final := true } : Writer).holds a = false := by
  simp only [Writer.holds, Writer.definedBytes, hf, Bool.and_eq_false_iff, decide_eq_false_iff_not] at h ⊢
  refine h.imp_right fun h hin => h ?_
  simp at hin ⊢
  omega

/-- Only BW.INIT brings a byte under the writer's region that was not under it before (R30, R80). -/
theorem exec_not_held {i : Instr} {s t : State} {a : Nat} (h : exec i s = .next t) (ha : s.bw.holds a = false)
    (hinit : i = .bwInit → t.bw.holds a = false) : t.bw.holds a = false := by
  have hframe := commandsChangeOnlyTheirUnit i s t h
  cases i with
  | bwInit => exact hinit rfl
  | sysReset =>
    obtain rfl := execSysReset_next h
    rfl
  | bwPut n =>
    obtain ⟨rfl, -⟩ | ⟨⟨-, hf⟩, ⟨-, rfl⟩ | ⟨-, ⟨-, rfl⟩ | ⟨-, ⟨-, rfl⟩ | ⟨-, -, -, rfl⟩ | ⟨-, -, rfl⟩⟩⟩⟩ :=
      execBwPut_next h
    · exact ha
    · exact ha
    · exact ha
    · exact ha
    · exact ha
    · exact (Writer.holds_append _ _ _ hf).trans ha
  | bwFinalize =>
    obtain ⟨rfl, -⟩ | ⟨⟨-, hf⟩, ⟨-, rfl⟩ | ⟨-, rfl⟩⟩ := execBwFinalize_next h
    · exact ha
    · exact ha
    · exact Writer.not_held_of_finalised hf ha
  | hufBuild _ =>
    rw [hframe.1]
    exact ha
  | brInit _ | brRead _ | brGetbool _ | hufDecode _ | hufReadlengths | pteSetimg | ptePredFwd _ | ptePredInv _
  | pteSubgFwd | pteSubgInv | pteXcolFwd _ | pteXcolInv _ | ptePalFwd | ptePalInv | muxNew | muxSet _ | muxGet
  | muxDelete | muxPush _ | muxAssemble | muxParse _ | muxFetch | muxDestroy | codecDecode | codecEncode =>
    rw [hframe]
    exact ha

/-- Settles O15: of the three effects a command can have on the memory, only a store changes a byte outside the writer's
region; it comes with OK and stays in the destination. -/
theorem commandsKeepMemoryOutsideDestination : Obligations.CommandsKeepMemoryOutsideDestination := by
  intro i s t h hinv a hout ha hinit
  rw [State.readByte_of_not_held (exec_not_held h ha hinit), State.readByte_of_not_held ha]
  cases exec_memoryEffect h with
  | kept hmem => rw [hmem]
  | released hmem => rw [hmem, State.read_releasedMem_of_not_held ha]
  | stored bs hok hmem hlen =>
    have hout : ¬InSpan (destination i s) a := hout.resolve_right (not_not.2 hok)
    rw [hmem]
    exact State.read_storeBytes_outside (hlen hinv ▸ hout)

end Sys2Proof.Machine
end

section
/-! PROOFS. The host's byte accesses (spec/20_memory.md R70 to R75): what a store of one byte reads back as, and how an access of
a byte that is no plain storage stops. -/

namespace Sys2Proof.Machine

/-- After a store of one byte below 2^AW a read outside the writer's region finds that byte at its address, and elsewhere what
the memory held before (R30, R60). -/
theorem State.readByte_storeByte {s : State} {a x : Nat} (v : Byte) (hlt : a < 2 ^ s.cfg.aw) (hx : s.bw.holds x = false) :
    (s.storeBytes a [v]).readByte x = if x = a then v else s.mem.read x := by
  rw [State.readByte_of_not_held (s := s.storeBytes a [v]) hx, State.storeBytes_mem, if_pos (by simpa [fits] using hlt)]
  exact Memory.read_write s.mem a v x

/-- A byte of an address that does not exist stops the access (R71). -/
theorem State.touching_past_end {s : State} {a : Nat} (k : Out) (h : 2 ^ s.cfg.aw ≤ a) :
    s.touching [(a, 1)] k = .fault .outsideAddressSpace := by
  have hbarred : s.barred (a, 1) = some (.fault .outsideAddressSpace) := by
    rw [State.barred, if_neg Nat.one_ne_zero, if_pos]
    simp [fits]
    omega
  simp [State.touching, hbarred]

/-- A byte below 2^AW that the platform does not back stops the access, under the name of what stands there (R70, R73). -/
theorem State.touching_not_backed {s : State} {a : Nat} (k : Out) (hlt : a < 2 ^ s.cfg.aw) (h : ¬s.Backed a) :
    s.touching [(a, 1)] k = .fault .unbackedAddress ∨ s.touching [(a, 1)] k = .refused .deviceAddress := by
  have hspecial : ∃ r ∈ s.cfg.special, r.lo ≤ a ∧ a < r.hi := by simpa [hlt] using h
  obtain ⟨r, hfind⟩ : ∃ r, s.cfg.special.find? (fun r => r.lo < r.hi ∧ a < r.hi ∧ r.lo < a + 1) = some r := by
    rw [← Option.isSome_iff_exists, List.find?_isSome]
    obtain ⟨r, hr, hlo, hhi⟩ := hspecial
    exact ⟨r, hr, decide_eq_true (by omega)⟩
  have hbarred : s.barred (a, 1) = some (match r.kind with
      | .hole => .fault .unbackedAddress
      | .device => .refused .deviceAddress) := by
    rw [State.barred, if_neg Nat.one_ne_zero, if_neg (by simp [fits]; omega)]
    simp only [hfind]
    cases r.kind <;> rfl
  cases hk : r.kind with
  | hole => exact .inl (by simp [State.touching, hbarred, hk])
  | device => exact .inr (by simp [State.touching, hbarred, hk])

/-- A byte of the bound view puts its old value on the reader's record of host writes, and nothing else of the reader changes
(R39, log 6). -/
theorem State.readerAfterHostWrite_eq_ite (s : State) (a : Nat) :
    s.readerAfterHostWrite a =
      { s.br with stale := if s.br.views a then (a, s.readByte a) :: s.br.stale else s.br.stale } := by
  unfold State.readerAfterHostWrite
  split_ifs <;> rfl

/-- Settles O7: the step is the access in front of the queue, whose span is the one byte of its address. -/
theorem hostMemoryAccess : Obligations.HostMemoryAccess := by
  intro s rest a v u
  have hwrite (hhost : s.host = .writeByte a v :: rest) : step s =
      u.touching [(a.toNat, 1)] (.next { u.storeBytes a.toNat [v] with br := u.readerAfterHostWrite a.toNat }) := by
    rw [step_eq, hhost]
    rfl
  have hread (hhost : s.host = .readByte a :: rest) : step s =
      u.touching [(a.toNat, 1)] (.next { u with hostData := (u.readByte a.toNat).setWidth 64 }) := by
    rw [step_eq, hhost]
    rfl
  have hbacked (h : s.Backed a.toNat) : u.Accessible [(a.toNat, 1)] := by
    simpa [State.Accessible] using h
  refine ⟨fun hhost hb => ⟨(u.storeBytes a.toNat [v]).mem, _, rfl, ?_, fun ha => ?_, fun x hx hxh => ?_⟩,
    fun hhost hb => ?_, fun hhost => ?_⟩
  · rw [hwrite hhost, State.touching_of_accessible (hbacked hb), State.readerAfterHostWrite_eq_ite]
    rfl
  · exact (State.readByte_storeByte (s := u) v hb.1 ha).trans (if_pos rfl)
  · rw [State.readByte_of_not_held hxh]
    exact (State.readByte_storeByte (s := u) v hb.1 hxh).trans (if_neg hx)
  · rw [hread hhost, State.touching_of_accessible (hbacked hb)]
  · have hstep : ∃ k, step s = u.touching [(a.toNat, 1)] k :=
      hhost.elim (fun hhost => ⟨_, hwrite hhost⟩) (fun hhost => ⟨_, hread hhost⟩)
    obtain ⟨k, hk⟩ := hstep
    rw [hk]
    exact ⟨State.touching_past_end k, State.touching_not_backed k⟩

end Sys2Proof.Machine
end

section
/-! PROOFS. An operand region that passes 2^AW (spec/20_memory.md R71, spec/60_exceptions.md R341): each command checks the
regions its operands name before it touches any of them, and the checks before that one raise InvalidArgument too. -/

namespace Sys2Proof.Machine

/-- A transform whose source, parameters or destination pass the end raises InvalidArgument (R71, R223). -/
theorem State.transform_past_end {s : State} {reads : List (Nat × Nat)} {dst p : Nat × Nat} {ok : Bool} {out : List Byte}
    {r0 r1 : Reg} (hp : p ∈ reads ++ [dst]) (hpast : ¬fits s.cfg p.1 p.2) :
    s.transform reads dst ok out r0 r1 = raise s .invalidArgument := by
  have hany : (reads ++ [dst]).any (fun p => !fits s.cfg p.1 p.2) = true :=
    List.any_eq_true.2 ⟨p, hp, by simpa using hpast⟩
  exact ite_eq_left_iff.2 fun _ => if_pos hany

/-- Settles O13: for each command the check of the region raises InvalidArgument, unless one before it already has. -/
theorem regionPastEndIsInvalidArgument : Obligations.RegionPastEndIsInvalidArgument := by
  intro i s p hp hpast hfetch
  show exec i s = raise s .invalidArgument
  have hpast : ¬fits s.cfg p.1 p.2 := by simpa [fits] using hpast
  cases i with
  | brInit _ | bwInit | muxParse _ =>
    obtain rfl := List.mem_singleton.1 hp
    exact if_pos hpast
  | hufBuild _ | hufReadlengths =>
    obtain rfl := List.mem_singleton.1 hp
    exact ite_eq_left_iff.2 fun _ => ite_eq_left_iff.2 fun _ => if_pos hpast
  | muxSet _ | muxPush _ | muxAssemble =>
    obtain rfl := List.mem_singleton.1 hp
    exact ite_eq_left_iff.2 fun _ => if_pos hpast
  | muxFetch =>
    obtain rfl := List.mem_singleton.1 hp
    have hpresent : ¬(s.mux.record s.arg0.toNat).present = false := by simpa using hfetch rfl
    refine ite_eq_left_iff.2 fun _ => ite_eq_left_iff.2 fun _ => ?_
    exact (if_neg hpresent).trans (if_pos hpast)
  | ptePredFwd _ | ptePredInv _ | pteSubgFwd | pteSubgInv | pteXcolFwd _ | pteXcolInv _ =>
    exact State.transform_past_end (by simpa [operandSpans, or_comm, or_left_comm] using hp) hpast
  | ptePalFwd | ptePalInv =>
    exact ite_eq_left_iff.2 fun _ =>
      State.transform_past_end (by simpa [operandSpans, or_comm, or_left_comm] using hp) hpast
  | codecDecode =>
    obtain rfl | rfl : p = (s.arg0.toNat, s.arg1.toNat) ∨ p = (s.arg2.toNat, s.arg3.toNat) := by
      simpa [operandSpans] using hp
    · exact if_pos (.inl hpast)
    · exact if_pos (.inr hpast)
  | codecEncode =>
    obtain rfl | rfl : p = s.imageSpan s.arg0 ∨ p = (s.arg1.toNat, s.arg2.toNat) := by simpa [operandSpans] using hp
    · exact ite_eq_left_iff.2 fun _ => if_pos (.inl hpast)
    · exact ite_eq_left_iff.2 fun _ => if_pos (.inr hpast)
  | sysReset | brRead _ | brGetbool _ | bwPut _ | bwFinalize | hufDecode _ | pteSetimg | muxNew | muxGet | muxDelete
  | muxDestroy => exact absurd hp List.not_mem_nil

end Sys2Proof.Machine
end

section
/-! PROOFS. The command word (spec/30_encoding.md R91, R93 to R95): the decoder refuses the words that are not well-formed
(R95) and nothing else, the OP and the IMM of a word are those of the command it decodes to, and so decoder and encoder undo
each other. -/

namespace Sys2Proof

/-! A word and its fields (R91). -/

/-- The word of a command is well-formed and carries its OP and IMM: the laws of the commands, collected. -/
theorem encodesLegally : ∀ i : Instr, Laws.EncodesLegally.Statement i
  | .sysReset => Laws.EncodesLegally.sysReset
  | .brInit mode => Laws.EncodesLegally.brInit mode
  | .brRead n => Laws.EncodesLegally.brRead n
  | .brGetbool prob => Laws.EncodesLegally.brGetbool prob
  | .bwInit => Laws.EncodesLegally.bwInit
  | .bwPut n => Laws.EncodesLegally.bwPut n
  | .bwFinalize => Laws.EncodesLegally.bwFinalize
  | .hufBuild slot => Laws.EncodesLegally.hufBuild slot
  | .hufDecode slot => Laws.EncodesLegally.hufDecode slot
  | .hufReadlengths => Laws.EncodesLegally.hufReadlengths
  | .pteSetimg => Laws.EncodesLegally.pteSetimg
  | .ptePredFwd tileBits => Laws.EncodesLegally.ptePredFwd tileBits
  | .ptePredInv tileBits => Laws.EncodesLegally.ptePredInv tileBits
  | .pteSubgFwd => Laws.EncodesLegally.pteSubgFwd
  | .pteSubgInv => Laws.EncodesLegally.pteSubgInv
  | .pteXcolFwd tileBits => Laws.EncodesLegally.pteXcolFwd tileBits
  | .pteXcolInv tileBits => Laws.EncodesLegally.pteXcolInv tileBits
  | .ptePalFwd => Laws.EncodesLegally.ptePalFwd
  | .ptePalInv => Laws.EncodesLegally.ptePalInv
  | .muxNew => Laws.EncodesLegally.muxNew
  | .muxSet copy => Laws.EncodesLegally.muxSet copy
  | .muxGet => Laws.EncodesLegally.muxGet
  | .muxDelete => Laws.EncodesLegally.muxDelete
  | .muxPush copy => Laws.EncodesLegally.muxPush copy
  | .muxAssemble => Laws.EncodesLegally.muxAssemble
  | .muxParse copy => Laws.EncodesLegally.muxParse copy
  | .muxFetch => Laws.EncodesLegally.muxFetch
  | .muxDestroy => Laws.EncodesLegally.muxDestroy
  | .codecDecode => Laws.EncodesLegally.codecDecode
  | .codecEncode => Laws.EncodesLegally.codecEncode

/-- No bit of a word lies outside its three fields. -/
theorem fields_append (cw : Word) : opField cw ++ zeroField cw ++ immField cw = cw := by
  ext k hk
  simp only [opField, zeroField, immField, BitVec.getElem_append, BitVec.getElem_extractLsb']
  grind

/-- The three checks of R95. -/
theorem wellFormedWord_iff (cw : Word) :
    WellFormedWord cw = true ↔
      zeroField cw = 0 ∧ opField cw ∈ opcodes ∧ immField cw &&& reservedImm (opField cw) = 0 := by
  simp [WellFormedWord, and_assoc]

/-- The OP of a command is one of R94's. -/
theorem opcodeOf_mem_opcodes (i : Instr) : opcodeOf i ∈ opcodes := by
  obtain ⟨hwf, hop, -⟩ := encodesLegally i
  exact hop ▸ ((wellFormedWord_iff _).1 hwf).2.1

/-! The sub-fields of IMM (R93): an IMM with no reserved bit set is its sub-field. -/

theorem immediate_of_flag {imm : BitVec 8} (h : imm &&& 0xFE = 0) : (if imm.getLsbD 0 then 1 else 0) = imm := by
  revert imm; decide

theorem immediate_of_nibble {imm : BitVec 8} (h : imm &&& 0xF0 = 0) : (imm.extractLsb' 0 4).zeroExtend 8 = imm := by
  revert imm; decide

theorem immediate_of_reserved {imm : BitVec 8} (h : imm &&& 0xFF = 0) : 0 = imm :=
  h.symm.trans BitVec.and_allOnes

/-- A sub-field of four bits is the low half of its IMM. -/
theorem nibble_of_immediate (k : BitVec 4) : (k.zeroExtend 8).extractLsb' 0 4 = k := by
  revert k; decide

/-! The opcode map (R94) read in both directions. -/

/-- An OP of R94 selects a command, whatever IMM is. -/
theorem exists_commandOf {op : BitVec 8} (h : op ∈ opcodes) (imm : BitVec 8) : ∃ i, commandOf op imm = some i := by
  have hrows : opcodes.all (fun op => (commandOf op imm).isSome) = true := rfl
  exact Option.isSome_iff_exists.1 (List.all_eq_true.1 hrows op h)

/-- The OP and the IMM of a command select that command. -/
theorem commandOf_opcodeOf (i : Instr) : commandOf (opcodeOf i) (immediateOf i) = some i := by
  cases i with
  | brInit mode => cases mode <;> rfl
  | muxSet copy | muxPush copy | muxParse copy => cases copy <;> rfl
  | hufBuild k | hufDecode k | ptePredFwd k | ptePredInv k | pteXcolFwd k | pteXcolInv k =>
    simp [commandOf, opcodeOf, immediateOf, nibble_of_immediate]
  | _ => rfl

/-- A command has the OP that selects it. -/
theorem opcodeOf_of_commandOf {op imm : BitVec 8} {i : Instr} (h : commandOf op imm = some i) : opcodeOf i = op := by
  unfold commandOf at h
  split at h <;> cases h <;> exact BitVec.eq_of_toNat_eq (Eq.symm ‹op.toNat = _›)

/-- A command has the IMM it is selected with, when no reserved bit of it is set. -/
theorem immediateOf_of_commandOf {op imm : BitVec 8} {i : Instr} (h : commandOf op imm = some i)
    (hr : imm &&& reservedImm op = 0) : immediateOf i = imm := by
  obtain rfl := opcodeOf_of_commandOf h
  cases i with
  | brRead _ | brGetbool _ | bwPut _ => cases h; rfl
  | muxSet _ | muxPush _ | muxParse _ => cases h; exact immediate_of_flag hr
  | brInit _ =>
    cases h
    exact Eq.trans (by cases imm.getLsbD 0 <;> rfl) (immediate_of_flag hr)
  | hufBuild _ | hufDecode _ | ptePredFwd _ | ptePredInv _ | pteXcolFwd _ | pteXcolInv _ =>
    cases h
    exact immediate_of_nibble hr
  | _ => exact immediate_of_reserved hr

/-! The decoder (R95). -/

theorem decode_eq_some_iff {cw : Word} {i : Instr} :
    decode cw = some i ↔ WellFormedWord cw = true ∧ commandOf (opField cw) (immField cw) = some i := by
  have hop : commandOf (opField cw) (immField cw) = some i → opField cw ∈ opcodes :=
    fun h => opcodeOf_of_commandOf h ▸ opcodeOf_mem_opcodes i
  rw [wellFormedWord_iff, decode]
  grind

/-- A word that is not well-formed is refused. -/
theorem decode_eq_none {cw : Word} (h : ¬WellFormedWord cw = true) : decode cw = none :=
  Option.eq_none_iff_forall_ne_some.2 fun _ hi => h (decode_eq_some_iff.1 hi).1

/-- A decoded command has the OP and the IMM of its word. -/
theorem fields_of_decode {cw : Word} {i : Instr} (h : decode cw = some i) :
    opcodeOf i = opField cw ∧ immediateOf i = immField cw := by
  obtain ⟨hwf, hi⟩ := decode_eq_some_iff.1 h
  obtain ⟨-, -, hr⟩ := (wellFormedWord_iff cw).1 hwf
  exact ⟨opcodeOf_of_commandOf hi, immediateOf_of_commandOf hi hr⟩

/-- Settles O1: the word of a command is well-formed and its OP and IMM select the command. -/
theorem decodeOfEncode : Obligations.DecodeOfEncode := by
  intro i
  obtain ⟨hwf, hop, -, himm⟩ := encodesLegally i
  refine decode_eq_some_iff.2 ⟨hwf, ?_⟩
  rw [hop, himm]
  exact commandOf_opcodeOf i

/-- Settles O2: the encoder puts the fields of the word together again. -/
theorem encodeOfDecode : Obligations.EncodeOfDecode := by
  intro cw i h
  obtain ⟨hop, himm⟩ := fields_of_decode h
  obtain ⟨hzero, -⟩ := (wellFormedWord_iff cw).1 (decode_eq_some_iff.1 h).1
  calc encode i = opField cw ++ (0 : BitVec 16) ++ immField cw := by rw [encode, hop, himm]
    _ = opField cw ++ zeroField cw ++ immField cw := by rw [hzero]
    _ = cw := fields_append cw

/-- Settles O3: the illegal words are those that are not well-formed, and an OP of R94 always selects a command. -/
theorem decodeExactlyTheLegalWords : Obligations.DecodeExactlyTheLegalWords := by
  intro cw op reserved illegal
  have hreserved : reservedImm op = reserved := by simp [reservedImm, reserved]
  have hlegal : WellFormedWord cw = true ↔ ¬illegal := by
    rw [wellFormedWord_iff]
    simp [illegal, ← hreserved, op, opField, zeroField, immField]
  refine ⟨fun hill => decode_eq_none fun hwf => hlegal.1 hwf hill, fun hleg => ?_⟩
  have hwf := hlegal.2 hleg
  obtain ⟨i, hi⟩ := exists_commandOf ((wellFormedWord_iff cw).1 hwf).2.1 (immField cw)
  have hdec : decode cw = some i := decode_eq_some_iff.2 ⟨hwf, hi⟩
  exact ⟨i, hdec, fields_of_decode hdec⟩

/-- Settles O4: each word evaluates. -/
theorem sampleWordsDecode : Obligations.SampleWordsDecode := by
  unfold Obligations.SampleWordsDecode
  decide

end Sys2Proof
end

section
/-! PROOFS. The stream bits of the bit reader (spec/40_bitreader.md R133 to R137): which byte of the view a bit comes from, what
a value pulled from the range stream holds, and what a command that consumes bits needs of the platform. -/

namespace Sys2Proof.Machine

/-! The bits of the view. -/

/-- From a byte the host has not written since BR.INIT the reader delivers the byte's bit (R133). -/
theorem State.viewBit_of_not_stale {s : State} {a : Nat} (k : Nat) (h : ∀ c ∈ s.br.stale, c.1 ≠ a) :
    s.viewBit a k = (s.readByte a).getLsbD k :=
  if_pos (List.all_eq_true.2 fun c hc => by simp [h c hc])

/-- From a byte the host has written the reader delivers the bit of the byte's present value or of an old one (R39): where all
agree there is no choice, and where one differs the two cover both values a bit can have. -/
theorem State.viewBit_of_stale (s : State) (a k : Nat) :
    s.viewBit a k = (s.readByte a).getLsbD k ∨ ∃ c ∈ s.br.stale, c.1 = a ∧ s.viewBit a k = c.2.getLsbD k := by
  by_cases hagree : ∀ c ∈ s.br.stale, c.1 = a → c.2.getLsbD k = (s.readByte a).getLsbD k
  · refine .inl (if_pos (List.all_eq_true.2 fun c hc => ?_))
    by_cases ha : c.1 = a
    · simp [hagree c hc ha]
    · simp [ha]
  · push Not at hagree
    obtain ⟨c, hc, ha, hne⟩ := hagree
    by_cases hnow : s.viewBit a k = (s.readByte a).getLsbD k
    · exact .inl hnow
    · exact .inr ⟨c, hc, ha, (Bool.eq_not_of_ne hnow).trans (Bool.eq_not_of_ne hne).symm⟩

/-- Inside the view a plain stream bit is bit i mod 8 of byte i / 8 (R64, R133). -/
theorem State.bitLsb_in_view {s : State} {i : Nat} (h : i < 8 * s.br.len.toNat) :
    s.bitLsb i = s.viewBit (s.br.base.toNat + i / 8) (i % 8) := if_pos h

/-- Inside the view a bit of the range stream is bit 7 - i mod 8 of byte i / 8 (R65, R133). -/
theorem State.bitMsb_in_view {s : State} {i : Nat} (h : i < 8 * s.br.len.toNat) :
    s.bitMsb i = s.viewBit (s.br.base.toNat + i / 8) (7 - i % 8) := if_pos h

/-- Settles O17: past the end both streams are 0; inside, each bit is one bit of the view's byte, in the order of the mode. -/
theorem streamBits : Obligations.StreamBits := by
  intro s i
  refine ⟨fun hpast => ⟨s.bitLsb_past_end i hpast, s.bitMsb_past_end i hpast⟩, fun hin hfresh => ?_, fun hin => ?_⟩
  · rw [State.bitLsb_in_view hin, State.bitMsb_in_view hin]
    exact ⟨State.viewBit_of_not_stale _ hfresh, State.viewBit_of_not_stale _ hfresh⟩
  · rw [State.bitLsb_in_view hin, State.bitMsb_in_view hin]
    exact ⟨s.viewBit_of_stale _ _, s.viewBit_of_stale _ _⟩

/-! Values pulled from the range stream (R137). -/

/-- One more bit pulled is the new lowest bit. -/
theorem brPull_succ (bit : Nat → Bool) (pos n : Nat) :
    brPull bit pos (n + 1) = 2 * brPull bit pos n + (bit (pos + n)).toNat := by
  simp [brPull, List.range_succ]

/-- The first bit pulled is the uppermost. -/
theorem testBit_brPull (bit : Nat → Bool) (pos n b : Nat) :
    (brPull bit pos n).testBit b = (decide (b < n) && bit (pos + (n - 1 - b))) := by
  induction n generalizing b with
  | zero => simp [brPull]
  | succ n ih =>
    rw [brPull_succ]
    cases b with
    | zero => cases h : bit (pos + n) <;> simp [Nat.testBit_zero, h]
    | succ b =>
      have hhalf : (2 * brPull bit pos n + (bit (pos + n)).toNat) / 2 = brPull bit pos n := by
        have := (bit (pos + n)).toNat_lt
        omega
      have hbit : n + 1 - 1 - (b + 1) = n - 1 - b := by omega
      rw [Nat.testBit_succ, hhalf, ih, hbit]
      simp

/-- `n` bits pulled are below 2^n. -/
theorem brPull_lt (bit : Nat → Bool) (pos n : Nat) : brPull bit pos n < 2 ^ n :=
  Nat.lt_pow_two_of_testBit _ fun b hb => by simp [testBit_brPull, Nat.not_lt.2 hb]

/-! What the platform must back. -/

/-- When every stream bit from `p` on and before `q` lies in a backed byte, the bytes that hold them can be accessed (R133). -/
theorem State.accessible_span {s : State} {r : Reader} {p q : Nat}
    (h : ∀ i < q, p ≤ i → i < 8 * r.len.toNat → s.Backed (r.base.toNat + i / 8)) : s.Accessible [r.span p q] := by
  intro x hx k hk
  obtain rfl := List.mem_singleton.1 hx
  unfold Reader.span at hk ⊢
  split_ifs at hk ⊢ with hin
  · have hbyte : max p (8 * (p / 8 + k)) / 8 = p / 8 + k := by omega
    have hlt : max p (8 * (p / 8 + k)) < min q (8 * r.len.toNat) := by omega
    have hb := h (max p (8 * (p / 8 + k))) (by omega) (by omega) (by omega)
    rwa [hbyte, ← Nat.add_assoc] at hb
  · exact absurd hk (Nat.not_lt_zero k)

/-! The cursor (R135). -/

/-- A skip of no bits changes nothing in a reader whose position and flag are consistent (R27). -/
theorem Reader.skip_zero {c : Config} {r : Reader} (hpos : r.pos.toNat < 2 ^ c.posw)
    (heos : r.eos = eosAt r.pos.toNat r.len.toNat) : r.skip c 0 = r := by
  have hafter : r.posAfter c 0 = r.pos.toNat := r.posAfter_eq c 0 hpos
  rw [Reader.skip, hafter, ← heos, BitVec.ofNat_toNat, BitVec.setWidth_eq]

end Sys2Proof.Machine
end

section
/-! PROOFS. BR.INIT and BR.READ (spec/40_bitreader.md R138 to R141). -/

namespace Sys2Proof.Machine

/-! BR.INIT. -/

/-- A region that passes 2^AW is not bound (R71, R138). -/
theorem execBrInit_past_end {s : State} (mode : ReaderMode) (h : 2 ^ s.cfg.aw < s.arg0.toNat + s.arg1.toNat) :
    execBrInit mode s = .next (s.raised .invalidArgument) :=
  if_pos (by simpa [fits] using h)

/-- Plain mode binds the view and reads nothing (R138). -/
theorem execBrInit_plain {s : State} (h : s.arg0.toNat + s.arg1.toNat ≤ 2 ^ s.cfg.aw) :
    execBrInit .plain s = .next ({ s with br := Reader.bind .plain s.arg0 s.arg1 }.finish 0 0) :=
  if_neg (by simpa [fits] using h)

/-- The first eight bits of a fresh range view are its first byte, and 0 when there is none (R133, R138). -/
theorem brPull_first_byte {s : State} (hfresh : s.br.stale = []) :
    BitVec.ofNat 8 (brPull s.bitMsb 0 8) = if s.br.len = 0 then 0 else s.readByte s.br.base.toNat := by
  apply BitVec.eq_of_getLsbD_eq
  intro b hb
  rw [BitVec.getLsbD_ofNat, testBit_brPull, Nat.zero_add]
  split_ifs with hlen
  · simp [State.bitMsb_past_end, hlen]
  · have hlen : 0 < s.br.len.toNat := by
      rw [BitVec.toNat_eq] at hlen
      exact Nat.pos_of_ne_zero hlen
    have hin : 8 - 1 - b < 8 * s.br.len.toNat := by omega
    have hbyte : (8 - 1 - b) / 8 = 0 := by omega
    have hbit : 7 - (8 - 1 - b) % 8 = b := by omega
    rw [State.bitMsb_in_view hin, hbyte, hbit, State.viewBit_fresh _ _ _ hfresh]
    simp [hb]

/-- The flag after the first eight bits: a view of one byte holds them all (R135, R138). -/
theorem eosAt_eight (len : Reg) : eosAt 8 len.toNat = decide (len = 0) := by
  have hzero : len = 0 ↔ len.toNat = 0 := BitVec.toNat_eq
  rw [eosAt, decide_eq_decide, hzero]
  omega

/-- Range mode binds the view and loads the first eight bits; no view is too short for the position 8 (R138). -/
theorem execBrInit_range {s : State} (h : s.arg0.toNat + s.arg1.toNat ≤ 2 ^ s.cfg.aw)
    (hbacked : s.arg1 ≠ 0 → s.Backed s.arg0.toNat) :
    execBrInit .range s = .next
      ({ s with br := { Reader.bind .range s.arg0 s.arg1 with
          pos := 8, eos := decide (s.arg1 = 0), range := 254
          value := if s.arg1 = 0 then 0 else s.readByte s.arg0.toNat } }.finish 0 (flagWord (decide (s.arg1 = 0)))) := by
  have hafter : (Reader.bind .range s.arg0 s.arg1).posAfter s.cfg 8 = 8 := by
    refine Reader.posAfter_eq _ _ _ (show 0 + 8 < 2 ^ (s.cfg.aw + 4) from ?_)
    have := Nat.two_pow_pos s.cfg.aw
    rw [Nat.pow_add]
    omega
  have hspan : s.Accessible [(Reader.bind .range s.arg0 s.arg1).span 0 8] := by
    refine State.accessible_span fun i hi _ hlen => ?_
    have hbyte : i / 8 = 0 := by omega
    rw [hbyte]
    refine hbacked fun h0 => ?_
    simp [h0] at hlen
  have hvalue := brPull_first_byte (s := { s with br := Reader.bind .range s.arg0 s.arg1 }) rfl
  rw [execBrInit, if_neg (by simpa [fits] using h)]
  dsimp only
  rw [State.touching_of_accessible hspan, hvalue, Reader.skip, hafter, Reader.bind_len, eosAt_eight]
  rfl

/-- Settles O18: the check of the region, then the two modes. -/
theorem brInitRule : Obligations.BrInitRule := by
  intro s
  refine ⟨fun hpast mode => execBrInit_past_end mode hpast, execBrInit_plain, fun hfit hbacked => ?_⟩
  have hflag : flagWord (decide (s.arg1 = 0)) = if s.arg1 = 0 then 1 else 0 := by simp [flagWord]
  rw [← hflag]
  exact execBrInit_range hfit hbacked

/-! BR.READ. -/

/-- An unbound reader, range mode and more than MAXBITS bits are refused (R140). -/
theorem execBrRead_refused {n : BitVec 8} {s : State}
    (h : s.br.bound = false ∨ s.br.mode = .range ∨ Config.maxBits < n.toNat) :
    execBrRead n s = .next (s.raised .invalidArgument) := by
  unfold execBrRead
  split_ifs with hb hm hn
  · rfl
  · rfl
  · rfl
  · simp_all

/-- Otherwise BR.READ peeks at `n` bits and skips them (R136, R140). -/
theorem execBrRead_ok {n : BitVec 8} {s : State} (hb : s.br.bound = true) (hm : s.br.mode = .plain)
    (hn : n.toNat ≤ Config.maxBits) (hbacked : s.ViewBacked s.br.pos.toNat (s.br.pos.toNat + n.toNat)) :
    execBrRead n s = .next
      ({ s with br := s.br.skip s.cfg n.toNat }.finish (BitVec.ofNat 64 (brPeek s.bitLsb s.br.pos.toNat n.toNat))
        (flagWord (s.br.skip s.cfg n.toNat).eos)) := by
  rw [execBrRead, if_neg (by simp [hb]), if_neg (by simp [hm]), if_neg (Nat.not_lt.2 hn)]
  exact State.touching_of_accessible (State.accessible_span hbacked) _

/-- Settles O19: bit k of a peek is the stream's bit k past the position. -/
theorem brReadRule : Obligations.BrReadRule := by
  intro n s
  refine ⟨execBrRead_refused, fun hb hm hn hbacked => ⟨_, execBrRead_ok hb hm hn hbacked, fun k => ?_⟩⟩
  rw [BitVec.getLsbD_ofNat, testBit_brPeek]
  by_cases hk : k < n.toNat
  · have hk64 : k < 64 := by omega
    simp [hk, hk64]
  · simp [hk]

end Sys2Proof.Machine
end

section
/-! PROOFS. Boolean decoding, BR.GETBOOL (spec/40_bitreader.md R145 to R149). -/

namespace Sys2Proof.Machine

/-! The renormalisation shifts (R145). -/

/-- The shift is 7 less the logarithm of `r + 1`, and 0 from RANGE_NORM up. -/
theorem normShift_eq (r : Nat) : normShift r = if 127 ≤ r then 0 else 7 - Nat.log2 (r + 1) := by
  have hlog {k : Nat} (hlo : 2 ^ k ≤ r + 1) (hhi : r + 1 < 2 ^ (k + 1)) : Nat.log2 (r + 1) = k :=
    (Nat.log2_eq_iff (Nat.succ_ne_zero r)).2 ⟨hlo, hhi⟩
  unfold normShift
  split_ifs
  · rfl
  · rw [hlog (k := 6) (by omega) (by omega)]
  · rw [hlog (k := 5) (by omega) (by omega)]
  · rw [hlog (k := 4) (by omega) (by omega)]
  · rw [hlog (k := 3) (by omega) (by omega)]
  · rw [hlog (k := 2) (by omega) (by omega)]
  · rw [hlog (k := 1) (by omega) (by omega)]
  · rw [hlog (k := 0) (by omega) (by omega)]

/-- Settles O20: the computed shift in closed form, and what it scales `r + 1` to. -/
theorem normShiftTable : Obligations.NormShiftTable := fun r _ => ⟨normShift_eq r, normShift_scales⟩

/-- From RANGE_NORM up nothing is shifted. -/
theorem normShift_of_le {r : Nat} (h : 127 ≤ r) : normShift r = 0 := if_pos h

/-- What the shift brings any range of a byte to: `range + 1` in 128..255 (R145). -/
theorem normShift_scales_le {r : Nat} (h : r ≤ 254) : 128 ≤ (r + 1) * 2 ^ normShift r ∧ (r + 1) * 2 ^ normShift r ≤ 255 := by
  by_cases hr : r < 127
  · exact normShift_scales hr
  · rw [normShift_of_le (Nat.not_lt.1 hr)]
    omega

/-! The split and the decision (R146), as numbers. -/

theorem boolSplit_toNat (range prob : Byte) : (boolSplit range prob).toNat = range.toNat * prob.toNat / 256 := by
  have hmul : range.toNat * prob.toNat ≤ 255 * 255 := Nat.mul_le_mul (by omega) (by omega)
  rw [boolSplit, BitVec.toNat_ofNat, Nat.mod_eq_of_lt (by omega)]

/-- The split is below a range that is not 0. -/
theorem boolSplit_lt {range : Byte} (prob : Byte) (h : 0 < range.toNat) :
    range.toNat * prob.toNat / 256 < range.toNat := by
  have hmul : range.toNat * prob.toNat ≤ range.toNat * 255 := Nat.mul_le_mul_left _ (by omega)
  omega

/-- A decode gives a 1 exactly when the value is above the split. -/
theorem boolSplit_lt_iff (range value prob : Byte) :
    boolSplit range prob < value ↔ range.toNat * prob.toNat / 256 < value.toNat := by
  rw [BitVec.lt_def, boolSplit_toNat]

theorem boolDecode_bit (range value prob : Byte) :
    (boolDecode range value prob).1 = decide (range.toNat * prob.toNat / 256 < value.toNat) := by
  simp only [boolDecode, boolSplit_lt_iff]
  split_ifs with h <;> simp [h]

theorem boolDecode_range (value prob : Byte) {range : Byte} (h : 0 < range.toNat) :
    (boolDecode range value prob).2.1.toNat =
      if range.toNat * prob.toNat / 256 < value.toNat then range.toNat - range.toNat * prob.toNat / 256 - 1
      else range.toNat * prob.toNat / 256 := by
  have hsplit := boolSplit_lt prob h
  have hto := boolSplit_toNat range prob
  simp only [boolDecode, boolSplit_lt_iff]
  split_ifs
  · dsimp only
    bv_omega
  · exact hto

theorem boolDecode_value (range value prob : Byte) :
    (boolDecode range value prob).2.2.toNat =
      if range.toNat * prob.toNat / 256 < value.toNat then value.toNat - range.toNat * prob.toNat / 256 - 1
      else value.toNat := by
  have hto := boolSplit_toNat range prob
  simp only [boolDecode, boolSplit_lt_iff]
  split_ifs
  · dsimp only
    bv_omega
  · rfl

/-- A value not above the range is not above it after the decision either (R147): both lose the split, or the value is not
above the split, which is the new range. -/
theorem boolDecode_value_le {range value : Byte} (prob : Byte) (hrange : 0 < range.toNat) (h : value.toNat ≤ range.toNat) :
    (boolDecode range value prob).2.2.toNat ≤ (boolDecode range value prob).2.1.toNat := by
  rw [boolDecode_value, boolDecode_range _ _ hrange]
  split_ifs <;> omega

/-! The renormalisation (R146). -/

/-- The range after a shift, as a number: no bit is lost below RANGE_NORM. -/
theorem range_shift_eq_ofNat {range : Byte} (h : range.toNat < 127) :
    ((range + 1) <<< normShift range.toNat) - 1 = BitVec.ofNat 8 ((range.toNat + 1) * 2 ^ normShift range.toNat - 1) := by
  obtain ⟨hlo, hhi⟩ := normShift_scales h
  have hone : (range + 1).toNat = range.toNat + 1 := by bv_omega
  have hshift : ((range + 1) <<< normShift range.toNat).toNat = (range.toNat + 1) * 2 ^ normShift range.toNat := by
    rw [BitVec.toNat_shiftLeft, hone, Nat.shiftLeft_eq, Nat.mod_eq_of_lt (by omega)]
  bv_omega

/-- In a reader that meets its invariant, renormalisation is one shift by `normShift` for every range: a shift of 0 from
RANGE_NORM up changes nothing. -/
theorem renormalise_eq_shift {c : Config} {r : Reader} (bit : Nat → Bool) (range value : Byte)
    (hpos : r.pos.toNat < 2 ^ c.posw) (heos : r.eos = eosAt r.pos.toNat r.len.toNat) :
    renormalise bit c r range value =
      { r.skip c (normShift range.toNat) with
        range := BitVec.ofNat 8 ((range.toNat + 1) * 2 ^ normShift range.toNat - 1)
        value := (value <<< normShift range.toNat) ||| BitVec.ofNat 8 (brPull bit r.pos.toNat (normShift range.toNat)) } := by
  unfold renormalise Config.rangeNorm
  split_ifs with h
  · simp only [range_shift_eq_ofNat h]
  · rw [normShift_of_le (Nat.not_lt.1 h), Reader.skip_zero hpos heos]
    simp [brPull]

/-- A value moved up by `k` bits with `k` pulled bits below them, bit by bit. -/
theorem getLsbD_shift_or_pull (bit : Nat → Bool) (value : Byte) (pos k : Nat) {b : Nat} (hb : b < 8) :
    ((value <<< k) ||| BitVec.ofNat 8 (brPull bit pos k)).getLsbD b =
      if b < k then bit (pos + (k - 1 - b)) else value.toNat.testBit (b - k) := by
  rw [BitVec.getLsbD_or, BitVec.getLsbD_shiftLeft, BitVec.getLsbD_ofNat, testBit_brPull, BitVec.testBit_toNat]
  by_cases hk : b < k <;> simp [hb, hk]

/-- The same value is below the range shifted by as much, where the value was not above the range. -/
theorem toNat_shift_or_pull_le (bit : Nat → Bool) {value : Byte} {range : Nat} (pos k : Nat) (h : value.toNat ≤ range)
    (hfit : (range + 1) * 2 ^ k ≤ 256) :
    ((value <<< k) ||| BitVec.ofNat 8 (brPull bit pos k)).toNat ≤ (range + 1) * 2 ^ k - 1 := by
  have hpull := brPull_lt bit pos k
  have hmul : value.toNat * 2 ^ k ≤ range * 2 ^ k := Nat.mul_le_mul_right _ h
  rw [Nat.add_mul, Nat.one_mul] at hfit ⊢
  rw [BitVec.toNat_or, BitVec.toNat_shiftLeft, BitVec.toNat_ofNat, Nat.shiftLeft_eq, Nat.mod_eq_of_lt (by omega),
    Nat.mod_eq_of_lt (by omega), ← Nat.shiftLeft_eq, ← Nat.shiftLeft_add_eq_or_of_lt hpull, Nat.shiftLeft_eq]
  omega

/-! BR.GETBOOL. -/

/-- An unbound reader and plain mode are refused (R146). -/
theorem execBrGetbool_refused {prob : BitVec 8} {s : State} (h : s.br.bound = false ∨ s.br.mode = .plain) :
    execBrGetbool prob s = .next (s.raised .invalidArgument) := by
  unfold execBrGetbool
  split_ifs with hb hm
  · rfl
  · rfl
  · simp_all

/-- Otherwise BR.GETBOOL decides the bit and shifts as many bits in as the range asks for (R146, R148, R149). -/
theorem execBrGetbool_ok {prob : BitVec 8} {s : State} (hb : s.br.bound = true) (hm : s.br.mode = .range)
    (hpos : s.br.pos.toNat < 2 ^ s.cfg.posw) (heos : s.br.eos = eosAt s.br.pos.toNat s.br.len.toNat) :
    let d := boolDecode s.br.range s.br.value prob
    let k := normShift d.2.1.toNat
    s.ViewBacked s.br.pos.toNat (s.br.pos.toNat + k) →
      execBrGetbool prob s = .next
        ({ s with br := { s.br.skip s.cfg k with
            range := BitVec.ofNat 8 ((d.2.1.toNat + 1) * 2 ^ k - 1)
            value := (d.2.2 <<< k) ||| BitVec.ofNat 8 (brPull s.bitMsb s.br.pos.toNat k) } }.finish (flagWord d.1)
          (flagWord (s.br.skip s.cfg k).eos)) := by
  intro d k hbacked
  have hspan : s.Accessible [s.br.span s.br.pos.toNat (s.br.skip s.cfg k).pos.toNat] := by
    refine State.accessible_span fun i hi => hbacked i (lt_of_lt_of_le hi ?_)
    exact (Nat.mod_le _ _).trans (Nat.min_le_left _ _)
  rw [execBrGetbool, if_neg (by simp [hb]), if_neg (by simp [hm])]
  dsimp only
  rw [renormalise_eq_shift _ _ _ hpos heos]
  exact State.touching_of_accessible hspan _

/-- Settles O21: the decision as numbers, and renormalisation as one shift. -/
theorem brGetboolRule : Obligations.BrGetboolRule := by
  intro prob s
  refine ⟨execBrGetbool_refused, fun hb hm hinv => ?_⟩
  intro split bit range value k pos eos hbacked
  obtain ⟨-, hpos, heos, hbounds, -⟩ := hinv hb
  obtain ⟨hlo, -⟩ := hbounds hm
  have hbit : (boolDecode s.br.range s.br.value prob).1 = bit := boolDecode_bit _ _ _
  have hrange : (boolDecode s.br.range s.br.value prob).2.1.toNat = range := by
    simp [boolDecode_range _ _ (by omega : 0 < s.br.range.toNat), range, bit, split]
  have hvalue : (boolDecode s.br.range s.br.value prob).2.2.toNat = value := by
    simp [boolDecode_value, value, bit, split]
  have hk : normShift range = k := by
    rw [normShift_eq]
    simp only [k, ← Nat.not_lt, ite_not]
  have hexec := execBrGetbool_ok (prob := prob) hb hm hpos heos
  dsimp only at hexec
  rw [hrange, hk, hbit] at hexec
  refine ⟨_, fun b hb8 => ?_, hexec hbacked⟩
  rw [← hvalue]
  exact getLsbD_shift_or_pull _ _ _ _ hb8

/-- Settles O22: the decision keeps the value at or below the range, and the shift by `normShift` moves both up by as many
bits, the range with ones below. -/
theorem rangeValueStaysInRange : Obligations.RangeValueStaysInRange := by
  intro prob s t hb hm hinv hle h
  obtain ⟨-, hpos, heos, hbounds, -⟩ := hinv hb
  obtain ⟨hlo, hhi⟩ := hbounds hm
  obtain ⟨-, hbad⟩ | ⟨-, r, hr, rfl⟩ := execBrGetbool_next h
  · exact absurd hbad (by simp [hb, hm])
  rw [renormalise_eq_shift _ _ _ hpos heos] at hr
  subst hr
  have hvalue := boolDecode_value_le prob (by omega : 0 < s.br.range.toNat) hle
  have hrange : (boolDecode s.br.range s.br.value prob).2.1.toNat ≤ 254 :=
    le_trans (boolDecode_range_le _ _ (by omega)) hhi
  obtain ⟨h128, h255⟩ := normShift_scales_le hrange
  have hnew := toNat_shift_or_pull_le s.bitMsb s.br.pos.toNat _ hvalue (le_trans h255 (by decide))
  dsimp only [State.finish_br]
  rw [BitVec.toNat_ofNat, Nat.mod_eq_of_lt (by omega)]
  omega

end Sys2Proof.Machine
end

section
/-! PROOFS. Writing fields and reading them back (spec/40_bitreader.md R150, spec/41_bitwriter.md R172): BW.PUT appends the bits
of a field, BW.FINALIZE stores the stream so that the view's bits are the appended ones, and BR.READ takes fields off it. -/

namespace Sys2Proof.Machine

/-! The writer that accepts bits: BW.PUT (R165) and BW.FINALIZE (R169). -/

/-- The writer accepts bits: bound, not finalised and not in error, with its invariant (R29, R164). -/
structure Writer.Accepting (c : Config) (w : Writer) : Prop where
  bound : w.bound = true
  notFinal : w.final = false
  noError : w.err = false
  inv : w.Inv c

/-- Appending no bits changes nothing in a writer whose capacity holds its bits. -/
theorem Writer.append_zero {c : Config} {w : Writer} (h : w.Accepting c) (v : Reg) : w.append 0 v = w := by
  obtain ⟨-, -, -, hcap⟩ := h.inv h.bound
  have hgrown : w.grownCap (w.needed 0) = w.cap := if_neg (Nat.not_lt.2 hcap)
  rw [Writer.append, hgrown, Nat.add_zero, BitVec.ofNat_toNat, BitVec.setWidth_eq]
  simp [lowBits]

/-- BW.PUT appends the low bits of ARG[0] when the limit has room for them, for every n up to MAXBITS (R165). -/
theorem execBwPut_ok {n : BitVec 8} {s : State} (h : s.bw.Accepting s.cfg) (hn : n.toNat ≤ Config.maxBits)
    (hroom : s.bw.needed n.toNat ≤ s.bw.limit.toNat) :
    execBwPut n s = .next ({ s with bw := s.bw.append n.toNat s.arg0 }.finish 0 0) := by
  rw [execBwPut, if_neg (by simp [h.bound]), if_neg (by simp [h.notFinal]), if_neg (by simp [h.noError]),
    if_neg (Nat.not_lt.2 hn)]
  split_ifs with h0 hfull
  · rw [h0, Writer.append_zero h]
    rfl
  · exact absurd hroom (Nat.not_le.2 hfull.2)
  · rfl

/-- An append that has room keeps the writer accepting (R164, R165). -/
theorem Writer.accepting_append {c : Config} {w : Writer} {n : Nat} (v : Reg) (haw : c.aw ≤ 60) (h : w.Accepting c)
    (hroom : w.needed n ≤ w.limit.toNat) : (w.append n v).Accepting c :=
  ⟨h.bound, h.notFinal, h.noError, Writer.inv_append v haw h.inv hroom⟩

/-- The state BW.FINALIZE ends in: the stream's image stored from the base on, the writer final (R169). -/
def State.finalised (s : State) : State :=
  { s.storeBytes s.bw.base.toNat s.bw.image with bw := { s.bw with final := true } }.finish
    (BitVec.ofNat 64 (ceilDiv s.bw.pos.toNat 8)) (BitVec.ofNat 64 s.bw.padBits)

/-- BW.FINALIZE stores the stream's bytes when they can be accessed (R169, R170). -/
theorem execBwFinalize_ok {s : State} (hb : s.bw.bound = true) (hf : s.bw.final = false) (he : s.bw.err = false)
    (hacc : s.Accessible [(s.bw.base.toNat, ceilDiv s.bw.pos.toNat 8)]) : execBwFinalize s = .next s.finalised := by
  rw [execBwFinalize, if_neg (by simp [hb]), if_neg (by simp [hf]), if_neg (by simp [he])]
  exact State.touching_of_accessible hacc _

/-- Bit k of byte j of the stream's image is bit 8j + k of the stream, and 0 past the last one (R169). -/
theorem Writer.image_getLsbD (w : Writer) {j k : Nat} (hj : j < ceilDiv w.pos.toNat 8) (hk : k < 8) :
    (w.image.getD j 0).getLsbD k = (decide (8 * j + k < w.pos.toNat) && w.bits.getD (8 * j + k) false) := by
  have hbyte : w.image.getD j 0 = BitVec.ofNat 8 (natOfBits ((List.range 8).map fun k =>
      if 8 * j + k < w.pos.toNat then w.bits.getD (8 * j + k) false else false)) := by
    simp [Writer.image, List.getD_eq_getElem?_getD, hj]
  rw [hbyte, BitVec.getLsbD_ofNat, testBit_natOfBits]
  by_cases hin : 8 * j + k < w.pos.toNat <;> simp [List.getD_eq_getElem?_getD, hk, hin]

/-- A finalised region reads as the image stored into it (R170). -/
theorem State.readByte_finalised {s : State} {j : Nat}
    (hfit : s.bw.base.toNat + ceilDiv s.bw.pos.toNat 8 ≤ 2 ^ s.cfg.aw) (hj : j < ceilDiv s.bw.pos.toNat 8) :
    s.finalised.readByte (s.bw.base.toNat + j) = s.bw.image.getD j 0 := by
  have hlen := s.bw.image_length
  have hheld : s.finalised.bw.holds (s.bw.base.toNat + j) = false := by
    simp [State.finalised, Writer.holds, Writer.definedBytes, hj]
  rw [State.readByte_of_not_held hheld, State.finalised, State.finish_mem, State.read_storeBytes _ (by omega),
    if_pos (by omega), Nat.add_sub_cancel_left]

/-! The host's program that writes. -/

/-- The bits of a list of fields, in the order they are written. -/
def fieldBits (fields : List (BitVec 8 × Reg)) : List Bool := fields.flatMap fun f => lowBits f.1.toNat f.2

theorem fieldBits_cons (f : BitVec 8 × Reg) (rest : List (BitVec 8 × Reg)) :
    fieldBits (f :: rest) = lowBits f.1.toNat f.2 ++ fieldBits rest := rfl

theorem fieldBits_length (fields : List (BitVec 8 × Reg)) :
    (fieldBits fields).length = (fields.map fun f => f.1.toNat).sum := by
  simp [fieldBits, List.length_flatMap, lowBits_length]

/-- Fields of legal widths that fit the limit are all appended (R165, R166): by induction on the list. -/
theorem putFields_appends {fields : List (BitVec 8 × Reg)} {s : State} (haw : s.cfg.aw ≤ 60) (h : s.bw.Accepting s.cfg)
    (hn : ∀ f ∈ fields, f.1.toNat ≤ 24) (hroom : s.bw.bits.length + (fieldBits fields).length ≤ 8 * s.bw.limit.toNat) :
    ∃ t, putFields fields s = .next t ∧ t.cfg = s.cfg ∧ t.bw.Accepting t.cfg ∧ t.bw.base = s.bw.base ∧
      t.bw.limit = s.bw.limit ∧ t.bw.bits = s.bw.bits ++ fieldBits fields := by
  induction fields generalizing s with
  | nil => exact ⟨s, rfl, rfl, h, rfl, rfl, (List.append_nil _).symm⟩
  | cons f rest ih =>
    rw [fieldBits_cons, List.length_append, lowBits_length] at hroom
    obtain ⟨-, -, hpos, -⟩ := h.inv h.bound
    have hneeded : s.bw.needed f.1.toNat ≤ s.bw.limit.toNat := by
      unfold Writer.needed ceilDiv
      omega
    have hput := execBwPut_ok (s := { s with arg0 := f.2 }) h (hn f List.mem_cons_self) hneeded
    obtain ⟨t, hrun, hcfg, haccepts, hbase, hlimit, hbits⟩ := ih
      (s := { s with arg0 := f.2, bw := s.bw.append f.1.toNat f.2 }.finish 0 0) haw
      (Writer.accepting_append f.2 haw h hneeded) (fun g hg => hn g (List.mem_cons_of_mem f hg))
      (by simp [lowBits_length]; omega)
    refine ⟨t, ?_, hcfg, haccepts, hbase, hlimit, hbits.trans ?_⟩
    · rw [putFields]
      simp only [exec, hput]
      exact hrun
    · simp [fieldBits_cons]

/-! The host's program that reads. -/

/-- The reader's next bits are the given ones, all inside a plain view that is backed and does not reach saturation. -/
structure State.Delivers (s : State) (bits : List Bool) : Prop where
  bound : s.br.bound = true
  plain : s.br.mode = .plain
  inView : s.br.pos.toNat + bits.length ≤ 8 * s.br.len.toNat
  noSaturation : 8 * s.br.len.toNat < 2 ^ s.cfg.posw
  aw : s.cfg.aw ≤ 60
  backed : s.ViewBacked s.br.pos.toNat (s.br.pos.toNat + bits.length)
  next : ∀ k < bits.length, s.bitLsb (s.br.pos.toNat + k) = bits.getD k false

/-- Skipping the bits in front ends just behind them: no saturation (R135). -/
theorem State.Delivers.posAfter {s : State} {front rest : List Bool} (h : s.Delivers (front ++ rest)) :
    s.br.posAfter s.cfg front.length = s.br.pos.toNat + front.length := by
  have hin := h.inView
  have hsat := h.noSaturation
  rw [List.length_append] at hin
  exact Reader.posAfter_eq _ _ _ (by omega)

/-- After a skip of the bits in front the others are to come. -/
theorem State.Delivers.skip {s : State} {front rest : List Bool} (h : s.Delivers (front ++ rest)) (r0 r1 : Reg) :
    ({ s with br := s.br.skip s.cfg front.length }.finish r0 r1).Delivers rest := by
  have hpos : (s.br.skip s.cfg front.length).pos.toNat = s.br.pos.toNat + front.length := by
    rw [Reader.skip_pos_toNat _ _ _ h.aw, h.posAfter]
  obtain ⟨hb, hm, hin, hsat, haw, hbacked, hnext⟩ := h
  rw [List.length_append] at hin hbacked hnext
  refine ⟨hb, hm, ?_, hsat, haw, ?_, ?_⟩ <;> rw [State.finish_br, hpos]
  · exact (Nat.add_assoc _ _ _).trans_le hin
  · exact fun i hi hge => hbacked i (by omega) (by omega)
  · intro k hk
    have hbit := hnext (front.length + k) (by omega)
    rw [List.getD_append_right _ _ _ _ (by omega), Nat.add_sub_cancel_left, ← Nat.add_assoc] at hbit
    exact hbit

/-- A peek at the low bits of a value gives the number they make (R134). -/
theorem brPeek_eq_mod {bit : Nat → Bool} {pos n : Nat} {v : Reg} (h : ∀ k < n, bit (pos + k) = v.getLsbD k) :
    brPeek bit pos n = v.toNat % 2 ^ n := by
  apply Nat.eq_of_testBit_eq
  intro k
  rw [testBit_brPeek, Nat.testBit_mod_two_pow, BitVec.testBit_toNat]
  by_cases hk : k < n
  · simp [hk, h k hk]
  · simp [hk]

/-- BR.READ takes the field in front off the bits to come, and the flag stays clear (R135, R140). -/
theorem execBrRead_delivers {s : State} {n : BitVec 8} {v : Reg} {rest : List Bool} (hn : n.toNat ≤ Config.maxBits)
    (h : s.Delivers (lowBits n.toNat v ++ rest)) :
    ∃ t, execBrRead n s = .next t ∧ t.status = .ok ∧ t.res0 = BitVec.ofNat 64 (v.toNat % 2 ^ n.toNat) ∧
      t.br.eos = false ∧ t.Delivers rest := by
  have hlen := lowBits_length n.toNat v
  have hin := h.inView
  have hafter := h.posAfter
  have hskip := h.skip
  rw [List.length_append, hlen] at hin
  rw [hlen] at hafter hskip
  have hbacked : s.ViewBacked s.br.pos.toNat (s.br.pos.toNat + n.toNat) := fun i hi =>
    h.backed i (by rw [List.length_append, hlen]; omega)
  have hvalue : brPeek s.bitLsb s.br.pos.toNat n.toNat = v.toNat % 2 ^ n.toNat := by
    refine brPeek_eq_mod fun k hk => ?_
    rw [h.next k (by rw [List.length_append]; omega), List.getD_append _ _ _ _ (by omega), lowBits_getD _ _ _ hk]
  refine ⟨_, execBrRead_ok h.bound h.plain hn hbacked, rfl, congrArg (BitVec.ofNat 64) hvalue, ?_, hskip _ _⟩
  rw [State.finish_br, Reader.skip_eos, hafter, eosAt, decide_eq_false_iff_not]
  omega

/-- The fields to come are read one after the other (R140, R150): by induction on the list. -/
theorem readFields_delivers {fields : List (BitVec 8 × Reg)} {s : State} (hn : ∀ f ∈ fields, f.1.toNat ≤ 24)
    (h : s.Delivers (fieldBits fields)) :
    readFields (fields.map fun f => f.1) s =
      some (fields.map fun f => (BitVec.ofNat 64 (f.2.toNat % 2 ^ f.1.toNat), false)) := by
  induction fields generalizing s with
  | nil => rfl
  | cons f rest ih =>
    obtain ⟨t, hread, hok, hres, heos, hdel⟩ := execBrRead_delivers (hn f List.mem_cons_self) h
    rw [List.map_cons, readFields]
    simp only [exec, hread, hok, if_pos, ih (fun g hg => hn g (List.mem_cons_of_mem f hg)) hdel, hres, heos]
    rfl

/-! From the writer to the reader. -/

/-- A plain view of the bytes BW.FINALIZE stored delivers the appended bits (R150, R172). -/
theorem finalised_delivers {t : State} (haw : t.cfg.aw ≤ 60) (h : t.bw.Accepting t.cfg)
    (hacc : t.Accessible [(t.bw.base.toNat, ceilDiv t.bw.pos.toNat 8)]) :
    State.Delivers ({ t.finalised with
      arg0 := t.bw.base, arg1 := t.finalised.res0, br := Reader.bind .plain t.bw.base t.finalised.res0 }.finish 0 0)
      t.bw.bits := by
  obtain ⟨hfit, hcap, hpos, hneed⟩ := h.inv h.bound
  have hbytes : t.bw.pos.toNat ≤ 8 * ceilDiv t.bw.pos.toNat 8 := by
    unfold ceilDiv
    omega
  have haw60 : 2 ^ t.cfg.aw ≤ 2 ^ 60 := Nat.pow_le_pow_right (by decide) haw
  have hlen : t.finalised.res0.toNat = ceilDiv t.bw.pos.toNat 8 := by
    show (BitVec.ofNat 64 _).toNat = _
    rw [BitVec.toNat_ofNat, Nat.mod_eq_of_lt (by omega)]
  have hzero : (0 : Pos).toNat = 0 := rfl
  refine ⟨rfl, rfl, ?_, ?_, haw, ?_, ?_⟩ <;>
    simp only [State.finish_br, Reader.bind_pos, hzero, Nat.zero_add]
  · rw [Reader.bind_len]
    omega
  · show 8 * t.finalised.res0.toNat < 2 ^ (t.cfg.aw + 4)
    have := Nat.two_pow_pos t.cfg.aw
    rw [Nat.pow_add]
    omega
  · intro i hi _ _
    exact hacc _ (List.mem_singleton_self _) (i / 8) (show i / 8 < ceilDiv _ 8 by omega)
  · intro k hk
    have hin : k < 8 * t.finalised.res0.toNat := by omega
    have hbit : (t.finalised.readByte (t.bw.base.toNat + k / 8)).getLsbD (k % 8) = t.bw.bits.getD k false := by
      rw [State.readByte_finalised (by omega) (by omega), Writer.image_getLsbD _ (by omega) (by omega), Nat.div_add_mod]
      simp [hpos, hk]
    exact (State.bitLsb_in_view hin).trans ((State.viewBit_fresh _ _ _ rfl).trans hbit)

/-- Settles O27: the bits appended are those of the fields, the finalised view delivers them, and the reads take them off. -/
theorem writerReaderRoundTrip : Obligations.WriterReaderRoundTrip := by
  intro fields s hlegal hb hf he hpos0 hbits0 hinv hn hroom hacc
  obtain ⟨-, haw, -⟩ := hlegal
  rw [← fieldBits_length] at hroom
  obtain ⟨t, hput, hcfg, haccepts, hbase, hlimit, hbits⟩ := putFields_appends haw ⟨hb, hf, he, hinv⟩ hn (by simpa [hbits0])
  rw [hbits0, List.nil_append] at hbits
  obtain ⟨hfit, hcap, -, hneed⟩ := haccepts.inv haccepts.bound
  have hstored : t.Accessible [(t.bw.base.toNat, ceilDiv t.bw.pos.toNat 8)] := by
    intro p hp k hk
    obtain rfl := List.mem_singleton.1 hp
    have hbacked := hacc _ (List.mem_singleton_self _) k (show k < s.bw.limit.toNat by rw [← hlimit]; omega)
    rwa [State.Backed, hcfg, hbase]
  have hfinal := execBwFinalize_ok haccepts.bound haccepts.notFinal haccepts.noError hstored
  have hdel := finalised_delivers (hcfg ▸ haw) haccepts hstored
  rw [hbits] at hdel
  refine ⟨t, t.finalised, _, hput, hfinal, ?_, readFields_delivers hn hdel⟩
  rw [← hbase]
  refine execBrInit_plain (show t.bw.base.toNat + t.finalised.res0.toNat ≤ 2 ^ t.cfg.aw from ?_)
  have hres : t.finalised.res0.toNat ≤ ceilDiv t.bw.pos.toNat 8 := Nat.mod_le _ _
  omega

end Sys2Proof.Machine
end

section
/-! PROOFS. The bit writer's commands (spec/41_bitwriter.md): what BW.INIT binds (R162), when BW.PUT and BW.FINALIZE are refused
(R165, R168, R169), what BW.PUT does to an open writer, and what stands in memory after BW.FINALIZE. -/

namespace Sys2Proof.Machine

/-! BW.INIT (R162, R163). -/

/-- A region past 2^AW and a capacity above the limit are refused (R162). -/
theorem execBwInit_refused {s : State} (h : 2 ^ s.cfg.aw < s.arg0.toNat + s.arg2.toNat ∨ s.arg2.toNat < s.arg1.toNat) :
    execBwInit s = .next (s.raised .invalidArgument) := by
  unfold execBwInit
  split_ifs with hfit hcap
  · rfl
  · simp only [fits, BitVec.lt_def, decide_eq_true_eq] at hfit hcap
    omega
  · rfl

/-- Otherwise the writer is bound and the region of the one before is given up (R80, R162, R163). -/
theorem execBwInit_ok {s : State} (hfit : s.arg0.toNat + s.arg2.toNat ≤ 2 ^ s.cfg.aw) (hcap : s.arg1.toNat ≤ s.arg2.toNat) :
    execBwInit s = .next
      ({ s with bw := Writer.bind s.arg0 s.arg1 s.arg2, mem := s.releasedMem }.finish 0 0) := by
  rw [execBwInit, if_neg (by simpa [fits] using hfit), if_neg (by simpa [BitVec.lt_def] using hcap)]
  rfl

/-- Settles O23: the two checks, and what giving the old region up leaves unchanged. -/
theorem bwInitRule : Obligations.BwInitRule := fun s =>
  ⟨execBwInit_refused, fun hfit hcap =>
    ⟨s.releasedMem, execBwInit_ok hfit hcap, fun _ => State.read_releasedMem_of_not_held⟩⟩

/-! A writer that takes no bits: unbound, finalised, or in error (R168, R344). -/

theorem execBwPut_refused {n : BitVec 8} {s : State} (h : s.bw.bound = false ∨ s.bw.final = true) :
    execBwPut n s = .next (s.raised .invalidArgument) := by
  unfold execBwPut
  split_ifs with hb hf
  · rfl
  · rfl
  all_goals exact absurd h (by simp [hb, hf])

theorem execBwFinalize_refused {s : State} (h : s.bw.bound = false ∨ s.bw.final = true) :
    execBwFinalize s = .next (s.raised .invalidArgument) := by
  unfold execBwFinalize
  split_ifs with hb hf
  · rfl
  · rfl
  all_goals exact absurd h (by simp [hb, hf])

/-- The writer is bound, not finalised, and in error (R168). -/
structure Writer.Failed (w : Writer) : Prop where
  bound : w.bound = true
  notFinal : w.final = false
  error : w.err = true

/-- The sticky error comes before every other check of BW.PUT's operands (R168, R344, R346, log 17). -/
theorem execBwPut_failed {s : State} (h : s.bw.Failed) (n : BitVec 8) :
    execBwPut n s = .next (s.raised .allocationFailure) := by
  rw [execBwPut, if_neg (by simp [h.bound]), if_neg (by simp [h.notFinal]), if_pos h.error]
  rfl

theorem execBwFinalize_failed {s : State} (h : s.bw.Failed) :
    execBwFinalize s = .next (s.raised .allocationFailure) := by
  rw [execBwFinalize, if_neg (by simp [h.bound]), if_neg (by simp [h.notFinal]), if_pos h.error]
  rfl

/-- Only BW.INIT and SYS.RESET clear the error: the writer's other two commands raise, and the rest leave it alone (R168). -/
theorem exec_keeps_failed {i : Instr} {s t : State} (hs : s.bw.Failed) (hinit : i ≠ .bwInit) (hreset : i ≠ .sysReset)
    (h : exec i s = .next t) : t.bw.Failed := by
  have hframe := commandsChangeOnlyTheirUnit i s t h
  cases i with
  | bwInit => exact absurd rfl hinit
  | sysReset => exact absurd rfl hreset
  | bwPut n =>
    obtain rfl := Host.Outcome.next.inj ((execBwPut_failed hs n).symm.trans h)
    exact hs
  | bwFinalize =>
    obtain rfl := Host.Outcome.next.inj ((execBwFinalize_failed hs).symm.trans h)
    exact hs
  | hufBuild _ =>
    rw [hframe.1]
    exact hs
  | brInit _ | brRead _ | brGetbool _ | hufDecode _ | hufReadlengths | pteSetimg | ptePredFwd _ | ptePredInv _
  | pteSubgFwd | pteSubgInv | pteXcolFwd _ | pteXcolInv _ | ptePalFwd | ptePalInv | muxNew | muxSet _ | muxGet
  | muxDelete | muxPush _ | muxAssemble | muxParse _ | muxFetch | muxDestroy | codecDecode | codecEncode =>
    rw [hframe]
    exact hs

/-- Settles O25: a writer in error stays so, and then refuses both commands. -/
theorem writerErrorIsSticky : Obligations.WriterErrorIsSticky := by
  intro i s t hb hf he hinit hreset h
  have ht := exec_keeps_failed ⟨hb, hf, he⟩ hinit hreset h
  exact ⟨⟨ht.bound, ht.notFinal, ht.error⟩, execBwPut_failed ht, execBwFinalize_failed ht⟩

/-! BW.PUT with an open writer (R165, R166). -/

/-- The writer is bound, not finalised and not in error; nothing is said of its capacity. -/
structure Writer.Open (w : Writer) : Prop where
  bound : w.bound = true
  notFinal : w.final = false
  noError : w.err = false

section
variable {n : BitVec 8} {s : State} (h : s.bw.Open)
include h

theorem execBwPut_too_many (hn : Config.maxBits < n.toNat) : execBwPut n s = .next (s.raised .invalidArgument) := by
  simp [execBwPut, h.bound, h.notFinal, h.noError, hn, raise]

theorem execBwPut_zero (hn : n = 0) : execBwPut n s = .next (s.finish 0 0) := by
  simp [execBwPut, h.bound, h.notFinal, h.noError, hn, Config.maxBits, succeed]

/-- A need above the limit sets the sticky error (R166, R168). -/
theorem execBwPut_full (h0 : n ≠ 0) (hn : n.toNat ≤ Config.maxBits) (hcap : s.bw.cap.toNat < s.bw.needed n.toNat)
    (hlimit : s.bw.limit.toNat < s.bw.needed n.toNat) :
    execBwPut n s = .next ({ s with bw := { s.bw with err := true } }.raised .allocationFailure) := by
  have h0 : n.toNat ≠ 0 := fun hz => h0 (BitVec.eq_of_toNat_eq hz)
  simp [execBwPut, h.bound, h.notFinal, h.noError, Nat.not_lt.2 hn, h0, hcap, hlimit, raise]

/-- A need within the capacity or the limit is met, and the bits are appended (R165). -/
theorem execBwPut_appends (h0 : n ≠ 0) (hn : n.toNat ≤ Config.maxBits)
    (hroom : s.bw.needed n.toNat ≤ s.bw.cap.toNat ∨ s.bw.needed n.toNat ≤ s.bw.limit.toNat) :
    execBwPut n s = .next ({ s with bw := s.bw.append n.toNat s.arg0 }.finish 0 0) := by
  have h0 : n.toNat ≠ 0 := fun hz => h0 (BitVec.eq_of_toNat_eq hz)
  have hroom : ¬(s.bw.cap.toNat < s.bw.needed n.toNat ∧ s.bw.limit.toNat < s.bw.needed n.toNat) := by omega
  simp only [execBwPut, h.bound, h.notFinal, h.noError, Nat.not_lt.2 hn, h0, hroom, succeed, if_false,
    Bool.true_eq_false, Bool.false_eq_true]

end

/-- The writer after an append, with the growth of its capacity written the other way round (R165, R167). -/
theorem Writer.append_eq (w : Writer) (n : Nat) (v : Reg) :
    w.append n v = { w with
      cap := if w.needed n ≤ w.cap.toNat then w.cap
        else BitVec.ofNat 64 (min w.limit.toNat (max (2 * w.cap.toNat) (w.needed n)))
      bits := w.bits ++ (List.range n).map v.getLsbD
      pos := BitVec.ofNat 64 (w.pos.toNat + n) } := by
  rw [Writer.append, Writer.grownCap, lowBits]
  simp only [← Nat.not_lt, ite_not]

/-- Settles O24: one clause for each branch of BW.PUT. -/
theorem bwPutRule : Obligations.BwPutRule := by
  intro n s needed
  refine ⟨execBwPut_refused, fun hb hf => ⟨fun he => execBwPut_failed ⟨hb, hf, he⟩ n, ?_, ?_, ?_, ?_⟩⟩ <;> intro he
  · exact execBwPut_too_many ⟨hb, hf, he⟩
  · exact execBwPut_zero ⟨hb, hf, he⟩
  · exact execBwPut_full ⟨hb, hf, he⟩
  · intro h0 hn hroom
    have happend := execBwPut_appends ⟨hb, hf, he⟩ h0 hn hroom
    rwa [Writer.append_eq] at happend

/-! BW.FINALIZE (R169, R170). -/

/-- A span that is accessible and not empty does not pass 2^AW (R71). -/
theorem State.Accessible.le_top {s : State} {a len : Nat} (h : s.Accessible [(a, len)]) (hlen : 0 < len) :
    a + len ≤ 2 ^ s.cfg.aw := by
  obtain ⟨hlast, -⟩ := h _ (List.mem_singleton_self _) (len - 1) (Nat.sub_lt hlen Nat.one_pos)
  dsimp only at hlast
  omega

/-- Outside the finalised bytes every address reads as before, where the writer's region does not hold any value (R30, R169). -/
theorem State.readByte_finalised_outside {s : State} {a : Nat} (hf : s.bw.final = false)
    (hout : ¬InSpan (s.bw.base.toNat, ceilDiv s.bw.pos.toNat 8) a) (ha : s.bw.holds a = false) :
    s.finalised.readByte a = s.readByte a := by
  have hheld : s.finalised.bw.holds a = false := Writer.not_held_of_finalised hf ha
  rw [State.readByte_of_not_held hheld, State.readByte_of_not_held ha]
  rw [← s.bw.image_length] at hout
  exact State.read_storeBytes_outside hout

/-- Settles O26: the refusals, and the state with the stream's image stored, read inside and outside the image. -/
theorem bwFinalizeRule : Obligations.BwFinalizeRule := by
  intro s nbytes
  refine ⟨execBwFinalize_refused, fun hb hf he => execBwFinalize_failed ⟨hb, hf, he⟩, fun hb hf he hacc => ?_⟩
  refine ⟨_, s.finalised, rfl, execBwFinalize_ok hb hf he hacc, fun j hj k hk => ?_, fun a hout ha => ?_⟩
  · have hfit := State.Accessible.le_top hacc (Nat.zero_lt_of_lt hj)
    rw [State.readByte_finalised hfit hj]
    exact Writer.image_getLsbD s.bw hj hk
  · exact State.readByte_finalised_outside hf hout ha

end Sys2Proof.Machine
end

section
/-! PROOFS. Legal length arrays and their canonical code (spec/42_huffman.md R183 to R185): the present symbols in their order,
and the 15-bit values whose uppermost bits are a code word, which lie side by side and fill the code space. -/

namespace Sys2Proof.Machine

/-! The present symbols in the order of (length, symbol) (R185). -/

theorem mem_canonicalOrder {lens : List Nat} {e : Nat × Nat} :
    e ∈ canonicalOrder lens ↔ lens[e.2]? = some e.1 ∧ e.1 ≠ 0 ∧ e.1 ≤ 15 := by
  simp only [canonicalOrder, List.mem_flatMap, List.mem_range, List.mem_filter, List.mem_zipIdx_iff_getElem?,
    decide_eq_true_eq, Config.maxLen]
  constructor
  · rintro ⟨k, hk, hget, hlen⟩
    exact ⟨hget, by omega, by omega⟩
  · rintro ⟨hget, h0, h15⟩
    exact ⟨e.1 - 1, by omega, hget, by omega⟩

theorem pairwise_zipIdx_lt (lens : List Nat) : lens.zipIdx.Pairwise fun d e => d.2 < e.2 := by
  refine List.Pairwise.of_map Prod.snd (fun _ _ h => h) ?_
  rw [List.zipIdx_map_snd]
  exact List.pairwise_lt_range' 1

theorem canonicalOrder_pairwise (lens : List Nat) :
    (canonicalOrder lens).Pairwise fun d e => d.1 < e.1 ∨ d.1 = e.1 ∧ d.2 < e.2 := by
  rw [canonicalOrder, List.pairwise_flatMap]
  refine ⟨fun k _ => ?_, List.pairwise_lt_range.imp fun {j k} hjk d hd e he => ?_⟩
  · refine ((pairwise_zipIdx_lt lens).filter _).imp_of_mem fun {d e} hd he hlt => .inr ⟨?_, hlt⟩
    rw [of_decide_eq_true (List.mem_filter.1 hd).2, of_decide_eq_true (List.mem_filter.1 he).2]
  · have hd := of_decide_eq_true (List.mem_filter.1 hd).2
    have he := of_decide_eq_true (List.mem_filter.1 he).2
    omega

/-- The lengths of the present symbols, in another order. -/
theorem canonicalOrder_lengths_perm {lens : List Nat} (h : ∀ l ∈ lens, l ≤ 15) :
    ((canonicalOrder lens).map Prod.fst).Perm (lens.filter fun l => l ≠ 0) := by
  have hperm : (canonicalOrder lens).Perm (lens.zipIdx.filter fun e => e.1 ≠ 0) := by
    refine (List.perm_ext_iff_of_nodup ?_ ?_).2 fun e => ?_
    · exact (canonicalOrder_pairwise lens).imp fun {d e} hlt heq => by subst heq; omega
    · exact ((pairwise_zipIdx_lt lens).imp fun {d e} hlt heq => by subst heq; omega).filter _
    · rw [mem_canonicalOrder, List.mem_filter, List.mem_zipIdx_iff_getElem?, decide_eq_true_eq]
      exact and_congr_right fun hget => and_iff_left (h _ (List.mem_of_getElem? hget))
  have hfst : (lens.zipIdx.filter fun e => e.1 ≠ 0).map Prod.fst = lens.filter fun l => l ≠ 0 := by
    conv_rhs => rw [← List.zipIdx_map_fst 0 lens, List.filter_map]
    rfl
  exact hfst ▸ hperm.map Prod.fst

/-! The Kraft sum (R183). -/

/-- A symbol whose code word has `l` bits takes 2^(15 - l) of the 2^15 values; the sum over the histogram counts the present
symbols one by one. -/
theorem kraftSum_eq (lens : List Nat) : kraftSum lens = ((canonicalOrder lens).map fun e => 2 ^ (15 - e.1)).sum := by
  rw [kraftSum, canonicalOrder, List.map_flatMap, List.flatMap_def, List.sum_flatten, List.map_map]
  refine congrArg List.sum (List.map_congr_left fun k _ => ?_)
  have hcount : lengthCount lens (k + 1) = (lens.zipIdx.filter fun e => e.1 = k + 1).length := by
    rw [lengthCount, ← List.length_map (f := Prod.fst)]
    conv_lhs => rw [← List.zipIdx_map_fst 0 lens, List.filter_map]
    rfl
  rw [Function.comp_apply, hcount, List.sum_eq_card_nsmul _ (2 ^ (15 - (k + 1))), List.length_map]
  · rfl
  · simp only [List.mem_map, List.mem_filter, decide_eq_true_eq]
    rintro _ ⟨e, ⟨-, he⟩, rfl⟩
    rw [he]

/-- Legal are the length arrays with no length above 15 whose present symbols fill the code space exactly (R183). -/
theorem validLengths_iff {lens : List Nat} :
    validLengths lens = true ↔
      (∀ l ∈ lens, l ≤ 15) ∧ ((lens.filter fun l => l ≠ 0).map fun l => 2 ^ (15 - l)).sum = 2 ^ 15 := by
  simp only [validLengths, Bool.and_eq_true, List.all_eq_true, decide_eq_true_eq, beq_iff_eq]
  refine and_congr_right fun h => ?_
  rw [kraftSum_eq, ← ((canonicalOrder_lengths_perm h).map _).sum_eq, List.map_map]
  rfl

theorem buildTable_eq_none {r : Nat} {lens : List Nat} : buildTable r lens = none ↔ ¬validLengths lens = true := by
  simp [buildTable]

theorem buildTable_eq_some {r : Nat} {lens : List Nat} {es : List Entry} :
    buildTable r lens = some es ↔ validLengths lens = true ∧ tableEntries r (canonicalCode lens) = es := by
  simp [buildTable]

/-- A single symbol takes at most half of the code space (R184). -/
theorem two_le_present {lens : List Nat} (h : validLengths lens = true) : 2 ≤ (lens.filter fun l => l ≠ 0).length := by
  obtain ⟨-, hsum⟩ := validLengths_iff.1 h
  have hpresent : ∀ l ∈ lens.filter fun l => l ≠ 0, l ≠ 0 := fun l hl => by simpa using (List.mem_filter.1 hl).2
  generalize (lens.filter fun l => l ≠ 0) = present at hsum hpresent
  match present with
  | [] => simp at hsum
  | [l] =>
    have hl := hpresent l (List.mem_singleton_self l)
    have hhalf : 2 ^ (15 - l) ≤ 2 ^ 14 := Nat.pow_le_pow_right (by decide) (by omega)
    simp only [List.map_cons, List.map_nil, List.sum_cons, List.sum_nil] at hsum
    omega
  | _ :: _ :: _ => simp

/-- Settles O30: what is not legal gives no table, and a legal array has two present symbols. -/
theorem badLengthsAreMalformed : Obligations.BadLengthsAreMalformed := by
  intro r lens present
  refine ⟨fun hbad => buildTable_eq_none.2 fun hvalid => ?_, fun hsome => ?_⟩
  · obtain ⟨h15, hsum⟩ := validLengths_iff.1 hvalid
    obtain ⟨l, hl, hlong⟩ | hfew | hne := hbad
    · exact absurd (h15 l hl) (Nat.not_le.2 hlong)
    · exact absurd (two_le_present hvalid) (Nat.not_le.2 (Nat.lt_succ_of_le hfew))
    · exact hne hsum
  · exact two_le_present (not_not.1 fun hbad => hsome (buildTable_eq_none.2 hbad))

/-! The values of a code word (R185): the 15-bit values with the word in their uppermost bits are those from `lo` on and below
`hi`, and each word's values begin where those of the word before it end. -/

/-- The first value of a code word. -/
def CodeWord.lo (w : CodeWord) : Nat := w.code * 2 ^ (15 - w.len)

/-- The first value past those of a code word. -/
def CodeWord.hi (w : CodeWord) : Nat := (w.code + 1) * 2 ^ (15 - w.len)

/-- The values of the words fill those from `a` on and below `b`, one word after the other. -/
def Tiles : Nat → List CodeWord → Nat → Prop
  | a, [], b => a = b
  | a, w :: ws, b => w.lo = a ∧ Tiles w.hi ws b

theorem CodeWord.lo_lt_hi (w : CodeWord) : w.lo < w.hi := by
  unfold CodeWord.lo CodeWord.hi
  exact Nat.mul_lt_mul_of_pos_right (Nat.lt_succ_self _) (Nat.two_pow_pos _)

theorem Tiles.le {a b : Nat} {ws : List CodeWord} (h : Tiles a ws b) : a ≤ b := by
  induction ws generalizing a with
  | nil => exact Nat.le_of_eq h
  | cons w ws ih =>
    obtain ⟨rfl, hrest⟩ := h
    exact w.lo_lt_hi.le.trans (ih hrest)

theorem Tiles.bounds {a b : Nat} {ws : List CodeWord} (h : Tiles a ws b) : ∀ w ∈ ws, a ≤ w.lo ∧ w.hi ≤ b := by
  induction ws generalizing a with
  | nil => exact fun w hw => absurd hw List.not_mem_nil
  | cons v ws ih =>
    obtain ⟨rfl, hrest⟩ := h
    intro w hw
    obtain rfl | hw := List.mem_cons.1 hw
    · exact ⟨le_rfl, hrest.le⟩
    · exact ⟨v.lo_lt_hi.le.trans (ih hrest w hw).1, (ih hrest w hw).2⟩

/-- Every value belongs to a word. -/
theorem Tiles.exists_mem {a b v : Nat} {ws : List CodeWord} (h : Tiles a ws b) (hav : a ≤ v) (hvb : v < b) :
    ∃ w ∈ ws, w.lo ≤ v ∧ v < w.hi := by
  induction ws generalizing a with
  | nil =>
    have hab : a = b := h
    omega
  | cons w ws ih =>
    obtain ⟨rfl, hrest⟩ := h
    by_cases hv : v < w.hi
    · exact ⟨w, List.mem_cons_self, hav, hv⟩
    · obtain ⟨x, hx, hxv⟩ := ih hrest (Nat.not_lt.1 hv)
      exact ⟨x, List.mem_cons_of_mem w hx, hxv⟩

/-- No value belongs to two words. -/
theorem Tiles.eq_of_mem {a b v : Nat} {ws : List CodeWord} (h : Tiles a ws b) {w x : CodeWord} (hw : w ∈ ws) (hx : x ∈ ws)
    (hwv : w.lo ≤ v ∧ v < w.hi) (hxv : x.lo ≤ v ∧ v < x.hi) : w = x := by
  induction ws generalizing a with
  | nil => exact absurd hw List.not_mem_nil
  | cons y ws ih =>
    obtain ⟨-, hrest⟩ := h
    have hbounds := hrest.bounds
    obtain rfl | hw' := List.mem_cons.1 hw <;> obtain rfl | hx' := List.mem_cons.1 hx
    · rfl
    · have := (hbounds x hx').1
      omega
    · have := (hbounds w hw').1
      omega
    · exact ih hrest hw' hx'

/-- The values of the last word are the last ones. -/
theorem Tiles.getLast {a b : Nat} {ws : List CodeWord} {w : CodeWord} (h : Tiles a ws b) (hw : ws.getLast? = some w) :
    w.hi = b := by
  induction ws generalizing a with
  | nil => simp at hw
  | cons x ws ih =>
    obtain ⟨-, hrest⟩ := h
    cases ws with
    | nil =>
      obtain rfl : x = w := by simpa using hw
      exact hrest
    | cons y ws => exact ih hrest (by rwa [List.getLast?_cons_cons] at hw)

/-- The successor shifted to its length begins where the values of the word before it end (R185). -/
theorem codesAfter_tiles {es : List (Nat × Nat)} {code len : Nat} (hlen : ∀ e ∈ es, len ≤ e.1 ∧ e.1 ≤ 15)
    (hsorted : es.Pairwise fun d e => d.1 ≤ e.1) :
    Tiles ((code + 1) * 2 ^ (15 - len)) (codesAfter code len es)
      ((code + 1) * 2 ^ (15 - len) + (es.map fun e => 2 ^ (15 - e.1)).sum) := by
  induction es generalizing code len with
  | nil => rfl
  | cons e es ih =>
    obtain ⟨hle, h15⟩ := hlen e List.mem_cons_self
    obtain ⟨hhead, htail⟩ := List.pairwise_cons.1 hsorted
    have hlo : (code + 1) * 2 ^ (e.1 - len) * 2 ^ (15 - e.1) = (code + 1) * 2 ^ (15 - len) := by
      rw [Nat.mul_assoc, ← Nat.pow_add]
      congr 2
      omega
    have hrest := ih (code := (code + 1) * 2 ^ (e.1 - len)) (len := e.1)
      (fun d hd => ⟨hhead d hd, (hlen d (List.mem_cons_of_mem e hd)).2⟩) htail
    rw [Nat.succ_mul, hlo, Nat.add_assoc] at hrest
    refine ⟨hlo, ?_⟩
    rw [CodeWord.hi, Nat.succ_mul, hlo]
    exact hrest

theorem assignCodes_tiles {es : List (Nat × Nat)} (hlen : ∀ e ∈ es, e.1 ≤ 15)
    (hsorted : es.Pairwise fun d e => d.1 ≤ e.1) :
    Tiles 0 (assignCodes es) (es.map fun e => 2 ^ (15 - e.1)).sum := by
  cases es with
  | nil => rfl
  | cons e es =>
    obtain ⟨hhead, htail⟩ := List.pairwise_cons.1 hsorted
    have hrest := codesAfter_tiles (code := 0)
      (fun d hd => ⟨hhead d hd, hlen d (List.mem_cons_of_mem e hd)⟩) htail
    refine ⟨Nat.zero_mul _, ?_⟩
    rw [Nat.zero_add, Nat.one_mul] at hrest
    rw [CodeWord.hi, Nat.zero_add, Nat.one_mul]
    exact hrest

/-- The canonical code of a legal length array fills the code space (R183, R185). -/
theorem canonicalCode_tiles {lens : List Nat} (h : validLengths lens = true) : Tiles 0 (canonicalCode lens) (2 ^ 15) := by
  have hkraft : kraftSum lens = 2 ^ 15 := by
    simp only [validLengths, Bool.and_eq_true, beq_iff_eq] at h
    exact h.2
  rw [← hkraft, kraftSum_eq]
  exact assignCodes_tiles (fun e he => (mem_canonicalOrder.1 he).2.2)
    ((canonicalOrder_pairwise lens).imp fun hlt => by omega)

/-! The words of the code, one for each present symbol (R185). -/

theorem codesAfter_map (code len : Nat) (es : List (Nat × Nat)) :
    (codesAfter code len es).map (fun w => (w.len, w.sym)) = es := by
  induction es generalizing code len with
  | nil => rfl
  | cons e es ih => exact congrArg (e :: ·) (ih _ _)

theorem canonicalCode_map (lens : List Nat) : (canonicalCode lens).map (fun w => (w.len, w.sym)) = canonicalOrder lens := by
  unfold canonicalCode
  cases canonicalOrder lens with
  | nil => rfl
  | cons e es => exact congrArg (e :: ·) (codesAfter_map _ _ _)

/-- A word's length is the length of its symbol, 1 to 15. -/
theorem canonicalCode_word {lens : List Nat} {w : CodeWord} (h : w ∈ canonicalCode lens) :
    lens[w.sym]? = some w.len ∧ w.len ≠ 0 ∧ w.len ≤ 15 := by
  have hmem : (w.len, w.sym) ∈ canonicalOrder lens := canonicalCode_map lens ▸ List.mem_map_of_mem h
  exact mem_canonicalOrder.1 hmem

/-- After a word comes its successor, shifted to the next length. -/
theorem codesAfter_successor {code len k : Nat} {es : List (Nat × Nat)} {first v w : CodeWord} (hcode : first.code = code)
    (hlen : first.len = len) (hv : (first :: codesAfter code len es)[k]? = some v)
    (hw : (first :: codesAfter code len es)[k + 1]? = some w) : w.code = (v.code + 1) * 2 ^ (w.len - v.len) := by
  induction es generalizing code len k first with
  | nil => simp [codesAfter] at hw
  | cons e es ih =>
    cases k with
    | zero =>
      obtain rfl : first = v := by simpa using hv
      obtain rfl : _ = w := by simpa [codesAfter] using hw
      rw [hcode, hlen]
    | succ k => exact ih rfl rfl (by simpa [codesAfter] using hv) (by simpa [codesAfter] using hw)

/-- Settles O29: the order is that of the present symbols, each code the successor of the one before it, and the values of the
last word end at 2^15. -/
theorem canonicalCodeRule : Obligations.CanonicalCodeRule := by
  intro lens hvalid
  obtain ⟨h15, -⟩ := validLengths_iff.1 hvalid
  refine ⟨fun sym len => ⟨?_, fun ⟨hget, h0⟩ => ?_⟩, ?_, fun w hw => ?_, fun k v w hv hw => ?_, fun w hw => ?_⟩
  · rintro ⟨code, hmem⟩
    obtain ⟨hget, h0, -⟩ := canonicalCode_word hmem
    exact ⟨hget, h0⟩
  · have hmem : (len, sym) ∈ canonicalOrder lens :=
      mem_canonicalOrder.2 ⟨hget, h0, h15 len (List.mem_of_getElem? hget)⟩
    rw [← canonicalCode_map, List.mem_map] at hmem
    obtain ⟨w, hw, heq⟩ := hmem
    obtain ⟨rfl, rfl⟩ := Prod.mk.inj heq
    exact ⟨w.code, hw⟩
  · have hsorted := canonicalOrder_pairwise lens
    rw [← canonicalCode_map] at hsorted
    exact List.Pairwise.of_map _ (fun _ _ h => h) hsorted
  · unfold canonicalCode at hw
    generalize canonicalOrder lens = order at hw
    cases order with
    | nil => simp [assignCodes] at hw
    | cons e es =>
      obtain rfl : _ = w := by simpa [assignCodes] using hw
      rfl
  · unfold canonicalCode at hv hw
    generalize canonicalOrder lens = order at hv hw
    cases order with
    | nil => simp [assignCodes] at hw
    | cons e es => exact codesAfter_successor (code := 0) (len := e.1) rfl rfl hv hw
  · obtain ⟨-, -, hlen⟩ := canonicalCode_word (List.mem_of_getLast? hw)
    have hhi : (w.code + 1) * 2 ^ (15 - w.len) = 2 ^ w.len * 2 ^ (15 - w.len) := by
      rw [← Nat.pow_add, Nat.add_sub_cancel' hlen]
      exact (canonicalCode_tiles hvalid).getLast hw
    have hsucc := Nat.eq_of_mul_eq_mul_right (Nat.two_pow_pos _) hhi
    omega

end Sys2Proof.Machine
end

section
/-! PROOFS. Code words in a stream (spec/42_huffman.md R184, R186): of the words of a legal length array exactly one stands at
each bit of a stream, and the key of a word is what its bits give as the low bits of an index. -/

namespace Sys2Proof.Machine

/-- The word stands in the stream at bit `p`, its uppermost bit first (R186). -/
def CodeWord.At (w : CodeWord) (bit : Nat → Bool) (p : Nat) : Prop :=
  ∀ k < w.len, bit (p + k) = w.code.testBit (w.len - 1 - k)

theorem CodeWord.at_congr {w : CodeWord} {bit bit' : Nat → Bool} {p p' : Nat}
    (h : ∀ k < w.len, bit (p + k) = bit' (p' + k)) : w.At bit p ↔ w.At bit' p' :=
  forall₂_congr fun k hk => by rw [h k hk]

/-- A word stands where the next 15 bits are one of its values. -/
theorem CodeWord.at_iff_value {w : CodeWord} (bit : Nat → Bool) (p : Nat) (hlen : w.len ≤ 15) (hcode : w.code < 2 ^ w.len) :
    w.At bit p ↔ w.lo ≤ brPull bit p 15 ∧ brPull bit p 15 < w.hi := by
  have hbit : ∀ k < w.len, (brPull bit p 15 / 2 ^ (15 - w.len)).testBit (w.len - 1 - k) = bit (p + k) := by
    intro k hk
    have hin : w.len - 1 - k + (15 - w.len) < 15 := by omega
    have hat : 15 - 1 - (w.len - 1 - k + (15 - w.len)) = k := by omega
    rw [Nat.testBit_div_two_pow, testBit_brPull, hat, decide_eq_true hin, Bool.true_and]
  have hdiv : w.At bit p ↔ brPull bit p 15 / 2 ^ (15 - w.len) = w.code := by
    constructor
    · intro hat
      refine Nat.eq_of_testBit_eq fun b => ?_
      by_cases hb : b < w.len
      · have hk := hat (w.len - 1 - b) (by omega)
        have hback : w.len - 1 - (w.len - 1 - b) = b := by omega
        rwa [← hbit _ (by omega), hback] at hk
      · have hout : ¬b + (15 - w.len) < 15 := by omega
        rw [Nat.testBit_div_two_pow, testBit_brPull, decide_eq_false hout, Bool.false_and, Nat.testBit_lt_two_pow]
        exact lt_of_lt_of_le hcode (Nat.pow_le_pow_right (by decide) (Nat.not_lt.1 hb))
    · intro heq k hk
      rw [← hbit k hk, heq]
  have hpos := Nat.two_pow_pos (15 - w.len)
  rw [hdiv, CodeWord.lo, CodeWord.hi, ← Nat.le_div_iff_mul_le hpos, ← Nat.div_lt_iff_lt_mul hpos]
  omega

section
variable {lens : List Nat} (hvalid : validLengths lens = true)
include hvalid

theorem canonicalCode_code_lt {w : CodeWord} (hw : w ∈ canonicalCode lens) : w.code < 2 ^ w.len := by
  obtain ⟨-, -, hlen⟩ := canonicalCode_word hw
  have hhi : (w.code + 1) * 2 ^ (15 - w.len) ≤ 2 ^ w.len * 2 ^ (15 - w.len) := by
    rw [← Nat.pow_add, Nat.add_sub_cancel' hlen]
    exact ((canonicalCode_tiles hvalid).bounds w hw).2
  exact Nat.le_of_mul_le_mul_right hhi (Nat.two_pow_pos _)

theorem canonicalCode_at_iff {w : CodeWord} (hw : w ∈ canonicalCode lens) (bit : Nat → Bool) (p : Nat) :
    w.At bit p ↔ w.lo ≤ brPull bit p 15 ∧ brPull bit p 15 < w.hi :=
  CodeWord.at_iff_value bit p (canonicalCode_word hw).2.2 (canonicalCode_code_lt hvalid hw)

/-- The code is complete: every bit pattern begins with a word (R184). -/
theorem canonicalCode_exists_at (bit : Nat → Bool) (p : Nat) : ∃ w ∈ canonicalCode lens, w.At bit p := by
  obtain ⟨w, hw, hvalue⟩ := (canonicalCode_tiles hvalid).exists_mem (Nat.zero_le _) (brPull_lt bit p 15)
  exact ⟨w, hw, (canonicalCode_at_iff hvalid hw bit p).2 hvalue⟩

/-- No bit pattern begins with two words of the code (R187). -/
theorem canonicalCode_at_unique {v w : CodeWord} {bit : Nat → Bool} {p : Nat} (hv : v ∈ canonicalCode lens)
    (hw : w ∈ canonicalCode lens) (hvat : v.At bit p) (hwat : w.At bit p) : v = w :=
  (canonicalCode_tiles hvalid).eq_of_mem hv hw ((canonicalCode_at_iff hvalid hv bit p).1 hvat)
    ((canonicalCode_at_iff hvalid hw bit p).1 hwat)

end

/-! Reversed numbers and keys (R8, R186). -/

theorem testBit_revBits (l c k : Nat) : (revBits l c).testBit k = (decide (k < l) && c.testBit (l - 1 - k)) := by
  rw [revBits, testBit_natOfBits]
  by_cases hk : k < l <;> simp [List.getD_eq_getElem?_getD, hk]

theorem revBits_lt (l c : Nat) : revBits l c < 2 ^ l :=
  Nat.lt_pow_two_of_testBit _ fun k hk => by simp [testBit_revBits, Nat.not_lt.2 hk]

theorem revBits_revBits {l c : Nat} (h : c < 2 ^ l) : revBits l (revBits l c) = c := by
  refine Nat.eq_of_testBit_eq fun k => ?_
  rw [testBit_revBits, testBit_revBits]
  by_cases hk : k < l
  · have hin : l - 1 - k < l := by omega
    have hback : l - 1 - (l - 1 - k) = k := by omega
    rw [hback, decide_eq_true hk, decide_eq_true hin, Bool.true_and, Bool.true_and]
  · rw [decide_eq_false hk, Bool.false_and, Nat.testBit_lt_two_pow]
    exact lt_of_lt_of_le h (Nat.pow_le_pow_right (by decide) (Nat.not_lt.1 hk))

theorem CodeWord.key_lt (w : CodeWord) : w.key < 2 ^ w.len := revBits_lt _ _

/-- The low bits of an index are a word's key when the word stands in the index's bits, lowest first (R186, R187). -/
theorem CodeWord.mod_eq_key_iff (w : CodeWord) (i : Nat) : i % 2 ^ w.len = w.key ↔ w.At i.testBit 0 := by
  have hkey : ∀ k < w.len, w.key.testBit k = w.code.testBit (w.len - 1 - k) := fun k hk => by
    rw [CodeWord.key, testBit_revBits, decide_eq_true hk, Bool.true_and]
  constructor
  · intro heq k hk
    rw [Nat.zero_add, ← hkey k hk, ← heq, Nat.testBit_mod_two_pow, decide_eq_true hk, Bool.true_and]
  · intro hat
    refine Nat.eq_of_testBit_eq fun k => ?_
    rw [Nat.testBit_mod_two_pow]
    by_cases hk : k < w.len
    · rw [hkey k hk, ← hat k hk, decide_eq_true hk, Bool.true_and, Nat.zero_add]
    · rw [decide_eq_false hk, Bool.false_and, CodeWord.key, testBit_revBits, decide_eq_false hk, Bool.false_and]

/-- A word longer than `r` bits stands in an index whose low `r` bits are those of its key and whose other bits begin with the
rest of its key (R187). -/
theorem CodeWord.at_split {w : CodeWord} {r i : Nat} (hlen : r < w.len) (hi : i < 2 ^ r) (j : Nat) :
    w.At (2 ^ r * j + i).testBit 0 ↔
      w.key % 2 ^ r = i ∧ j % 2 ^ (w.len - r) = w.key / 2 ^ r % 2 ^ (w.len - r) := by
  have hpow : 2 ^ w.len = 2 ^ r * 2 ^ (w.len - r) := by rw [← Nat.pow_add, Nat.add_sub_cancel' hlen.le]
  have hlow : (2 ^ r * j + i) % 2 ^ r = i := by rw [Nat.mul_add_mod, Nat.mod_eq_of_lt hi]
  have hhigh : (2 ^ r * j + i) / 2 ^ r = j := by
    rw [Nat.mul_add_div (Nat.two_pow_pos r), Nat.div_eq_of_lt hi, Nat.add_zero]
  have hkey : w.key / 2 ^ r % 2 ^ (w.len - r) = w.key / 2 ^ r :=
    Nat.mod_eq_of_lt (Nat.div_lt_of_lt_mul (hpow ▸ w.key_lt))
  rw [← w.mod_eq_key_iff, hpow, Nat.mod_mul, hlow, hhigh, hkey]
  constructor
  · intro heq
    rw [← heq]
    exact ⟨by rw [Nat.add_mul_mod_self_left, Nat.mod_eq_of_lt hi],
      by rw [Nat.add_mul_div_left _ _ (Nat.two_pow_pos r), Nat.div_eq_of_lt hi, Nat.zero_add]⟩
  · rintro ⟨hmod, hdiv⟩
    rw [hdiv, ← hmod, Nat.mod_add_div]

/-- A word of at most `r` bits stands in an index if it stands in the index's low `r` bits. -/
theorem CodeWord.at_low {w : CodeWord} {r i : Nat} (hlen : w.len ≤ r) (hi : i < 2 ^ r) (j : Nat) :
    w.At (2 ^ r * j + i).testBit 0 ↔ w.At i.testBit 0 :=
  CodeWord.at_congr fun k hk => by rw [Nat.testBit_two_pow_mul_add _ hi, if_pos (by omega)]

end Sys2Proof.Machine
end

section
/-! PROOFS. The two-level table (spec/42_huffman.md R187, R188): which words its leaves and links stand for, where its entries
stand, that they fit their fields, and HUF.BUILD, which puts it into a slot (R182). -/

namespace Sys2Proof.Machine

/-! Leaves and links of the root table. -/

theorem rootLeaf_eq_none {r i : Nat} {ws : List CodeWord} :
    rootLeaf r ws i = none ↔ ∀ w ∈ ws, w.len ≤ r → i % 2 ^ w.len ≠ w.key := by
  simp [rootLeaf]

theorem mem_subWords {r i : Nat} {ws : List CodeWord} {w : CodeWord} :
    w ∈ subWords r ws i ↔ w ∈ ws ∧ r < w.len ∧ w.key % 2 ^ r = i := by
  simp [subWords]

theorem subWidth_eq (r : Nat) (ws : List CodeWord) (i : Nat) :
    subWidth r ws i = ((subWords r ws i).map fun w => w.len - r).foldr max 0 :=
  List.foldl_eq_foldr

theorem le_subWidth {r i : Nat} {ws : List CodeWord} {w : CodeWord} (h : w ∈ subWords r ws i) :
    w.len - r ≤ subWidth r ws i :=
  subWidth_eq r ws i ▸ List.le_max_of_le (List.mem_map_of_mem h) le_rfl

/-- A second-level table is no wider than what the longest code leaves past the root. -/
theorem subWidth_le {r i b : Nat} {ws : List CodeWord} (h : ∀ w ∈ ws, w.len ≤ b) : subWidth r ws i ≤ b - r := by
  rw [subWidth_eq]
  refine List.max_le_of_forall_le _ _ fun x hx => ?_
  obtain ⟨w, hw, rfl⟩ := List.mem_map.1 hx
  exact Nat.sub_le_sub_right (h w (mem_subWords.1 hw).1) r

section
variable {lens : List Nat} (hvalid : validLengths lens = true) {r i : Nat} {w : CodeWord}
  (hw : w ∈ canonicalCode lens)
include hvalid

/-- Below a link stand longer words, one for each pattern of the bits after the root's (R187: the code is complete). -/
theorem exists_subWord (hi : i < 2 ^ r) (hlink : rootLeaf r (canonicalCode lens) i = none) (j : Nat) :
    ∃ w ∈ subWords r (canonicalCode lens) i, w.At (2 ^ r * j + i).testBit 0 := by
  obtain ⟨w, hw, hat⟩ := canonicalCode_exists_at hvalid (2 ^ r * j + i).testBit 0
  have hlen : r < w.len := Nat.not_le.1 fun hshort =>
    rootLeaf_eq_none.1 hlink w hw hshort ((w.mod_eq_key_iff i).2 ((CodeWord.at_low hshort hi j).1 hat))
  exact ⟨w, mem_subWords.2 ⟨hw, hlen, ((CodeWord.at_split hlen hi j).1 hat).1⟩, hat⟩

include hw

/-- The leaf of a root index is the word that stands in it (R187). -/
theorem rootEntry_of_at (hlen : w.len ≤ r) (hat : w.At i.testBit 0) :
    rootEntry r (canonicalCode lens) i = entryOf w.len w.sym := by
  unfold rootEntry
  split
  next v hv =>
    have hvat := List.find?_some hv
    simp only [Bool.and_eq_true, beq_iff_eq] at hvat
    rw [canonicalCode_at_unique hvalid (List.mem_of_find?_eq_some hv) hw ((v.mod_eq_key_iff i).1 hvat.2) hat]
  next hnone => exact absurd ((w.mod_eq_key_iff i).2 hat) (rootLeaf_eq_none.1 hnone w hw hlen)

/-- The root index of a longer word is a link (R187). -/
theorem rootLeaf_eq_none_of_at (hlen : r < w.len) (hi : i < 2 ^ r) {j : Nat} (hat : w.At (2 ^ r * j + i).testBit 0) :
    rootLeaf r (canonicalCode lens) i = none := by
  refine rootLeaf_eq_none.2 fun v hv hshort hkey => ?_
  have hvat := (CodeWord.at_low hshort hi j).2 ((v.mod_eq_key_iff i).1 hkey)
  obtain rfl := canonicalCode_at_unique hvalid hv hw hvat hat
  omega

/-- A second-level entry is the word that stands in the index of its root and its own (R187). -/
theorem subEntry_of_at (hlen : r < w.len) (hi : i < 2 ^ r) {j : Nat} (hat : w.At (2 ^ r * j + i).testBit 0) :
    subEntry r (canonicalCode lens) i j = entryOf (w.len - r) w.sym := by
  obtain ⟨hmod, hdiv⟩ := (CodeWord.at_split hlen hi j).1 hat
  unfold subEntry
  split
  next v hv =>
    obtain ⟨hvw, hvlen, hvmod⟩ := mem_subWords.1 (List.mem_of_find?_eq_some hv)
    have hvdiv := List.find?_some hv
    have hvat := (CodeWord.at_split hvlen hi j).2 ⟨hvmod, beq_iff_eq.1 hvdiv⟩
    rw [canonicalCode_at_unique hvalid hvw hw hvat hat]
  next hnone =>
    have hother := List.find?_eq_none.1 hnone w (mem_subWords.2 ⟨hw, hlen, hmod⟩)
    exact absurd (beq_iff_eq.2 hdiv) hother

end

/-! Where the entries stand. -/

theorem mem_linkOrder {r i : Nat} {ws : List CodeWord} :
    i ∈ linkOrder r ws ↔ i < 2 ^ r ∧ rootLeaf r ws i = none := by
  simp only [linkOrder, List.mem_filter, List.mem_map, List.mem_range, Option.isNone_iff_eq_none]
  refine and_congr_left fun _ => ⟨?_, fun hi => ⟨revBits r i, revBits_lt r i, revBits_revBits hi⟩⟩
  rintro ⟨k, -, rfl⟩
  exact revBits_lt r k

theorem linkOrder_pairwise (r : Nat) (ws : List CodeWord) :
    (linkOrder r ws).Pairwise fun i j => revBits r i < revBits r j := by
  refine List.Pairwise.filter _ (List.pairwise_map.2 (List.pairwise_lt_range.imp_of_mem fun {j k} hj hk hlt => ?_))
  rwa [revBits_revBits (List.mem_range.1 hj), revBits_revBits (List.mem_range.1 hk)]

/-- The links in the order of their indices. -/
theorem linkOrder_perm (r : Nat) (ws : List CodeWord) :
    (linkOrder r ws).Perm ((List.range (2 ^ r)).filter fun i => (rootLeaf r ws i).isNone) := by
  refine (List.perm_ext_iff_of_nodup ?_ (List.nodup_range.filter _)).2 fun i => ?_
  · exact (linkOrder_pairwise r ws).imp fun {i j} hlt heq => by subst heq; exact lt_irrefl _ hlt
  · rw [mem_linkOrder, List.mem_filter, List.mem_range, Option.isNone_iff_eq_none]

theorem tableEntries_length (r : Nat) (ws : List CodeWord) :
    (tableEntries r ws).length = 2 ^ r + ((linkOrder r ws).map fun i => 2 ^ subWidth r ws i).sum := by
  simp [tableEntries, List.length_flatMap]

theorem tableEntries_root {r i : Nat} (ws : List CodeWord) (hi : i < 2 ^ r) :
    (tableEntries r ws)[i]? = some (rootEntry r ws i) := by
  rw [tableEntries, List.getElem?_append_left (by simpa using hi), List.getElem?_map, List.getElem?_range hi]
  rfl

/-- Behind the lists made of the elements before `a` stands the one made of `a`. -/
theorem getElem?_flatMap_of_append {α β : Type} (f : α → List β) (before after : List α) (a : α) {j : Nat}
    (hj : j < (f a).length) :
    ((before ++ a :: after).flatMap f)[(before.map fun x => (f x).length).sum + j]? = (f a)[j]? := by
  rw [List.flatMap_append, List.flatMap_cons, ← List.length_flatMap,
    List.getElem?_append_right (Nat.le_add_right _ _), Nat.add_sub_cancel_left, List.getElem?_append_left hj]

/-- The links before a link in the table are those with a smaller reversed index. -/
theorem linkOrder_split {r i : Nat} {ws : List CodeWord} (hi : i ∈ linkOrder r ws) :
    ∃ after, linkOrder r ws = ((linkOrder r ws).filter fun j => revBits r j < revBits r i) ++ i :: after := by
  obtain ⟨before, after, hsplit⟩ := List.append_of_mem hi
  have hsorted := linkOrder_pairwise r ws
  rw [hsplit, List.pairwise_append, List.pairwise_cons] at hsorted
  obtain ⟨-, ⟨hafter, -⟩, hbefore⟩ := hsorted
  have hfilter : (before ++ i :: after).filter (fun j => revBits r j < revBits r i) = before := by
    rw [List.filter_append, List.filter_eq_self.2, List.filter_eq_nil_iff.2, List.append_nil]
    · intro j hj
      obtain rfl | hj := List.mem_cons.1 hj
      · simp
      · simpa using (hafter j hj).le
    · exact fun j hj => decide_eq_true (hbefore j hj i List.mem_cons_self)
  exact ⟨after, by rw [hsplit, hfilter]⟩

theorem tableEntries_sub {r i j : Nat} {ws : List CodeWord} (hi : i ∈ linkOrder r ws) (hj : j < 2 ^ subWidth r ws i) :
    (tableEntries r ws)[subBase r ws i + j]? = some (subEntry r ws i j) := by
  obtain ⟨after, hsplit⟩ := linkOrder_split hi
  have hentry := getElem?_flatMap_of_append (fun i => (List.range (2 ^ subWidth r ws i)).map (subEntry r ws i))
    ((linkOrder r ws).filter fun j => revBits r j < revBits r i) after i (j := j) (by simpa using hj)
  rw [← hsplit] at hentry
  simp only [List.length_map, List.length_range] at hentry
  rw [tableEntries, List.getElem?_append_right (by rw [List.length_map, List.length_range, subBase]; omega),
    List.length_map, List.length_range, subBase, Nat.add_assoc, Nat.add_sub_cancel_left, hentry, List.getElem?_map,
    List.getElem?_range hj]
  rfl

/-! The entries fit their fields (R188). -/

theorem subBase_lt_length {r i : Nat} {ws : List CodeWord} (hi : i ∈ linkOrder r ws) :
    subBase r ws i < (tableEntries r ws).length := by
  have hentry := tableEntries_sub hi (Nat.two_pow_pos _)
  exact (List.getElem?_eq_some_iff.1 hentry).1

/-- A table has at most 2^R + 2^15 entries. -/
theorem tableEntries_length_le {r : Nat} {ws : List CodeWord} (hr : r ≤ 15) (hlen : ∀ w ∈ ws, w.len ≤ 15) :
    (tableEntries r ws).length ≤ 2 ^ r + 2 ^ 15 := by
  have hcount : (linkOrder r ws).length ≤ 2 ^ r := by
    rw [(linkOrder_perm r ws).length_eq]
    exact (List.length_filter_le _ _).trans_eq List.length_range
  have hsum : ((linkOrder r ws).map fun i => 2 ^ subWidth r ws i).sum ≤ (linkOrder r ws).length * 2 ^ (15 - r) := by
    refine (List.sum_le_card_nsmul _ (2 ^ (15 - r)) fun x hx => ?_).trans_eq (by rw [List.length_map, smul_eq_mul])
    obtain ⟨i, -, rfl⟩ := List.mem_map.1 hx
    exact Nat.pow_le_pow_right (by decide) (subWidth_le hlen)
  have hpow : 2 ^ r * 2 ^ (15 - r) = 2 ^ 15 := by rw [← Nat.pow_add, Nat.add_sub_cancel' hr]
  have hmul := Nat.mul_le_mul_right (2 ^ (15 - r)) hcount
  rw [tableEntries_length]
  omega

/-- Where a second-level table begins is a number of 16 bits. -/
theorem subBase_lt {r i : Nat} {ws : List CodeWord} (hr : r ≤ 15) (hlen : ∀ w ∈ ws, w.len ≤ 15)
    (hi : i ∈ linkOrder r ws) : subBase r ws i < 2 ^ 16 := by
  have hpow : 2 ^ r ≤ 2 ^ 15 := Nat.pow_le_pow_right (by decide) hr
  have hsize := tableEntries_length_le hr hlen
  have hlt := subBase_lt_length hi
  omega

end Sys2Proof.Machine
end

section
/-! PROOFS. HUF.BUILD (spec/42_huffman.md R182, R183, R187): its checks, the slot it writes, and the table's entries one by
one. -/

namespace Sys2Proof.Machine

/-! The command (R182). -/

theorem execHufBuild_refused {slot : BitVec 4} {s : State}
    (h : s.cfg.nt ≤ slot.toNat ∨ s.arg1.toNat = 0 ∨ Config.maxSym < s.arg1.toNat ∨
      2 ^ s.cfg.aw < s.arg0.toNat + s.arg1.toNat) :
    execHufBuild slot s = .next (s.raised .invalidArgument) := by
  unfold execHufBuild
  split_ifs with hslot hcount hfit
  · rfl
  · rfl
  · have hfit : s.arg0.toNat + s.arg1.toNat ≤ 2 ^ s.cfg.aw := by simpa [fits] using hfit
    omega
  · rfl

section
variable {slot : BitVec 4} {s : State} (hslot : slot.toNat < s.cfg.nt) (h1 : 1 ≤ s.arg1.toNat)
  (hmax : s.arg1.toNat ≤ Config.maxSym) (hacc : s.Accessible [(s.arg0.toNat, s.arg1.toNat)])
include hslot h1 hmax hacc

/-- Lengths that are not legal leave the slot invalid (R182, R183). -/
theorem execHufBuild_malformed
    (hbad : ¬validLengths (byteNats (s.readBytes s.arg0.toNat s.arg1.toNat)) = true) :
    execHufBuild slot s = .next
      ((s.setSlot slot.toNat { s.slot slot.toNat with valid := false }).raised .malformedTable) := by
  have hfit := State.Accessible.le_top hacc h1
  rw [execHufBuild, if_neg (Nat.not_le.2 hslot), if_neg (by omega), if_neg (by simpa [fits] using hfit),
    State.touching_of_accessible hacc, buildTable_eq_none.2 hbad]
  rfl

/-- Legal lengths put the table of their code into the slot (R182). -/
theorem execHufBuild_ok (hok : validLengths (byteNats (s.readBytes s.arg0.toNat s.arg1.toNat)) = true) :
    ∃ es, es = tableEntries s.cfg.rootBits (canonicalCode (byteNats (s.readBytes s.arg0.toNat s.arg1.toNat))) ∧
      execHufBuild slot s = .next
        ((s.setSlot slot.toNat { valid := true, size := BitVec.ofNat 17 es.length, entries := es }).finish
          (BitVec.ofNat 64 es.length) 0) := by
  have hfit := State.Accessible.le_top hacc h1
  refine ⟨_, rfl, ?_⟩
  rw [execHufBuild, if_neg (Nat.not_le.2 hslot), if_neg (by omega), if_neg (by simpa [fits] using hfit),
    State.touching_of_accessible hacc, buildTable_eq_some.2 ⟨hok, rfl⟩]
  rfl

end

/-! Sums of bits (R8). -/

/-- A number is the sum of its bits' weights. -/
theorem natOfBits_map_range (f : Nat → Bool) (n : Nat) :
    natOfBits ((List.range n).map f) = ((List.range n).map fun k => (f k).toNat * 2 ^ k).sum := by
  induction n generalizing f with
  | zero => rfl
  | succ n ih =>
    have hrest : ((List.range n).map fun k => (f (k + 1)).toNat * 2 ^ (k + 1)).sum =
        2 * ((List.range n).map fun k => (f (k + 1)).toNat * 2 ^ k).sum := by
      rw [← List.sum_map_mul_left]
      exact congrArg List.sum (List.map_congr_left fun k _ => by rw [Nat.pow_succ]; ring)
    rw [List.range_succ_eq_map, List.map_cons, List.map_map, natOfBits, List.map_cons, List.map_map, List.sum_cons]
    have ih := ih fun k => f (k + 1)
    simp only [Function.comp_def, Nat.succ_eq_add_one, pow_zero, mul_one] at ih ⊢
    rw [ih, hrest]

/-- Settles O28: the checks, the slot, and the table: its length, its leaves and links, and its second-level entries, with the
links listed by their indices. -/
theorem hufBuildRule : Obligations.HufBuildRule := by
  intro slot s lens legal r code rev key below width links base entry
  have hrev : ∀ l v, rev l v = revBits l v := fun l v => (natOfBits_map_range _ l).symm
  have hkey : ∀ w, key w = w.key := fun w => hrev w.len w.code
  have hbelow : ∀ i, below i = subWords r code i := fun i =>
    List.filter_congr fun w _ => by rw [Bool.eq_iff_iff]; simp [hkey]
  have hwidth : ∀ i, width i = subWidth r code i := fun i => by rw [subWidth_eq, ← hbelow]
  have hlinks : links.Perm (linkOrder r code) := by
    refine (List.Perm.of_eq (List.filter_congr fun i _ => ?_)).trans (linkOrder_perm r code).symm
    rw [Bool.eq_iff_iff]
    simp [hkey, rootLeaf_eq_none]
  have hbase : ∀ i, base i = subBase r code i := fun i => by
    simp only [base, subBase, hrev, hwidth]
    rw [((hlinks.filter _).map _).sum_eq]
  refine ⟨execHufBuild_refused, fun hslot h1 hmax hacc => ⟨fun hbad => ?_, fun hok => ?_⟩⟩
  · exact execHufBuild_malformed hslot h1 hmax hacc fun hvalid => hbad (validLengths_iff.1 hvalid)
  have hvalid : validLengths lens = true := validLengths_iff.2 hok
  obtain ⟨es, hes, hexec⟩ := execHufBuild_ok hslot h1 hmax hacc hvalid
  refine ⟨es, hexec, ?_, fun i hi w hw hlen hmod => ?_, fun i hi => ?_, fun i hi j hj => ?_⟩
  · simp only [hes, tableEntries_length, hwidth]
    rw [(hlinks.map _).sum_eq]
  · rw [hkey] at hmod
    rw [hes, tableEntries_root _ hi, rootEntry_of_at hvalid hw hlen ((w.mod_eq_key_iff i).1 hmod)]
    rfl
  · obtain ⟨hi, hlink⟩ := mem_linkOrder.1 (hlinks.mem_iff.1 hi)
    rw [hes, tableEntries_root _ hi, rootEntry, hlink, hwidth, hbase]
    rfl
  · rw [hwidth] at hj
    have hmem := hlinks.mem_iff.1 hi
    obtain ⟨hi, hlink⟩ := mem_linkOrder.1 hmem
    obtain ⟨w, hw, hat⟩ := exists_subWord hvalid hi hlink j
    obtain ⟨hcode, hlen, -⟩ := mem_subWords.1 hw
    refine ⟨w, hbelow i ▸ hw, ?_, ?_⟩
    · rw [hkey]
      exact ((CodeWord.at_split hlen hi j).1 hat).2
    · rw [hes, hbase, tableEntries_sub hmem hj, subEntry_of_at hvalid hcode hlen hi hat]
      rfl

end Sys2Proof.Machine
end

section
/-! PROOFS. HUF.DECODE (spec/42_huffman.md R191 to R193): a table decodes the word that stands next in the stream, and the
command with its checks. -/

namespace Sys2Proof.Machine

/-! The cursor (R135). -/

/-- One skip after another is one skip: the position saturates alike. -/
theorem Reader.skip_skip {c : Config} (r : Reader) (m n : Nat) (haw : c.aw ≤ 60) :
    (r.skip c m).skip c n = r.skip c (m + n) := by
  have hpos : (r.skip c m).posAfter c n = r.posAfter c (m + n) := by
    rw [Reader.posAfter, Reader.skip_pos_toNat c r m haw]
    unfold Reader.posAfter
    omega
  simp only [Reader.skip, Reader.posAfter] at hpos ⊢
  rw [hpos]

/-! The entries a lookup meets. -/

theorem entryAt_of_getElem? {es : List Entry} {i : Nat} {e : Entry} (h : es[i]? = some e) : entryAt es i = e := by
  rw [entryAt, List.getD_eq_getElem?_getD, h]
  rfl

theorem entryOf_nbits {n : Nat} (v : Nat) (h : n ≤ 15) : (entryOf n v).nbits.toNat = n := by
  rw [entryOf, BitVec.toNat_ofNat, Nat.mod_eq_of_lt (by omega)]

theorem entryOf_value (n : Nat) {v : Nat} (h : v < 2 ^ 16) : (entryOf n v).value.toNat = v := by
  rw [entryOf, BitVec.toNat_ofNat, Nat.mod_eq_of_lt h]

/-- A peek of `n` bits holds a word of at most `n` bits where the stream does (R134, R186). -/
theorem CodeWord.at_peek {w : CodeWord} {bit : Nat → Bool} {p n : Nat} (hlen : w.len ≤ n) :
    w.At (brPeek bit p n).testBit 0 ↔ w.At bit p :=
  CodeWord.at_congr fun k hk => by simp [testBit_brPeek, lt_of_lt_of_le hk hlen]

/-- A second peek goes on where the first one ended. -/
theorem CodeWord.at_two_peeks {w : CodeWord} {bit : Nat → Bool} {p q m n : Nat} (hq : ∀ k, bit (q + k) = bit (p + m + k))
    (hlen : w.len ≤ m + n) : w.At (2 ^ m * brPeek bit q n + brPeek bit p m).testBit 0 ↔ w.At bit p := by
  refine CodeWord.at_congr fun k hk => ?_
  rw [Nat.testBit_two_pow_mul_add _ (brPeek_lt _ _ _), Nat.zero_add]
  split_ifs with hkm
  · rw [testBit_brPeek, decide_eq_true hkm, Bool.true_and]
  · have hin : k - m < n := by omega
    have hat : p + m + (k - m) = p + k := by omega
    rw [testBit_brPeek, decide_eq_true hin, Bool.true_and, hq, hat]

section
variable {c : Config} {es : List Entry} {br : Reader} (bit : Nat → Bool)

/-- A root entry that fits the root's bits is the answer (R192). -/
theorem hufDecode_of_leaf {n v : Nat} (hroot : entryAt es (brPeek bit br.pos.toNat c.rootBits) = entryOf n v)
    (hn : n ≤ c.rootBits) (h15 : n ≤ 15) (hv : v < 2 ^ 16) :
    hufDecode bit c es br = ⟨v, n, br.skip c n, br.pos.toNat + c.rootBits⟩ := by
  unfold hufDecode
  dsimp only
  rw [hroot, entryOf_nbits _ h15, entryOf_value _ hv, if_neg (Nat.not_lt.2 hn)]

/-- A longer one leads to an entry of its second-level table (R192). -/
theorem hufDecode_of_link {width base n v : Nat}
    (hroot : entryAt es (brPeek bit br.pos.toNat c.rootBits) = entryOf (c.rootBits + width) base)
    (hsub : entryAt es (base + brPeek bit (br.skip c c.rootBits).pos.toNat width) = entryOf n v) (haw : c.aw ≤ 60)
    (hwidth : 0 < width) (h15 : c.rootBits + width ≤ 15) (hbase : base < 2 ^ 16) (hn : n ≤ 15) (hv : v < 2 ^ 16) :
    hufDecode bit c es br =
      ⟨v, c.rootBits + n, br.skip c (c.rootBits + n), (br.skip c c.rootBits).pos.toNat + width⟩ := by
  unfold hufDecode
  dsimp only
  rw [hroot, entryOf_nbits _ h15, entryOf_value _ hbase, if_pos (Nat.lt_add_of_pos_right hwidth), Nat.add_sub_cancel_left,
    hsub, entryOf_nbits _ hn, entryOf_value _ hv, Reader.skip_skip _ _ _ haw]

end

/-- R193: the table of a legal length array decodes the word that stands next in the stream to its symbol and length, and the
reader advances by that length; a lookup peeks at no more than 15 bits. The bits after the root's must be those the reader
sees there. -/
theorem hufDecode_word {lens : List Nat} {c : Config} {bit : Nat → Bool} {br : Reader} {w : CodeWord}
    (hvalid : validLengths lens = true) (hcount : lens.length ≤ Config.maxSym) (haw : c.aw ≤ 60) (hr : c.rootBits ≤ 15)
    (hw : w ∈ canonicalCode lens) (hat : w.At bit br.pos.toNat)
    (hsees : ∀ k, bit ((br.skip c c.rootBits).pos.toNat + k) = bit (br.pos.toNat + c.rootBits + k)) :
    ∃ reach ≤ br.pos.toNat + 15, hufDecode bit c (tableEntries c.rootBits (canonicalCode lens)) br =
      ⟨w.sym, w.len, br.skip c w.len, reach⟩ := by
  obtain ⟨hget, -, h15⟩ := canonicalCode_word hw
  have hsym : w.sym < 2 ^ 16 := lt_of_lt_of_le (List.getElem?_eq_some_iff.1 hget).1 hcount
  have hlens : ∀ v ∈ canonicalCode lens, v.len ≤ 15 := fun v hv => (canonicalCode_word hv).2.2
  have hi := brPeek_lt bit br.pos.toNat c.rootBits
  have hroot := entryAt_of_getElem? (tableEntries_root (canonicalCode lens) hi)
  by_cases hlen : w.len ≤ c.rootBits
  · rw [rootEntry_of_at hvalid hw hlen ((CodeWord.at_peek hlen).2 hat)] at hroot
    exact ⟨_, by omega, hufDecode_of_leaf bit hroot hlen h15 hsym⟩
  · have hlen := Nat.not_le.1 hlen
    have hindex : ∀ n, w.len ≤ c.rootBits + n → w.At (2 ^ c.rootBits *
        brPeek bit (br.skip c c.rootBits).pos.toNat n + brPeek bit br.pos.toNat c.rootBits).testBit 0 :=
      fun n hn => (CodeWord.at_two_peeks hsees hn).2 hat
    have hlong := hindex w.len (Nat.le_add_left _ _)
    have hlink := rootLeaf_eq_none_of_at hvalid hw hlen hi hlong
    have hmem := mem_linkOrder.2 ⟨hi, hlink⟩
    have hle := le_subWidth (mem_subWords.2 ⟨hw, hlen, ((CodeWord.at_split hlen hi _).1 hlong).1⟩)
    have hwide : subWidth c.rootBits (canonicalCode lens) (brPeek bit br.pos.toNat c.rootBits) ≤ 15 - c.rootBits :=
      subWidth_le hlens
    have hsub := entryAt_of_getElem? (tableEntries_sub hmem (brPeek_lt bit (br.skip c c.rootBits).pos.toNat _))
    rw [subEntry_of_at hvalid hw hlen hi (hindex _ (by omega))] at hsub
    rw [rootEntry, hlink] at hroot
    have hdecode := hufDecode_of_link bit hroot hsub haw (by omega) (by omega) (subBase_lt hr hlens hmem) (by omega) hsym
    rw [Nat.add_sub_cancel' hlen.le] at hdecode
    have hpos : (br.skip c c.rootBits).pos.toNat ≤ br.pos.toNat + c.rootBits :=
      (Reader.skip_pos_toNat c br _ haw).trans_le (Nat.min_le_left _ _)
    exact ⟨_, by omega, hdecode⟩

/-! The command (R191). -/

theorem State.slot_setSlot_self {s : State} {t : Nat} (x : Slot) (h : t < s.ht.length) : (s.setSlot t x).slot t = x := by
  rw [State.slot, State.setSlot_ht, List.getD_eq_getElem?_getD, List.getElem?_set_self h]
  rfl

theorem execHufDecode_refused {slot : BitVec 4} {s : State}
    (h : s.cfg.nt ≤ slot.toNat ∨ s.br.bound = false ∨ s.br.mode = .range ∨ (s.slot slot.toNat).valid = false) :
    execHufDecode slot s = .next (s.raised .invalidArgument) := by
  unfold execHufDecode
  split_ifs with hslot hreader hvalid
  · rfl
  · rfl
  · rfl
  · simp_all

/-- Past its checks HUF.DECODE gives what `huf_decode` gives (R191, R192). -/
theorem execHufDecode_ok {slot : BitVec 4} {s : State} {d : Decoded} (hslot : slot.toNat < s.cfg.nt)
    (hb : s.br.bound = true) (hm : s.br.mode = .plain) (hvalid : (s.slot slot.toNat).valid = true)
    (hd : hufDecode s.bitLsb s.cfg (s.slot slot.toNat).entries s.br = d)
    (hbacked : s.ViewBacked s.br.pos.toNat d.reach) :
    execHufDecode slot s = .next
      ({ s with br := d.reader }.finish (BitVec.ofNat 64 d.sym) (BitVec.ofNat 64 d.used)) := by
  rw [execHufDecode, if_neg (Nat.not_le.2 hslot), if_neg (by simp [hb, hm]), if_neg (by simp [hvalid]), hd]
  exact State.touching_of_accessible (State.accessible_span hbacked) _

/-- Settles O31: the refusals, and the two ways of a lookup. -/
theorem hufDecodeRule : Obligations.HufDecodeRule := by
  intro slot s r es e br1 e2
  refine ⟨execHufDecode_refused, fun hslot hb hm hvalid => ⟨fun hleaf hbacked => ?_, fun hlink hbacked => ?_⟩⟩
  · have hd : hufDecode s.bitLsb s.cfg es s.br =
        ⟨e.value.toNat, e.nbits.toNat, s.br.skip s.cfg e.nbits.toNat, s.br.pos.toNat + r⟩ :=
      if_neg (Nat.not_lt.2 hleaf)
    have hexec := execHufDecode_ok hslot hb hm hvalid hd hbacked
    simp only [BitVec.ofNat_toNat] at hexec
    exact hexec
  · have hd : hufDecode s.bitLsb s.cfg es s.br =
        ⟨e2.value.toNat, r + e2.nbits.toNat, br1.skip s.cfg e2.nbits.toNat, br1.pos.toNat + (e.nbits.toNat - r)⟩ :=
      if_pos hlink
    have hexec := execHufDecode_ok hslot hb hm hvalid hd hbacked
    simp only [BitVec.ofNat_toNat] at hexec
    exact hexec

/-- Settles O32: HUF.BUILD put the table of the canonical code into the slot, and with no saturation in reach the reader sees
the bits after the root's there. -/
theorem hufDecodeInvertsCode : Obligations.HufDecodeInvertsCode := by
  intro slot s t u w hlegal hslots hbuild hok hcfg hslot hb hm hw hpos hbacked hat
  obtain ⟨-, haw, -, hr, -⟩ := hlegal
  obtain ⟨rfl, -⟩ | ⟨⟨hnt, -, hcount, -⟩, ⟨-, rfl⟩ | ⟨es, hes, rfl⟩⟩ := execHufBuild_next hbuild
  · exact absurd hok (by simp)
  · exact absurd hok (by simp)
  obtain ⟨hvalid, rfl⟩ := buildTable_eq_some.1 hes
  have hslot := hslot.trans (State.slot_setSlot_self _ (hslots.1 ▸ hnt))
  have hsees : ∀ k, u.bitLsb ((u.br.skip u.cfg u.cfg.rootBits).pos.toNat + k) =
      u.bitLsb (u.br.pos.toNat + u.cfg.rootBits + k) := by
    intro k
    rw [hcfg, Reader.skip_pos_toNat _ _ _ haw, Reader.posAfter_eq]
    unfold Config.posw Config.maxLen at *
    omega
  have hcount : (byteNats (s.readBytes s.arg0.toNat s.arg1.toNat)).length ≤ Config.maxSym := by
    simpa [byteNats, State.readBytes] using hcount
  obtain ⟨reach, hreach, hd⟩ := hufDecode_word hvalid hcount (hcfg ▸ haw) (hcfg ▸ hr) hw hat hsees
  refine execHufDecode_ok (hcfg ▸ hnt) hb hm (by rw [hslot]) (d := ⟨w.sym, w.len, u.br.skip u.cfg w.len, reach⟩) ?_ ?_
  · rw [hslot, ← hcfg]
    exact hd
  · exact fun i hi => hbacked i (lt_of_lt_of_le hi hreach)

end Sys2Proof.Machine
end

section
/-! PROOFS. What a description gives (spec/42_huffman.md R201, R203, R204, R206): the ranges of the code-length code's lengths,
of the token limit, and of the lengths the tokens fill. -/

namespace Sys2Proof.Machine

/-! The header and the token limit. -/

/-- A field of 3 bits is at most CL_MAXLEN (R201). -/
theorem readClLengths_le {bit : Nat → Bool} {c : Config} {syms : List Nat} {br : Reader} :
    ∀ e ∈ (readClLengths bit c syms br).1, e.2 ≤ Config.clMaxLen := by
  induction syms generalizing br with
  | nil => exact fun e he => absurd he List.not_mem_nil
  | cons sym rest ih =>
    intro e he
    obtain rfl | he := List.mem_cons.1 he
    · exact Nat.le_of_lt_succ (brPeek_lt bit br.pos.toNat 3)
    · exact ih e he

theorem clLengths_le {got : List (Nat × Nat)} {b : Nat} (h : ∀ e ∈ got, e.2 ≤ b) : ∀ l ∈ clLengths got, l ≤ b := by
  intro l hl
  obtain ⟨sym, -, rfl⟩ := List.mem_map.1 hl
  cases hfind : got.find? fun e => e.1 = sym with
  | none => exact Nat.zero_le b
  | some e => exact h e (List.mem_of_find?_eq_some hfind)

/-- A token limit that is taken is at most the number of lengths (R203). -/
theorem readTokenLimit_le {bit : Nat → Bool} {c : Config} {n limit : Nat} {br br' : Reader}
    (h : readTokenLimit bit c n br = (br', some limit)) : limit ≤ n := by
  unfold readTokenLimit at h
  dsimp only at h
  split at h
  · have h := (Prod.mk.inj h).2
    split_ifs at h
    obtain rfl := Option.some.inj h
    omega
  · exact (Option.some.inj (Prod.mk.inj h).2).ge

/-! The tokens (R204). -/

/-- Every length filled is at most 15, and each token counts against the limit. -/
theorem lengthTokens_legal {bit : Nat → Bool} {c : Config} {es : List Entry} {n limit : Nat} {run : LengthRun}
    (hout : ∀ l ∈ run.out, l ≤ 15) (hprev : run.prev ≤ 15) :
    (∀ l ∈ (lengthTokens bit c es n limit run).1.out, l ≤ 15) ∧
      (lengthTokens bit c es n limit run).1.tokens ≤ run.tokens + limit := by
  induction limit generalizing run with
  | zero => exact ⟨hout, le_rfl⟩
  | succ limit ih =>
    have hval : ∀ sym, (runToken sym run.prev).2.2 ≤ 15 := fun sym => by
      unfold runToken
      split_ifs <;> simp [hprev]
    unfold lengthTokens
    generalize hufDecode bit c es run.reader = d
    dsimp only
    split
    · split
      · rename_i hliteral
        have hprev' : (if d.sym = 0 then run.prev else d.sym) ≤ 15 := by split <;> omega
        obtain ⟨hout', htokens⟩ := ih (run := LengthRun.mk _ _ _ _ _)
          (List.forall_mem_append.2 ⟨hout, List.forall_mem_singleton.2 (Nat.le_of_lt_succ hliteral)⟩) hprev'
        exact ⟨hout', htokens.trans_eq (Nat.add_right_comm _ _ _)⟩
      · split
        · exact ⟨hout, Nat.add_le_add_left (Nat.le_add_left 1 limit) _⟩
        · obtain ⟨hout', htokens⟩ := ih (run := LengthRun.mk _ _ _ _ _)
            (List.forall_mem_append.2 ⟨hout, fun l hl => List.eq_of_mem_replicate hl ▸ hval _⟩) hprev
          exact ⟨hout', htokens.trans_eq (Nat.add_right_comm _ _ _)⟩
    · exact ⟨hout, Nat.le_add_right _ _⟩

/-- A description that is read in full: a limit that is taken, and a run of tokens that does not fail (R199). -/
theorem readDescription_some {bit : Nat → Bool} {c : Config} {n tokens : Nat} {br : Reader} {out : List Nat}
    (h : (readDescription bit c n br).lengths = some (out, tokens)) :
    ∃ es br2 br3 limit run, readTokenLimit bit c n br2 = (br3, some limit) ∧
      lengthTokens bit c es n limit ⟨br3, [], 8, 0, br3.pos.toNat⟩ = (run, true) ∧
      out = run.out ++ List.replicate (n - run.out.length) 0 ∧ tokens = run.tokens := by
  unfold readDescription at h
  dsimp only at h
  split at h
  · cases h
  · split at h
    · cases h
    · split at h
      · cases h
      · obtain ⟨rfl, rfl⟩ := Prod.mk.inj (Option.some.inj h)
        exact ⟨_, _, _, _, _, ‹_›, ‹_›, rfl, rfl⟩

/-- Settles O34: 3-bit fields, and the bounds of the tokens, whose number the limit bounds. -/
theorem readLengthsAreLegal : Obligations.ReadLengthsAreLegal := by
  intro bit c n br
  refine ⟨fun syms => clLengths_le readClLengths_le, fun out tokens h => ?_⟩
  obtain ⟨es, br2, br3, limit, run, hlimit, hrun, hout, rfl⟩ := readDescription_some h
  obtain ⟨hlegal, htokens⟩ := lengthTokens_legal (bit := bit) (c := c) (es := es) (n := n) (limit := limit)
    (run := ⟨br3, [], 8, 0, br3.pos.toNat⟩) (fun l hl => absurd hl List.not_mem_nil) (Nat.le_of_ble_eq_true rfl)
  rw [hrun] at hlegal htokens
  refine ⟨(readDescription_spec bit c n br).2 out _ h, ?_, ?_⟩
  · rw [hout]
    exact List.forall_mem_append.2 ⟨hlegal, fun l hl => List.eq_of_mem_replicate hl ▸ Nat.zero_le 15⟩
  · exact (htokens.trans_eq (Nat.zero_add limit)).trans (readTokenLimit_le hlimit)

end Sys2Proof.Machine
end

section
/-! PROOFS. A description in the bits of the stream (spec/42_huffman.md R199 to R204): the reader after `j` bits sees the
stream's bits from the `j`-th on, also where the position saturates, since every bit there is past the end of the view; so the header,
the token limit and the tokens are read at the places the rules give. -/

namespace Sys2Proof.Machine

/-! Reading on from a position (R134 to R136). -/

/-- The stream from bit `p` on. -/
def streamFrom (bit : Nat → Bool) (p : Nat) (j : Nat) : Bool := bit (p + j)

/-- A reader whose position and flag are consistent (R27), in a stream with no bit set where the position saturates. -/
structure Reader.Steady (bit : Nat → Bool) (c : Config) (br : Reader) : Prop where
  aw : c.aw ≤ 60
  pos : br.pos.toNat < 2 ^ c.posw
  eos : br.eos = eosAt br.pos.toNat br.len.toNat
  zeros : ∀ i, 2 ^ c.posw - 1 ≤ i → bit i = false

/-- A bound reader with its invariant: its view ends before the position saturates (R27, R133). -/
theorem Reader.steady_of_inv {s : State} (haw : s.cfg.aw ≤ 60) (hinv : s.br.Inv s.cfg) (hb : s.br.bound = true) :
    s.br.Steady s.bitLsb s.cfg := by
  obtain ⟨hfit, hpos, heos, -, -⟩ := hinv hb
  refine ⟨haw, hpos, heos, fun i hi => s.bitLsb_past_end i ?_⟩
  have := Nat.two_pow_pos s.cfg.aw
  rw [Config.posw, Nat.pow_add] at hi
  omega

theorem fieldAt_eq (bit : Nat → Bool) (j n : Nat) : fieldAt bit j n = brPeek bit j n :=
  (natOfBits_map_range _ n).symm

section
variable {bit : Nat → Bool} {c : Config} {br : Reader} (h : br.Steady bit c)
include h

theorem Reader.Steady.skip_zero : br.skip c 0 = br := Reader.skip_zero h.pos h.eos

/-- After `j` bits the reader sees the stream from there on. -/
theorem Reader.Steady.sees (j k : Nat) :
    bit ((br.skip c j).pos.toNat + k) = streamFrom bit br.pos.toNat (j + k) := by
  rw [Reader.skip_pos_toNat _ _ _ h.aw, streamFrom, ← Nat.add_assoc]
  by_cases hsat : br.pos.toNat + j < 2 ^ c.posw
  · rw [Reader.posAfter_eq _ _ _ hsat]
  · rw [h.zeros (br.posAfter c j + k) (by unfold Reader.posAfter; omega), h.zeros _ (by omega)]

/-- A read takes the field that stands there (R136). -/
theorem Reader.Steady.read (j n : Nat) :
    (br.skip c j).read bit c n = (fieldAt (streamFrom bit br.pos.toNat) j n, br.skip c (j + n)) := by
  rw [Reader.read, Reader.skip_skip _ _ _ h.aw, fieldAt_eq, brPeek, brPeek]
  simp only [h.sees]

theorem Reader.Steady.skip_pos_le (j : Nat) : (br.skip c j).pos.toNat ≤ br.pos.toNat + j :=
  (Reader.skip_pos_toNat c br j h.aw).trans_le (Nat.min_le_left _ _)

/-! The header (R200, R201). -/

theorem readClLengths_reader (syms : List Nat) (j : Nat) :
    (readClLengths bit c syms (br.skip c j)).2 = br.skip c (j + 3 * syms.length) := by
  induction syms generalizing j with
  | nil => rfl
  | cons sym rest ih =>
    rw [readClLengths, h.read]
    dsimp only
    rw [ih, List.length_cons, Nat.mul_succ, Nat.add_assoc, Nat.add_comm 3]

/-- The length of a symbol stands at the field of its place in the order, if that field is transmitted. -/
theorem readClLengths_find (order : List Nat) (sym : Nat) {m : Nat} (hm : m ≤ order.length) (j : Nat) :
    (((readClLengths bit c (order.take m) (br.skip c j)).1.find? fun e => e.1 = sym).map fun e => e.2).getD 0 =
      if order.idxOf sym < m then fieldAt (streamFrom bit br.pos.toNat) (j + 3 * order.idxOf sym) 3 else 0 := by
  induction order generalizing m j with
  | nil =>
    obtain rfl : m = 0 := by simpa using hm
    rfl
  | cons first rest ih =>
    cases m with
    | zero => rfl
    | succ m =>
      rw [List.take_succ_cons, readClLengths, h.read]
      dsimp only
      rw [List.find?_cons, List.idxOf_cons]
      by_cases heq : first = sym
      · simp [heq]
      · rw [List.length_cons] at hm
        have hplace : j + 3 + 3 * rest.idxOf sym = j + 3 * (rest.idxOf sym + 1) := by omega
        simp only [heq, decide_false, beq_false_of_ne heq, cond_false, ih (Nat.le_of_succ_le_succ hm), hplace,
          Nat.succ_lt_succ_iff]

theorem clLengths_header {m : Nat} (hm : m = 4 + fieldAt (streamFrom bit br.pos.toNat) 0 4) :
    clLengths (readClLengths bit c (clOrder.take m) (br.skip c 4)).1 = headerLengths (streamFrom bit br.pos.toNat) := by
  have hcount : fieldAt (streamFrom bit br.pos.toNat) 0 4 < 2 ^ 4 := fieldAt_eq _ _ _ ▸ brPeek_lt _ _ _
  refine List.map_congr_left fun sym _ => ?_
  rw [readClLengths_find h clOrder sym (show m ≤ 19 by omega), hm]
  rfl

end

/-! The code-length code (R201, R202). -/

theorem headerLengths_le (bit : Nat → Bool) : ∀ l ∈ headerLengths bit, l ≤ 15 := by
  intro l hl
  obtain ⟨sym, -, rfl⟩ := List.mem_map.1 hl
  dsimp only
  split
  · have hfield : fieldAt bit (4 + 3 * lengthOrder.idxOf sym) 3 < 2 ^ 3 := fieldAt_eq _ _ _ ▸ brPeek_lt _ _ _
    omega
  · exact Nat.zero_le 15

theorem headerLengths_length (bit : Nat → Bool) : (headerLengths bit).length ≤ Config.maxSym := by
  rw [headerLengths, List.length_map, List.length_range]
  decide

/-- No field of the header is above 15, so the sum alone decides (R202). -/
theorem validLengths_header (bit : Nat → Bool) :
    validLengths (headerLengths bit) = true ↔
      (((headerLengths bit).filter fun l => l ≠ 0).map fun l => 2 ^ (15 - l)).sum = 2 ^ 15 :=
  validLengths_iff.trans (and_iff_right (headerLengths_le bit))

/-! The places of a description (R199, R203), as HufReadlengthsRule names them. -/

/-- The first bit after the header. -/
def headerEnd (bit : Nat → Bool) : Nat := 4 + 3 * (4 + fieldAt bit 0 4)

/-- The width of the token limit's field. -/
def limitWidth (bit : Nat → Bool) : Nat := 2 + 2 * fieldAt bit (headerEnd bit + 1) 3

/-- The token limit for `n` lengths. -/
def tokenLimit (bit : Nat → Bool) (n : Nat) : Nat :=
  if bit (headerEnd bit) then 2 + fieldAt bit (headerEnd bit + 4) (limitWidth bit) else n

/-- The first bit of the first token. -/
def tokensStart (bit : Nat → Bool) : Nat :=
  if bit (headerEnd bit) then headerEnd bit + 4 + limitWidth bit else headerEnd bit + 1

theorem fieldAt_one (bit : Nat → Bool) (j : Nat) : fieldAt bit j 1 = (bit j).toNat := by simp [fieldAt]

section
variable {bit : Nat → Bool} {c : Config} {br : Reader} (h : br.Steady bit c)
include h

/-- The token limit is read behind the header (R203). -/
theorem readTokenLimit_eq (n : Nat) :
    readTokenLimit bit c n (br.skip c (headerEnd (streamFrom bit br.pos.toNat))) =
      (br.skip c (tokensStart (streamFrom bit br.pos.toNat)),
        if n < tokenLimit (streamFrom bit br.pos.toNat) n then none
        else some (tokenLimit (streamFrom bit br.pos.toNat) n)) := by
  unfold readTokenLimit tokenLimit tokensStart
  rw [h.read, fieldAt_one]
  cases hflag : streamFrom bit br.pos.toNat (headerEnd (streamFrom bit br.pos.toNat)) with
  | false => simp
  | true =>
    simp only [Bool.toNat_true, if_true]
    rw [h.read]
    dsimp only
    rw [h.read]
    rfl

theorem readDescription_count : br.read bit c 4 = (fieldAt (streamFrom bit br.pos.toNat) 0 4, br.skip c 4) := by
  have hread := h.read 0 4
  rwa [h.skip_zero, Nat.zero_add] at hread

/-- The header ends behind its last field (R201). -/
theorem readClLengths_header {m : Nat} (hm : m = 4 + fieldAt (streamFrom bit br.pos.toNat) 0 4) :
    (readClLengths bit c (clOrder.take m) (br.skip c 4)).2 = br.skip c (headerEnd (streamFrom bit br.pos.toNat)) := by
  have hcount : fieldAt (streamFrom bit br.pos.toNat) 0 4 < 2 ^ 4 := fieldAt_eq _ _ _ ▸ brPeek_lt _ _ _
  have hlen : (clOrder.take m).length = m := List.length_take_of_le (show m ≤ 19 by omega)
  rw [readClLengths_reader h, hlen, hm]
  rfl

/-- A header whose code-length code is not legal ends the description (R202). -/
theorem readDescription_malformed (n : Nat) (hbad : ¬validLengths (headerLengths (streamFrom bit br.pos.toNat)) = true) :
    ∃ reach ≤ br.pos.toNat + headerEnd (streamFrom bit br.pos.toNat),
      readDescription bit c n br = ⟨br.skip c (headerEnd (streamFrom bit br.pos.toNat)), reach, none⟩ := by
  refine ⟨_, h.skip_pos_le _, ?_⟩
  unfold readDescription
  rw [readDescription_count h]
  dsimp only
  rw [clLengths_header h rfl, readClLengths_header h rfl, buildTable_eq_none.2 hbad]

section
variable (hvalid : validLengths (headerLengths (streamFrom bit br.pos.toNat)) = true)
include hvalid

/-- A token limit above the number of lengths ends the description (R203). -/
theorem readDescription_limit {n : Nat} (hlimit : n < tokenLimit (streamFrom bit br.pos.toNat) n) :
    ∃ reach ≤ br.pos.toNat + tokensStart (streamFrom bit br.pos.toNat),
      readDescription bit c n br = ⟨br.skip c (tokensStart (streamFrom bit br.pos.toNat)), reach, none⟩ := by
  refine ⟨_, h.skip_pos_le _, ?_⟩
  unfold readDescription
  rw [readDescription_count h]
  dsimp only
  rw [clLengths_header h rfl, readClLengths_header h rfl, buildTable_eq_some.2 ⟨hvalid, rfl⟩]
  dsimp only
  rw [readTokenLimit_eq h, if_pos hlimit]

/-- Otherwise the tokens decide how it ends (R204). -/
theorem readDescription_tokens {n : Nat} (hlimit : tokenLimit (streamFrom bit br.pos.toNat) n ≤ n) {run : LengthRun}
    {whole : Bool}
    (hrun : lengthTokens bit c (tableEntries c.rootBits (canonicalCode (headerLengths (streamFrom bit br.pos.toNat)))) n
      (tokenLimit (streamFrom bit br.pos.toNat) n)
      ⟨br.skip c (tokensStart (streamFrom bit br.pos.toNat)), [], 8, 0,
        (br.skip c (tokensStart (streamFrom bit br.pos.toNat))).pos.toNat⟩ = (run, whole)) :
    readDescription bit c n br = ⟨run.reader, max run.reach run.reader.pos.toNat,
      if whole then some (run.out ++ List.replicate (n - run.out.length) 0, run.tokens) else none⟩ := by
  unfold readDescription
  rw [readDescription_count h]
  dsimp only
  rw [clLengths_header h rfl, readClLengths_header h rfl, buildTable_eq_some.2 ⟨hvalid, rfl⟩]
  dsimp only
  rw [readTokenLimit_eq h, if_neg (Nat.not_lt.2 hlimit)]
  dsimp only
  rw [hrun]
  cases whole <;> rfl

end

end

end Sys2Proof.Machine
end

section
/-! PROOFS. The tokens of a description (spec/42_huffman.md R204): the second pass follows the steps of TokenStep, of which
there is exactly one from each place, and ends where they end. -/

namespace Sys2Proof.Machine

/-! One token. -/

/-- Where the second pass stands after the token of a word: a literal, or a run with its extra bits. -/
def TokenState.after (bit : Nat → Bool) (a : TokenState) (w : CodeWord) : TokenState :=
  if w.sym < 16 then ⟨a.pos + w.len, a.out ++ [w.sym], if w.sym = 0 then a.prev else w.sym⟩
  else
    ⟨a.pos + w.len + (runToken w.sym a.prev).1,
      a.out ++ List.replicate ((runToken w.sym a.prev).2.1 + fieldAt bit (a.pos + w.len) (runToken w.sym a.prev).1)
        (runToken w.sym a.prev).2.2, a.prev⟩

theorem TokenState.after_literal {bit : Nat → Bool} {a : TokenState} {w : CodeWord} (h : w.sym < 16) :
    a.after bit w = ⟨a.pos + w.len, a.out ++ [w.sym], if w.sym = 0 then a.prev else w.sym⟩ := if_pos h

theorem TokenState.after_run {bit : Nat → Bool} {a : TokenState} {w : CodeWord} (h : ¬w.sym < 16) :
    a.after bit w = ⟨a.pos + w.len + (runToken w.sym a.prev).1,
      a.out ++ List.replicate ((runToken w.sym a.prev).2.1 + fieldAt bit (a.pos + w.len) (runToken w.sym a.prev).1)
        (runToken w.sym a.prev).2.2, a.prev⟩ := if_neg h

/-- The four kinds of tokens are literals and the runs of R204's table. -/
theorem tokenStep_iff {bit : Nat → Bool} {code : List CodeWord} {a b : TokenState} :
    TokenStep bit code a b ↔ ∃ w ∈ code, w.At bit a.pos ∧ b = a.after bit w := by
  refine exists_congr fun w => and_congr_right fun _ => and_congr_right fun _ => ?_
  unfold TokenState.after runToken
  dsimp only
  split_ifs <;> rfl

theorem TokenState.pos_le_after (bit : Nat → Bool) (a : TokenState) (w : CodeWord) : a.pos ≤ (a.after bit w).pos := by
  unfold TokenState.after
  split
  · exact Nat.le_add_right _ _
  · exact (Nat.le_add_right _ _).trans (Nat.le_add_right _ _)

/-- The second pass as it stands at a token state. -/
def TokenState.run (c : Config) (br : Reader) (a : TokenState) (tokens reach : Nat) : LengthRun :=
  ⟨br.skip c a.pos, a.out, a.prev, tokens, reach⟩

/-- The pass ends when the lengths are filled or the limit is used up (R204). -/
theorem lengthTokens_end {bit : Nat → Bool} {c : Config} {es : List Entry} {n limit : Nat} {run : LengthRun}
    (h : n ≤ run.out.length ∨ limit = 0) : lengthTokens bit c es n limit run = (run, true) := by
  cases limit with
  | zero => rfl
  | succ limit =>
    unfold lengthTokens
    exact if_neg (by omega)

section
variable {bit : Nat → Bool} {c : Config} {br : Reader} (h : br.Steady bit c) {lens : List Nat}
  (hvalid : validLengths lens = true) (hcount : lens.length ≤ Config.maxSym) (hr : c.rootBits ≤ 15)
include h hvalid hcount hr

/-- The lookup of a token (R192, R193). -/
theorem hufDecode_token {a : TokenState} {w : CodeWord} (hw : w ∈ canonicalCode lens)
    (hat : w.At (streamFrom bit br.pos.toNat) a.pos) :
    ∃ reach ≤ br.pos.toNat + a.pos + 15,
      hufDecode bit c (tableEntries c.rootBits (canonicalCode lens)) (br.skip c a.pos) =
        ⟨w.sym, w.len, br.skip c (a.pos + w.len), reach⟩ := by
  have hat : w.At bit (br.skip c a.pos).pos.toNat := (CodeWord.at_congr fun k _ => h.sees a.pos k).2 hat
  have hsees : ∀ k, bit (((br.skip c a.pos).skip c c.rootBits).pos.toNat + k) =
      bit ((br.skip c a.pos).pos.toNat + c.rootBits + k) := fun k => by
    rw [Reader.skip_skip _ _ _ h.aw, h.sees, Nat.add_assoc, Nat.add_assoc, h.sees]
  obtain ⟨reach, hreach, hd⟩ := hufDecode_word hvalid hcount h.aw hr hw hat hsees
  rw [Reader.skip_skip _ _ _ h.aw] at hd
  exact ⟨reach, hreach.trans (Nat.add_le_add_right (h.skip_pos_le a.pos) 15), hd⟩

/-- One round of the second pass takes one token: it goes on from the state after it, or fails when that passes the number of
lengths. -/
theorem lengthTokens_step {a b : TokenState} {n tokens reach : Nat} (hmore : a.out.length < n)
    (hstep : TokenStep (streamFrom bit br.pos.toNat) (canonicalCode lens) a b) (limit : Nat)
    (hreach : reach ≤ br.pos.toNat + a.pos + 15) :
    ∃ reach' ≤ br.pos.toNat + b.pos + 15,
      lengthTokens bit c (tableEntries c.rootBits (canonicalCode lens)) n (limit + 1) (a.run c br tokens reach) =
        if n < b.out.length then (⟨br.skip c b.pos, a.out, a.prev, tokens + 1, reach'⟩, false)
        else lengthTokens bit c (tableEntries c.rootBits (canonicalCode lens)) n limit (b.run c br (tokens + 1) reach') := by
  obtain ⟨w, hw, hat, rfl⟩ := tokenStep_iff.1 hstep
  obtain ⟨peeked, hpeeked, hd⟩ := hufDecode_token h hvalid hcount hr hw hat
  have hpos := a.pos_le_after (streamFrom bit br.pos.toNat) w
  refine ⟨max reach peeked, by omega, ?_⟩
  rw [lengthTokens, TokenState.run, if_pos hmore, hd]
  dsimp only
  by_cases hliteral : w.sym < 16
  · have hfit : ¬n < (a.out ++ [w.sym]).length := by
      rw [List.length_append, List.length_singleton]
      omega
    rw [if_pos hliteral, TokenState.after_literal hliteral, if_neg hfit]
    rfl
  · rw [if_neg hliteral, TokenState.after_run hliteral, h.read]
    simp only [List.length_append, List.length_replicate]
    rfl

/-- The second pass goes through a run of tokens (R204). -/
theorem lengthTokens_run_eq {n start limit count : Nat} {run : Nat → TokenState}
    (hrun : TokenRun (streamFrom bit br.pos.toNat) (canonicalCode lens) n start count run) (hle : count ≤ limit) :
    ∃ reach ≤ br.pos.toNat + (run count).pos + 15,
      lengthTokens bit c (tableEntries c.rootBits (canonicalCode lens)) n limit
          ⟨br.skip c start, [], 8, 0, (br.skip c start).pos.toNat⟩ =
        lengthTokens bit c (tableEntries c.rootBits (canonicalCode lens)) n (limit - count)
          ((run count).run c br count reach) := by
  obtain ⟨hstart, hsteps⟩ := hrun
  induction count with
  | zero =>
    rw [hstart]
    exact ⟨_, (h.skip_pos_le start).trans (Nat.le_add_right _ 15), rfl⟩
  | succ count ih =>
    obtain ⟨reach, hreach, heq⟩ := ih (by omega) fun k hk => hsteps k (Nat.lt_succ_of_lt hk)
    obtain ⟨hmore, hstep, hfit⟩ := hsteps count (Nat.lt_succ_self count)
    obtain ⟨reach', hreach', hnext⟩ := lengthTokens_step h hvalid hcount hr (tokens := count) hmore hstep
      (limit - (count + 1)) hreach
    have hlimit : limit - count = limit - (count + 1) + 1 := by omega
    rw [if_neg (Nat.not_lt.2 hfit)] at hnext
    exact ⟨reach', hreach', by rw [heq, hlimit, hnext]⟩

end

/-! Runs of tokens. -/

/-- From each place a token can be read, until the lengths are filled, the limit is used up, or a token passes the number of
lengths (R184, R204). -/
theorem exists_tokenRun {lens : List Nat} (hvalid : validLengths lens = true) (bit : Nat → Bool) (n limit : Nat)
    (a : TokenState) (ha : a.out.length ≤ n) :
    ∃ count ≤ limit, ∃ run : Nat → TokenState, run 0 = a ∧
      (∀ k < count, (run k).out.length < n ∧ TokenStep bit (canonicalCode lens) (run k) (run (k + 1)) ∧
        (run (k + 1)).out.length ≤ n) ∧
      ((run count).out.length = n ∨ count = limit ∨
        ∃ past, TokenStep bit (canonicalCode lens) (run count) past ∧ n < past.out.length) := by
  induction limit generalizing a with
  | zero => exact ⟨0, le_rfl, fun _ => a, rfl, fun k hk => absurd hk (Nat.not_lt_zero k), .inr (.inl rfl)⟩
  | succ limit ih =>
    by_cases hmore : a.out.length < n
    · obtain ⟨w, hw, hat⟩ := canonicalCode_exists_at hvalid bit a.pos
      have hstep : TokenStep bit (canonicalCode lens) a (a.after bit w) := tokenStep_iff.2 ⟨w, hw, hat, rfl⟩
      by_cases hpast : n < (a.after bit w).out.length
      · exact ⟨0, Nat.zero_le _, fun _ => a, rfl, fun k hk => absurd hk (Nat.not_lt_zero k),
          .inr (.inr ⟨_, hstep, hpast⟩)⟩
      · obtain ⟨count, hle, run, hrun0, hsteps, hend⟩ := ih (a.after bit w) (Nat.not_lt.1 hpast)
        refine ⟨count + 1, Nat.succ_le_succ hle, fun k => k.casesOn a run, rfl, fun k hk => ?_, ?_⟩
        · cases k with
          | zero =>
            show a.out.length < n ∧ TokenStep bit (canonicalCode lens) a (run 0) ∧ (run 0).out.length ≤ n
            rw [hrun0]
            exact ⟨hmore, hstep, Nat.not_lt.1 hpast⟩
          | succ k => exact hsteps k (Nat.lt_of_succ_lt_succ hk)
        · exact hend.imp_right (Or.imp_left (congrArg Nat.succ))
    · exact ⟨0, Nat.zero_le _, fun _ => a, rfl, fun k hk => absurd hk (Nat.not_lt_zero k),
        .inl (Nat.le_antisymm ha (Nat.not_lt.1 hmore))⟩

theorem TokenRun.length_le {bit : Nat → Bool} {code : List CodeWord} {n start count : Nat} {run : Nat → TokenState}
    (h : TokenRun bit code n start count run) : (run count).out.length ≤ n := by
  obtain ⟨hstart, hsteps⟩ := h
  cases count with
  | zero =>
    rw [hstart]
    exact Nat.zero_le n
  | succ count => exact (hsteps count (Nat.lt_succ_self count)).2.2

/-! How the description ends, when the tokens decide it. -/

section
variable {bit : Nat → Bool} {c : Config} {br : Reader} (h : br.Steady bit c) (hr : c.rootBits ≤ 15)
  (hvalid : validLengths (headerLengths (streamFrom bit br.pos.toNat)) = true) {n count : Nat} {run : Nat → TokenState}
  (hlimit : tokenLimit (streamFrom bit br.pos.toNat) n ≤ n) (hcount : count ≤ tokenLimit (streamFrom bit br.pos.toNat) n)
  (hrun : TokenRun (streamFrom bit br.pos.toNat) (canonicalCode (headerLengths (streamFrom bit br.pos.toNat))) n
    (tokensStart (streamFrom bit br.pos.toNat)) count run)
include h hr hvalid hlimit hcount hrun

/-- A token that passes the number of lengths makes it fail there (R204). -/
theorem readDescription_past {past : TokenState} (hmore : (run count).out.length < n)
    (hleft : count < tokenLimit (streamFrom bit br.pos.toNat) n)
    (hstep : TokenStep (streamFrom bit br.pos.toNat) (canonicalCode (headerLengths (streamFrom bit br.pos.toNat)))
      (run count) past) (hpast : n < past.out.length) :
    ∃ reach ≤ br.pos.toNat + past.pos + 15, readDescription bit c n br = ⟨br.skip c past.pos, reach, none⟩ := by
  obtain ⟨limit, hsucc⟩ := Nat.exists_eq_add_of_lt hleft
  obtain ⟨reach, hreach, htokens⟩ := lengthTokens_run_eq h hvalid (headerLengths_length _) hr hrun hcount
  obtain ⟨reach', hreach', hfail⟩ := lengthTokens_step h hvalid (headerLengths_length _) hr (tokens := count) hmore hstep
    limit hreach
  have hleft : tokenLimit (streamFrom bit br.pos.toNat) n - count = limit + 1 := by omega
  rw [if_pos hpast] at hfail
  rw [hleft, hfail] at htokens
  have hpos := h.skip_pos_le past.pos
  exact ⟨_, by dsimp only; omega, readDescription_tokens h hvalid hlimit htokens⟩

/-- When the lengths are filled or the limit is used up it gives the lengths, 0 for those not reached (R204). -/
theorem readDescription_done (hend : (run count).out.length = n ∨ count = tokenLimit (streamFrom bit br.pos.toNat) n) :
    ∃ reach ≤ br.pos.toNat + (run count).pos + 15, readDescription bit c n br =
      ⟨br.skip c (run count).pos, reach,
        some ((run count).out ++ List.replicate (n - (run count).out.length) 0, count)⟩ := by
  obtain ⟨reach, hreach, htokens⟩ := lengthTokens_run_eq h hvalid (headerLengths_length _) hr hrun hcount
  have htokens := htokens.trans (lengthTokens_end (hend.imp (fun hn => hn.ge) fun hc => by omega))
  have hpos := h.skip_pos_le (run count).pos
  exact ⟨_, by dsimp only [TokenState.run]; omega, readDescription_tokens h hvalid hlimit htokens⟩

end

end Sys2Proof.Machine
end

section
/-! PROOFS. HUF.READLENGTHS (spec/42_huffman.md R199, R205): its checks, and how it ends after the description. -/

namespace Sys2Proof.Machine

/-! The command. -/

theorem execHufReadlengths_refused {s : State}
    (h : s.br.bound = false ∨ s.br.mode = .range ∨ s.arg1.toNat = 0 ∨ Config.maxSym < s.arg1.toNat ∨
      2 ^ s.cfg.aw < s.arg0.toNat + s.arg1.toNat) :
    execHufReadlengths s = .next (s.raised .invalidArgument) := by
  unfold execHufReadlengths
  split_ifs with hreader hcount hfit
  · rfl
  · rfl
  · have hfit : s.arg0.toNat + s.arg1.toNat ≤ 2 ^ s.cfg.aw := by simpa [fits] using hfit
    obtain h | h | h | h | h := h
    · exact absurd (.inl h) hreader
    · exact absurd (.inr (by simp [h])) hreader
    all_goals omega
  · rfl

/-- A store that does not pass 2^AW (R10, R71): the bytes stored, where the writer's region does not hold any value. -/
theorem State.stores_storeBytes {s : State} {a : Nat} {bs : List Byte} (h : a + bs.length ≤ 2 ^ s.cfg.aw) :
    s.Stores (s.storeBytes a bs) a bs := by
  refine ⟨⟨_, rfl⟩, fun k hk hheld => ?_, fun x hx hheld => ?_⟩
  · rw [State.readByte_of_not_held (s := s.storeBytes a bs) hheld, State.read_storeBytes _ h, if_pos (by omega),
      Nat.add_sub_cancel_left]
  · rw [State.readByte_of_not_held (s := s.storeBytes a bs) hheld, State.readByte_of_not_held hheld,
      State.read_storeBytes_outside hx]

section
variable {s : State} (hb : s.br.bound = true) (hm : s.br.mode = .plain) (h1 : 1 ≤ s.arg1.toNat)
  (hmax : s.arg1.toNat ≤ Config.maxSym) (hfit : s.arg0.toNat + s.arg1.toNat ≤ 2 ^ s.cfg.aw) {d : Description}
  (hd : readDescription s.bitLsb s.cfg s.arg1.toNat s.br = d) {q : Nat} (hreach : d.reach ≤ q)
  (hbacked : s.ViewBacked s.br.pos.toNat q)
include hb hm h1 hmax hfit hd hreach hbacked

/-- A reader past the end of the view makes every end TruncatedStream (R205). -/
theorem execHufReadlengths_truncated (heos : d.reader.eos = true) :
    execHufReadlengths s = .next ({ s with br := d.reader }.raised .truncatedStream) := by
  have hbacked : s.ViewBacked s.br.pos.toNat d.reach := fun i hi => hbacked i (lt_of_lt_of_le hi hreach)
  rw [execHufReadlengths, if_neg (by simp [hb, hm]), if_neg (by omega), if_neg (by simpa [fits] using hfit), hd]
  dsimp only
  rw [State.touching_of_accessible (State.accessible_span hbacked), if_pos heos]
  rfl

/-- A description that fails (R199, R205). -/
theorem execHufReadlengths_stops (hnone : d.lengths = none) :
    execHufReadlengths s = .next
      ({ s with br := d.reader }.raised (if d.reader.eos then .truncatedStream else .malformedTable)) := by
  by_cases heos : d.reader.eos = true
  · rw [execHufReadlengths_truncated hb hm h1 hmax hfit hd hreach hbacked heos, if_pos heos]
  · have hbacked : s.ViewBacked s.br.pos.toNat d.reach := fun i hi => hbacked i (lt_of_lt_of_le hi hreach)
    rw [execHufReadlengths, if_neg (by simp [hb, hm]), if_neg (by omega), if_neg (by simpa [fits] using hfit), hd]
    dsimp only
    rw [State.touching_of_accessible (State.accessible_span hbacked), if_neg heos, hnone, if_neg heos]
    rfl

/-- A description read in full stores its lengths (R199, R206). -/
theorem execHufReadlengths_ok {out : List Nat} {tokens : Nat} (heos : d.reader.eos = false)
    (hsome : d.lengths = some (out, tokens)) (hacc : s.Accessible [(s.arg0.toNat, s.arg1.toNat)]) :
    execHufReadlengths s = .next
      (({ s with br := d.reader }.storeBytes s.arg0.toNat (out.map fun l => BitVec.ofNat 8 l)).finish
        (BitVec.ofNat 64 tokens) 0) := by
  have hbacked : s.ViewBacked s.br.pos.toNat d.reach := fun i hi => hbacked i (lt_of_lt_of_le hi hreach)
  rw [execHufReadlengths, if_neg (by simp [hb, hm]), if_neg (by omega), if_neg (by simpa [fits] using hfit), hd]
  dsimp only
  rw [State.touching_of_accessible (State.accessible_span hbacked), if_neg (by simp [heos]), hsome]
  dsimp only
  rw [State.touching_of_accessible hacc, heos]
  rfl

end

/-- Settles O33: the checks, then the description at the places the rules give: the header, the limit, and the tokens, which
end as TokenRun says. -/
theorem hufReadlengthsRule : Obligations.HufReadlengthsRule := by
  intro s n p bit cl code legal h nb limit start ended stops
  refine ⟨execHufReadlengths_refused, fun hlegal hinv hb hm h1 hmax hfit => ?_⟩
  obtain ⟨-, haw, -, hr, -⟩ := hlegal
  have hsteady := Reader.steady_of_inv haw hinv hb
  have hvalid : legal → validLengths cl = true := (validLengths_header bit).2
  refine ⟨fun hbad hbacked => ?_, fun hok hover hbacked => ?_, fun hok hlimit => ⟨?_, fun count run hcount hrun =>
    ⟨fun past hmore hleft hstep hpast hbacked => ?_, fun hend hbacked => ?_⟩⟩⟩
  · obtain ⟨reach, hreach, hd⟩ :=
      readDescription_malformed hsteady n fun hvalid => hbad ((validLengths_header bit).1 hvalid)
    have hexec := execHufReadlengths_stops hb hm h1 hmax hfit hd hreach hbacked rfl
    exact hexec
  · obtain ⟨reach, hreach, hd⟩ := readDescription_limit hsteady (hvalid hok) hover
    have hexec := execHufReadlengths_stops hb hm h1 hmax hfit hd hreach hbacked rfl
    exact hexec
  · obtain ⟨count, hcount, run, hstart, hsteps, hend⟩ :=
      exists_tokenRun (hvalid hok) bit n limit ⟨start, [], 8⟩ (Nat.zero_le n)
    exact ⟨count, run, hcount, ⟨hstart, hsteps⟩, hend⟩
  · obtain ⟨reach, hreach, hd⟩ :=
      readDescription_past hsteady hr (hvalid hok) hlimit hcount hrun hmore hleft hstep hpast
    have hexec := execHufReadlengths_stops hb hm h1 hmax hfit hd hreach hbacked rfl
    exact hexec
  · obtain ⟨reach, hreach, hd⟩ := readDescription_done hsteady hr (hvalid hok) hlimit hcount hrun hend
    refine ⟨fun heos => execHufReadlengths_truncated hb hm h1 hmax hfit hd hreach hbacked heos, fun heos hacc => ?_⟩
    have hout : ((run count).out ++ List.replicate (n - (run count).out.length) 0).length = n := by
      have hle := hrun.length_le
      rw [List.length_append, List.length_replicate]
      omega
    refine ⟨_, execHufReadlengths_ok hb hm h1 hmax hfit hd hreach hbacked heos rfl hacc, State.stores_storeBytes ?_, hout⟩
    rw [List.length_map, hout]
    exact hfit

end Sys2Proof.Machine
end

section
/-! PROOFS. Pixels and images (spec/00_scope.md R12, spec/30_encoding.md R108, R109): the channels of a pixel, the raster order
of an image, and its pixels in memory. -/

namespace Sys2Proof.Machine

/-! Channels (R12). -/

theorem argb_toNat (a r g b : Byte) :
    (argb a r g b).toNat = 256 * (256 * (256 * a.toNat + r.toNat) + g.toNat) + b.toNat := by
  rw [argb, BitVec.toNat_append, BitVec.toNat_append, BitVec.toNat_append, ← Nat.shiftLeft_add_eq_or_of_lt b.isLt,
    ← Nat.shiftLeft_add_eq_or_of_lt g.isLt, ← Nat.shiftLeft_add_eq_or_of_lt r.isLt]
  omega

/-- A channel is the pixel's byte from a bit on. -/
theorem extract_byte_eq {p : Word} {lo : Nat} {c : Byte} (h : p.toNat / 2 ^ lo % 2 ^ 8 = c.toNat) :
    p.extractLsb' lo 8 = c := by
  apply BitVec.eq_of_toNat_eq
  rw [BitVec.extractLsb'_toNat, Nat.shiftRight_eq_div_pow, h]

@[simp] theorem chA_argb (a r g b : Byte) : chA (argb a r g b) = a := extract_byte_eq (by rw [argb_toNat]; omega)
@[simp] theorem chR_argb (a r g b : Byte) : chR (argb a r g b) = r := extract_byte_eq (by rw [argb_toNat]; omega)
@[simp] theorem chG_argb (a r g b : Byte) : chG (argb a r g b) = g := extract_byte_eq (by rw [argb_toNat]; omega)
@[simp] theorem chB_argb (a r g b : Byte) : chB (argb a r g b) = b := extract_byte_eq (by rw [argb_toNat]; omega)

@[simp] theorem argb_channels (p : Word) : argb (chA p) (chR p) (chG p) (chB p) = p := by
  apply BitVec.eq_of_toNat_eq
  simp only [argb_toNat, chA, chR, chG, chB, BitVec.extractLsb'_toNat, Nat.shiftRight_eq_div_pow]
  omega

/-- Operating on the channels gives, in each channel, what the operation gives there. -/
theorem channel_perChannel (f : Byte → Byte → Byte) (p q : Word) :
    ∀ ch ∈ [chA, chR, chG, chB], ch (perChannel f p q) = f (ch p) (ch q) := by
  simp [perChannel]

/-! Raster order (R108). -/

theorem getD_map_range {α : Type} (f : Nat → α) {n k : Nat} (d : α) (hk : k < n) :
    ((List.range n).map f).getD k d = f k := by
  simp [List.getD_eq_getElem?_getD, hk]

theorem raster_getD_index {α : Type} {w h i : Nat} (f : Nat → Nat → α) (d : α) (hi : i < w * h) :
    (raster w h f).getD i d = f (i % w) (i / w) :=
  getD_map_range _ d hi

/-- Where a pixel stands in raster order. -/
theorem raster_place {w x y : Nat} (hx : x < w) : (y * w + x) % w = x ∧ (y * w + x) / w = y := by
  have hw : 0 < w := Nat.zero_lt_of_lt hx
  rw [Nat.add_comm, Nat.add_mul_mod_self_right, Nat.add_mul_div_right _ _ hw, Nat.mod_eq_of_lt hx, Nat.div_eq_of_lt hx,
    Nat.zero_add]
  exact ⟨rfl, rfl⟩

/-- Pixel (x, y) stands among the first w * h. -/
theorem raster_place_lt {w h x y : Nat} (hx : x < w) (hy : y < h) : y * w + x < w * h :=
  calc y * w + x < y * w + w := Nat.add_lt_add_left hx _
    _ = (y + 1) * w := (Nat.succ_mul y w).symm
    _ ≤ h * w := Nat.mul_le_mul_right w hy
    _ = w * h := Nat.mul_comm h w

theorem raster_getD {α : Type} {w h x y : Nat} (f : Nat → Nat → α) (d : α) (hx : x < w) (hy : y < h) :
    (raster w h f).getD (y * w + x) d = f x y := by
  rw [raster_getD_index f d (raster_place_lt hx hy), (raster_place hx).1, (raster_place hx).2]

/-- The coordinates of a place in raster order name its pixel. -/
theorem pixelAt_index (w : Nat) (img : List Word) (i : Nat) : pixelAt w img (i % w) (i / w) = img.getD i 0 := by
  rw [pixelAt, Nat.div_add_mod']

/-- The coordinates of a place in raster order lie inside the image. -/
theorem raster_coords_lt {w h i : Nat} (hi : i < w * h) : i % w < w ∧ i / w < h := by
  have hw : 0 < w := Nat.pos_of_ne_zero fun h0 => by simp [h0] at hi
  exact ⟨Nat.mod_lt _ hw, Nat.div_lt_of_lt_mul hi⟩

/-- Two images of one size are the same when their pixels are. -/
theorem image_ext {n : Nat} {img img' : List Word} (hlen : img.length = n) (hlen' : img'.length = n)
    (h : ∀ i < n, img.getD i 0 = img'.getD i 0) : img = img' := by
  refine List.ext_getElem (hlen.trans hlen'.symm) fun i hi hi' => ?_
  have := h i (hlen ▸ hi)
  rwa [List.getD_eq_getElem _ _ hi, List.getD_eq_getElem _ _ hi'] at this

/-! Tiles (R109). -/

theorem div_lt_ceilDiv {x n d : Nat} (hd : 0 < d) (hx : x < n) : x / d < ceilDiv n d := by
  rw [ceilDiv, Nat.div_lt_iff_lt_mul hd]
  have := Nat.lt_div_mul_add (a := n + d - 1) hd
  omega

/-- The tile of a pixel is one of the image's tiles. -/
theorem State.tileOf_lt {s : State} {x y : Nat} (tb : Nat) (hx : x < s.imgW) (hy : y < s.imgH) :
    tileOf s.imgW tb x y < s.tiles tb :=
  raster_place_lt (div_lt_ceilDiv (Nat.two_pow_pos tb) hx) (div_lt_ceilDiv (Nat.two_pow_pos tb) hy)

/-! Pixels in memory (R63, R108). -/

theorem State.readBytes_getD (s : State) (a : Nat) {n k : Nat} (hk : k < n) :
    (s.readBytes a n).getD k 0 = s.readByte (a + k) :=
  getD_map_range _ 0 hk

theorem State.readPixels_getD (s : State) (a : Nat) {n k : Nat} (hk : k < n) :
    (s.readPixels a n).getD k 0 = s.readPixel (a + 4 * k) :=
  getD_map_range _ 0 hk

/-- Pixel (x, y) of the source image (R223). -/
theorem State.pixelAt_srcImage {s : State} {x y : Nat} (hx : x < s.imgW) (hy : y < s.imgH) :
    pixelAt s.imgW s.srcImage x y = s.readPixel (s.arg0.toNat + 4 * (y * s.imgW + x)) :=
  s.readPixels_getD _ (raster_place_lt hx hy)

/-- A pixel is read from the bytes B, G, R, A (R63). -/
theorem State.readPixel_eq_argb (s : State) (a : Nat) :
    s.readPixel a = argb (s.readByte (a + 3)) (s.readByte (a + 2)) (s.readByte (a + 1)) (s.readByte a) := by
  apply BitVec.eq_of_toNat_eq
  have h0 := (s.readByte a).isLt
  have h1 := (s.readByte (a + 1)).isLt
  have h2 := (s.readByte (a + 2)).isLt
  have h3 := (s.readByte (a + 3)).isLt
  simp only [argb_toNat, State.readPixel, State.readNat, State.readBytes, List.range_succ, List.range_zero, List.nil_append,
    List.cons_append, List.map_cons, List.map_nil, natOfBytes, BitVec.toNat_ofNat, Nat.add_zero]
  omega

/-- The four bytes of pixel `k` of an image put together. -/
theorem argb_pixelBytes (ps : List Word) (k : Nat) :
    argb ((pixelBytes ps).getD (4 * k + 3) 0) ((pixelBytes ps).getD (4 * k + 2) 0) ((pixelBytes ps).getD (4 * k + 1) 0)
      ((pixelBytes ps).getD (4 * k) 0) = ps.getD k 0 := by
  induction ps generalizing k with
  | nil => simp [pixelBytes, argb]
  | cons p ps ih =>
    cases k with
    | zero => exact argb_channels p
    | succ k => exact ih k

/-- An image that was stored is read back, where the writer's region does not hold any value (R30, R108). -/
theorem State.Stores.readPixel {s t : State} {a k : Nat} {ps : List Word} (h : s.Stores t a (pixelBytes ps))
    (hheld : ∀ x, InSpan (a, 4 * ps.length) x → s.bw.holds x = false) (hk : k < ps.length) :
    t.readPixel (a + 4 * k) = ps.getD k 0 := by
  obtain ⟨-, hin, -⟩ := h
  have hbyte (j : Nat) (hj : j < 4) : t.readByte (a + 4 * k + j) = (pixelBytes ps).getD (4 * k + j) 0 := by
    rw [Nat.add_assoc]
    exact hin _ (by rw [pixelBytes_length]; omega) (hheld _ ⟨by omega, by omega⟩)
  rw [State.readPixel_eq_argb, hbyte 3 (by omega), hbyte 2 (by omega), hbyte 1 (by omega), ← argb_pixelBytes ps k]
  exact congrArg _ (hbyte 0 (by omega))

end Sys2Proof.Machine
end

section
/-! PROOFS. PTE.SETIMG (spec/43_pixel_transforms.md R222), the pixel arithmetic and the predictor modes (R224 to R232). -/

namespace Sys2Proof.Machine

/-- Settles O35: the check of the two extents, and the descriptor that takes their low 15 bits. -/
theorem pteSetimgRule : Obligations.PteSetimgRule := by
  intro s
  refine ⟨fun hbad => if_pos ?_, fun hw hw' hh hh' => ?_⟩
  · obtain h | h | h | h := hbad
    · exact .inl (by simp [h])
    · exact .inr (.inl h)
    · exact .inr (.inr (.inl (by simp [h])))
    · exact .inr (.inr (.inr h))
  · rw [BitVec.ofNat_toNat, BitVec.ofNat_toNat]
    exact if_neg (by rw [Config.maxDim]; omega)

/-! Pixel arithmetic (R224 to R228). -/

theorem clamp255_toNat (v : Int) : ((clamp255 v).toNat : Int) = max 0 (min 255 v) := by
  unfold clamp255
  split_ifs with hlow hhigh
  · rw [min_eq_right (by omega), max_eq_left hlow.le]
    rfl
  · rw [min_eq_left hhigh.le]
    rfl
  · rw [min_eq_right (by omega), max_eq_right (by omega), BitVec.toNat_ofInt]
    omega

/-- The average of two channel values rounds down (R225). -/
theorem channel_average2 (p q : Word) :
    ∀ ch ∈ [chA, chR, chG, chB], (ch (average2 p q)).toNat = ((ch p).toNat + (ch q).toNat) / 2 := by
  intro ch hch
  have hp := (ch p).isLt
  have hq := (ch q).isLt
  rw [average2, channel_perChannel _ p q ch hch, BitVec.toNat_ofNat]
  omega

/-- The clamped sum, channel by channel (R228). -/
theorem channel_clampedAddSubtractFull (p q r : Word) :
    ∀ ch ∈ [chA, chR, chG, chB], ch (clampedAddSubtractFull p q r) = clampFull (ch p) (ch q) (ch r) := by
  simp [clampedAddSubtractFull]

/-- The distance of two pixels is the sum over the four channels (R227). -/
theorem pixelDistance_eq_sum (p q : Word) :
    pixelDistance p q = ([chA, chR, chG, chB].map fun ch => chDiff (ch p) (ch q)).sum := by
  simp [pixelDistance, Nat.add_assoc]

/-- Settles O36: each channel of the arithmetic, the two distances of the selection, and the table of the modes. -/
theorem predictorFunctions : Obligations.PredictorFunctions := by
  refine ⟨fun p q r ch hch => ⟨?_, ?_, ?_, ?_, ?_⟩, fun l t tl => ?_, fun l t tl tr => ?_⟩
  · exact channel_perChannel _ p q ch hch
  · exact channel_perChannel _ p q ch hch
  · exact channel_average2 p q ch hch
  · rw [channel_clampedAddSubtractFull p q r ch hch, clampFull, clamp255_toNat]
    omega
  · rw [clampedAddSubtractHalf, channel_perChannel _ p q ch hch, clampHalf, clamp255_toNat]
  · rw [select, pixelDistance_eq_sum, pixelDistance_eq_sum]
    rfl
  · exact ⟨rfl, rfl, rfl, rfl, rfl, rfl, rfl, rfl, rfl, rfl, rfl, rfl, rfl, rfl⟩

/-! Neighbours (R231, R232). -/

/-- Settles O37: the branches of the prediction, and the two of its top right neighbour. -/
theorem predictorNeighbours : Obligations.PredictorNeighbours := by
  intro w img mode x y hxw at_
  have hright : topRight w img x y = if x + 1 < w then at_ (x + 1) (y - 1) else at_ 0 y := by
    by_cases hx : x + 1 < w
    · rw [if_pos hx]
      exact if_neg hx.ne
    · rw [if_neg hx]
      exact if_pos (by omega)
  refine ⟨if_pos ⟨rfl, rfl⟩, fun hx => ?_, fun hy => ?_, fun hx hy => ?_⟩
  · rw [predAt, if_neg (by omega), if_pos rfl]
    rfl
  · rw [predAt, if_neg (by omega), if_neg hy.ne', if_pos rfl]
    rfl
  · rw [predAt, if_neg (by omega), if_neg hy.ne', if_neg hx.ne', hright]
    rfl

/-! The per-pixel transforms undo each other (R224, R241, R242, R246). -/

/-- Operations that undo each other in a channel undo each other in a pixel. -/
theorem perChannel_cancel {f g : Byte → Byte → Byte} (h : ∀ a b, f (g a b) b = a) (p q : Word) :
    perChannel f (perChannel g p q) q = p := by
  simp [perChannel, h]

theorem addPx_subPx (p q : Word) : addPx (subPx p q) q = p := perChannel_cancel sub_add_cancel p q

theorem subPx_addPx (p q : Word) : subPx (addPx p q) q = p := perChannel_cancel add_sub_cancel_right p q

theorem addGreen_subGreen (p : Word) : addGreen (subGreen p) = p := by simp [addGreen, subGreen]

theorem subGreen_addGreen (p : Word) : subGreen (addGreen p) = p := by simp [addGreen, subGreen]

/-- The delta modulo 256, as the channels take it (R242). -/
def deltaByte (m c : Byte) : Byte := BitVec.ofInt 8 (colorDelta m c)

/-- A channel value corrected by a number is the channel corrected by the number modulo 256. -/
theorem ofInt_toNat_add (c : Byte) (d : Int) : BitVec.ofInt 8 (c.toNat + d) = c + BitVec.ofInt 8 d := by
  rw [BitVec.ofInt_add, BitVec.ofInt_natCast, BitVec.ofNat_toNat, BitVec.setWidth_eq]

theorem ofInt_sub_byte (a d : Int) : BitVec.ofInt 8 (a - d) = BitVec.ofInt 8 a - BitVec.ofInt 8 d := by
  rw [eq_sub_iff_add_eq, ← BitVec.ofInt_add, sub_add_cancel]

theorem ofInt_toNat_sub (c : Byte) (d : Int) : BitVec.ofInt 8 (c.toNat - d) = c - BitVec.ofInt 8 d := by
  rw [ofInt_sub_byte, BitVec.ofInt_natCast, BitVec.ofNat_toNat, BitVec.setWidth_eq]

/-- The forward transform of a pixel in bytes (R245). -/
theorem colorForward_eq (m : Multipliers) (p : Word) :
    colorForward m p = argb (chA p) (chR p - deltaByte m.g2r (chG p)) (chG p)
      (chB p - deltaByte m.g2b (chG p) - deltaByte m.r2b (chR p)) := by
  rw [colorForward, ofInt_toNat_sub, ofInt_sub_byte, ofInt_toNat_sub]
  rfl

/-- The inverse transform of a pixel in bytes (R246). -/
theorem colorInverse_eq (m : Multipliers) (q : Word) :
    colorInverse m q = argb (chA q) (chR q + deltaByte m.g2r (chG q)) (chG q)
      (chB q + deltaByte m.g2b (chG q) + deltaByte m.r2b (chR q + deltaByte m.g2r (chG q))) := by
  simp only [colorInverse, ofInt_toNat_add, BitVec.ofInt_add (_ + _)]
  rfl

theorem sub_sub_add_add_cancel (b d e : Byte) : b - d - e + d + e = b := by ring

theorem add_add_sub_sub_cancel (b d e : Byte) : b + d + e - d - e = b := by ring

theorem colorInverse_colorForward (m : Multipliers) (p : Word) : colorInverse m (colorForward m p) = p := by
  simp [colorInverse_eq, colorForward_eq, sub_sub_add_add_cancel]

theorem colorForward_colorInverse (m : Multipliers) (p : Word) : colorForward m (colorInverse m p) = p := by
  simp [colorInverse_eq, colorForward_eq, add_add_sub_sub_cancel]

/-- The product of two signed bytes lies in -128 * 127 .. 128 * 128. -/
theorem colorDelta_bounds (m c : Byte) : -508 ≤ colorDelta m c ∧ colorDelta m c ≤ 512 := by
  have hm : -128 ≤ m.toInt ∧ m.toInt ≤ 127 := ⟨BitVec.le_toInt m, by have := BitVec.toInt_lt (x := m); omega⟩
  have hc : -128 ≤ c.toInt ∧ c.toInt ≤ 127 := ⟨BitVec.le_toInt c, by have := BitVec.toInt_lt (x := c); omega⟩
  have hlow : -16256 ≤ m.toInt * c.toInt := by nlinarith
  have hhigh : m.toInt * c.toInt ≤ 16384 := by nlinarith
  unfold colorDelta
  omega

/-- Settles O42: the inverse laws of the pixel functions, and the bounds of the delta. -/
theorem channelTransformsInvert : Obligations.ChannelTransformsInvert := by
  refine ⟨fun p q => ⟨addPx_subPx p q, subPx_addPx p q⟩, fun p => ⟨addGreen_subGreen p, subGreen_addGreen p⟩,
    fun m p => ⟨colorInverse_colorForward m p, colorForward_colorInverse m p, ?_⟩, colorDelta_bounds⟩
  simp [subGreen, addGreen, colorForward, colorInverse]

end Sys2Proof.Machine
end

section
/-! PROOFS. The predictor and its inverse (spec/43_pixel_transforms.md R236 to R238): a prediction uses only pixels that stand
before its own in raster order, so the image rebuilt so far is all the inverse needs. -/

namespace Sys2Proof.Machine

/-- The prediction of the pixel at place `i` in raster order (R231, R233). -/
def predictionAt (w tb : Nat) (modes : List Nat) (img : List Word) (i : Nat) : Word :=
  predAt w img (modeAt modes w tb (i % w) (i / w)) (i % w) (i / w)

theorem predictionAt_place {w x : Nat} (tb : Nat) (modes : List Nat) (img : List Word) (y : Nat) (hx : x < w) :
    predictionAt w tb modes img (y * w + x) = predAt w img (modeAt modes w tb x y) x y := by
  rw [predictionAt, (raster_place hx).1, (raster_place hx).2]

/-- The neighbours of a pixel stand before it in raster order (R231, R232). -/
theorem predAt_congr {w x y : Nat} {img img' : List Word} (mode : Nat) (hx : x < w)
    (h : ∀ k < y * w + x, img.getD k 0 = img'.getD k 0) : predAt w img mode x y = predAt w img' mode x y := by
  have hrow (v : Nat) (hv : v < x) : pixelAt w img v y = pixelAt w img' v y := h _ (Nat.add_lt_add_left hv _)
  have habove (hy : y ≠ 0) (v : Nat) (hv : v < w + x) : pixelAt w img v (y - 1) = pixelAt w img' v (y - 1) := by
    obtain ⟨u, rfl⟩ := Nat.exists_eq_succ_of_ne_zero hy
    refine h _ ?_
    rw [Nat.succ_sub_one, Nat.succ_mul]
    omega
  have hright (hy : y ≠ 0) (h0 : x ≠ 0) : topRight w img x y = topRight w img' x y := by
    unfold topRight
    split_ifs
    · exact hrow 0 (Nat.pos_of_ne_zero h0)
    · exact habove hy _ (by omega)
  unfold predAt
  split_ifs with hcorner hy h0
  · rfl
  · exact hrow _ (by omega)
  · exact habove hy _ (by omega)
  · rw [hrow _ (by omega), habove hy _ (by omega), habove hy _ (by omega), hright hy h0]

theorem predictionAt_congr {w i : Nat} {img img' : List Word} (tb : Nat) (modes : List Nat) (hw : 0 < w)
    (h : ∀ k < i, img.getD k 0 = img'.getD k 0) :
    predictionAt w tb modes img i = predictionAt w tb modes img' i :=
  predAt_congr _ (Nat.mod_lt i hw) (by rwa [Nat.div_add_mod'])

section
variable {w h tb : Nat} {modes : List Nat} {img : List Word}

/-- The residual of a pixel (R236). -/
theorem predForward_getD {i : Nat} (hi : i < w * h) :
    (predForward w h tb modes img).getD i 0 = subPx (img.getD i 0) (predictionAt w tb modes img i) := by
  rw [predForward, raster_getD_index _ _ hi, pixelAt_index]
  rfl

/-- The pixels rebuilt before stay as they are. -/
theorem predRebuild_succ_getD {n k : Nat} (hk : k < n) :
    (predRebuild w tb modes img (n + 1)).getD k 0 = (predRebuild w tb modes img n).getD k 0 :=
  List.getD_append _ _ _ _ (by rwa [predRebuild_length])

/-- A pixel is rebuilt from its residual and the pixels rebuilt before it (R237). -/
theorem predRebuild_succ_last (n : Nat) : (predRebuild w tb modes img (n + 1)).getD n 0 =
    addPx (img.getD n 0) (predictionAt w tb modes (predRebuild w tb modes img n) n) := by
  rw [predRebuild, List.getD_append_right _ _ _ _ (predRebuild_length _ _ _ _ _).le, predRebuild_length, Nat.sub_self,
    pixelAt_index]
  rfl

/-- Each pixel rebuilt is its residual plus the prediction made from the image they all form (R237). -/
theorem predRebuild_getD (hw : 0 < w) {n k : Nat} (hk : k < n) : (predRebuild w tb modes img n).getD k 0 =
    addPx (img.getD k 0) (predictionAt w tb modes (predRebuild w tb modes img n) k) := by
  induction n with
  | zero => exact absurd hk (Nat.not_lt_zero k)
  | succ n ih =>
    have hsame : predictionAt w tb modes (predRebuild w tb modes img (n + 1)) k =
        predictionAt w tb modes (predRebuild w tb modes img n) k :=
      predictionAt_congr tb modes hw fun j hj => predRebuild_succ_getD (by omega)
    rw [hsame]
    obtain hlt | rfl := Nat.lt_succ_iff_lt_or_eq.1 hk
    · rw [predRebuild_succ_getD hlt, ih hlt]
    · exact predRebuild_succ_last k

theorem predInverse_length : (predInverse w h tb modes img).length = w * h := predRebuild_length w tb modes img _

theorem predInverse_getD {i : Nat} (hi : i < w * h) : (predInverse w h tb modes img).getD i 0 =
    addPx (img.getD i 0) (predictionAt w tb modes (predInverse w h tb modes img) i) :=
  predRebuild_getD (Nat.zero_lt_of_lt (raster_coords_lt hi).1) hi

theorem predForward_length : (predForward w h tb modes img).length = w * h := raster_length w h _

/-- By induction in raster order: where the pixels before agree, the two predictions do (R238). -/
theorem predInverse_predForward (hlen : img.length = w * h) :
    predInverse w h tb modes (predForward w h tb modes img) = img := by
  refine image_ext predInverse_length hlen fun i => ?_
  induction i using Nat.strong_induction_on with
  | h i ih =>
    intro hi
    have hsame := predictionAt_congr tb modes (Nat.zero_lt_of_lt (raster_coords_lt hi).1) fun k hk => ih k hk (hk.trans hi)
    rw [predInverse_getD hi, predForward_getD hi, hsame, addPx_subPx]

/-- The forward predictor makes its predictions from the very image that the inverse made them from (R238). -/
theorem predForward_predInverse (hlen : img.length = w * h) :
    predForward w h tb modes (predInverse w h tb modes img) = img := by
  refine image_ext predForward_length hlen fun i hi => ?_
  rw [predForward_getD hi, predInverse_getD hi, subPx_addPx]

end

/-- Settles O39: both directions, each pixel by pixel. -/
theorem predictorRoundTrip : Obligations.PredictorRoundTrip := fun _ _ _ _ _ hlen =>
  ⟨predInverse_predForward hlen, predForward_predInverse hlen⟩

end Sys2Proof.Machine
end

section
/-! PROOFS. The transform commands of the predictor (spec/43_pixel_transforms.md R223, R233, R236, R237), and what all transform
commands have in common: the checks, and the store of the output. -/

namespace Sys2Proof.Machine

/-! What the transform commands have in common (R223). -/

section
variable {s : State} {reads : List (Nat × Nat)} {dst : Nat × Nat} {out : List Byte} {r0 r1 : Reg}

/-- Without an image, or with a region past 2^AW, a transform is InvalidArgument (R71, R223). -/
theorem State.transform_refused {ok : Bool}
    (h : s.pte.valid = false ∨ ∃ p ∈ reads ++ [dst], 2 ^ s.cfg.aw < p.1 + p.2) :
    s.transform reads dst ok out r0 r1 = .next (s.raised .invalidArgument) := by
  obtain hv | ⟨p, hp, hpast⟩ := h
  · exact if_pos hv
  · exact State.transform_past_end hp (by simpa [fits] using hpast)

/-- Inputs that do not pass the command's own check make it InvalidArgument (R223). -/
theorem State.transform_badInput (hacc : s.Accessible reads) :
    s.transform reads dst false out r0 r1 = .next (s.raised .invalidArgument) := by
  rw [State.transform, if_pos (rfl : false = false), State.touching_of_accessible hacc, ite_self, ite_self]
  rfl

/-- With the image set, regions that fit and are backed, and good inputs, a transform stores its output (R223). -/
theorem State.transform_stores (r0 r1 : Reg) (hv : s.pte.valid = true)
    (hfit : ∀ p ∈ reads ++ [dst], p.1 + p.2 ≤ 2 ^ s.cfg.aw) (hacc : s.Accessible (reads ++ [dst]))
    (hlen : out.length = dst.2) :
    ∃ t, s.transform reads dst true out r0 r1 = .next (t.finish r0 r1) ∧ s.Stores t dst.1 out := by
  refine ⟨_, State.transform_ok r0 r1 hv (fun p hp => by simpa [fits] using hfit p hp) hacc, State.stores_storeBytes ?_⟩
  rw [hlen]
  exact hfit dst (by simp)

end

/-- With the image set and regions that fit and are backed, a transform whose output is an image stores its pixels (R223). -/
theorem State.transform_storesImage {s : State} {reads : List (Nat × Nat)} {a : Reg} {out : List Word} (r0 r1 : Reg)
    (hv : s.pte.valid = true) (hfit : ∀ p ∈ reads ++ [s.imageSpan a], p.1 + p.2 ≤ 2 ^ s.cfg.aw)
    (hacc : s.Accessible (reads ++ [s.imageSpan a])) (hlen : out.length = s.imgW * s.imgH) :
    ∃ t, s.transform reads (s.imageSpan a) true (pixelBytes out) r0 r1 = .next (t.finish r0 r1) ∧
      s.Stores t a.toNat (pixelBytes out) :=
  State.transform_stores r0 r1 hv hfit hacc (s.pixelBytes_length_eq_span a hlen)

/-! The two commands of the predictor. -/

/-- The mode of a pixel is the byte of its tile (R109, R233). -/
theorem State.modeAt_modes {s : State} {x y : Nat} (tb : Nat) (hx : x < s.imgW) (hy : y < s.imgH) :
    modeAt (s.modes tb) s.imgW tb x y = (s.readByte (s.arg2.toNat + tileOf s.imgW tb x y)).toNat := by
  have htile := State.tileOf_lt tb hx hy
  rw [modeAt, State.modes, byteNats, ← s.readBytes_getD _ htile]
  exact List.getD_map _ 0 BitVec.toNat

theorem State.modesLegal_iff (s : State) (tb : Nat) :
    modesLegal (s.modes tb) = true ↔ ∀ m ∈ s.readBytes s.arg2.toNat (s.tiles tb), m.toNat ≤ 13 := by
  simp [modesLegal, State.modes, byteNats, Config.nPred, Nat.lt_succ_iff]

/-- Settles O38: the checks, and the pixels of the two images. -/
theorem predictorCommandsRule : Obligations.PredictorCommandsRule := by
  intro tb s w h side across modes mode reads dst pixel
  have hmode {x y : Nat} (hx : x < w) (hy : y < h) : modeAt (s.modes tb.toNat) w tb.toNat x y = mode x y :=
    State.modeAt_modes tb.toNat hx hy
  have hpixel {x y : Nat} (hx : x < w) (hy : y < h) : s.srcImage.getD (y * w + x) 0 = pixel x y :=
    State.pixelAt_srcImage hx hy
  refine ⟨fun hbad => ?_, fun hv hfit hacc hmodes => ?_⟩
  · have hraise (out : List Byte) : s.transform reads dst (modesLegal (s.modes tb.toNat)) out 0 0 =
        .next (s.raised .invalidArgument) := by
      obtain hv | hpast | ⟨hacc, m, hm, hmode⟩ := hbad
      · exact State.transform_refused (.inl hv)
      · exact State.transform_refused (.inr hpast)
      · have hillegal : modesLegal (s.modes tb.toNat) = false := by
          rw [← Bool.not_eq_true, State.modesLegal_iff]
          exact fun hlegal => absurd (hlegal m hm) (by omega)
        rw [hillegal]
        exact State.transform_badInput hacc
    exact ⟨hraise _, hraise _⟩
  · have hstore {out : List Word} (hlen : out.length = w * h) : ∃ t,
        s.transform reads dst (modesLegal (s.modes tb.toNat)) (pixelBytes out) 0 0 = .next (t.finish 0 0) ∧
          s.Stores t s.arg1.toNat (pixelBytes out) := by
      rw [(s.modesLegal_iff tb.toNat).2 hmodes]
      exact State.transform_storesImage 0 0 hv hfit hacc hlen
    obtain ⟨t, hfwd, hfwdStores⟩ := hstore (predForward_length (tb := tb.toNat) (modes := s.modes tb.toNat))
    obtain ⟨u, hinv, hinvStores⟩ := hstore (predInverse_length (tb := tb.toNat) (modes := s.modes tb.toNat))
    refine ⟨⟨t, _, hfwd, hfwdStores, predForward_length, fun x hx y hy => ?_⟩,
      ⟨u, _, hinv, hinvStores, predInverse_length, fun x hx y hy => ?_⟩⟩
    · rw [predForward_getD (raster_place_lt hx hy), predictionAt_place _ _ _ _ hx, hmode hx hy, hpixel hx hy]
    · rw [predInverse_getD (raster_place_lt hx hy), predictionAt_place _ _ _ _ hx, hmode hx hy, hpixel hx hy]

end Sys2Proof.Machine
end

section
/-! PROOFS. The transform commands that work pixel by pixel: subtract green (spec/43_pixel_transforms.md R240, R241) and
cross-colour decorrelation (R243, R245, R246). -/

namespace Sys2Proof.Machine

/-! Subtract green. -/

theorem State.map_srcImage_length (s : State) (f : Word → Word) : (s.srcImage.map f).length = s.imgW * s.imgH :=
  (List.length_map f).trans s.srcImage_length

theorem State.map_srcImage_getD {s : State} {x y : Nat} (f : Word → Word) (hx : x < s.imgW) (hy : y < s.imgH) :
    (s.srcImage.map f).getD (y * s.imgW + x) 0 = f (s.readPixel (s.arg0.toNat + 4 * (y * s.imgW + x))) := by
  have hi : y * s.imgW + x < s.srcImage.length := s.srcImage_length ▸ raster_place_lt hx hy
  rw [← State.pixelAt_srcImage hx hy, pixelAt, List.getD_eq_getElem _ _ hi, List.getD_eq_getElem _ _ (by simpa using hi),
    List.getElem_map]

/-- Settles O40: the checks, the pixels of the two images, and the inverse laws of the two pixel functions. -/
theorem subtractGreenRule : Obligations.SubtractGreenRule := by
  intro s w h spans pixel fwd inv
  refine ⟨fun hbad => ⟨State.transform_refused hbad, State.transform_refused hbad⟩, fun hv hfit hacc => ?_,
    fun p => ⟨addGreen_subGreen p, subGreen_addGreen p⟩⟩
  have hstore (f : Word → Word) : ∃ t out,
      s.transform [s.imageSpan s.arg0] (s.imageSpan s.arg1) true (pixelBytes (s.srcImage.map f)) 0 0 =
        .next (t.finish 0 0) ∧ s.Stores t s.arg1.toNat (pixelBytes out) ∧ out.length = w * h ∧
        ∀ x < w, ∀ y < h, out.getD (y * w + x) 0 = f (pixel x y) := by
    obtain ⟨t, hexec, hstores⟩ := State.transform_storesImage (reads := [s.imageSpan s.arg0]) 0 0 hv hfit hacc
      (s.map_srcImage_length f)
    exact ⟨t, _, hexec, hstores, s.map_srcImage_length f, fun x hx y hy => State.map_srcImage_getD f hx hy⟩
  exact ⟨hstore subGreen, hstore addGreen⟩

/-! Cross-colour decorrelation. -/

theorem colorImage_length (f : Multipliers → Word → Word) (w h tb : Nat) (mults : List Byte) (img : List Word) :
    (colorImage f w h tb mults img).length = w * h := raster_length w h _

/-- The triple of a tile as it stands in memory (R109, R243). -/
theorem State.multipliersAt_mults {s : State} {tb t : Nat} (ht : t < s.tiles tb) :
    multipliersAt (s.mults tb) t =
      ⟨s.readByte (s.arg2.toNat + (3 * t + 0)), s.readByte (s.arg2.toNat + (3 * t + 1)),
        s.readByte (s.arg2.toNat + (3 * t + 2))⟩ := by
  have hbyte (k : Nat) (hk : k < 3) : (s.mults tb).getD (3 * t + k) 0 = s.readByte (s.arg2.toNat + (3 * t + k)) :=
    s.readBytes_getD _ (by omega)
  rw [← hbyte 0 (by omega), ← hbyte 1 (by omega), ← hbyte 2 (by omega)]
  rfl

/-- Settles O41: the checks, the pixels of the two images, and the inverse laws of the two pixel functions. -/
theorem crossColourRule : Obligations.CrossColourRule := by
  intro tb s w h side across spans pixel mult delta fwd inv
  have hfwd (m : Multipliers) (p : Word) : colorForward m p = fwd m.g2r m.g2b m.r2b p := colorForward_eq m p
  have hinv (m : Multipliers) (p : Word) : colorInverse m p = inv m.g2r m.g2b m.r2b p := colorInverse_eq m p
  refine ⟨fun hbad => ⟨State.transform_refused hbad, State.transform_refused hbad⟩, fun hv hfit hacc => ?_,
    fun g2r g2b r2b p => ?_⟩
  · have hstore (f : Multipliers → Word → Word) : ∃ t out,
        s.transform [s.imageSpan s.arg0, s.multSpan s.arg2 tb.toNat] (s.imageSpan s.arg1) true
            (pixelBytes (colorImage f w h tb.toNat (s.mults tb.toNat) s.srcImage)) 0 0 = .next (t.finish 0 0) ∧
          s.Stores t s.arg1.toNat (pixelBytes out) ∧ out.length = w * h ∧
          ∀ x < w, ∀ y < h, out.getD (y * w + x) 0 = f ⟨mult x y 0, mult x y 1, mult x y 2⟩ (pixel x y) := by
      have hlen := colorImage_length f w h tb.toNat (s.mults tb.toNat) s.srcImage
      obtain ⟨t, hexec, hstores⟩ := State.transform_storesImage
        (reads := [s.imageSpan s.arg0, s.multSpan s.arg2 tb.toNat]) 0 0 hv hfit hacc hlen
      refine ⟨t, _, hexec, hstores, hlen, fun x hx y hy => ?_⟩
      rw [colorImage, raster_getD _ _ hx hy, State.multipliersAt_mults (State.tileOf_lt tb.toNat hx hy),
        State.pixelAt_srcImage hx hy]
      rfl
    have hforward := hstore colorForward
    have hinverse := hstore colorInverse
    simp only [hfwd] at hforward
    simp only [hinv] at hinverse
    exact ⟨hforward, hinverse⟩
  · have hundo := colorInverse_colorForward ⟨g2r, g2b, r2b⟩ p
    have hredo := colorForward_colorInverse ⟨g2r, g2b, r2b⟩ p
    rw [hfwd, hinv] at hundo hredo
    exact ⟨hundo, hredo⟩

end Sys2Proof.Machine
end

section
/-! PROOFS. Colour indexing (spec/43_pixel_transforms.md R247 to R253): the bits of an index in its byte, the smallest index of a
colour, and the two palette commands. -/

namespace Sys2Proof.Machine

/-! Digits of a packed byte (R251). -/

/-- The number that packs `m` digits of `b` bits, the first one lowest. -/
def packDigits (b : Nat) (d : Nat → Nat) (m : Nat) : Nat := ((List.range m).map fun j => d j * 2 ^ (b * j)).sum

theorem packDigits_succ (b : Nat) (d : Nat → Nat) (m : Nat) :
    packDigits b d (m + 1) = packDigits b d m + d m * 2 ^ (b * m) := by
  simp [packDigits, List.range_succ]

theorem packDigits_lt {b : Nat} {d : Nat → Nat} (hd : ∀ j, d j < 2 ^ b) (m : Nat) : packDigits b d m < 2 ^ (b * m) := by
  induction m with
  | zero => simp [packDigits]
  | succ m ih =>
    calc packDigits b d (m + 1) = packDigits b d m + d m * 2 ^ (b * m) := packDigits_succ b d m
      _ < 2 ^ (b * m) + d m * 2 ^ (b * m) := Nat.add_lt_add_right ih _
      _ = (d m + 1) * 2 ^ (b * m) := by ring
      _ ≤ 2 ^ b * 2 ^ (b * m) := Nat.mul_le_mul_right _ (hd m)
      _ = 2 ^ (b * (m + 1)) := by ring

/-- A digit is found at its bits. -/
theorem packDigits_digit {b k m : Nat} {d : Nat → Nat} (hd : ∀ j, d j < 2 ^ b) (hk : k < m) :
    packDigits b d m / 2 ^ (b * k) % 2 ^ b = d k := by
  induction m with
  | zero => exact absurd hk (Nat.not_lt_zero k)
  | succ m ih =>
    rw [packDigits_succ]
    obtain hlt | rfl := Nat.lt_succ_iff_lt_or_eq.1 hk
    · obtain ⟨r, rfl⟩ := Nat.exists_eq_add_of_lt hlt
      have habove : d (k + r + 1) * 2 ^ (b * (k + r + 1)) = 2 ^ (b * k) * (2 ^ b * (d (k + r + 1) * 2 ^ (b * r))) := by ring
      rw [habove, Nat.add_mul_div_left _ _ (Nat.two_pow_pos _), Nat.add_mul_mod_self_left, ih hlt]
    · rw [Nat.add_mul_div_right _ _ (Nat.two_pow_pos _), Nat.div_eq_of_lt (packDigits_lt hd k), Nat.zero_add,
        Nat.mod_eq_of_lt (hd k)]

/-! Bits per pixel (R249). -/

theorem bitsPerPixel_mul_pixelsPerByte (n : Nat) : bitsPerPixel n * pixelsPerByte n = 8 := by
  unfold pixelsPerByte bitsPerPixel
  split_ifs <;> rfl

theorem pixelsPerByte_pos (n : Nat) : 0 < pixelsPerByte n := by
  unfold pixelsPerByte bitsPerPixel
  split_ifs <;> decide

/-- Every index of a palette fits the bits of a pixel. -/
theorem le_two_pow_bitsPerPixel {n : Nat} (hn : n ≤ Config.palMax) : n ≤ 2 ^ bitsPerPixel n := by
  unfold bitsPerPixel
  split_ifs <;> assumption

/-- A pixel of a row stands in one of the row's bytes (R250). -/
theorem div_pixelsPerByte_lt {x w : Nat} (n : Nat) (hx : x < w) : x / pixelsPerByte n < packedRowBytes w n :=
  div_lt_ceilDiv (pixelsPerByte_pos n) hx

/-! The smallest index of a colour (R252). -/

theorem paletteIndex_eq_some {pal : List Word} {p : Word} {i : Nat} (h : paletteIndex pal p = some i) :
    i < pal.length ∧ pal.getD i 0 = p ∧ ∀ j < i, pal.getD j 0 ≠ p := by
  obtain ⟨hi, hp, hbefore⟩ := List.findIdx?_eq_some_iff_getElem.1 h
  refine ⟨hi, ?_, fun j hj => ?_⟩
  · rw [List.getD_eq_getElem _ _ hi]
    exact of_decide_eq_true hp
  · rw [List.getD_eq_getElem _ _ (hj.trans hi)]
    simpa using hbefore j hj

theorem paletteIndex_isSome_iff {pal : List Word} {p : Word} :
    (paletteIndex pal p).isSome = true ↔ ∃ i < pal.length, pal.getD i 0 = p := by
  rw [paletteIndex, List.findIdx?_isSome, List.any_eq_true]
  constructor
  · rintro ⟨c, hc, hp⟩
    obtain ⟨i, hi, rfl⟩ := List.getElem_of_mem hc
    exact ⟨i, hi, by rw [List.getD_eq_getElem _ _ hi]; exact of_decide_eq_true hp⟩
  · rintro ⟨i, hi, rfl⟩
    rw [List.getD_eq_getElem _ _ hi]
    exact ⟨_, List.getElem_mem hi, decide_eq_true rfl⟩

/-- The index packed for a colour, 0 for one that has none, fits the bits of a pixel. -/
theorem paletteIndex_getD_lt {n : Nat} {pal : List Word} (hn : n ≤ Config.palMax) (hlen : pal.length = n) (p : Word) :
    (paletteIndex pal p).getD 0 < 2 ^ bitsPerPixel n := by
  cases h : paletteIndex pal p with
  | none => exact Nat.two_pow_pos _
  | some i => exact ((paletteIndex_eq_some h).1.trans_eq hlen).trans_le (le_two_pow_bitsPerPixel hn)

/-! Packing an image (R251, R252). -/

theorem packImage_length (w h n : Nat) (pal img : List Word) : (packImage w h n pal img).length = packedRowBytes w n * h :=
  raster_length _ _ _

/-- The number packed at place `j` of byte `k` of row `y`: the index of the pixel there, 0 past the end of the row. -/
def packedDigit (w n : Nat) (pal img : List Word) (k y j : Nat) : Nat :=
  if k * pixelsPerByte n + j < w then (paletteIndex pal (pixelAt w img (k * pixelsPerByte n + j) y)).getD 0 else 0

theorem packedDigit_lt {n : Nat} {pal : List Word} (w : Nat) (img : List Word) (k y j : Nat) (hn : n ≤ Config.palMax)
    (hlen : pal.length = n) : packedDigit w n pal img k y j < 2 ^ bitsPerPixel n := by
  unfold packedDigit
  split_ifs
  · exact paletteIndex_getD_lt hn hlen _
  · exact Nat.two_pow_pos _

theorem packImage_getD {w h n k y : Nat} (pal img : List Word) (hk : k < packedRowBytes w n) (hy : y < h) :
    (packImage w h n pal img).getD (y * packedRowBytes w n + k) 0 =
      BitVec.ofNat 8 (packDigits (bitsPerPixel n) (packedDigit w n pal img k y) (pixelsPerByte n)) := by
  rw [packImage, raster_getD _ _ hk hy]
  simp only [packDigits, packedDigit, ite_mul, zero_mul]

/-- The index found at a pixel's bits: its colour's, and 0 past the end of the row. -/
theorem packedIndex_packImage {w h n x y : Nat} {pal : List Word} (img : List Word) (hn : n ≤ Config.palMax)
    (hlen : pal.length = n) (hx : x / pixelsPerByte n < packedRowBytes w n) (hy : y < h) :
    packedIndex w n (packImage w h n pal img) x y =
      if x < w then (paletteIndex pal (pixelAt w img x y)).getD 0 else 0 := by
  have hdigit (j : Nat) := packedDigit_lt w img (x / pixelsPerByte n) y j hn hlen
  have hbyte := packDigits_lt hdigit (pixelsPerByte n)
  rw [bitsPerPixel_mul_pixelsPerByte] at hbyte
  rw [packedIndex, packImage_getD pal img hx hy, BitVec.toNat_ofNat, Nat.mod_eq_of_lt hbyte,
    packDigits_digit hdigit (Nat.mod_lt x (pixelsPerByte_pos n)), packedDigit, Nat.div_add_mod']

/-- The index found at a pixel whose colour is in the palette is the smallest that holds it (R252). -/
theorem packedIndex_packImage_known {w h n x y : Nat} {pal img : List Word} (hn : n ≤ Config.palMax) (hlen : pal.length = n)
    (hx : x < w) (hy : y < h) (hknown : (paletteIndex pal (pixelAt w img x y)).isSome = true) :
    packedIndex w n (packImage w h n pal img) x y < n ∧
      pal.getD (packedIndex w n (packImage w h n pal img) x y) 0 = pixelAt w img x y ∧
      ∀ j < packedIndex w n (packImage w h n pal img) x y, pal.getD j 0 ≠ pixelAt w img x y := by
  obtain ⟨i, hi⟩ := Option.isSome_iff_exists.1 hknown
  rw [packedIndex_packImage img hn hlen (div_pixelsPerByte_lt n hx) hy, if_pos hx, hi, Option.getD_some, ← hlen]
  exact paletteIndex_eq_some hi

/-! The palette and the source image as they stand in memory. -/

theorem State.palette_length (s : State) : s.palette.length = s.arg3.toNat := by
  simp [State.palette, State.readPixels]

theorem State.palette_getD {s : State} {i : Nat} (hi : i < s.arg3.toNat) :
    s.palette.getD i 0 = s.readPixel (s.arg2.toNat + 4 * i) :=
  s.readPixels_getD _ hi

/-- A test of every pixel of the source image. -/
theorem State.all_srcImage_iff {s : State} {test : Word → Bool} :
    s.srcImage.all test = true ↔ ∀ x < s.imgW, ∀ y < s.imgH, test (pixelAt s.imgW s.srcImage x y) = true := by
  rw [List.all_eq_true]
  constructor
  · intro h x hx y hy
    refine h _ ?_
    rw [pixelAt, List.getD_eq_getElem _ _ (s.srcImage_length ▸ raster_place_lt hx hy)]
    exact List.getElem_mem _
  · intro h p hp
    obtain ⟨i, hi, rfl⟩ := List.getElem_of_mem hp
    obtain ⟨hx, hy⟩ := raster_coords_lt (s.srcImage_length ▸ hi)
    have := h _ hx _ hy
    rwa [pixelAt_index, List.getD_eq_getElem _ _ hi] at this

/-- Every colour of the source image is in the palette (R252). -/
theorem State.coloursKnown_iff {s : State} : (s.srcImage.all fun p => (paletteIndex s.palette p).isSome) = true ↔
    ∀ x < s.imgW, ∀ y < s.imgH, ∃ i < s.arg3.toNat,
      s.readPixel (s.arg2.toNat + 4 * i) = s.readPixel (s.arg0.toNat + 4 * (y * s.imgW + x)) := by
  rw [State.all_srcImage_iff]
  refine forall₄_congr fun x hx y hy => ?_
  rw [paletteIndex_isSome_iff, s.palette_length, State.pixelAt_srcImage hx hy]
  exact exists_congr fun i => and_congr_right fun hi => by rw [State.palette_getD hi]

theorem unpackImage_length (w h n : Nat) (pal : List Word) (packed : List Byte) :
    (unpackImage w h n pal packed).length = w * h := raster_length w h _

/-- The index of a pixel of the packed source image is at its bits of its byte in memory (R251). -/
theorem State.packedIndex_readBytes {s : State} {x y : Nat} (n : Nat) (hx : x < s.imgW) (hy : y < s.imgH) :
    packedIndex s.imgW n (s.readBytes s.arg0.toNat (packedRowBytes s.imgW n * s.imgH)) x y =
      (s.readByte (s.arg0.toNat + (y * packedRowBytes s.imgW n + x / pixelsPerByte n))).toNat /
        2 ^ (bitsPerPixel n * (x % pixelsPerByte n)) % 2 ^ bitsPerPixel n := by
  rw [packedIndex, s.readBytes_getD _ (raster_place_lt (div_pixelsPerByte_lt n hx) hy)]

/-! PTE.PAL.FWD and PTE.PAL.INV. -/

theorem paletteSizeLegal_iff (n : Nat) : paletteSizeLegal n = true ↔ 1 ≤ n ∧ n ≤ 256 := decide_eq_true_iff

/-- With a legal palette size the forward command is a transform (R223, R252). -/
theorem execPtePalFwd_of_size {s : State} (hsize : paletteSizeLegal s.arg3.toNat = true) :
    execPtePalFwd s =
      s.transform [s.imageSpan s.arg0, paletteSpan s.arg2 s.arg3.toNat] (s.packedSpan s.arg1 s.arg3.toNat)
        (s.srcImage.all fun p => (paletteIndex s.palette p).isSome)
        (packImage s.imgW s.imgH s.arg3.toNat s.palette s.srcImage) s.packedBytes s.paletteBpp :=
  if_neg (not_not.2 hsize)

/-- With a legal palette size the inverse command is a transform (R223, R253). -/
theorem execPtePalInv_of_size {s : State} (hsize : paletteSizeLegal s.arg3.toNat = true) :
    execPtePalInv s =
      s.transform [s.packedSpan s.arg0 s.arg3.toNat, paletteSpan s.arg2 s.arg3.toNat] (s.imageSpan s.arg1) true
        (pixelBytes (unpackImage s.imgW s.imgH s.arg3.toNat s.palette
          (s.readBytes s.arg0.toNat (packedRowBytes s.imgW s.arg3.toNat * s.imgH)))) s.packedBytes s.paletteBpp :=
  if_neg (not_not.2 hsize)

/-- Settles O43: the checks, and the index found at the bits of every pixel of the packed image. -/
theorem paletteForwardRule : Obligations.PaletteForwardRule := by
  intro s w h n bpp ppb prb reads dst pixel pal
  refine ⟨fun hbad => ?_, fun h1 hn hv hfit hacc hknown => ?_⟩
  · by_cases hsize : paletteSizeLegal n = true
    · refine (execPtePalFwd_of_size hsize).trans ?_
      have hrange := (paletteSizeLegal_iff n).1 hsize
      obtain h0 | hbig | hv | hpast | ⟨hacc, x, hx, y, hy, hmiss⟩ := hbad
      · omega
      · omega
      · exact State.transform_refused (.inl hv)
      · exact State.transform_refused (.inr hpast)
      · have hunknown : (s.srcImage.all fun p => (paletteIndex s.palette p).isSome) = false := by
          rw [← Bool.not_eq_true, State.coloursKnown_iff]
          intro hknown
          obtain ⟨i, hi, hcolour⟩ := hknown x hx y hy
          exact hmiss i hi hcolour
        rw [hunknown]
        exact State.transform_badInput hacc
    · exact if_pos hsize
  · have hall := State.coloursKnown_iff.2 hknown
    have hexec := execPtePalFwd_of_size ((paletteSizeLegal_iff n).2 ⟨h1, hn⟩)
    rw [hall] at hexec
    have hlen := packImage_length w h n s.palette s.srcImage
    obtain ⟨t, hnext, hstores⟩ := State.transform_stores s.packedBytes s.paletteBpp hv hfit hacc hlen
    refine ⟨t, _, hexec.trans hnext, hstores, hlen, fun x hx y hy => ?_, fun x hx hwx y hy => ?_⟩
    · obtain ⟨hlt, hfound, hbefore⟩ := packedIndex_packImage_known hn s.palette_length hx hy
        (State.all_srcImage_iff.1 hall x hx y hy)
      rw [State.pixelAt_srcImage hx hy] at hfound hbefore
      exact ⟨hlt, (State.palette_getD hlt).symm.trans hfound, fun j hj =>
        (State.palette_getD (hj.trans hlt)).symm.trans_ne (hbefore j hj)⟩
    · have hbyte : x / ppb < prb := Nat.div_lt_of_lt_mul (Nat.mul_comm prb ppb ▸ hx)
      exact (packedIndex_packImage s.srcImage hn s.palette_length hbyte hy).trans (if_neg (Nat.not_lt.2 hwx))

/-- Settles O44: the checks, and the colour of every pixel's index. -/
theorem paletteInverseRule : Obligations.PaletteInverseRule := by
  intro s w h n bpp ppb prb spans
  refine ⟨fun hbad => ?_, fun h1 hn hv hfit hacc => ?_⟩
  · by_cases hsize : paletteSizeLegal n = true
    · have hrange := (paletteSizeLegal_iff n).1 hsize
      refine (execPtePalInv_of_size hsize).trans (State.transform_refused ?_)
      exact (hbad.resolve_left (by omega)).resolve_left (by omega)
    · exact if_pos hsize
  · have hlen := unpackImage_length w h n s.palette (s.readBytes s.arg0.toNat (packedRowBytes w n * h))
    obtain ⟨t, hnext, hstores⟩ := State.transform_storesImage
      (reads := [s.packedSpan s.arg0 n, paletteSpan s.arg2 n]) s.packedBytes s.paletteBpp hv hfit hacc hlen
    refine ⟨t, _, (execPtePalInv_of_size ((paletteSizeLegal_iff n).2 ⟨h1, hn⟩)).trans hnext, hstores, hlen,
      fun x hx y hy => ?_⟩
    rw [unpackImage, raster_getD _ _ hx hy, State.packedIndex_readBytes n hx hy]
    exact ite_congr rfl (fun hlt => State.palette_getD hlt) fun _ => rfl

end Sys2Proof.Machine
end

section
/-! PROOFS. A forward transform command and its inverse (spec/43_pixel_transforms.md R254, R256, spec/70_reset_and_hazards.md
R381): what the inverse finds in memory after the forward command, and the four round trips. -/

namespace Sys2Proof.Machine

/-! A transform that ended with OK. -/

/-- A transform that ended with OK found its inputs good and stored its output (R223, R348). -/
theorem State.transform_ended {s t : State} {reads : List (Nat × Nat)} {dst : Nat × Nat} {ok : Bool} {out : List Byte}
    {r0 r1 : Reg} (h : s.transform reads dst ok out r0 r1 = .next t) (hstatus : t.status = .ok)
    (hlen : out.length = dst.2) :
    ok = true ∧ ∃ m, t = ({ s with mem := m } : State).finish r0 r1 ∧ s.Stores { s with mem := m } dst.1 out := by
  obtain rfl | ⟨-, hfit, hok, rfl⟩ := State.transform_next h
  · cases hstatus
  · have hdst : dst.1 + dst.2 ≤ 2 ^ s.cfg.aw := by simpa [fits] using hfit dst (by simp)
    exact ⟨hok, _, rfl, State.stores_storeBytes (by rwa [hlen])⟩

/-- A transform that ended with OK and whose output is an image left its pixels in memory (R30, R223). -/
theorem State.transform_leavesImage {s t : State} {reads : List (Nat × Nat)} {a : Reg} {ok : Bool} {img : List Word}
    {r0 r1 : Reg} (h : s.transform reads (s.imageSpan a) ok (pixelBytes img) r0 r1 = .next t) (hstatus : t.status = .ok)
    (hlen : img.length = s.imgW * s.imgH) (hheld : ∀ x, InSpan (s.imageSpan a) x → s.bw.holds x = false) {k : Nat}
    (hk : k < s.imgW * s.imgH) : t.readPixel (a.toNat + 4 * k) = img.getD k 0 := by
  obtain ⟨-, m, rfl, hstores⟩ := State.transform_ended h hstatus (s.pixelBytes_length_eq_span a hlen)
  refine hstores.readPixel (fun x hx => hheld x ?_) (hlen ▸ hk)
  rwa [hlen, ← Nat.mul_assoc] at hx

/-! The state in which the inverse runs. -/

/-- The state after a command that changed only the memory, with its destination as the new source and a new destination. -/
def State.rerun (s : State) (m : Memory) (r0 r1 dst : Reg) : State :=
  { ({ s with mem := m } : State).finish r0 r1 with arg0 := s.arg1, arg1 := dst }

section
variable {s : State} {m : Memory} {out : List Byte} (hstores : s.Stores { s with mem := m } s.arg1.toNat out)
  (r0 r1 dst : Reg)
include hstores

/-- The inverse finds the output of the forward command. -/
theorem State.rerun_readBytes_output {n : Nat} (hlen : out.length = n)
    (hheld : ∀ a, InSpan (s.arg1.toNat, n) a → s.bw.holds a = false) :
    (s.rerun m r0 r1 dst).readBytes s.arg1.toNat n = out := by
  obtain ⟨-, hin, -⟩ := hstores
  refine List.ext_getElem (by simp [State.readBytes, hlen]) fun k hk hk' => ?_
  have hkn : k < n := hlen ▸ hk'
  rw [← List.getD_eq_getElem _ 0 hk, ← List.getD_eq_getElem _ 0 hk', State.readBytes_getD _ _ hkn]
  exact hin k hk' (hheld _ ⟨Nat.le_add_right _ _, Nat.add_lt_add_left hkn _⟩)

/-- The inverse finds the parameters of the forward command, which did not overwrite them (R254). -/
theorem State.rerun_readBytes_kept {p : Nat × Nat}
    (hkept : ∀ a, InSpan p a → ¬InSpan (s.arg1.toNat, out.length) a ∧ s.bw.holds a = false) :
    (s.rerun m r0 r1 dst).readBytes p.1 p.2 = s.readBytes p.1 p.2 := by
  obtain ⟨-, -, hout⟩ := hstores
  refine List.map_congr_left fun k hk => ?_
  obtain ⟨houtside, hheld⟩ := hkept (p.1 + k) ⟨Nat.le_add_right _ _, Nat.add_lt_add_left (List.mem_range.1 hk) _⟩
  exact hout _ houtside hheld

/-- The inverse finds the palette of the forward command (R254). -/
theorem State.rerun_palette (hkept : ∀ a, InSpan (paletteSpan s.arg2 s.arg3.toNat) a →
      ¬InSpan (s.arg1.toNat, out.length) a ∧ s.bw.holds a = false) :
    (s.rerun m r0 r1 dst).palette = s.palette := by
  refine List.map_congr_left fun k hk => ?_
  have hk : k < s.arg3.toNat := List.mem_range.1 hk
  have hbytes := State.rerun_readBytes_kept hstores r0 r1 dst (p := (s.arg2.toNat + 4 * k, 4)) fun a ha =>
    hkept a (by simp only [InSpan, paletteSpan] at ha ⊢; omega)
  exact congrArg (fun bs => BitVec.ofNat 32 (natOfBytes bs)) hbytes

end

/-- The inverse finds the image the forward command made. -/
theorem State.rerun_srcImage {s : State} {m : Memory} {img : List Word}
    (hstores : s.Stores { s with mem := m } s.arg1.toNat (pixelBytes img)) (hlen : img.length = s.imgW * s.imgH)
    (hheld : ∀ a, InSpan (s.imageSpan s.arg1) a → s.bw.holds a = false) (r0 r1 dst : Reg) :
    (s.rerun m r0 r1 dst).srcImage = img := by
  refine image_ext (State.srcImage_length _) hlen fun k hk => ?_
  refine (State.readPixels_getD _ _ hk).trans (hstores.readPixel (fun x hx => hheld x ?_) (hlen ▸ hk))
  rwa [hlen, ← Nat.mul_assoc] at hx

/-- An inverse whose image is the source of the forward command leaves the source pixels at its destination. -/
theorem State.rerun_restores {s v : State} {m : Memory} {r0 r1 r0' r1' dst : Reg} {reads : List (Nat × Nat)} {ok : Bool}
    {img : List Word}
    (h : (s.rerun m r0 r1 dst).transform reads (s.imageSpan dst) ok (pixelBytes img) r0' r1' = .next v)
    (hstatus : v.status = .ok) (hback : ∀ a, InSpan (s.imageSpan dst) a → s.bw.holds a = false) {k : Nat}
    (hk : k < s.imgW * s.imgH) (himg : img = s.srcImage) :
    v.readPixel (dst.toNat + 4 * k) = s.readPixel (s.arg0.toNat + 4 * k) := by
  have hlen : img.length = s.imgW * s.imgH := himg ▸ s.srcImage_length
  have hread := State.transform_leavesImage (s := s.rerun m r0 r1 dst) h hstatus hlen hback hk
  rw [hread, himg]
  exact s.readPixels_getD _ hk

/-! Images transformed back. -/

theorem map_addGreen_subGreen (img : List Word) : (img.map subGreen).map addGreen = img := by
  simp [Function.comp_def, addGreen_subGreen]

theorem colorImage_restores {w h : Nat} (tb : Nat) (mults : List Byte) {img : List Word} (hlen : img.length = w * h) :
    colorImage colorInverse w h tb mults (colorImage colorForward w h tb mults img) = img := by
  refine image_ext (colorImage_length _ _ _ _ _ _) hlen fun i hi => ?_
  rw [colorImage, raster_getD_index _ _ hi, pixelAt_index, colorImage, raster_getD_index _ _ hi, pixelAt_index,
    colorInverse_colorForward]

/-- An image whose colours are all in the palette is unpacked as it was packed (R252, R253). -/
theorem unpackImage_packImage {w h n : Nat} {pal img : List Word} (hn : n ≤ Config.palMax) (hpal : pal.length = n)
    (hlen : img.length = w * h) (hknown : ∀ p ∈ img, (paletteIndex pal p).isSome = true) :
    unpackImage w h n pal (packImage w h n pal img) = img := by
  refine image_ext (unpackImage_length _ _ _ _ _) hlen fun i hi => ?_
  obtain ⟨hx, hy⟩ := raster_coords_lt hi
  have hmem : img.getD i 0 ∈ img := by
    rw [List.getD_eq_getElem _ _ (hlen ▸ hi)]
    exact List.getElem_mem _
  obtain ⟨hlt, hfound, -⟩ := packedIndex_packImage_known hn hpal hx hy
    (hknown _ ((pixelAt_index w img i).symm ▸ hmem))
  rw [unpackImage, raster_getD_index _ _ hi, if_pos hlt, hfound, pixelAt_index]

/-! The four round trips. -/

section
variable {s t v : State} {dst : Reg} (hback : ∀ a, InSpan (s.imageSpan dst) a → s.bw.holds a = false)
  (ht : t.status = .ok) (hv : v.status = .ok) {k : Nat} (hk : k < s.imgW * s.imgH)
include hback ht hv hk

section
variable (hout : ∀ a, InSpan (s.imageSpan s.arg1) a → s.bw.holds a = false)
include hout

/-- Green subtracted and added (R240, R241). -/
theorem subtractGreen_roundTrip (hi : exec .pteSubgFwd s = .next t)
    (hj : exec .pteSubgInv { t with arg0 := s.arg1, arg1 := dst } = .next v) :
    v.readPixel (dst.toNat + 4 * k) = s.readPixel (s.arg0.toNat + 4 * k) := by
  have hlen := s.map_srcImage_length subGreen
  obtain ⟨-, m, rfl, hstores⟩ := State.transform_ended hi ht (s.pixelBytes_length_eq_span s.arg1 hlen)
  have hj : exec .pteSubgInv (s.rerun m 0 0 dst) = .next v := hj
  have hsrc := State.rerun_srcImage hstores hlen hout 0 0 dst
  refine State.rerun_restores hj hv hback hk ?_
  rw [hsrc, map_addGreen_subGreen]

/-- Colours decorrelated and correlated again, with the triples left where they were (R245, R246). -/
theorem crossColour_roundTrip {tb : BitVec 4}
    (hkept : ∀ a, InSpan (s.multSpan s.arg2 tb.toNat) a → ¬InSpan (s.imageSpan s.arg1) a ∧ s.bw.holds a = false)
    (hi : exec (.pteXcolFwd tb) s = .next t)
    (hj : exec (.pteXcolInv tb) { t with arg0 := s.arg1, arg1 := dst } = .next v) :
    v.readPixel (dst.toNat + 4 * k) = s.readPixel (s.arg0.toNat + 4 * k) := by
  have hlen := colorImage_length colorForward s.imgW s.imgH tb.toNat (s.mults tb.toNat) s.srcImage
  have hspan := s.pixelBytes_length_eq_span s.arg1 hlen
  obtain ⟨-, m, rfl, hstores⟩ := State.transform_ended hi ht hspan
  have hj : exec (.pteXcolInv tb) (s.rerun m 0 0 dst) = .next v := hj
  have hsrc := State.rerun_srcImage hstores hlen hout 0 0 dst
  have hmults : (s.rerun m 0 0 dst).mults tb.toNat = s.mults tb.toNat :=
    State.rerun_readBytes_kept hstores 0 0 dst (p := s.multSpan s.arg2 tb.toNat) (by rwa [hspan])
  refine State.rerun_restores hj hv hback hk ?_
  rw [hsrc, hmults]
  exact colorImage_restores tb.toNat _ s.srcImage_length

/-- Residuals made and undone, with the modes left where they were (R238). -/
theorem predictor_roundTrip {tb : BitVec 4}
    (hkept : ∀ a, InSpan (s.modeSpan s.arg2 tb.toNat) a → ¬InSpan (s.imageSpan s.arg1) a ∧ s.bw.holds a = false)
    (hi : exec (.ptePredFwd tb) s = .next t)
    (hj : exec (.ptePredInv tb) { t with arg0 := s.arg1, arg1 := dst } = .next v) :
    v.readPixel (dst.toNat + 4 * k) = s.readPixel (s.arg0.toNat + 4 * k) := by
  have hlen : (predForward s.imgW s.imgH tb.toNat (s.modes tb.toNat) s.srcImage).length = s.imgW * s.imgH :=
    predForward_length
  have hspan := s.pixelBytes_length_eq_span s.arg1 hlen
  obtain ⟨-, m, rfl, hstores⟩ := State.transform_ended hi ht hspan
  have hj : exec (.ptePredInv tb) (s.rerun m 0 0 dst) = .next v := hj
  have hsrc := State.rerun_srcImage hstores hlen hout 0 0 dst
  have hmodes : (s.rerun m 0 0 dst).modes tb.toNat = s.modes tb.toNat := congrArg byteNats
    (State.rerun_readBytes_kept hstores 0 0 dst (p := s.modeSpan s.arg2 tb.toNat) (by rwa [hspan]))
  refine State.rerun_restores hj hv hback hk ?_
  rw [hsrc, hmodes]
  exact predInverse_predForward s.srcImage_length

end

/-- Colours indexed and expanded, with the palette left where it was (R252, R253). -/
theorem palette_roundTrip (hout : ∀ a, InSpan (s.packedSpan s.arg1 s.arg3.toNat) a → s.bw.holds a = false)
    (hkept : ∀ a, InSpan (paletteSpan s.arg2 s.arg3.toNat) a →
      ¬InSpan (s.packedSpan s.arg1 s.arg3.toNat) a ∧ s.bw.holds a = false)
    (hi : exec .ptePalFwd s = .next t) (hj : exec .ptePalInv { t with arg0 := s.arg1, arg1 := dst } = .next v) :
    v.readPixel (dst.toNat + 4 * k) = s.readPixel (s.arg0.toNat + 4 * k) := by
  by_cases hsize : paletteSizeLegal s.arg3.toNat = true
  swap
  · obtain rfl : s.raised .invalidArgument = t := (raise_eq_next _ _ _).1 ((if_pos hsize).symm.trans hi)
    cases ht
  have hi := (execPtePalFwd_of_size hsize).symm.trans hi
  have hlen := packImage_length s.imgW s.imgH s.arg3.toNat s.palette s.srcImage
  obtain ⟨hknown, m, rfl, hstores⟩ := State.transform_ended hi ht hlen
  have hj := (execPtePalInv_of_size (s := s.rerun m s.packedBytes s.paletteBpp dst) hsize).symm.trans hj
  have hpacked := State.rerun_readBytes_output hstores s.packedBytes s.paletteBpp dst hlen hout
  have hpal := State.rerun_palette hstores s.packedBytes s.paletteBpp dst (by rwa [hlen])
  have hrestored := unpackImage_packImage ((paletteSizeLegal_iff _).1 hsize).2 s.palette_length s.srcImage_length
    (List.all_eq_true.1 hknown)
  refine State.rerun_restores hj hv hback hk ?_
  rw [hpal]
  exact (congrArg _ hpacked).trans hrestored

end

/-- Settles O45: one case for each pair of commands. -/
theorem transformCommandsRoundTrip : Obligations.TransformCommandsRoundTrip := by
  intro i j s t v dst parameters hpair hheld hkept hi ht hj hv k hk
  have hout := fun a ha => hheld a (.inl ha)
  have hback := fun a ha => hheld a (.inr ha)
  obtain hpair | ⟨tb, hpair⟩ := hpair
  · obtain ⟨rfl, rfl⟩ | ⟨rfl, rfl⟩ : i = .pteSubgFwd ∧ j = .pteSubgInv ∨ i = .ptePalFwd ∧ j = .ptePalInv := by
      simpa using hpair
    · exact subtractGreen_roundTrip hback ht hv hk hout hi hj
    · exact palette_roundTrip hback ht hv hk hout (hkept _ (List.mem_singleton_self _)) hi hj
  · obtain ⟨rfl, rfl⟩ | ⟨rfl, rfl⟩ :
        i = .ptePredFwd tb ∧ j = .ptePredInv tb ∨ i = .pteXcolFwd tb ∧ j = .pteXcolInv tb := by
      simpa using hpair
    · exact predictor_roundTrip hback ht hv hk hout (hkept _ (List.mem_singleton_self _)) hi hj
    · exact crossColour_roundTrip hback ht hv hk hout (hkept _ (List.mem_singleton_self _)) hi hj

end Sys2Proof.Machine
end

section
/-! PROOFS. The arena of the chunk store (spec/44_chunkstore_mux.md R279): what a record reads as after one is made or released,
which index is the lowest absent one, and when a record can be made. -/

namespace Sys2Proof.Machine

/-! Records. -/

/-- A record reads as written at its index, and every other as before. -/
theorem Store.record_of_set {m m' : Store} {i : Nat} {r : ChunkRec} (hrecs : m'.recs = m.recs.set i r)
    (hi : i < m.recs.length) (j : Nat) : m'.record j = if j = i then r else m.record j := by
  rw [Store.record, Store.record, hrecs, List.getD_eq_getElem?_getD, List.getD_eq_getElem?_getD, List.getElem?_set]
  by_cases hij : i = j
  · subst hij
    simp [hi]
  · simp [hij, Ne.symm hij]

/-- An index outside the arena names the record of reset, which is absent (log 18). -/
theorem Store.record_of_le {m : Store} {i : Nat} (h : m.recs.length ≤ i) : m.record i = ChunkRec.reset := by
  rw [Store.record, List.getD_eq_getElem?_getD, List.getElem?_eq_none h]
  rfl

/-- Arenas of one length with the same records are the same. -/
theorem Store.recs_ext {m m' : Store} (hlen : m.recs.length = m'.recs.length) (h : ∀ j, m.record j = m'.record j) :
    m.recs = m'.recs := by
  rw [← m.map_record_range, ← m'.map_record_range, hlen]
  exact List.map_congr_left fun j _ => h j

/-- A present record is inside the arena. -/
theorem Store.lt_of_present {m : Store} {i : Nat} (h : (m.record i).present = true) : i < m.recs.length := by
  by_contra hi
  rw [Store.record_of_le (Nat.le_of_not_lt hi)] at h
  cases h

/-- What is true of the records of the arena, by index. -/
theorem Store.forall_recs_iff {m : Store} {P : ChunkRec → Prop} :
    (∀ r ∈ m.recs, P r) ↔ ∀ i < m.recs.length, P (m.record i) := by
  constructor
  · exact fun h i hi => h _ (Store.record_mem hi)
  · intro h r hr
    rw [← m.map_record_range] at hr
    obtain ⟨i, hi, rfl⟩ := List.mem_map.1 hr
    exact h i (List.mem_range.1 hi)

/-! The lowest absent index (R279). -/

theorem Store.freeIndex_eq_some {m : Store} {i : Nat} :
    m.freeIndex = some i ↔
      i < m.recs.length ∧ (m.record i).present = false ∧ ∀ j < i, (m.record j).present = true := by
  rw [Store.freeIndex, List.findIdx?_eq_some_iff_getElem]
  constructor
  · rintro ⟨hi, habsent, hbefore⟩
    refine ⟨hi, by simpa [Store.record, hi] using habsent, fun j hj => ?_⟩
    simpa [Store.record, hj.trans hi] using hbefore j hj
  · rintro ⟨hi, habsent, hbefore⟩
    refine ⟨hi, by simpa [Store.record, hi] using habsent, fun j hj => ?_⟩
    simpa [Store.record, hj.trans hi] using hbefore j hj

theorem Store.freeIndex_eq_none {m : Store} : m.freeIndex = none ↔ ∀ r ∈ m.recs, r.present = true := by
  simp [Store.freeIndex]

/-- With an absent record inside the arena there is a lowest one. -/
theorem Store.exists_freeIndex {m : Store} {i : Nat} (hi : i < m.recs.length) (h : (m.record i).present = false) :
    ∃ j, m.freeIndex = some j := by
  refine Option.ne_none_iff_exists'.1 fun hnone => ?_
  have hp := Store.freeIndex_eq_none.1 hnone _ (Store.record_mem hi)
  rw [h] at hp
  cases hp

/-! Making a record (R279). -/

@[simp] theorem Incoming.record_present (c : Config) (x : Incoming) : (x.record c).present = true := by
  unfold Incoming.record
  split <;> rfl

@[simp] theorem Incoming.record_tag (c : Config) (x : Incoming) : (x.record c).tag = x.tag := by
  unfold Incoming.record
  split <;> rfl

@[simp] theorem Incoming.record_len (c : Config) (x : Incoming) : (x.record c).len = x.len := by
  unfold Incoming.record
  split <;> rfl

@[simp] theorem Incoming.record_owner (c : Config) (x : Incoming) : (x.record c).owner = ownsCopy c x.tag x.copy := by
  unfold Incoming.record
  split
  · exact Eq.symm ‹_›
  · exact Eq.symm (by simpa using ‹¬ownsCopy c x.tag x.copy = true›)

theorem Incoming.record_data {c : Config} {x : Incoming} (h : ownsCopy c x.tag x.copy = true) :
    (x.record c).data = x.payload := by
  rw [Incoming.record, if_pos h]

theorem Incoming.record_addr {c : Config} {x : Incoming} (h : ownsCopy c x.tag x.copy = false) :
    (x.record c).addr = x.addr := by
  rw [Incoming.record, if_neg (by simp [h])]

/-- The store with an incoming chunk's record at an index: the arena and the heap accounting change, no list does (R279). -/
def Store.withRecord (c : Config) (m : Store) (x : Incoming) (i : Nat) : Store :=
  { m with
    recs := m.recs.set i (x.record c)
    heapUsed := if ownsCopy c x.tag x.copy then BitVec.ofNat 33 (m.heapUsed.toNat + x.len.toNat) else m.heapUsed }

/-- The heap takes a chunk's payload, where it is copied (R279). -/
def Store.HeapTakes (c : Config) (m : Store) (x : Incoming) : Prop :=
  ownsCopy c x.tag x.copy = true → m.heapUsed.toNat + x.len.toNat ≤ c.heapLimit

theorem Store.alloc_eq_ok {c : Config} {m : Store} {x : Incoming} {i : Nat} (hi : m.freeIndex = some i)
    (hheap : m.HeapTakes c x) : m.alloc c x = .ok (i, m.withRecord c x i) := by
  rw [Store.alloc, hi, Store.withRecord]
  by_cases howns : ownsCopy c x.tag x.copy = true
  · have := hheap howns
    simp [howns, Nat.not_lt.2 this]
  · simp [howns]

theorem Store.alloc_ok_iff {c : Config} {m m' : Store} {x : Incoming} {i : Nat} :
    m.alloc c x = .ok (i, m') ↔ m.freeIndex = some i ∧ m.HeapTakes c x ∧ m' = m.withRecord c x i := by
  constructor
  · intro h
    obtain ⟨hi, -, -, hheap, -⟩ := Store.alloc_ok h
    have htakes : m.HeapTakes c x := fun howns => (hheap howns).1
    have hok := h.symm.trans (Store.alloc_eq_ok hi htakes)
    simp only [Except.ok.injEq, Prod.mk.injEq, true_and] at hok
    exact ⟨hi, htakes, hok⟩
  · rintro ⟨hi, hheap, rfl⟩
    exact Store.alloc_eq_ok hi hheap

/-- There is room for a record exactly when there is an absent one and the heap takes the payload. -/
theorem Store.hasRoom_iff {c : Config} {m : Store} {x : Incoming} :
    m.HasRoom c x ↔ (∃ i, m.freeIndex = some i) ∧ m.HeapTakes c x := by
  refine and_congr_left fun _ => ⟨?_, ?_⟩
  · rintro ⟨i, hi, habsent⟩
    exact Store.exists_freeIndex hi habsent
  · rintro ⟨i, hi⟩
    obtain ⟨hlt, habsent, -⟩ := Store.freeIndex_eq_some.1 hi
    exact ⟨i, hlt, habsent⟩

/-- Without room no record is made (R279). -/
theorem Store.alloc_no_room {c : Config} {m : Store} {x : Incoming} (h : ¬m.HasRoom c x) :
    m.alloc c x = .error .allocationFailure := by
  cases hresult : m.alloc c x with
  | error e => rw [Store.alloc_error hresult]
  | ok r =>
    obtain ⟨hi, hheap, -⟩ := Store.alloc_ok_iff.1 (hresult : m.alloc c x = .ok (r.1, r.2))
    exact absurd (Store.hasRoom_iff.2 ⟨⟨_, hi⟩, hheap⟩) h

section
variable {c : Config} {m : Store} {x : Incoming} {i : Nat}

@[simp] theorem Store.withRecord_valid : (m.withRecord c x i).valid = m.valid := rfl
@[simp] theorem Store.withRecord_frames : (m.withRecord c x i).frames = m.frames := rfl
@[simp] theorem Store.withRecord_walk : (m.withRecord c x i).walk = m.walk := rfl
@[simp] theorem Store.withRecord_list (k : ChunkClass) : (m.withRecord c x i).list k = m.list k := by cases k <;> rfl
@[simp] theorem Store.withRecord_length : (m.withRecord c x i).recs.length = m.recs.length := List.length_set

theorem Store.withRecord_record (hi : i < m.recs.length) (j : Nat) :
    (m.withRecord c x i).record j = if j = i then x.record c else m.record j :=
  Store.record_of_set rfl hi j

/-- The heap grows by a payload that is copied. -/
theorem Store.withRecord_heapUsed (h : m.HeapTakes c x) (hlimit : c.heapLimit < 2 ^ 33) :
    (m.withRecord c x i).heapUsed.toNat = m.heapUsed.toNat + if ownsCopy c x.tag x.copy then x.len.toNat else 0 := by
  unfold Store.withRecord
  by_cases howns : ownsCopy c x.tag x.copy = true
  · have := h howns
    simp only [howns, if_true, BitVec.toNat_ofNat]
    exact Nat.mod_eq_of_lt (by omega)
  · simp [howns]

/-- A record made is the one the rule of allocation asks for (R279). -/
theorem Store.allocates_withRecord (hi : m.freeIndex = some i) : m.Allocates c x i (m.withRecord c x i) := by
  have hlowest := Store.freeIndex_eq_some.1 hi
  have hrecord := Store.withRecord_record (c := c) (x := x) hlowest.1
  have hself : (m.withRecord c x i).record i = x.record c := (hrecord i).trans (if_pos rfl)
  refine ⟨hlowest, ⟨Store.withRecord_length, fun j hj => (hrecord j).trans (if_neg hj)⟩, ?_, ?_, rfl⟩
  · rw [hself]
    exact ⟨x.record_present c, x.record_tag c, x.record_len c, x.record_owner c, Incoming.record_data, Incoming.record_addr⟩
  · rfl

end

/-! Releasing records (R279). -/

/-- A record that is released keeps its other fields (log 12), whether it is in the arena or not. -/
theorem Store.release_record (m : Store) (i j : Nat) :
    (m.release i).record j = if j = i then { m.record i with present := false } else m.record j := by
  by_cases hi : i < m.recs.length
  · exact Store.record_of_set rfl hi j
  · have hsame : (m.release i).record j = m.record j := by
      rw [Store.record, Store.record, Store.release_recs, List.set_eq_of_length_le (Nat.le_of_not_lt hi)]
    rw [hsame]
    split
    · subst j
      rw [Store.record_of_le (Nat.le_of_not_lt hi)]
      rfl
    · rfl

theorem Store.releaseAll_cons (m : Store) (i : Nat) (is : List Nat) :
    m.releaseAll (i :: is) = (m.release i).releaseAll is := rfl

@[simp] theorem Store.releaseAll_length (m : Store) (is : List Nat) : (m.releaseAll is).recs.length = m.recs.length := by
  induction is generalizing m with
  | nil => rfl
  | cons i is ih => rw [Store.releaseAll_cons, ih, Store.release_recs, List.length_set]

theorem Store.releaseAll_record (m : Store) (is : List Nat) (j : Nat) :
    (m.releaseAll is).record j = if j ∈ is then { m.record j with present := false } else m.record j := by
  induction is generalizing m with
  | nil => simp [Store.releaseAll]
  | cons i is ih =>
    rw [Store.releaseAll_cons, ih, Store.release_record]
    by_cases hij : j = i
    · subst hij
      simp
    · simp [hij]

/-- The owned bytes of several records depend on these records' owners and lengths alone. -/
theorem Store.ownedBytes_congr {m m' : Store} {is : List Nat}
    (h : ∀ i ∈ is, (m'.record i).owner = (m.record i).owner ∧ (m'.record i).len = (m.record i).len) :
    m'.ownedBytes is = m.ownedBytes is := by
  unfold Store.ownedBytes
  rw [List.filter_congr fun i hi => (h i hi).1]
  exact congrArg List.sum (List.map_congr_left fun i hi => by rw [(h i (List.mem_of_mem_filter hi)).2])

theorem Store.ownedBytes_cons (m : Store) (i : Nat) (is : List Nat) :
    m.ownedBytes (i :: is) = (if (m.record i).owner then (m.record i).len.toNat else 0) + m.ownedBytes is := by
  unfold Store.ownedBytes
  by_cases h : (m.record i).owner = true
  · simp [h]
  · simp [h]

theorem Store.ownedBytes_append (m : Store) (is js : List Nat) :
    m.ownedBytes (is ++ js) = m.ownedBytes is + m.ownedBytes js := by
  simp [Store.ownedBytes]

theorem Store.ownedBytes_perm {m : Store} {is js : List Nat} (h : is.Perm js) : m.ownedBytes is = m.ownedBytes js :=
  ((h.filter _).map _).sum_eq

/-- The heap gives the owned bytes of the released records back. -/
theorem Store.releaseAll_heapUsed (m : Store) (is : List Nat) :
    (m.releaseAll is).heapUsed.toNat = m.heapUsed.toNat - m.ownedBytes is := by
  induction is generalizing m with
  | nil => simp [Store.releaseAll, Store.ownedBytes]
  | cons i is ih =>
    have hkept : (m.release i).ownedBytes is = m.ownedBytes is := by
      refine Store.ownedBytes_congr fun j _ => ?_
      rw [Store.release_record]
      split
      · subst j
        exact ⟨rfl, rfl⟩
      · exact ⟨rfl, rfl⟩
    rw [Store.releaseAll_cons, ih, hkept, Store.ownedBytes_cons, Store.release_heapUsed]
    have hlt := m.heapUsed.isLt
    split
    · rw [BitVec.toNat_ofNat, Nat.mod_eq_of_lt (by omega)]
      omega
    · omega

section
variable (m : Store) (is : List Nat)

@[simp] theorem Store.releaseAll_valid : (m.releaseAll is).valid = m.valid := by rw [Store.releaseAll_eq]
@[simp] theorem Store.releaseAll_frames : (m.releaseAll is).frames = m.frames := by rw [Store.releaseAll_eq]
@[simp] theorem Store.releaseAll_walk : (m.releaseAll is).walk = m.walk := by
  rw [Store.releaseAll_eq]
  rfl
@[simp] theorem Store.releaseAll_list (k : ChunkClass) : (m.releaseAll is).list k = m.list k := by
  rw [Store.releaseAll_eq]
  cases k <;> rfl

end

end Sys2Proof.Machine
end

section
/-! PROOFS. The lists and frames of the chunk store, and routing (spec/44_chunkstore_mux.md R291 to R293): one equation for the
routing of a chunk of any class, and its three outcomes. -/

namespace Sys2Proof.Machine

/-! The lists. -/

/-- Replacing a list of the store replaces no other. -/
theorem Store.list_setList (m : Store) {k : ChunkClass} (hk : frameClass k = false) (l : List Nat) (k' : ChunkClass) :
    (m.setList k l).list k' = if k' = k then l else m.list k' := by
  cases k with
  | frmh | alpha | image => cases hk
  | dim | icc | anim | exif | xmp | unknown => cases k' <;> rfl

section
variable (m : Store) (k : ChunkClass) (l : List Nat)

@[simp] theorem Store.setList_valid : (m.setList k l).valid = m.valid := by cases k <;> rfl
@[simp] theorem Store.setList_recs : (m.setList k l).recs = m.recs := by cases k <;> rfl
@[simp] theorem Store.setList_frames : (m.setList k l).frames = m.frames := by cases k <;> rfl
@[simp] theorem Store.setList_heapUsed : (m.setList k l).heapUsed = m.heapUsed := by cases k <;> rfl

end

/-- A store is its arena, its heap accounting, its lists and its frames. -/
theorem Store.ext_lists {m m' : Store} (hvalid : m.valid = m'.valid) (hrecs : m.recs = m'.recs)
    (hheap : m.heapUsed = m'.heapUsed) (hframes : m.frames = m'.frames) (hlist : ∀ k, m.list k = m'.list k) : m = m' := by
  have hdim : m.dim = m'.dim := hlist .dim
  have hicc : m.icc = m'.icc := hlist .icc
  have hanim : m.anim = m'.anim := hlist .anim
  have hexif : m.exif = m'.exif := hlist .exif
  have hxmp : m.xmp = m'.xmp := hlist .xmp
  have hunknown : m.unknown = m'.unknown := hlist .unknown
  cases m
  cases m'
  simp_all

/-- The records of the six lists, in the order of the walk (R296). -/
def Store.listed (m : Store) : List Nat := [.dim, .icc, .anim, .exif, .xmp, .unknown].flatMap m.list

/-- The records of the frames, in the order of the walk (R296). -/
def Store.framed (m : Store) : List Nat := m.frames.flatMap Frame.walk

/-- The walk meets the lists, then the frames (R296). -/
theorem Store.walk_eq (m : Store) : m.walk = m.listed ++ m.framed := by simp [Store.walk, Store.listed, Store.framed, Store.list]

theorem Store.mem_listed {m : Store} {i : Nat} : i ∈ m.listed ↔ ∃ k, i ∈ m.list k := by
  constructor
  · intro h
    obtain ⟨k, -, hk⟩ := List.mem_flatMap.1 h
    exact ⟨k, hk⟩
  · rintro ⟨k, hk⟩
    refine List.mem_flatMap.2 ⟨k, ?_, hk⟩
    cases k with
    | frmh | alpha | image => cases hk
    | dim | icc | anim | exif | xmp | unknown => decide

/-! Putting a record's index in its place (R291). -/

/-- A new frame at the end (R291). -/
def Store.addFrame (m : Store) (f : Frame) : Store := { m with frames := m.frames ++ [f] }

/-- A frame with a record's index in the field of its class (R36). -/
def Frame.put (k : ChunkClass) (i : Nat) (f : Frame) : Frame :=
  match k with
  | .frmh => { f with hdr := some i }
  | .alpha => { f with alpha := some i }
  | .image => { f with img := some i }
  | .unknown => { f with unk := f.unk ++ [i] }
  | .dim | .icc | .anim | .exif | .xmp => f

/-- Whether no frame is open for image data: there is none, or the last one has its image (R291). -/
def Store.lastWhole (m : Store) : Bool := m.frames.getLast?.all fun f => f.img.isSome

theorem Store.lastWhole_iff {m : Store} : m.lastWhole = true ↔ m.LastWhole := by
  unfold Store.lastWhole Store.LastWhole
  cases m.frames.getLast? with
  | none => simp
  | some f => simp [Option.isSome_iff_ne_none]

/-- Where R291 puts the record at an index, by its class. -/
def Store.link (m : Store) (k : ChunkClass) (i : Nat) : Store :=
  match k with
  | .dim | .icc | .anim | .exif | .xmp => m.setList k [i]
  | .frmh => m.addFrame (Frame.empty.put .frmh i)
  | .alpha | .image => if m.lastWhole then m.addFrame (Frame.empty.put k i) else m.mapLast (Frame.put k i)
  | .unknown => if m.frames = [] then m.setList .unknown (m.unknown ++ [i]) else m.mapLast (Frame.put .unknown i)

theorem Store.mapLast_frames_eq (m : Store) (g : Frame → Frame) :
    (m.mapLast g).frames = m.frames.dropLast ++ m.frames.getLast?.toList.map g := by
  rw [Store.mapLast_frames]
  rcases List.eq_nil_or_concat m.frames with h | ⟨before, last, h⟩
  · simp [h]
  · simp [h]

@[simp] theorem Store.mapLast_list (m : Store) (g : Frame → Frame) (k : ChunkClass) : (m.mapLast g).list k = m.list k := by
  cases k <;> rfl

/-! Routing. -/

/-- Two ways to put a record that agree on stores with the frames of the old one. -/
theorem Store.place_congr {c : Config} {m : Store} {x : Incoming} {put put' : Nat → Store → Store}
    (h : ∀ i m', m'.frames = m.frames → put i m' = put' i m') : m.place c x put = m.place c x put' := by
  unfold Store.place
  cases hresult : m.alloc c x with
  | error e => rfl
  | ok r =>
    obtain ⟨-, -, heq⟩ := Store.alloc_ok_iff.1 (hresult : m.alloc c x = .ok (r.1, r.2))
    dsimp only
    rw [h r.1 r.2 (by rw [heq]; rfl)]

theorem Store.newFrame_eq (c : Config) (m : Store) (x : Incoming) (fill : Nat → Frame) :
    m.newFrame c x fill =
      if c.nframe ≤ m.frames.length then .error .allocationFailure
      else m.place c x fun i m' => m'.addFrame (fill i) := rfl

theorem Store.place_ok_iff {c : Config} {m m' : Store} {x : Incoming} {put : Nat → Store → Store} {i : Nat} :
    m.place c x put = .ok (i, m') ↔ m.freeIndex = some i ∧ m.HeapTakes c x ∧ m' = put i (m.withRecord c x i) := by
  constructor
  · intro h
    obtain ⟨m1, halloc, rfl⟩ := Store.place_ok h
    obtain ⟨hi, hheap, rfl⟩ := Store.alloc_ok_iff.1 halloc
    exact ⟨hi, hheap, rfl⟩
  · rintro ⟨hi, hheap, rfl⟩
    rw [Store.place, Store.alloc_eq_ok hi hheap]

theorem Store.place_no_room {c : Config} {m : Store} {x : Incoming} (h : ¬m.HasRoom c x) (put : Nat → Store → Store) :
    m.place c x put = .error .allocationFailure := by
  rw [Store.place, Store.alloc_no_room h]

section
variable {c : Config} {m : Store} {x : Incoming}

/-- Without an open frame an alpha or an image chunk opens one (R291). -/
theorem Store.inserts_of_whole (hwhole : m.lastWhole = true) :
    m.insertAlpha c x = m.newFrame c x (Frame.empty.put .alpha) ∧
      m.insertImage c x = m.newFrame c x (Frame.empty.put .image) := by
  unfold Store.insertAlpha Store.insertImage Store.lastFrame
  unfold Store.lastWhole at hwhole
  cases hlast : m.frames.getLast? with
  | none => exact ⟨rfl, rfl⟩
  | some f =>
    have himg : f.img.isNone = false := by simpa [hlast] using hwhole
    simp only [himg]
    exact ⟨rfl, rfl⟩

/-- With an open frame an alpha or an image chunk goes into it, unless it has such an alpha chunk (R291). -/
theorem Store.inserts_of_open {f : Frame} (hlast : m.frames.getLast? = some f) (himg : f.img = none) :
    m.insertAlpha c x = (if f.alpha.isSome then .error .duplicateChunk
        else m.place c x fun _ m' => m'.mapLast (Frame.put .alpha ‹_›)) ∧
      m.insertImage c x = m.place c x fun i m' => m'.mapLast (Frame.put .image i) := by
  unfold Store.insertAlpha Store.insertImage Store.lastFrame
  simp only [hlast, himg]
  exact ⟨rfl, rfl⟩

/-- Opening a frame for an alpha or an image chunk (R291). -/
theorem Store.newFrame_eq_link {k : ChunkClass} (hk : k = .alpha ∨ k = .image) (hwhole : m.lastWhole = true) :
    m.newFrame c x (Frame.empty.put k) =
      if c.nframe ≤ m.frames.length then .error .allocationFailure else m.place c x fun i m' => m'.link k i := by
  rw [Store.newFrame_eq, Store.place_congr]
  intro i m' hframes
  have hwhole' : m'.lastWhole = true := by rwa [Store.lastWhole, hframes]
  obtain rfl | rfl := hk <;> exact (if_pos hwhole').symm

/-- Filling the open frame for an alpha or an image chunk (R291). -/
theorem Store.place_mapLast_eq_link {k : ChunkClass} (hk : k = .alpha ∨ k = .image) (hopen : m.lastWhole = false) :
    (m.place c x fun i m' => m'.mapLast (Frame.put k i)) = m.place c x fun i m' => m'.link k i := by
  refine Store.place_congr fun i m' hframes => ?_
  have hopen' : ¬m'.lastWhole = true := by
    rw [Store.lastWhole, hframes, ← Store.lastWhole, hopen]
    exact Bool.false_ne_true
  obtain rfl | rfl := hk <;> exact (if_neg hopen').symm

/-- A store is whole, or its last frame is open. -/
theorem Store.whole_or_open (m : Store) :
    m.lastWhole = true ∨ m.lastWhole = false ∧ ∃ f, m.frames.getLast? = some f ∧ f.img = none := by
  unfold Store.lastWhole
  cases m.frames.getLast? with
  | none => exact .inl rfl
  | some f => cases himg : f.img <;> simp [himg]

open Classical in
/-- Routing as one rule: the duplicates, the frame that is opened, and the place of each class (R291). -/
theorem Store.route_eq (c : Config) (m : Store) (x : Incoming) :
    m.route c x =
      if m.Duplicates c x then .error .duplicateChunk
      else if m.Opens c x ∧ c.nframe ≤ m.frames.length then .error .allocationFailure
      else m.place c x fun i m' => m'.link (classOf c x.tag) i := by
  have hsingle : ∀ k, m.insertSingleton c k x =
      if m.list k ≠ [] then .error .duplicateChunk else m.place c x fun i m' => m'.setList k [i] := fun _ => rfl
  unfold Store.route Store.Duplicates Store.Opens
  cases classOf c x.tag with
  | dim | icc | anim | exif | xmp =>
    simp only [hsingle, false_and, if_false]
    rfl
  | frmh =>
    simp only [Store.newFrame_eq, if_false, true_and]
    rfl
  | unknown =>
    simp only [if_false, false_and]
    rfl
  | alpha =>
    obtain hwhole | ⟨hopen, f, hlast, himg⟩ := m.whole_or_open
    · have hnodup : ¬∃ f, m.frames.getLast? = some f ∧ f.img = none ∧ f.alpha ≠ none := fun ⟨f, hf, himg, _⟩ =>
        Store.lastWhole_iff.1 hwhole f hf himg
      simp only [Store.inserts_of_whole hwhole, Store.newFrame_eq_link, hwhole, Store.lastWhole_iff.1 hwhole, hnodup,
        if_false, true_and, true_or]
    · have hnot : ¬m.LastWhole := fun h => h f hlast himg
      simp only [Store.inserts_of_open hlast himg, hnot, hopen, Store.place_mapLast_eq_link, hlast, himg,
        Option.isSome_iff_ne_none, Option.some.injEq, exists_eq_left', true_and, true_or, false_and, if_false]
  | image =>
    obtain hwhole | ⟨hopen, f, hlast, himg⟩ := m.whole_or_open
    · simp only [Store.inserts_of_whole hwhole, Store.newFrame_eq_link, hwhole, Store.lastWhole_iff.1 hwhole, if_false,
        true_and, or_true]
    · have hnot : ¬m.LastWhole := fun h => h f hlast himg
      simp only [Store.inserts_of_open hlast himg, hnot, hopen, Store.place_mapLast_eq_link, or_true, false_and, if_false]

end

/-! The three outcomes. -/

section
variable {c : Config} {m m' : Store} {x : Incoming} {i : Nat}

theorem Store.route_duplicate (h : m.Duplicates c x) : m.route c x = .error .duplicateChunk := by
  rw [Store.route_eq, if_pos h]

theorem Store.route_no_room (hdup : ¬m.Duplicates c x) (hroom : ¬m.RoomFor c x) :
    m.route c x = .error .allocationFailure := by
  rw [Store.route_eq, if_neg hdup]
  split
  · rfl
  next hframe =>
    refine Store.place_no_room (fun h => hroom ⟨h, fun hopens => ?_⟩) _
    exact Nat.lt_of_not_le fun hle => hframe ⟨hopens, hle⟩

theorem Store.route_ok_iff :
    m.route c x = .ok (i, m') ↔
      (¬m.Duplicates c x ∧ (m.Opens c x → m.frames.length < c.nframe)) ∧
        m.freeIndex = some i ∧ m.HeapTakes c x ∧ m' = (m.withRecord c x i).link (classOf c x.tag) i := by
  rw [Store.route_eq]
  by_cases hdup : m.Duplicates c x
  · simp [hdup]
  by_cases hframe : m.Opens c x ∧ c.nframe ≤ m.frames.length
  · simp [hdup, hframe, Nat.not_lt.2 hframe.2]
  · have hopens : m.Opens c x → m.frames.length < c.nframe := fun h => Nat.lt_of_not_le fun hle => hframe ⟨h, hle⟩
    rw [if_neg hdup, if_neg hframe, Store.place_ok_iff]
    exact (and_iff_right ⟨hdup, hopens⟩).symm

/-- A chunk that is no duplicate and has room is routed to the lowest absent index. -/
theorem Store.route_room (hdup : ¬m.Duplicates c x) (hroom : m.RoomFor c x) :
    ∃ i, m.freeIndex = some i ∧ m.route c x = .ok (i, (m.withRecord c x i).link (classOf c x.tag) i) := by
  obtain ⟨hspace, hframe⟩ := hroom
  obtain ⟨⟨i, hi⟩, hheap⟩ := Store.hasRoom_iff.1 hspace
  exact ⟨i, hi, Store.route_ok_iff.2 ⟨⟨hdup, hframe⟩, hi, hheap, rfl⟩⟩

/-- The place of each class is the one the routing rule names (R291). -/
theorem Store.puts_link (hi : m.freeIndex = some i) :
    m.Puts c x i ((m.withRecord c x i).link (classOf c x.tag) i) := by
  refine ⟨m.withRecord c x i, Store.allocates_withRecord hi, ?_⟩
  have hlast : ∀ f : Frame → Frame, (m.withRecord c x i).mapLast f =
      { m.withRecord c x i with frames := m.frames.dropLast ++ m.frames.getLast?.toList.map f } := by
    intro f
    rw [Store.mapLast]
    congr 1
    exact (m.withRecord c x i).mapLast_frames_eq f
  have hwhole : (m.withRecord c x i).lastWhole = true ↔ m.LastWhole := Store.lastWhole_iff
  cases classOf c x.tag with
  | dim | icc | anim | exif | xmp | frmh => rfl
  | alpha | image =>
    dsimp only [Store.link]
    rw [hlast]
    exact ⟨fun h => if_pos (hwhole.2 h), fun h => if_neg (hwhole.not.2 h)⟩
  | unknown =>
    dsimp only [Store.link]
    rw [hlast]
    rfl

end

/-! MUX.PUSH (R292, R293). -/

/-- The classes whose payload is always copied (R273). -/
theorem ownsCopy_eq (c : Config) (tag : Word) (copy : Bool) :
    ownsCopy c tag copy =
      (copy || decide (classOf c tag = .dim ∨ classOf c tag = .anim ∨ classOf c tag = .frmh)) := by
  unfold ownsCopy
  cases classOf c tag <;> rfl

/-- The memory an insertion reads is accessible where a payload that is copied is. -/
theorem Incoming.accessible_span {s : State} {x : Incoming}
    (h : ownsCopy s.cfg x.tag x.copy = true → s.Accessible [(x.addr.toNat, x.len.toNat)]) :
    s.Accessible [x.span s.cfg] := by
  intro p hp k hk
  rw [List.mem_singleton] at hp
  subst hp
  unfold Incoming.span at hk ⊢
  split at hk
  next howns => exact h howns _ (List.mem_singleton_self _) k hk
  next => exact absurd hk (Nat.not_lt_zero k)

section
variable {copy : Bool} {s : State}

theorem execMuxPush_refused
    (h : s.mux.valid = false ∨ 2 ^ s.cfg.aw < s.arg1.toNat + s.lenOperand.toNat) :
    execMuxPush copy s = .next (s.raised .invalidArgument) := by
  unfold execMuxPush
  dsimp only
  split
  · rfl
  next hvalid =>
    have hfits : ¬fits s.cfg s.arg1.toNat s.lenOperand.toNat = true := by
      simpa [fits, hvalid] using h
    rw [if_pos hfits]
    rfl

variable (hvalid : s.mux.valid = true) (hfit : s.arg1.toNat + s.lenOperand.toNat ≤ 2 ^ s.cfg.aw)
include hvalid hfit

theorem execMuxPush_error {e : Status}
    (hroute : s.mux.route s.cfg (s.incoming s.tagOperand s.arg1 s.lenOperand copy) = .error e) :
    execMuxPush copy s = .next (s.raised e) := by
  have hfits : fits s.cfg s.arg1.toNat s.lenOperand.toNat = true := by simpa [fits] using hfit
  simp only [execMuxPush, hvalid, hfits, hroute, Bool.true_eq_false, not_true, if_false]
  rfl

theorem execMuxPush_ok {i : Nat} {m : Store}
    (hroute : s.mux.route s.cfg (s.incoming s.tagOperand s.arg1 s.lenOperand copy) = .ok (i, m))
    (hacc : ownsCopy s.cfg s.tagOperand copy = true → s.Accessible [(s.arg1.toNat, s.lenOperand.toNat)]) :
    execMuxPush copy s =
      .next ({ s with mux := m }.finish (BitVec.ofNat 64 i) (BitVec.ofNat 64 m.frames.length)) := by
  have hfits : fits s.cfg s.arg1.toNat s.lenOperand.toNat = true := by simpa [fits] using hfit
  have hspan := Incoming.accessible_span (s := s) (x := s.incoming s.tagOperand s.arg1 s.lenOperand copy) hacc
  simp only [execMuxPush, hvalid, hfits, hroute, State.touching_of_accessible hspan, Bool.true_eq_false, not_true, if_false]
  rfl

end

/-- Settles O52: the three outcomes of routing, and MUX.PUSH, which routes one chunk. -/
theorem muxPushRule : Obligations.MuxPushRule := by
  constructor
  · intro c m x
    refine ⟨ownsCopy_eq c x.tag x.copy, Store.route_duplicate, Store.route_no_room, fun hdup hroom => ?_⟩
    obtain ⟨i, hi, hroute⟩ := Store.route_room hdup hroom
    exact ⟨i, _, hroute, Store.puts_link hi⟩
  · intro copy s tag len owns x
    refine ⟨execMuxPush_refused, fun hvalid hfit => ⟨fun hdup => ?_, fun hdup hroom => ?_, fun hdup hroom hacc => ?_⟩⟩
    · exact execMuxPush_error hvalid hfit (Store.route_duplicate hdup)
    · exact execMuxPush_error hvalid hfit (Store.route_no_room hdup hroom)
    · obtain ⟨i, hi, hroute⟩ := Store.route_room hdup hroom
      exact ⟨i, _, hroute, Store.puts_link hi, execMuxPush_ok hvalid hfit hroute hacc⟩

end Sys2Proof.Machine
end

section
/-! PROOFS. Taking records out of the chunk store (spec/44_chunkstore_mux.md R279, R282, R289): the walk, the heap and the records
after it. -/

namespace Sys2Proof.Machine

/-! Lists and frames without some records. -/

theorem mem_withoutList {d l : List Nat} {i : Nat} : i ∈ withoutList d l ↔ i ∈ l ∧ i ∉ d := by simp [withoutList]

theorem withoutList_sublist (d l : List Nat) : (withoutList d l).Sublist l := List.filter_sublist

/-- Nothing to take out leaves a list alone. -/
theorem withoutList_of_disjoint {d l : List Nat} (h : ∀ i ∈ l, i ∉ d) : withoutList d l = l := by
  rw [withoutList, List.filter_eq_self]
  intro i hi
  simpa using h i hi

theorem withoutOpt_toList (d : List Nat) (o : Option Nat) : (withoutOpt d o).toList = withoutList d o.toList := by
  cases o with
  | none => rfl
  | some j =>
    by_cases h : j ∈ d <;> simp [withoutOpt, withoutList, h]

theorem Frame.walk_without (d : List Nat) (f : Frame) : (f.without d).walk = withoutList d f.walk := by
  simp only [Frame.walk, Frame.without, withoutOpt_toList]
  simp [withoutList]

theorem Frame.isEmpty_iff (f : Frame) : f.isEmpty = true ↔ f.walk = [] := by
  simp [Frame.isEmpty, Frame.walk, and_assoc]

theorem Frame.without_of_disjoint {d : List Nat} {f : Frame} (h : ∀ i ∈ f.walk, i ∉ d) : f.without d = f := by
  have hopt : ∀ o : Option Nat, (∀ i ∈ o.toList, i ∉ d) → withoutOpt d o = o := by
    intro o ho
    cases o with
    | none => rfl
    | some j => simpa [withoutOpt] using ho
  simp only [Frame.walk, List.mem_append] at h
  rw [Frame.without, hopt f.hdr fun i hi => h i (by simp [hi]), hopt f.alpha fun i hi => h i (by simp [hi]),
    hopt f.img fun i hi => h i (by simp [hi]), withoutList_of_disjoint fun i hi => h i (.inr hi)]

@[simp] theorem Store.unlink_list (m : Store) (d : List Nat) (k : ChunkClass) :
    (m.unlink d).list k = withoutList d (m.list k) := by cases k <;> rfl

theorem Store.unlink_listed (m : Store) (d : List Nat) : (m.unlink d).listed = withoutList d m.listed := by
  simp [Store.listed, withoutList]

/-- Dropping the frames left empty drops no record (R289). -/
theorem Store.unlink_framed (m : Store) (d : List Nat) : (m.unlink d).framed = withoutList d m.framed := by
  rw [Store.framed, Store.framed, Store.unlink_frames]
  induction m.frames with
  | nil => rfl
  | cons f fs ih =>
    rw [List.flatMap_cons, withoutList, List.filter_append, ← withoutList, ← withoutList, ← Frame.walk_without, ← ih,
      List.map_cons]
    by_cases hempty : (f.without d).isEmpty = true
    · rw [List.filter_cons_of_neg (by simp [hempty]), (Frame.isEmpty_iff _).1 hempty, List.nil_append]
    · rw [List.filter_cons_of_pos (by simp [hempty]), List.flatMap_cons]

theorem Store.unlink_walk (m : Store) (d : List Nat) : (m.unlink d).walk = withoutList d m.walk := by
  rw [Store.walk_eq, Store.walk_eq, Store.unlink_listed, Store.unlink_framed]
  simp [withoutList]

/-! The store without some records. -/

/-- The store without the records at some indices: out of the lists and frames, and released (R289). -/
def Store.remove (m : Store) (d : List Nat) : Store := (m.unlink d).releaseAll d

section
variable (m : Store) (d : List Nat)

@[simp] theorem Store.remove_valid : (m.remove d).valid = m.valid := Store.releaseAll_valid _ _
@[simp] theorem Store.remove_length : (m.remove d).recs.length = m.recs.length := Store.releaseAll_length _ _
@[simp] theorem Store.remove_frames :
    (m.remove d).frames = (m.frames.map (Frame.without d)).filter fun f => !f.isEmpty := Store.releaseAll_frames _ _
@[simp] theorem Store.remove_list (k : ChunkClass) : (m.remove d).list k = withoutList d (m.list k) := by
  simp [Store.remove]
theorem Store.remove_walk : (m.remove d).walk = withoutList d m.walk :=
  (Store.releaseAll_walk _ _).trans (Store.unlink_walk m d)
theorem Store.remove_record (j : Nat) :
    (m.remove d).record j = if j ∈ d then { m.record j with present := false } else m.record j :=
  Store.releaseAll_record (m.unlink d) d j
theorem Store.remove_heapUsed : (m.remove d).heapUsed.toNat = m.heapUsed.toNat - m.ownedBytes d :=
  Store.releaseAll_heapUsed (m.unlink d) d

end

/-- What is taken out of the walk and what stays are the walk. -/
theorem withoutList_perm {d l : List Nat} (hd : d.Sublist l) (hl : l.Nodup) : (d ++ withoutList d l).Perm l := by
  have htaken : (l.filter fun i => d.contains i).Perm d := by
    refine (List.perm_ext_iff_of_nodup (hl.filter _) (hd.nodup hl)).2 fun i => ?_
    rw [List.mem_filter, List.contains_iff_mem]
    exact ⟨fun h => h.2, fun h => ⟨hd.subset h, h⟩⟩
  exact (htaken.symm.append_right _).trans (List.filter_append_perm _ l)

/-- Under the store's links the owned bytes of the present records are those of the walk (R36, R37). -/
theorem Store.ownedTotal_eq {m : Store} (h : m.Linked) : m.ownedTotal = m.ownedBytes m.walk := by
  have hperm := ((Store.map_record_walk_perm h).filter fun r => r.owner).map fun r => r.len.toNat
  rw [List.filter_filter, List.filter_map, List.map_map] at hperm
  rw [Store.ownedTotal, List.filter_congr fun r _ => Bool.and_comm r.present r.owner]
  exact hperm.sum_eq.symm

end Sys2Proof.Machine
end

section
/-! PROOFS. MUX.DELETE and MUX.SET (spec/44_chunkstore_mux.md R282, R283, R289): both take records out of the store; MUX.SET then
puts one in. -/

namespace Sys2Proof.Machine

/-! The records of a tag. -/

/-- A present record of a tag. -/
def ChunkRec.tagged (tag : Word) (r : ChunkRec) : Bool := r.present && decide (r.tag = tag)

theorem Store.withTag_eq (m : Store) (tag : Word) : m.withTag tag = m.walk.filter fun i => (m.record i).tagged tag := rfl

section
variable {m : Store} (h : m.Linked) (tag : Word)
include h

theorem Store.mem_withTag {i : Nat} : i ∈ m.withTag tag ↔ (m.record i).tagged tag = true := by
  rw [Store.withTag_eq, List.mem_filter, and_iff_right_iff_imp]
  intro htagged
  obtain ⟨hp, -⟩ := Bool.and_eq_true_iff.1 htagged
  exact h.2.2 i (Store.lt_of_present hp) hp

/-- The records of a tag that the walk meets are those of the arena. -/
theorem Store.map_record_withTag_perm : ((m.withTag tag).map m.record).Perm (m.recs.filter (ChunkRec.tagged tag)) := by
  have hperm := (Store.map_record_walk_perm h).filter (ChunkRec.tagged tag)
  rw [List.filter_map, List.filter_filter] at hperm
  refine hperm.trans (.of_eq (List.filter_congr fun r _ => ?_))
  unfold ChunkRec.tagged
  cases r.present <;> simp

theorem Store.withTag_length : (m.withTag tag).length = m.recs.countP (ChunkRec.tagged tag) := by
  rw [List.countP_eq_length_filter, ← (Store.map_record_withTag_perm h tag).length_eq, List.length_map]

theorem Store.withTag_eq_nil_iff : m.withTag tag = [] ↔ ∀ r ∈ m.recs, r.tagged tag = false := by
  rw [← List.length_eq_zero_iff, Store.withTag_length h, List.countP_eq_zero]
  simp

/-- The bytes the records of a tag own, which the heap holds. -/
theorem Store.ownedBytes_withTag : m.ownedBytes (m.withTag tag) =
    ((m.recs.filter fun r => r.tagged tag && r.owner).map fun r => r.len.toNat).sum := by
  have hperm := ((Store.map_record_withTag_perm h tag).filter fun r => r.owner).map fun r => r.len.toNat
  rw [List.filter_filter, List.filter_map, List.map_map] at hperm
  rw [List.filter_congr fun r _ => Bool.and_comm (r.tagged tag) r.owner]
  exact hperm.sum_eq

/-- Taking the records of a tag out keeps the others. -/
theorem Store.not_contains_withTag (i : Nat) : (!(m.withTag tag).contains i) = !(m.record i).tagged tag :=
  congrArg not (Bool.eq_iff_iff.2 (List.contains_iff_mem.trans (Store.mem_withTag h tag)))

theorem Store.withoutList_withTag (l : List Nat) :
    withoutList (m.withTag tag) l = l.filter fun i => !(m.record i).tagged tag :=
  List.filter_congr fun i _ => Store.not_contains_withTag h tag i

theorem Store.without_withTag (f : Frame) :
    f.without (m.withTag tag) =
      Frame.mk (f.hdr.filter fun i => !(m.record i).tagged tag) (f.alpha.filter fun i => !(m.record i).tagged tag)
        (f.img.filter fun i => !(m.record i).tagged tag) (f.unk.filter fun i => !(m.record i).tagged tag) := by
  simp only [Frame.without, withoutOpt, withoutList, Store.not_contains_withTag h tag]

/-- The arena without the records of a tag (R279, R289). -/
theorem Store.remove_withTag_recs : (m.remove (m.withTag tag)).recs =
    m.recs.map fun r => if r.tagged tag then { r with present := false } else r := by
  refine Store.recs_ext (m' := { m with recs := _ }) (by simp) fun j => ?_
  rw [Store.remove_record]
  simp only [Store.mem_withTag h tag, Store.record, List.getD_eq_getElem?_getD, List.getElem?_map]
  cases m.recs[j]? <;> rfl

end

/-- The owned bytes of records the walk meets are on the heap (R37). -/
theorem Store.ownedBytes_le {m : Store} {d : List Nat} (h : m.Linked) (hheap : m.heapUsed.toNat = m.ownedTotal)
    (hd : d.Sublist m.walk) : m.ownedBytes d ≤ m.heapUsed.toNat := by
  rw [hheap, Store.ownedTotal_eq h, ← Store.ownedBytes_perm (withoutList_perm hd h.1), Store.ownedBytes_append]
  exact Nat.le_add_right _ _

/-- The heap without the records of a tag (R37, R289). -/
theorem Store.remove_withTag_heapUsed {m : Store} (h : m.Linked) (hheap : m.heapUsed.toNat = m.ownedTotal) (tag : Word) :
    m.heapUsed.toNat = (m.remove (m.withTag tag)).heapUsed.toNat +
      ((m.recs.filter fun r => r.tagged tag && r.owner).map fun r => r.len.toNat).sum := by
  have hle : m.ownedBytes (m.withTag tag) ≤ m.heapUsed.toNat := Store.ownedBytes_le h hheap List.filter_sublist
  rw [Store.remove_heapUsed, ← Store.ownedBytes_withTag h tag, Nat.sub_add_cancel hle]

/-- MUX.DELETE is the removal of the records of the tag (R289). -/
theorem execMuxDelete_eq (s : State) :
    execMuxDelete s = if s.mux.valid = false then raise s .invalidArgument
      else if s.mux.withTag s.tagOperand = [] then raise s .notFound
      else succeed { s with mux := s.mux.remove (s.mux.withTag s.tagOperand) }
        (BitVec.ofNat 64 (s.mux.withTag s.tagOperand).length) 0 := rfl

/-- Settles O51: the records of the tag are the tagged ones of the arena, and they leave the lists, the frames and the heap. -/
theorem muxDeleteRule : Obligations.MuxDeleteRule := by
  intro s hinv tag gone keep
  obtain ⟨-, -, hheap, -, hlinked, -, -⟩ := hinv
  have hexec := execMuxDelete_eq s
  have hnil : s.mux.withTag tag = [] ↔ ∀ r ∈ s.mux.recs, gone r = false := Store.withTag_eq_nil_iff hlinked tag
  refine ⟨fun hvalid => hexec.trans (if_pos hvalid), fun hvalid hnone => ?_, fun hvalid hsome => ?_⟩
  · exact (hexec.trans (if_neg (by simp [hvalid]))).trans (if_pos (hnil.2 hnone))
  · obtain ⟨r, hr, hgone⟩ := hsome
    have hfound : ¬s.mux.withTag tag = [] := fun h => Bool.false_ne_true ((hnil.1 h r hr).symm.trans hgone)
    have hlist : ∀ k, (s.mux.remove (s.mux.withTag tag)).list k = (s.mux.list k).filter keep := fun k =>
      (Store.remove_list _ _ k).trans (Store.withoutList_withTag hlinked tag _)
    refine ⟨s.mux.remove (s.mux.withTag tag), ?_, (s.mux.remove_valid _).trans hvalid,
      Store.remove_withTag_recs hlinked tag, hlist .dim, hlist .icc, hlist .anim, hlist .exif, hlist .xmp, hlist .unknown, ?_,
      Store.remove_withTag_heapUsed hlinked hheap tag⟩
    · have hcount : (s.mux.withTag tag).length = s.mux.recs.countP gone := Store.withTag_length hlinked tag
      rw [← hcount]
      exact (hexec.trans (if_neg (by simp [hvalid]))).trans (if_neg hfound)
    · rw [Store.remove_frames, List.map_congr_left fun f _ => Store.without_withTag hlinked tag f]
      refine List.filter_congr fun f _ => ?_
      simp [Frame.isEmpty]

/-! MUX.SET (R282, R283). -/

/-- The store without some records of one of its lists: they leave the list and are released (R282). -/
def Store.drop (m : Store) (k : ChunkClass) (old : List Nat) : Store :=
  (m.setList k (withoutList old (m.list k))).releaseAll old

section
variable (m : Store) (k : ChunkClass) (old : List Nat)

theorem Store.drop_valid : (m.drop k old).valid = m.valid :=
  (Store.releaseAll_valid _ _).trans (Store.setList_valid _ _ _)
theorem Store.drop_frames : (m.drop k old).frames = m.frames :=
  (Store.releaseAll_frames _ _).trans (Store.setList_frames _ _ _)
theorem Store.drop_length : (m.drop k old).recs.length = m.recs.length :=
  (Store.releaseAll_length _ _).trans (congrArg List.length (Store.setList_recs _ _ _))

theorem Store.drop_record (j : Nat) :
    (m.drop k old).record j = if j ∈ old then { m.record j with present := false } else m.record j := by
  rw [Store.drop, Store.releaseAll_record, Store.record, Store.setList_recs, Store.record]

theorem Store.drop_heapUsed : (m.drop k old).heapUsed.toNat = m.heapUsed.toNat - m.ownedBytes old := by
  have howned : (m.setList k (withoutList old (m.list k))).ownedBytes old = m.ownedBytes old :=
    Store.ownedBytes_congr fun j _ => by rw [Store.record, Store.setList_recs, Store.record]; exact ⟨rfl, rfl⟩
  rw [Store.drop, Store.releaseAll_heapUsed, howned, Store.setList_heapUsed]

theorem Store.drop_list (hk : frameClass k = false) (k' : ChunkClass) :
    (m.drop k old).list k' = if k' = k then withoutList old (m.list k) else m.list k' :=
  (Store.releaseAll_list _ _ k').trans (Store.list_setList m hk _ k')

/-- The lowest index that is absent once the old records are gone. -/
theorem Store.drop_freeIndex_eq_some {i : Nat} :
    (m.drop k old).freeIndex = some i ↔
      i < m.recs.length ∧ (i ∈ old ∨ (m.record i).present = false) ∧ ∀ j < i, j ∉ old ∧ (m.record j).present = true := by
  have hpresent : ∀ j, ((m.drop k old).record j).present = true ↔ j ∉ old ∧ (m.record j).present = true := by
    intro j
    rw [Store.drop_record]
    split <;> simp_all
  rw [Store.freeIndex_eq_some, Store.drop_length, ← Bool.not_eq_true, hpresent, not_and_or, not_not, Bool.not_eq_true]
  simp only [hpresent]

end

/-- A list of the store is part of the walk. -/
theorem Store.list_sublist_walk (m : Store) (k : ChunkClass) : (m.list k).Sublist m.walk := by
  rw [Store.walk_eq]
  cases k with
  | frmh | alpha | image => exact List.nil_sublist _
  | dim | icc | anim | exif | xmp | unknown =>
    exact (List.sublist_flatten_of_mem (List.mem_map_of_mem (by decide))).trans (List.sublist_append_left _ _)

/-- The chunks a MUX.SET replaces (R282). -/
theorem Store.replacedBy_eq (c : Config) (m : Store) (tag : Word) :
    m.replacedBy c tag = if classOf c tag = .unknown then m.unknown.filter fun i => (m.record i).tag = tag
      else m.list (classOf c tag) := by
  unfold Store.replacedBy
  cases classOf c tag <;> rfl

theorem Store.replacedBy_sublist (c : Config) (m : Store) (tag : Word) :
    (m.replacedBy c tag).Sublist (m.list (classOf c tag)) := by
  rw [Store.replacedBy_eq]
  split
  next hk =>
    rw [hk]
    exact List.filter_sublist
  next => exact List.Sublist.refl _

theorem Store.replace_eq (c : Config) (m : Store) (x : Incoming) :
    m.replace c x = (m.drop (classOf c x.tag) (m.replacedBy c x.tag)).place c x fun i m' =>
      m'.setList (classOf c x.tag) (m'.list (classOf c x.tag) ++ [i]) := rfl

/-- The store with some records dropped from a list and a new one at the list's end (R282). -/
def Store.replaced (c : Config) (m : Store) (x : Incoming) (k : ChunkClass) (old : List Nat) (i : Nat) : Store :=
  ((m.drop k old).withRecord c x i).setList k ((m.drop k old).list k ++ [i])

theorem Store.replace_ok_iff {c : Config} {m m' : Store} {x : Incoming} {k : ChunkClass} {old : List Nat} {i : Nat}
    (hk : classOf c x.tag = k) (hold : m.replacedBy c x.tag = old) :
    m.replace c x = .ok (i, m') ↔
      (m.drop k old).freeIndex = some i ∧ (m.drop k old).HeapTakes c x ∧ m' = m.replaced c x k old i := by
  rw [Store.replace_eq, hk, hold, Store.place_ok_iff, Store.withRecord_list]
  rfl

section
variable {c : Config} {m : Store} {x : Incoming} {k : ChunkClass} {old : List Nat} {i : Nat}

theorem Store.replaced_recs : (m.replaced c x k old i).recs = ((m.drop k old).withRecord c x i).recs :=
  Store.setList_recs _ _ _

theorem Store.replaced_length : (m.replaced c x k old i).recs.length = m.recs.length := by
  rw [Store.replaced_recs, Store.withRecord_length, Store.drop_length]

theorem Store.replaced_record (hi : i < m.recs.length) (j : Nat) :
    (m.replaced c x k old i).record j =
      if j = i then x.record c else if j ∈ old then { m.record j with present := false } else m.record j := by
  rw [← Store.drop_record m k old]
  exact Store.record_of_set Store.replaced_recs (by rwa [Store.drop_length]) j

theorem Store.replaced_heapUsed (htakes : (m.drop k old).HeapTakes c x) (hlimit : c.heapLimit < 2 ^ 33) :
    (m.replaced c x k old i).heapUsed.toNat =
      m.heapUsed.toNat - m.ownedBytes old + if ownsCopy c x.tag x.copy then x.len.toNat else 0 := by
  rw [Store.replaced, Store.setList_heapUsed, Store.withRecord_heapUsed htakes hlimit, Store.drop_heapUsed]

/-- Only the arena, the heap accounting and the one list differ (R282). -/
theorem Store.replaced_eq (hk : frameClass k = false) :
    m.replaced c x k old i = { m with
      recs := (m.replaced c x k old i).recs
      heapUsed := (m.replaced c x k old i).heapUsed }.setList k (withoutList old (m.list k) ++ [i]) := by
  refine Store.ext_lists ?_ (by simp) (by simp) ?_ fun k' => ?_
  · rw [Store.replaced, Store.setList_valid, Store.setList_valid, Store.withRecord_valid, Store.drop_valid]
  · rw [Store.replaced, Store.setList_frames, Store.setList_frames, Store.withRecord_frames, Store.drop_frames]
  · have hlist : ∀ (rs : List ChunkRec) (n : BitVec 33), ({ m with recs := rs, heapUsed := n } : Store).list k' = m.list k' :=
      fun _ _ => by cases k' <;> rfl
    rw [Store.replaced, Store.list_setList _ hk, Store.list_setList _ hk, Store.withRecord_list, hlist]
    simp only [Store.drop_list m k old hk, if_true]
    split <;> rfl

end

section
variable {copy : Bool} {s : State}

theorem execMuxSet_refused (h : s.mux.valid = false ∨ 2 ^ s.cfg.aw < s.arg1.toNat + s.lenOperand.toNat ∨
      frameClass (classOf s.cfg s.tagOperand) = true) :
    execMuxSet copy s = .next (s.raised .invalidArgument) := by
  simp only [execMuxSet]
  split
  · rfl
  next hvalid =>
    split
    · rfl
    next hfits =>
      have hframe : frameClass (classOf s.cfg s.tagOperand) = true := by
        simp only [fits, decide_eq_true_eq, not_not] at hfits
        exact (h.resolve_left hvalid).resolve_left (Nat.not_lt.2 hfits)
      rw [if_pos hframe]
      rfl

variable (hvalid : s.mux.valid = true) (hfit : s.arg1.toNat + s.lenOperand.toNat ≤ 2 ^ s.cfg.aw)
  (hframe : frameClass (classOf s.cfg s.tagOperand) = false)
include hvalid hfit hframe

theorem execMuxSet_full
    (h : s.mux.replacedBy s.cfg s.tagOperand = [] ∧ s.mux.freeIndex = none ∨ ownsCopy s.cfg s.tagOperand copy = true ∧
      s.cfg.heapLimit < s.mux.heapUsed.toNat - s.mux.ownedBytes (s.mux.replacedBy s.cfg s.tagOperand) +
        s.lenOperand.toNat) :
    execMuxSet copy s = .next (s.raised .allocationFailure) := by
  have hfits : fits s.cfg s.arg1.toNat s.lenOperand.toNat = true := by simpa [fits] using hfit
  simp only [execMuxSet, hvalid, hfits, hframe, Bool.true_eq_false, Bool.false_eq_true, not_true, if_false]
  split
  · rfl
  next hrecord =>
    rw [if_pos (h.resolve_left hrecord)]
    rfl

/-- With a record and heap to spare MUX.SET replaces the chunks. -/
theorem execMuxSet_ok {i : Nat} {m : Store}
    (hrecord : ¬(s.mux.replacedBy s.cfg s.tagOperand = [] ∧ s.mux.freeIndex = none))
    (hheap : ¬(ownsCopy s.cfg s.tagOperand copy = true ∧
      s.cfg.heapLimit < s.mux.heapUsed.toNat - s.mux.ownedBytes (s.mux.replacedBy s.cfg s.tagOperand) +
        s.lenOperand.toNat))
    (hreplace : s.mux.replace s.cfg (s.incoming s.tagOperand s.arg1 s.lenOperand copy) = .ok (i, m))
    (hacc : ownsCopy s.cfg s.tagOperand copy = true → s.Accessible [(s.arg1.toNat, s.lenOperand.toNat)]) :
    execMuxSet copy s = .next ({ s with mux := m }.finish (BitVec.ofNat 64 i) 0) := by
  have hfits : fits s.cfg s.arg1.toNat s.lenOperand.toNat = true := by simpa [fits] using hfit
  have hspan := Incoming.accessible_span (s := s) (x := s.incoming s.tagOperand s.arg1 s.lenOperand copy) hacc
  simp only [execMuxSet, hvalid, hfits, hframe, hrecord, hheap, hreplace, State.touching_of_accessible hspan,
    Bool.true_eq_false, Bool.false_eq_true, not_true, if_false]
  rfl

end

/-- With the old chunks gone there is a record for the new one, if there was one or some chunk was old (R283). -/
theorem Store.exists_drop_freeIndex {m : Store} {k : ChunkClass} {old : List Nat} (h : m.Linked) (hold : old.Sublist m.walk)
    (hrecord : ¬(old = [] ∧ ∀ r ∈ m.recs, r.present = true)) : ∃ i, (m.drop k old).freeIndex = some i := by
  have hlen := m.drop_length k old
  rcases old with _ | ⟨j, old⟩
  · obtain ⟨r, hr, habsent⟩ : ∃ r ∈ m.recs, r.present = false := by simpa using hrecord
    rw [← m.map_record_range] at hr
    obtain ⟨j, hj, rfl⟩ := List.mem_map.1 hr
    refine Store.exists_freeIndex (hlen ▸ List.mem_range.1 hj) ?_
    rw [Store.drop_record]
    exact habsent
  · refine Store.exists_freeIndex (i := j) ?_ ?_
    · rw [hlen]
      exact (h.2.1 j (hold.subset List.mem_cons_self)).1
    · rw [Store.drop_record, if_pos List.mem_cons_self]

theorem frameClass_eq_true_iff (k : ChunkClass) : frameClass k = true ↔ k = .frmh ∨ k = .alpha ∨ k = .image := by
  cases k <;> decide

/-- Settles O48: the checks, and the store with the old chunks dropped and the new one's record made at the index then lowest. -/
theorem muxSetRule : Obligations.MuxSetRule := by
  intro copy s hlegal hinv tag len k old owns freed heap full
  obtain ⟨-, -, -, -, -, -, -, -, hlimit⟩ := hlegal
  obtain ⟨hlen, -, -, -, hlinked, -, -⟩ := hinv
  have hold : s.mux.replacedBy s.cfg s.tagOperand = old := Store.replacedBy_eq s.cfg s.mux tag
  have hsub : old.Sublist s.mux.walk :=
    (hold ▸ Store.replacedBy_sublist s.cfg s.mux tag).trans (s.mux.list_sublist_walk k)
  refine ⟨fun h => execMuxSet_refused (h.imp_right (Or.imp_right (frameClass_eq_true_iff k).2)),
    fun hvalid hfit hfrmh halpha himage => ?_⟩
  have hframe : frameClass k = false := by
    rw [← Bool.not_eq_true, frameClass_eq_true_iff]
    simp [hfrmh, halpha, himage]
  have howns : ownsCopy s.cfg s.tagOperand copy = owns :=
    (ownsCopy_eq s.cfg tag copy).trans (by simp only [hfrmh, or_false, owns, k])
  have hfull : full ↔ old = [] ∧ s.mux.freeIndex = none ∨ owns = true ∧
      s.cfg.heapLimit < s.mux.heapUsed.toNat - s.mux.ownedBytes old + s.lenOperand.toNat := by
    refine or_congr (and_congr_right fun _ => Store.freeIndex_eq_none.symm) (and_congr_right fun h => ?_)
    simp only [heap, h, if_true]
    exact Iff.rfl
  rw [hfull]
  refine ⟨fun h => execMuxSet_full hvalid hfit hframe (by rwa [hold, howns]), fun hroom hacc => ?_⟩
  obtain ⟨hrecord, hheap⟩ := not_or.1 hroom
  obtain ⟨i, hi⟩ := Store.exists_drop_freeIndex (k := k) hlinked hsub (by rwa [← Store.freeIndex_eq_none])
  have htakes : (s.mux.drop k old).HeapTakes s.cfg (s.incoming s.tagOperand s.arg1 s.lenOperand copy) := fun h => by
    rw [Store.drop_heapUsed]
    exact Nat.le_of_not_lt fun hlt => hheap ⟨howns ▸ h, hlt⟩
  obtain ⟨hlt, hfree, hbefore⟩ := (Store.drop_freeIndex_eq_some _ _ _).1 hi
  have hreplace := (Store.replace_ok_iff (k := k) (i := i) rfl hold).2 ⟨hi, htakes, rfl⟩
  have hrecord' := Store.replaced_record (c := s.cfg) (x := s.incoming s.tagOperand s.arg1 s.lenOperand copy) (k := k)
    (old := old) hlt
  refine ⟨i, _, execMuxSet_ok hvalid hfit hframe (by rwa [hold]) (by rwa [hold, howns]) hreplace (by rwa [howns]),
    ⟨hlen ▸ hlt, hfree, hbefore⟩, ?_, ⟨Store.replaced_length, fun j hj hji => ?_, fun j hji hj => ?_⟩, ?_, ?_⟩
  · rw [hrecord', if_pos rfl, ← howns]
    refine ⟨Incoming.record_present _ _, Incoming.record_tag _ _, Incoming.record_len _ _, Incoming.record_owner _ _,
      fun h => ?_, fun h => Incoming.record_addr (x := s.incoming s.tagOperand s.arg1 s.lenOperand copy) h⟩
    exact (Incoming.record_data h).trans (if_pos h)
  · rw [hrecord', if_neg hji, if_pos hj]
  · rw [hrecord', if_neg hji, if_neg hj]
  · rw [Store.replaced_heapUsed htakes hlimit]
    exact congrArg (fun b : Bool => s.mux.heapUsed.toNat - freed + if b then len.toNat else 0) howns
  · have hkept : (s.mux.list k).filter (fun j => j ∉ old) = withoutList old (s.mux.list k) :=
      List.filter_congr fun j _ => by simp
    rw [hkept]
    exact Store.replaced_eq hframe

end Sys2Proof.Machine
end

section
/-! PROOFS. The chunk store's commands that make no record (spec/44_chunkstore_mux.md R276 to R278, R286, R288, R295 to R297). -/

namespace Sys2Proof.Machine

/-! MUX.NEW, MUX.DESTROY, and the commands without a store. -/

theorem Store.emptyOf_emptied (m : Store) (valid : Bool) : Store.EmptyOf m (m.emptied valid) :=
  ⟨rfl, rfl, rfl, rfl, rfl, rfl, rfl, rfl, rfl⟩

/-- Settles O46: the version check, and the emptied store. -/
theorem muxNewDestroyRule : Obligations.MuxNewDestroyRule := fun s =>
  ⟨fun h => if_pos h, fun h => ⟨_, if_neg (not_not.2 h), rfl, s.mux.emptyOf_emptied true⟩, fun h => if_pos h,
    fun h => ⟨_, if_neg (by simp [h]), rfl, s.mux.emptyOf_emptied false⟩⟩

/-- Settles O47: the check of `MUX.valid` is the first of each command. -/
theorem muxCommandsNeedStore : Obligations.MuxCommandsNeedStore := by
  intro copy i s hi hvalid
  simp only [List.mem_cons, List.not_mem_nil, or_false] at hi
  obtain rfl | rfl | rfl | rfl | rfl | rfl | rfl := hi <;> exact if_pos hvalid

/-! MUX.GET (R286). -/

/-- The element at a place of a list is the one its filter has at the number of the elements kept before it. -/
theorem getElem?_filter_of_countP {α : Type} {l : List α} {keep : α → Bool} {p n : Nat} {a : α} (hp : l[p]? = some a)
    (ha : keep a = true) (hn : (l.take (p + 1)).countP keep = n) : (l.filter keep)[n - 1]? = some a := by
  obtain ⟨hlt, rfl⟩ := List.getElem?_eq_some_iff.1 hp
  have hsplit : l.filter keep = (l.take p).filter keep ++ l[p] :: (l.drop (p + 1)).filter keep := by
    conv_lhs => rw [← List.take_append_drop p l, List.drop_eq_getElem_cons hlt, List.filter_append,
      List.filter_cons_of_pos ha]
  have hcount : n - 1 = ((l.take p).filter keep).length := by
    rw [← hn, List.take_add_one, hp, List.countP_append, ← List.countP_eq_length_filter]
    simp [ha]
  rw [hsplit, hcount, List.getElem?_append_right (Nat.le_refl _), Nat.sub_self]
  rfl

/-- Settles O49: the records of the tag are the walk's, filtered. -/
theorem muxGetRule : Obligations.MuxGetRule := by
  intro s walk tag hit
  have hwithTag : s.mux.withTag s.tagOperand = walk.filter hit := rfl
  have hexec : s.mux.valid = true → s.arg1 ≠ 0 → execMuxGet s =
      match (walk.filter hit)[s.arg1.toNat - 1]? with
      | none => raise s .notFound
      | some i => succeed s (BitVec.ofNat 64 i) ((s.mux.record i).len.setWidth 64) := by
    intro hvalid hcount
    have hcount : ¬s.arg1.toNat = 0 := fun h => hcount (BitVec.eq_of_toNat_eq h)
    rw [execMuxGet, if_neg (by simp [hvalid]), if_neg hcount]
    rfl
  refine ⟨fun h => ?_, fun hvalid hcount => ⟨fun hfew => ?_, fun p i hp hi hn => ?_⟩⟩
  · change execMuxGet s = _
    rw [execMuxGet]
    split
    · rfl
    next hvalid =>
      rw [if_pos (by rw [h.resolve_left hvalid]; rfl)]
      rfl
  · have hnone : (walk.filter hit)[s.arg1.toNat - 1]? = none := by
      rw [List.getElem?_eq_none_iff, ← List.countP_eq_length_filter]
      omega
    exact (hexec hvalid hcount).trans (by rw [hnone]; rfl)
  · exact (hexec hvalid hcount).trans (by rw [getElem?_filter_of_countP hp hi hn]; rfl)

/-! MUX.FETCH (R288). -/

/-- The memory a payload is read from is accessible where a borrowed payload is. -/
theorem ChunkRec.accessible_span {s : State} {r : ChunkRec}
    (h : r.owner = false → s.Accessible [(r.addr.toNat, r.len.toNat)]) : s.Accessible [r.span] := by
  intro p hp k hk
  obtain rfl := List.mem_singleton.1 hp
  cases hown : r.owner with
  | true =>
    simp only [ChunkRec.span, hown, if_true] at hk
    exact absurd hk (Nat.not_lt_zero k)
  | false =>
    simp only [ChunkRec.span, hown, Bool.false_eq_true, if_false] at hk ⊢
    exact h hown _ (List.mem_singleton_self _) k hk

/-- Spans one list after the other. -/
theorem State.accessible_append {s : State} {spans spans' : List (Nat × Nat)} (h : s.Accessible spans)
    (h' : s.Accessible spans') : s.Accessible (spans ++ spans') := fun p hp =>
  (List.mem_append.1 hp).elim (h p) (h' p)

/-- Settles O50: the checks in their order, and the payload stored. -/
theorem muxFetchRule : Obligations.MuxFetchRule := by
  intro s hinv r
  obtain ⟨hlen, -, -, -, -, -, hpayloads⟩ := hinv
  refine ⟨fun h => ?_, fun hvalid hlt habsent => ?_, fun hvalid hlt hp hfit hdst hsrc => ?_⟩
  · change execMuxFetch s = _
    simp only [execMuxFetch]
    split
    · rfl
    next hvalid =>
      split
      · rfl
      next hlt =>
        obtain ⟨hp, hpast⟩ := (h.resolve_left hvalid).resolve_left hlt
        rw [if_neg (by simp [r, hp] : ¬r.present = false), if_pos (by simpa [fits] using hpast)]
        rfl
  · change execMuxFetch s = _
    simp only [execMuxFetch, hvalid, Nat.not_le.2 hlt, Bool.true_eq_false, if_false]
    exact if_pos habsent
  · have hpayload := State.payload_length hpayloads (Store.record_mem (hlen ▸ hlt)) hp
    have hspans : s.Accessible [r.span, (s.arg1.toNat, r.len.toNat)] :=
      State.accessible_append (ChunkRec.accessible_span hsrc) hdst
    refine ⟨s.storeBytes s.arg1.toNat (s.payload r), s.payload r, ?_, State.stores_storeBytes (by rwa [hpayload]), hpayload, rfl⟩
    change execMuxFetch s = _
    have hfits : fits s.cfg s.arg1.toNat r.len.toNat = true := by simpa [fits] using hfit
    simp only [execMuxFetch, hvalid, Nat.not_le.2 hlt, Bool.true_eq_false, if_false]
    rw [if_neg (by simp [r, hp] : ¬r.present = false), if_neg (by simp [r, hfits]), State.touching_of_accessible hspans]
    rfl

/-! MUX.ASSEMBLE (R295 to R297). -/

theorem Store.complete_iff (m : Store) :
    m.complete = true ↔ m.frames ≠ [] ∧ (∀ f ∈ m.frames, f.img ≠ none) ∧
      (1 < m.frames.length ∨ m.icc ≠ [] ∨ m.anim ≠ [] ∨ m.exif ≠ [] ∨ m.xmp ≠ [] → m.dim ≠ []) := by
  rw [imp_iff_not_or (a := 1 < m.frames.length ∨ _)]
  simp [Store.complete, Option.isSome_iff_ne_none, and_assoc]

theorem bytesOfNat_eq (n v : Nat) : bytesOfNat n v = (List.range n).map fun k => BitVec.ofNat 8 (v / 256 ^ k) := by
  induction n generalizing v with
  | zero => rfl
  | succ n ih =>
    rw [bytesOfNat, ih, List.range_succ_eq_map, List.map_cons, List.map_map, pow_zero, Nat.div_one]
    congr 1
    refine List.map_congr_left fun k _ => ?_
    rw [Function.comp_apply, Nat.pow_succ', Nat.div_div_eq_div_mul]

/-- The four bytes of a word, least significant first (R10, R105). -/
theorem bytesOfNat_word (v : Word) : bytesOfNat 4 v.toNat = (List.range 4).map fun k => v.extractLsb' (8 * k) 8 := by
  rw [bytesOfNat_eq]
  refine List.map_congr_left fun k _ => BitVec.eq_of_toNat_eq ?_
  rw [BitVec.toNat_ofNat, BitVec.extractLsb'_toNat, Nat.shiftRight_eq_div_pow, Nat.pow_mul]

section
variable {s : State} (hvalid : s.mux.valid = true) (hfit : s.arg0.toNat + s.arg1.toNat ≤ 2 ^ s.cfg.aw)
include hvalid hfit

/-- Past its checks of the operands MUX.ASSEMBLE validates the store, judges the capacity, and stores the stream (R297). -/
theorem execMuxAssemble_eq : execMuxAssemble s =
    if s.mux.complete = false then raise s .notFound
    else if s.arg1.toNat < s.mux.serialSize then raise s .allocationFailure
    else s.touching (s.mux.walk.map (fun i => (s.mux.record i).span) ++ [(s.arg0.toNat, s.mux.serialSize)])
      (succeed (s.storeBytes s.arg0.toNat s.serialised) (BitVec.ofNat 64 s.mux.serialSize)
        (BitVec.ofNat 64 s.mux.presentCount)) := by
  have hfits : fits s.cfg s.arg0.toNat s.arg1.toNat = true := by simpa [fits] using hfit
  rw [execMuxAssemble, if_neg (by simp [hvalid]), if_neg (by simp [hfits])]

end

theorem execMuxAssemble_refused {s : State} (h : s.mux.valid = false ∨ 2 ^ s.cfg.aw < s.arg0.toNat + s.arg1.toNat) :
    execMuxAssemble s = .next (s.raised .invalidArgument) := by
  rw [execMuxAssemble]
  split
  · rfl
  next hvalid =>
    rw [if_pos (by simpa [fits] using h.resolve_left hvalid)]
    rfl

theorem State.serialised_eq (s : State) :
    s.serialised = s.mux.walk.flatMap fun i =>
      ((List.range 4).map fun k => (s.mux.record i).tag.extractLsb' (8 * k) 8) ++
        ((List.range 4).map fun k => (s.mux.record i).len.extractLsb' (8 * k) 8) ++
        (if (s.mux.record i).owner then (s.mux.record i).data
          else s.readBytes (s.mux.record i).addr.toNat (s.mux.record i).len.toNat) ++
        List.replicate ((s.mux.record i).len.toNat % 2) 0 := by
  simp only [State.serialised, State.chunkBytes, bytesOfNat_word, State.payload]

/-- Settles O53: the checks in their order, and the stream stored. -/
theorem muxAssembleRule : Obligations.MuxAssembleRule := by
  intro s hinv m walk word chunk size complete
  obtain ⟨-, -, -, -, hlinked, -, hpayloads⟩ := hinv
  have hsize : size = m.serialSize := by
    simp only [size, Store.serialSize, paddedLen, Nat.add_assoc]
  have hcomplete : m.complete = true ↔ complete := m.complete_iff
  refine ⟨execMuxAssemble_refused, fun hvalid hfit => ?_⟩
  have hexec := execMuxAssemble_eq hvalid hfit
  refine ⟨fun h => ?_, fun h hcap => ?_, fun h hcap hdst hsrc => ?_⟩
  · exact hexec.trans (if_pos (by rwa [← Bool.not_eq_true, hcomplete]))
  · rw [← hcomplete] at h
    exact hexec.trans ((if_neg (by simp [m, h])).trans (if_pos (hsize ▸ hcap)))
  · rw [← hcomplete] at h
    have hlen := State.serialised_length hlinked hpayloads
    rw [hsize] at hcap hdst ⊢
    have hspans : s.Accessible (m.walk.map (fun i => (m.record i).span) ++ [(s.arg0.toNat, m.serialSize)]) := by
      refine State.accessible_append (fun p hp => ?_) hdst
      obtain ⟨i, hi, rfl⟩ := List.mem_map.1 hp
      obtain ⟨hlt, hp⟩ := hlinked.2.1 i hi
      exact ChunkRec.accessible_span (hsrc _ (Store.record_mem hlt) hp) _ (List.mem_singleton_self _)
    refine ⟨s.storeBytes s.arg0.toNat s.serialised, s.serialised, ?_, State.stores_storeBytes ?_, hlen, s.serialised_eq⟩
    · refine hexec.trans ?_
      rw [if_neg (by simp [m, h]), if_neg (Nat.not_lt.2 hcap), State.touching_of_accessible hspans, List.countP_eq_length_filter]
      rfl
    · rw [hlen]
      exact (Nat.add_le_add_left hcap _).trans hfit

end Sys2Proof.Machine
end

section
/-! PROOFS. Every step keeps the invariant of the chunk store (spec/44_chunkstore_mux.md R294, spec/10_state.md R36, R37). The
invariant speaks of the walk: taking records out filters it, and putting one in adds its index. -/

namespace Sys2Proof.Machine

/-! The classes of lists and frames. -/

/-- The lists by class: a singleton list holds at most one record, and each holds records of its class. -/
theorem Store.classified_iff {c : Config} {m : Store} :
    m.Classified c ↔ (∀ k, k ≠ .unknown → (m.list k).length ≤ 1) ∧ (∀ k, ∀ i ∈ m.list k, m.classAt c i = k) ∧
      ∀ f ∈ m.frames, f.Inv c m := by
  refine and_congr ⟨fun ⟨h1, h2, h3, h4, h5⟩ k hk => ?_, fun h => ?_⟩ (and_congr_left fun _ => ⟨fun h k i hi => ?_, ?_⟩)
  · cases k with
    | dim => exact h1
    | icc => exact h2
    | anim => exact h3
    | exif => exact h4
    | xmp => exact h5
    | frmh | alpha | image => exact Nat.zero_le _
    | unknown => exact absurd rfl hk
  · exact ⟨h .dim (by decide), h .icc (by decide), h .anim (by decide), h .exif (by decide), h .xmp (by decide)⟩
  · cases k with
    | frmh | alpha | image => cases hi
    | dim | icc | anim | exif | xmp | unknown => exact h _ (by decide) i hi
  · exact fun h k _ => h k

/-- A frame's fields hold records of their class (R36). -/
def Frame.Classes (c : Config) (m : Store) (f : Frame) : Prop :=
  (∀ i ∈ f.hdr.toList, m.classAt c i = .frmh) ∧ (∀ i ∈ f.alpha.toList, m.classAt c i = .alpha) ∧
    (∀ i ∈ f.img.toList, m.classAt c i = .image) ∧ ∀ i ∈ f.unk, m.classAt c i = .unknown

theorem Frame.inv_iff {c : Config} {m : Store} {f : Frame} : f.Inv c m ↔ f.Classes c m ∧ f.isEmpty = false := by
  simp only [Frame.Inv, Frame.Classes, and_assoc]

theorem Frame.Classes.congr {c : Config} {m m' : Store} {f : Frame} (h : f.Classes c m)
    (hsame : ∀ i ∈ f.walk, m'.classAt c i = m.classAt c i) : f.Classes c m' := by
  obtain ⟨hhdr, halpha, himg, hunk⟩ := h
  simp only [Frame.walk, List.mem_append] at hsame
  exact ⟨fun i hi => (hsame i (by simp [hi])).trans (hhdr i hi), fun i hi => (hsame i (by simp [hi])).trans (halpha i hi),
    fun i hi => (hsame i (by simp [hi])).trans (himg i hi), fun i hi => (hsame i (by simp [hi])).trans (hunk i hi)⟩

theorem Frame.Classes.without {c : Config} {m : Store} {f : Frame} (h : f.Classes c m) (d : List Nat) :
    (f.without d).Classes c m := by
  obtain ⟨hhdr, halpha, himg, hunk⟩ := h
  simp only [Frame.Classes, Frame.without, withoutOpt_toList]
  exact ⟨fun i hi => hhdr i (mem_withoutList.1 hi).1, fun i hi => halpha i (mem_withoutList.1 hi).1,
    fun i hi => himg i (mem_withoutList.1 hi).1, fun i hi => hunk i (mem_withoutList.1 hi).1⟩

/-- A record put into a frame's field of its class. -/
theorem Frame.Classes.put {c : Config} {m : Store} {f : Frame} {k : ChunkClass} {i : Nat} (h : f.Classes c m)
    (hk : m.classAt c i = k) : (f.put k i).Classes c m := by
  obtain ⟨hhdr, halpha, himg, hunk⟩ := h
  have hnew : ∀ j ∈ [i], m.classAt c j = k := fun j hj => (List.mem_singleton.1 hj) ▸ hk
  cases k with
  | dim | icc | anim | exif | xmp => exact ⟨hhdr, halpha, himg, hunk⟩
  | frmh => exact ⟨hnew, halpha, himg, hunk⟩
  | alpha => exact ⟨hhdr, hnew, himg, hunk⟩
  | image => exact ⟨hhdr, halpha, hnew, hunk⟩
  | unknown => exact ⟨hhdr, halpha, himg, fun j hj => (List.mem_append.1 hj).elim (hunk j) (hnew j)⟩

theorem Frame.empty_classes (c : Config) (m : Store) : Frame.empty.Classes c m := by simp [Frame.Classes, Frame.empty]

/-- The field of a class can take one more record (R36). -/
def Frame.Vacant (k : ChunkClass) (f : Frame) : Prop :=
  match k with
  | .frmh => f.hdr = none
  | .alpha => f.alpha = none
  | .image => f.img = none
  | .unknown => True
  | .dim | .icc | .anim | .exif | .xmp => False

/-- A frame with a record more has its index more in its walk. -/
theorem Frame.walk_put_perm {k : ChunkClass} {f : Frame} (h : f.Vacant k) (i : Nat) : (f.put k i).walk.Perm (i :: f.walk) := by
  rw [List.perm_iff_count]
  intro a
  cases k with
  | dim | icc | anim | exif | xmp => exact h.elim
  | frmh =>
    have h : f.hdr = none := h
    simp [Frame.walk, Frame.put, h, List.count_cons, Nat.add_comm]
  | alpha =>
    have h : f.alpha = none := h
    simp [Frame.walk, Frame.put, h, List.count_cons]
    omega
  | image =>
    have h : f.img = none := h
    simp [Frame.walk, Frame.put, h, List.count_cons]
    omega
  | unknown =>
    simp [Frame.walk, Frame.put, List.count_append, List.count_cons]
    omega

theorem Frame.put_not_empty {k : ChunkClass} {f : Frame} (h : f.Vacant k) (i : Nat) : (f.put k i).isEmpty = false := by
  rw [← Bool.not_eq_true, Frame.isEmpty_iff]
  intro hnil
  have hperm := Frame.walk_put_perm h i
  rw [hnil] at hperm
  exact List.cons_ne_nil _ _ hperm.symm.eq_nil

/-! Putting a record's index in its place. -/

theorem Store.mapLast_concat {m : Store} {before : List Frame} {f : Frame} (h : m.frames = before ++ [f])
    (g : Frame → Frame) : m.mapLast g = { m with frames := before ++ [g f] } := by
  simp [Store.mapLast, h]

/-- What the place of a class is: the end of its list, a new frame, or the last frame (R291). -/
theorem Store.link_cases {c : Config} {m : Store} {x : Incoming} (hdup : ¬m.Duplicates c x) (i : Nat) :
    (frameClass (classOf c x.tag) = false ∧ (classOf c x.tag ≠ .unknown → m.list (classOf c x.tag) = []) ∧
        m.link (classOf c x.tag) i = m.setList (classOf c x.tag) (m.list (classOf c x.tag) ++ [i])) ∨
      (m.Opens c x ∧ Frame.empty.Vacant (classOf c x.tag) ∧
        m.link (classOf c x.tag) i = m.addFrame (Frame.empty.put (classOf c x.tag) i)) ∨
      ∃ before f, m.frames = before ++ [f] ∧ f.Vacant (classOf c x.tag) ∧
        m.link (classOf c x.tag) i = { m with frames := before ++ [f.put (classOf c x.tag) i] } := by
  unfold Store.Duplicates at hdup
  unfold Store.Opens
  revert hdup
  cases classOf c x.tag with
  | dim | icc | anim | exif | xmp =>
    intro hdup
    dsimp only at hdup
    have hnil := not_not.1 hdup
    exact .inl ⟨rfl, fun _ => hnil, by simp only [Store.link, Store.setList, Store.list, hnil, List.nil_append]⟩
  | frmh => exact fun _ => .inr (.inl ⟨trivial, rfl, rfl⟩)
  | unknown =>
    intro _
    rcases List.eq_nil_or_concat m.frames with hnil | ⟨before, last, hlast⟩
    · exact .inl ⟨rfl, fun h => absurd rfl h, if_pos hnil⟩
    · have hlast : m.frames = before ++ [last] := by simpa using hlast
      refine .inr (.inr ⟨before, last, hlast, trivial, ?_⟩)
      rw [← Store.mapLast_concat hlast]
      exact if_neg (by simp [hlast])
  | alpha =>
    intro hdup
    obtain hwhole | ⟨hopen, f, hf, himg⟩ := m.whole_or_open
    · exact .inr (.inl ⟨Store.lastWhole_iff.1 hwhole, rfl, if_pos hwhole⟩)
    · have halpha : f.alpha = none := by
        by_contra h
        exact hdup ⟨f, hf, himg, h⟩
      obtain ⟨before, hlast⟩ := List.getLast?_eq_some_iff.1 hf
      refine .inr (.inr ⟨before, f, hlast, halpha, ?_⟩)
      rw [← Store.mapLast_concat hlast]
      exact if_neg (by simp [hopen])
  | image =>
    intro _
    obtain hwhole | ⟨hopen, f, hf, himg⟩ := m.whole_or_open
    · exact .inr (.inl ⟨Store.lastWhole_iff.1 hwhole, rfl, if_pos hwhole⟩)
    · obtain ⟨before, hlast⟩ := List.getLast?_eq_some_iff.1 hf
      refine .inr (.inr ⟨before, f, hlast, himg, ?_⟩)
      rw [← Store.mapLast_concat hlast]
      exact if_neg (by simp [hopen])

/-- The end of a list takes one index more. -/
theorem Store.walk_setList_perm (m : Store) {k : ChunkClass} (hk : frameClass k = false) (i : Nat) :
    (m.setList k (m.list k ++ [i])).walk.Perm (i :: m.walk) := by
  rw [List.perm_iff_count]
  intro a
  cases k with
  | frmh | alpha | image => cases hk
  | dim | icc | anim | exif | xmp | unknown =>
    simp only [Store.walk, Store.setList, Store.list, List.count_append, List.count_cons, List.count_nil]
    omega

theorem Store.walk_addFrame_perm {m : Store} {k : ChunkClass} (h : Frame.empty.Vacant k) (i : Nat) :
    (m.addFrame (Frame.empty.put k i)).walk.Perm (i :: m.walk) := by
  have hwalk : (m.addFrame (Frame.empty.put k i)).walk = m.walk ++ (Frame.empty.put k i).walk := by
    simp [Store.walk, Store.addFrame]
  rw [hwalk]
  exact ((Frame.walk_put_perm h i).append_left _).trans (List.perm_append_comm)

theorem Store.walk_fillFrame_perm {m : Store} {k : ChunkClass} {before : List Frame} {f : Frame}
    (hframes : m.frames = before ++ [f]) (h : f.Vacant k) (i : Nat) :
    ({ m with frames := before ++ [f.put k i] } : Store).walk.Perm (i :: m.walk) := by
  have hsplit : ∀ g : Frame, ({ m with frames := before ++ [g] } : Store).walk =
      m.listed ++ before.flatMap Frame.walk ++ g.walk := by
    intro g
    rw [Store.walk_eq, List.append_assoc]
    simp [Store.listed, Store.framed, Store.list]
  have hold : m.walk = m.listed ++ before.flatMap Frame.walk ++ f.walk := by
    rw [← hsplit f, ← hframes]
  rw [hsplit, hold]
  exact ((Frame.walk_put_perm h i).append_left _).trans List.perm_middle

/-! The classes after a record is put in its place. -/

theorem Store.classAt_eq (c : Config) (m : Store) (i : Nat) : m.classAt c i = classOf c (m.record i).tag := rfl

/-- The classes are those of the arena's records and of the lists and frames that name them. -/
theorem Store.Classified.congr {c : Config} {m m' : Store} (h : m.Classified c) (hlist : ∀ k, m'.list k = m.list k)
    (hframes : m'.frames = m.frames) (hsame : ∀ i ∈ m.walk, m'.classAt c i = m.classAt c i) : m'.Classified c := by
  obtain ⟨hsingle, hclass, hinv⟩ := Store.classified_iff.1 h
  refine Store.classified_iff.2 ⟨fun k hk => hlist k ▸ hsingle k hk, fun k i hi => ?_, fun f hf => ?_⟩
  · rw [hlist] at hi
    exact (hsame i ((m.list_sublist_walk k).subset hi)).trans (hclass k i hi)
  · rw [hframes] at hf
    obtain ⟨hclasses, hne⟩ := Frame.inv_iff.1 (hinv f hf)
    refine Frame.inv_iff.2 ⟨hclasses.congr fun i hi => hsame i ?_, hne⟩
    rw [Store.walk_eq]
    exact List.mem_append_right _ (List.mem_flatMap.2 ⟨f, hf, hi⟩)

theorem Store.Classified.setList {c : Config} {m : Store} {k : ChunkClass} {i : Nat} (h : m.Classified c)
    (hk : frameClass k = false) (hsingle : k ≠ .unknown → m.list k = []) (hi : m.classAt c i = k) :
    (m.setList k (m.list k ++ [i])).Classified c := by
  have hsame : ∀ j, (m.setList k (m.list k ++ [i])).classAt c j = m.classAt c j := fun j => by
    rw [Store.classAt, Store.record, Store.setList_recs, Store.classAt, Store.record]
  obtain ⟨hlength, hclass, hinv⟩ := Store.classified_iff.1 h
  refine Store.classified_iff.2 ⟨fun k' hk' => ?_, fun k' j hj => ?_, fun f hf => ?_⟩
  · rw [Store.list_setList m hk]
    split
    next heq =>
      rw [hsingle (heq ▸ hk')]
      exact Nat.le_refl 1
    next => exact hlength k' hk'
  · rw [Store.list_setList m hk] at hj
    rw [hsame]
    split at hj
    next heq =>
      rw [heq]
      refine (List.mem_append.1 hj).elim (hclass k j) fun hj => ?_
      rwa [List.mem_singleton.1 hj]
    next => exact hclass k' j hj
  · rw [Store.setList_frames] at hf
    obtain ⟨hclasses, hne⟩ := Frame.inv_iff.1 (hinv f hf)
    exact Frame.inv_iff.2 ⟨hclasses.congr fun j _ => hsame j, hne⟩

/-- The frames of a store may be replaced by others of the right classes. -/
theorem Store.Classified.setFrames {c : Config} {m : Store} {fs : List Frame} (h : m.Classified c)
    (hfs : ∀ f ∈ fs, f ∉ m.frames → f.Inv c m) : ({ m with frames := fs } : Store).Classified c := by
  obtain ⟨hlength, hclass, hinv⟩ := h
  refine ⟨hlength, fun k hk => ?_, fun f hf => ?_⟩
  · have := hclass k hk
    cases k <;> exact this
  · by_cases hold : f ∈ m.frames
    · exact hinv f hold
    · exact hfs f hf hold

/-- A record put in its place is one of its class (R36). -/
theorem Store.Classified.link {c : Config} {m : Store} {x : Incoming} {i : Nat} (h : m.Classified c)
    (hdup : ¬m.Duplicates c x) (hi : m.classAt c i = classOf c x.tag) : (m.link (classOf c x.tag) i).Classified c := by
  have hput : ∀ f : Frame, f.Classes c m → f.Vacant (classOf c x.tag) → (f.put (classOf c x.tag) i).Inv c m :=
    fun f hf hv => Frame.inv_iff.2 ⟨hf.put hi, Frame.put_not_empty hv i⟩
  obtain ⟨hk, hsingle, hlink⟩ | ⟨-, hv, hlink⟩ | ⟨before, f, hframes, hv, hlink⟩ := Store.link_cases hdup i
  · rw [hlink]
    exact h.setList hk hsingle hi
  · rw [hlink]
    refine h.setFrames fun g hg hnew => ?_
    obtain rfl : g = _ := List.mem_singleton.1 ((List.mem_append.1 hg).resolve_left hnew)
    exact hput _ (Frame.empty_classes c m) hv
  · rw [hlink]
    refine h.setFrames fun g hg hnew => ?_
    obtain hg | hg := List.mem_append.1 hg
    · exact absurd (hframes ▸ List.mem_append_left _ hg) hnew
    · have hf : f ∈ m.frames := hframes ▸ List.mem_append_right _ (List.mem_singleton_self f)
      rw [List.mem_singleton.1 hg]
      exact hput f (Frame.inv_iff.1 (h.2.2 f hf)).1 hv

theorem Store.walk_link_perm {c : Config} {m : Store} {x : Incoming} (hdup : ¬m.Duplicates c x) (i : Nat) :
    (m.link (classOf c x.tag) i).walk.Perm (i :: m.walk) := by
  obtain ⟨hk, -, hlink⟩ | ⟨-, hv, hlink⟩ | ⟨before, f, hframes, hv, hlink⟩ := Store.link_cases hdup i
  · exact hlink ▸ m.walk_setList_perm hk i
  · exact hlink ▸ Store.walk_addFrame_perm hv i
  · exact hlink ▸ Store.walk_fillFrame_perm hframes hv i

/-- Only a chunk that opens a frame makes the frames more (R291). -/
theorem Store.link_frames_length {c : Config} {m : Store} {x : Incoming} (hdup : ¬m.Duplicates c x) (i : Nat) {n : Nat}
    (hn : m.frames.length ≤ n) (hopens : m.Opens c x → m.frames.length < n) :
    (m.link (classOf c x.tag) i).frames.length ≤ n := by
  obtain ⟨-, -, hlink⟩ | ⟨ho, -, hlink⟩ | ⟨before, f, hframes, -, hlink⟩ := Store.link_cases hdup i
  · rwa [hlink, Store.setList_frames]
  · rw [hlink]
    simpa [Store.addFrame] using hopens ho
  · rw [hframes] at hn
    rw [hlink]
    simpa using hn

section
variable {m : Store} {k : ChunkClass} {i : Nat}

theorem Store.link_recs : (m.link k i).recs = m.recs := by
  cases k with
  | dim | icc | anim | exif | xmp | frmh => rfl
  | alpha | image => simp only [Store.link]; split <;> rfl
  | unknown => simp only [Store.link]; split <;> rfl

theorem Store.link_heapUsed : (m.link k i).heapUsed = m.heapUsed := by
  cases k with
  | dim | icc | anim | exif | xmp | frmh => rfl
  | alpha | image => simp only [Store.link]; split <;> rfl
  | unknown => simp only [Store.link]; split <;> rfl

end

/-! The invariant after a record is made. -/

/-- The payload of an incoming chunk is as long as its length says, or lies inside the address space (R34, R35). -/
structure Incoming.Fits (c : Config) (x : Incoming) : Prop where
  owned : ownsCopy c x.tag x.copy = true → x.payload.length = x.len.toNat
  borrowed : ownsCopy c x.tag x.copy = false → x.addr.toNat + x.len.toNat ≤ 2 ^ c.aw

/-- A chunk read from a region that fits. -/
theorem State.incoming_fits {s : State} {tag len : Word} {addr : Addr} {copy : Bool}
    (h : addr.toNat + len.toNat ≤ 2 ^ s.cfg.aw) : (s.incoming tag addr len copy).Fits s.cfg where
  owned := fun howns => by
    have howns : ownsCopy s.cfg tag copy = true := howns
    simp [State.incoming, howns, State.readBytes]
  borrowed := fun _ => h

section
variable {c : Config} {m m' : Store} {x : Incoming} {i : Nat}

/-- A record made at an absent index and put anywhere in the walk keeps the invariant, if the frames are not too many and the
classes are right. -/
theorem Store.Inv.insert (h : m.Inv c) (hlimit : c.heapLimit < 2 ^ 33) (hx : x.Fits c) (hi : m.freeIndex = some i)
    (htakes : m.HeapTakes c x) (hrecs : m'.recs = (m.withRecord c x i).recs)
    (hheap : m'.heapUsed = (m.withRecord c x i).heapUsed) (hwalk : m'.walk.Perm (i :: m.walk))
    (hframes : m'.frames.length ≤ c.nframe) (hclass : m'.Classified c) : m'.Inv c := by
  obtain ⟨hlen, -, hused, hle, hlinked, -, hpayloads⟩ := h
  obtain ⟨hlt, habsent, -⟩ := Store.freeIndex_eq_some.1 hi
  have hlength : m'.recs.length = m.recs.length := by rw [hrecs, Store.withRecord_length]
  have hrecord : ∀ j, m'.record j = if j = i then x.record c else m.record j := Store.record_of_set hrecs hlt
  have hnew : i ∉ m.walk := fun h => by simp [(hlinked.2.1 i h).2] at habsent
  have hother : ∀ j ∈ m.walk, m'.record j = m.record j := fun j hj =>
    (hrecord j).trans (if_neg fun hji : j = i => hnew (hji ▸ hj))
  have hself : m'.record i = x.record c := (hrecord i).trans (if_pos rfl)
  have hlinked' : m'.Linked := by
    refine ⟨hwalk.nodup_iff.2 (List.nodup_cons.2 ⟨hnew, hlinked.1⟩), fun j hj => ?_, fun j hj hp => ?_⟩
    · obtain rfl | hj := List.mem_cons.1 (hwalk.mem_iff.1 hj)
      · exact ⟨hlength ▸ hlt, by rw [hself]; exact x.record_present c⟩
      · rw [hother j hj, hlength]
        exact hlinked.2.1 j hj
    · refine hwalk.mem_iff.2 (List.mem_cons.2 ?_)
      by_cases hji : j = i
      · exact .inl hji
      · rw [hrecord, if_neg hji] at hp
        exact .inr (hlinked.2.2 j (hlength ▸ hj) hp)
  have hheap' : m'.heapUsed.toNat = m.heapUsed.toNat + if ownsCopy c x.tag x.copy then x.len.toNat else 0 := by
    rw [hheap, Store.withRecord_heapUsed htakes hlimit]
  have howned : m'.ownedBytes m.walk = m.ownedBytes m.walk :=
    Store.ownedBytes_congr fun j hj => by rw [hother j hj]; exact ⟨rfl, rfl⟩
  refine ⟨hlength.trans hlen, hframes, ?_, ?_, hlinked', hclass, ?_⟩
  · rw [hheap', hused, Store.ownedTotal_eq hlinked', Store.ownedTotal_eq hlinked, Store.ownedBytes_perm hwalk,
      Store.ownedBytes_cons, howned, hself, Incoming.record_owner, Incoming.record_len, Nat.add_comm]
  · rw [hheap']
    split
    next howns => exact htakes howns
    next => exact hle
  · refine Store.forall_recs_iff.2 fun j hj => ?_
    rw [hrecord]
    split
    · rw [Incoming.record_owner, Incoming.record_len]
      refine fun _ => ⟨fun howns => ?_, fun howns => ?_⟩
      · rw [Incoming.record_data howns]
        exact hx.owned howns
      · rw [Incoming.record_addr howns]
        exact hx.borrowed howns
    · exact Store.forall_recs_iff.1 hpayloads j (hlength ▸ hj)

/-- The arena's classes with a record more. -/
theorem Store.classAt_withRecord (hi : m.freeIndex = some i) (j : Nat) :
    (m.withRecord c x i).classAt c j = if j = i then classOf c x.tag else m.classAt c j := by
  rw [Store.classAt, Store.withRecord_record (Store.freeIndex_eq_some.1 hi).1]
  split
  · rw [Incoming.record_tag]
  · rfl

theorem Store.Inv.classified_withRecord (h : m.Inv c) (hi : m.freeIndex = some i) :
    (m.withRecord c x i).Classified c := by
  obtain ⟨-, -, -, -, hlinked, hclass, -⟩ := h
  refine hclass.congr Store.withRecord_list rfl fun j hj => ?_
  rw [Store.classAt_withRecord hi, if_neg]
  rintro rfl
  have habsent := (Store.freeIndex_eq_some.1 hi).2.1
  simp [(hlinked.2.1 j hj).2] at habsent

/-- Routing keeps the invariant (R294). -/
theorem Store.Inv.route (h : m.Inv c) (hlimit : c.heapLimit < 2 ^ 33) (hx : x.Fits c)
    (hroute : m.route c x = .ok (i, m')) : m'.Inv c := by
  obtain ⟨⟨hdup, hopens⟩, hi, htakes, rfl⟩ := Store.route_ok_iff.1 hroute
  have hclass : (m.withRecord c x i).classAt c i = classOf c x.tag := by rw [Store.classAt_withRecord hi, if_pos rfl]
  exact h.insert hlimit hx hi htakes Store.link_recs Store.link_heapUsed
    (Store.walk_link_perm (m := m.withRecord c x i) hdup i)
    (Store.link_frames_length (m := m.withRecord c x i) hdup i h.2.1 hopens)
    ((h.classified_withRecord hi).link hdup hclass)

end

/-! The invariant after records are taken out. -/

section
variable {c : Config} {m : Store}

theorem Store.remove_classAt (m : Store) (d : List Nat) (j : Nat) : (m.remove d).classAt c j = m.classAt c j := by
  rw [Store.classAt, Store.remove_record]
  split <;> rfl

/-- Taking records out keeps the classes; the frames left are not empty (R289). -/
theorem Store.Classified.remove (h : m.Classified c) (d : List Nat) : (m.remove d).Classified c := by
  obtain ⟨hlength, hclass, hinv⟩ := Store.classified_iff.1 h
  refine Store.classified_iff.2 ⟨fun k hk => ?_, fun k j hj => ?_, fun f hf => ?_⟩
  · rw [Store.remove_list]
    exact (withoutList_sublist d _).length_le.trans (hlength k hk)
  · rw [Store.remove_list] at hj
    rw [Store.remove_classAt]
    exact hclass k j (mem_withoutList.1 hj).1
  · rw [Store.remove_frames, List.mem_filter] at hf
    obtain ⟨hf, hne⟩ := hf
    obtain ⟨g, hg, rfl⟩ := List.mem_map.1 hf
    refine Frame.inv_iff.2 ⟨?_, by simpa using hne⟩
    exact ((Frame.inv_iff.1 (hinv g hg)).1.without d).congr fun j _ => Store.remove_classAt m d j

/-- Taking records out keeps the invariant (R294). -/
theorem Store.Inv.remove (h : m.Inv c) {d : List Nat} (hd : d.Sublist m.walk) : (m.remove d).Inv c := by
  obtain ⟨hlen, hframes, hused, hle, hlinked, hclass, hpayloads⟩ := h
  have hwalk := m.remove_walk d
  have hpresent : ∀ j, ((m.remove d).record j).present = true → j ∉ d ∧ (m.remove d).record j = m.record j := by
    intro j hp
    rw [Store.remove_record] at hp ⊢
    split
    next hj =>
      rw [if_pos hj] at hp
      cases hp
    next hj => exact ⟨hj, rfl⟩
  have hkept : ∀ j, j ∉ d → (m.remove d).record j = m.record j := fun j hj => (m.remove_record d j).trans (if_neg hj)
  have hlinked' : (m.remove d).Linked := by
    rw [Store.Linked, hwalk, Store.remove_length]
    refine ⟨(withoutList_sublist d _).nodup hlinked.1, fun j hj => ?_, fun j hj hp => ?_⟩
    · obtain ⟨hj, hjd⟩ := mem_withoutList.1 hj
      rw [hkept j hjd]
      exact hlinked.2.1 j hj
    · obtain ⟨hjd, hsame⟩ := hpresent j hp
      exact mem_withoutList.2 ⟨hlinked.2.2 j hj (hsame ▸ hp), hjd⟩
  have howned : (m.remove d).ownedBytes (withoutList d m.walk) = m.ownedBytes (withoutList d m.walk) :=
    Store.ownedBytes_congr fun j hj => by rw [hkept j (mem_withoutList.1 hj).2]; exact ⟨rfl, rfl⟩
  have hsplit : m.ownedBytes m.walk = m.ownedBytes d + m.ownedBytes (withoutList d m.walk) := by
    rw [← Store.ownedBytes_append, Store.ownedBytes_perm (withoutList_perm hd hlinked.1)]
  refine ⟨(m.remove_length d).trans hlen, ?_, ?_, ?_, hlinked', hclass.remove d, ?_⟩
  · rw [Store.remove_frames]
    exact (List.length_filter_le _ _).trans ((List.length_map _).trans_le hframes)
  · rw [Store.remove_heapUsed, Store.ownedTotal_eq hlinked', hwalk, howned, hused, Store.ownedTotal_eq hlinked, hsplit,
      Nat.add_sub_cancel_left]
  · rw [Store.remove_heapUsed]
    exact (Nat.sub_le _ _).trans hle
  · refine Store.forall_recs_iff.2 fun j hj hp => ?_
    have hsame := (hpresent j hp).2
    rw [hsame] at hp ⊢
    exact Store.forall_recs_iff.1 hpayloads j (by rwa [Store.remove_length] at hj) hp

/-- Dropping records of one list takes them out of the store: no other list and no frame holds them (R36). -/
theorem Store.drop_eq_remove (h : m.Inv c) {k : ChunkClass} (hk : frameClass k = false) {old : List Nat}
    (hold : old.Sublist (m.list k)) : m.drop k old = m.remove old := by
  obtain ⟨-, -, -, -, hlinked, hclass, -⟩ := h
  obtain ⟨-, hclass, hinv⟩ := Store.classified_iff.1 hclass
  have hframed : ∀ f ∈ m.frames, ∀ i ∈ f.walk, i ∉ old := by
    intro f hf i hi hiold
    have hnodup := m.walk_eq ▸ hlinked.1
    exact (List.nodup_append.1 hnodup).2.2 i (Store.mem_listed.2 ⟨k, hold.subset hiold⟩) i
      (List.mem_flatMap.2 ⟨f, hf, hi⟩) rfl
  have hframes : (m.frames.map (Frame.without old)).filter (fun f => !f.isEmpty) = m.frames := by
    rw [List.map_congr_left fun f hf => Frame.without_of_disjoint (hframed f hf), List.map_id', List.filter_eq_self]
    intro f hf
    simp [(Frame.inv_iff.1 (hinv f hf)).2]
  have hunlink : m.setList k (withoutList old (m.list k)) = m.unlink old := by
    refine Store.ext_lists (by simp) (by simp) (by simp) (by rw [Store.setList_frames, Store.unlink_frames, hframes]) fun k' => ?_
    rw [Store.list_setList m hk, Store.unlink_list]
    split
    next heq => rw [heq]
    next hne =>
      refine (withoutList_of_disjoint fun i hi hiold => hne ?_).symm
      rw [← hclass k' i hi, hclass k i (hold.subset hiold)]
  rw [Store.drop, hunlink, Store.remove]

/-- A record made and appended to the list of its class keeps the invariant. -/
theorem Store.Inv.append (h : m.Inv c) (hlimit : c.heapLimit < 2 ^ 33) {x : Incoming} (hx : x.Fits c) {i : Nat}
    (hi : m.freeIndex = some i) (htakes : m.HeapTakes c x) (hk : frameClass (classOf c x.tag) = false)
    (hsingle : classOf c x.tag ≠ .unknown → m.list (classOf c x.tag) = []) :
    ((m.withRecord c x i).setList (classOf c x.tag) (m.list (classOf c x.tag) ++ [i])).Inv c := by
  have hlist := Store.withRecord_list (c := c) (m := m) (x := x) (i := i) (classOf c x.tag)
  rw [← hlist] at hsingle ⊢
  have hclass : (m.withRecord c x i).classAt c i = classOf c x.tag := by rw [Store.classAt_withRecord hi, if_pos rfl]
  refine h.insert hlimit hx hi htakes (Store.setList_recs _ _ _) (Store.setList_heapUsed _ _ _)
    (Store.walk_setList_perm _ hk i) ?_ ((h.classified_withRecord hi).setList hk hsingle hclass)
  rw [Store.setList_frames]
  exact h.2.1

/-- Replacing the chunks of a tag keeps the invariant (R282, R294). -/
theorem Store.Inv.replace (h : m.Inv c) (hlimit : c.heapLimit < 2 ^ 33) {x : Incoming} (hx : x.Fits c) {m' : Store} {i : Nat}
    (hk : frameClass (classOf c x.tag) = false) (hreplace : m.replace c x = .ok (i, m')) : m'.Inv c := by
  obtain ⟨hi, htakes, rfl⟩ := (Store.replace_ok_iff rfl rfl).1 hreplace
  have hsub := Store.replacedBy_sublist c m x.tag
  have hdropped := Store.drop_eq_remove h hk hsub
  have hinv : (m.drop (classOf c x.tag) (m.replacedBy c x.tag)).Inv c :=
    hdropped ▸ h.remove (hsub.trans (m.list_sublist_walk _))
  have hsingle : classOf c x.tag ≠ .unknown →
      (m.drop (classOf c x.tag) (m.replacedBy c x.tag)).list (classOf c x.tag) = [] := by
    intro hne
    rw [Store.drop_list m _ _ hk, if_pos rfl, Store.replacedBy_eq, if_neg hne]
    exact List.eq_nil_iff_forall_not_mem.2 fun j hj => (mem_withoutList.1 hj).2 (mem_withoutList.1 hj).1
  exact hinv.append hlimit hx hi htakes hk hsingle

end

/-- A store without records meets the invariant. -/
theorem Store.inv_emptied {c : Config} {m : Store} (hlen : m.recs.length = c.nchunk) (valid : Bool) :
    (m.emptied valid).Inv c := by
  have habsent : ∀ r ∈ (m.emptied valid).recs, r.present = false := by simp
  have howned : (m.emptied valid).ownedTotal = 0 := by
    have hnone : (m.emptied valid).recs.filter (fun r => r.present && r.owner) = [] :=
      List.filter_eq_nil_iff.2 fun r hr => by simp [habsent r hr]
    rw [Store.ownedTotal, hnone]
    rfl
  have hrecord : ∀ i < (m.emptied valid).recs.length, ((m.emptied valid).record i).present = false := fun i hi =>
    habsent _ (Store.record_mem hi)
  refine ⟨by simpa using hlen, Nat.zero_le _, howned.symm, Nat.zero_le _, ?_, ?_, ?_⟩
  · exact ⟨List.nodup_nil, by simp [Store.walk], fun i hi hp => absurd hp (by simp [hrecord i hi])⟩
  · exact ⟨by simp, by simp [Store.list], by simp⟩
  · exact fun r hr hp => absurd hp (by simp [habsent r hr])

/-! Every step. -/

/-- The walk of MUX.PARSE keeps the invariant chunk by chunk (R300). -/
theorem State.parseFrom_inv {s : State} {src len : Nat} {copy : Bool} {fuel off : Nat} {m m' : Store} {n n' : Nat}
    {spans : List (Nat × Nat)} (hlegal : s.cfg.Legal) (hfit : src + len ≤ 2 ^ s.cfg.aw) (h : m.Inv s.cfg)
    (hresult : (s.parseFrom src len copy fuel off m n spans).result = .ok (m', n')) : m'.Inv s.cfg := by
  obtain ⟨-, haw, -, -, -, -, -, -, hlimit⟩ := hlegal
  induction fuel generalizing off m n spans with
  | zero =>
    obtain ⟨rfl, -⟩ : m = m' ∧ n = n' := by simpa [State.parseFrom] using hresult
    exact h
  | succ fuel ih =>
    unfold State.parseFrom at hresult
    split at hresult
    · obtain ⟨rfl, -⟩ : m = m' ∧ n = n' := by simpa using hresult
      exact h
    · split at hresult
      · cases hresult
      · split at hresult
        · cases hresult
        next hroom =>
          split at hresult
          · cases hresult
          next i m1 hroute =>
            refine ih (h.route hlimit (State.incoming_fits ?_) hroute) hresult
            have htop : 2 ^ s.cfg.aw ≤ 2 ^ 60 := Nat.pow_le_pow_right (by decide) haw
            unfold paddedLen at hroom
            rw [BitVec.toNat_ofNat, Nat.mod_eq_of_lt (by omega)]
            omega

/-- Every command keeps the invariant of the store: those of the store by the rules above, and no other changes it (R294). -/
theorem exec_storeInv {i : Instr} {s t : State} (hlegal : s.cfg.Legal) (hs : s.mux.Inv s.cfg) (h : exec i s = .next t) :
    t.mux.Inv s.cfg := by
  have hframe := commandsChangeOnlyTheirUnit i s t h
  have hlimit : s.cfg.heapLimit < 2 ^ 33 := hlegal.2.2.2.2.2.2.2.2
  cases i with
  | sysReset =>
    obtain rfl := execSysReset_next h
    exact Store.inv_reset s.cfg
  | muxNew =>
    obtain ⟨-, rfl⟩ | ⟨-, rfl⟩ := execMuxNew_next h
    · exact hs
    · exact Store.inv_emptied hs.1 true
  | muxDestroy =>
    obtain ⟨-, rfl⟩ | ⟨-, rfl⟩ := execMuxDestroy_next h
    · exact hs
    · exact Store.inv_emptied hs.1 false
  | muxSet copy =>
    obtain ⟨rfl, -⟩ | ⟨⟨-, hfits, hclass⟩, rfl | ⟨i, m, hreplace, rfl⟩⟩ := execMuxSet_next h
    · exact hs
    · exact hs
    · exact hs.replace hlimit (State.incoming_fits (by simpa [fits] using hfits)) hclass hreplace
  | muxDelete =>
    obtain ⟨-, rfl⟩ | ⟨-, ⟨-, rfl⟩ | ⟨-, rfl⟩⟩ := execMuxDelete_next h
    · exact hs
    · exact hs
    · exact hs.remove List.filter_sublist
  | muxPush copy =>
    obtain ⟨rfl, -⟩ | ⟨⟨-, hfits⟩, ⟨_, -, rfl⟩ | ⟨i, m, hroute, rfl⟩⟩ := execMuxPush_next h
    · exact hs
    · exact hs
    · exact hs.route hlimit (State.incoming_fits (by simpa [fits] using hfits)) hroute
  | muxParse copy =>
    have hempty := Store.inv_emptied hs.1 true
    obtain ⟨rfl, -⟩ | ⟨hfits, ⟨-, rfl⟩ | ⟨-, run, hrun, ⟨_, -, rfl⟩ | ⟨m, n, hok, ⟨-, rfl⟩ | ⟨-, rfl⟩⟩⟩⟩ := execMuxParse_next h
    · exact hs
    · exact hs
    · exact hempty
    · exact hempty
    · exact State.parseFrom_inv hlegal (by simpa [fits] using hfits) hempty (hrun ▸ hok)
  | hufBuild _ =>
    rw [hframe.1]
    exact hs
  | brInit _ | brRead _ | brGetbool _ | bwInit | bwPut _ | bwFinalize | hufDecode _ | hufReadlengths | pteSetimg
  | ptePredFwd _ | ptePredInv _ | pteSubgFwd | pteSubgInv | pteXcolFwd _ | pteXcolInv _ | ptePalFwd | ptePalInv | muxGet
  | muxAssemble | muxFetch | codecDecode | codecEncode =>
    rw [hframe]
    exact hs

theorem commandCycle_storeInv {s t : State} {cw : Word} (hlegal : s.cfg.Legal) (hs : s.mux.Inv s.cfg)
    (h : commandCycle s cw = .next t) : t.mux.Inv s.cfg := by
  obtain ⟨-, rfl⟩ | ⟨i, -, hi⟩ := commandCycle_next h
  · exact hs
  · exact exec_storeInv (s := { s with cmd := cw }) hlegal hs hi

theorem hostAccess_storeInv {a : HostAccess} {s t : State} (hlegal : s.cfg.Legal) (hs : s.mux.Inv s.cfg)
    (h : hostAccess a s = .next t) : t.mux.Inv s.cfg := by
  cases a with
  | writeReg addr v =>
    obtain ⟨-, hw⟩ := hostAccess_writeReg_next h
    obtain ⟨-, hc⟩ | ⟨-, rfl⟩ | ⟨-, rfl⟩ | ⟨-, rfl⟩ | ⟨-, rfl⟩ | ⟨-, rfl⟩ := regWrite_next hw
    · exact commandCycle_storeInv hlegal hs hc
    all_goals exact hs
  | readReg addr =>
    obtain ⟨-, rfl⟩ := hostAccess_readReg_next h
    exact hs
  | writeByte addr v =>
    obtain rfl := hostWriteByte_next h
    exact hs
  | readByte addr =>
    obtain rfl := hostReadByte_next h
    exact hs
  | resetInput =>
    obtain rfl := Host.Outcome.next.inj h
    exact Store.inv_reset s.cfg
  | resetDuring cw =>
    obtain rfl := Host.Outcome.next.inj h
    rw [resetDuring_eq]
    exact Store.inv_reset s.cfg

/-- Settles O59: a step is one host access, and each access, with the command it may run, keeps, empties, resets, extends or
cuts the store. -/
theorem storeInvariantKept : Obligations.StoreInvariantKept := by
  intro s t hlegal hs h
  rw [step_eq] at h
  split at h
  · obtain rfl := Host.Outcome.next.inj h
    exact hs
  next a rest _ =>
    rw [hostAccess_cfg h]
    exact hostAccess_storeInv (s := s.afterTake rest) hlegal hs h

end Sys2Proof.Machine
end

section
/-! PROOFS. MUX.PARSE (spec/44_chunkstore_mux.md R300, R301): how far the walk over a container has come, how it ends, and the
command's outcome in each case. -/

namespace Sys2Proof.Machine

/-! One round of the walk. -/

section
variable {s : State} {src len fuel off n : Nat} {copy : Bool} {m m' : Store} {spans : List (Nat × Nat)}

theorem State.parseFrom_end (h : off = len) :
    s.parseFrom src len copy (fuel + 1) off m n spans = { result := .ok (m, n), spans := spans } :=
  if_pos h.ge

/-- Less than a header is left (R300). -/
theorem State.parseFrom_short_header (h : off < len) (hshort : len < off + 8) :
    s.parseFrom src len copy (fuel + 1) off m n spans = { result := .error .truncatedStream, spans := spans } := by
  rw [State.parseFrom, if_neg (by omega), if_pos (by omega)]

/-- Less than the chunk is left (R300). -/
theorem State.parseFrom_short_payload (h : off + 8 ≤ len)
    (hshort : len < off + 8 + paddedLen (s.headerLen (src + off)).toNat) :
    s.parseFrom src len copy (fuel + 1) off m n spans =
      { result := .error .truncatedStream, spans := spans ++ [(src + off, 8)] } := by
  rw [State.parseFrom, if_neg (by omega), if_neg (by omega), if_pos (by omega)]

variable (hwhole : off + 8 + paddedLen (s.headerLen (src + off)).toNat ≤ len)
include hwhole

/-- A chunk that is whole is routed (R300). -/
theorem State.parseFrom_error_of_route {e : Status} (hroute : m.route s.cfg (s.chunkAt (src + off) copy) = .error e) :
    s.parseFrom src len copy (fuel + 1) off m n spans = { result := .error e, spans := spans ++ [(src + off, 8)] } := by
  rw [State.parseFrom, if_neg (by omega), if_neg (by omega), if_neg (by omega), hroute]

theorem State.parseFrom_chunk {i : Nat} (hroute : m.route s.cfg (s.chunkAt (src + off) copy) = .ok (i, m')) :
    s.parseFrom src len copy (fuel + 1) off m n spans =
      s.parseFrom src len copy fuel (off + 8 + paddedLen (s.headerLen (src + off)).toNat) m' (n + 1)
        (spans ++ [(src + off, 8), (s.chunkAt (src + off) copy).span s.cfg]) := by
  rw [State.parseFrom, if_neg (by omega), if_neg (by omega), if_neg (by omega), hroute]

end

/-! How far the walk has come. -/

/-- After `n` chunks of the container, each whole and routed as MUX.PUSH routes one, the walk from the emptied store stands at
an offset with a store (R300). -/
inductive State.ParsesTo (s : State) (copy : Bool) : Nat → Nat → Store → Prop
  | start : s.ParsesTo copy 0 0 (s.mux.emptied true)
  | chunk {n off i : Nat} {m m' : Store} (before : s.ParsesTo copy n off m)
      (hwhole : off + 8 + paddedLen (s.headerLen (s.arg0.toNat + off)).toNat ≤ s.arg1.toNat)
      (hroute : m.route s.cfg (s.chunkAt (s.arg0.toNat + off) copy) = .ok (i, m')) :
      s.ParsesTo copy (n + 1) (off + 8 + paddedLen (s.headerLen (s.arg0.toNat + off)).toNat) m'

/-- Each chunk takes at least a header (R300). -/
theorem State.ParsesTo.bounds {s : State} {copy : Bool} {n off : Nat} {m : Store}
    (h : s.ParsesTo copy n off m) : 8 * n ≤ off ∧ off ≤ s.arg1.toNat := by
  induction h with
  | start => exact ⟨Nat.le_refl _, Nat.zero_le _⟩
  | chunk _ hwhole _ ih => omega

@[simp] theorem State.chunkAt_tag (s : State) (a : Nat) (copy : Bool) : (s.chunkAt a copy).tag = s.headerTag a := rfl
@[simp] theorem State.chunkAt_len (s : State) (a : Nat) (copy : Bool) : (s.chunkAt a copy).len = s.headerLen a := rfl
@[simp] theorem State.chunkAt_copy (s : State) (a : Nat) (copy : Bool) : (s.chunkAt a copy).copy = copy := rfl

/-- A region inside an accessible one is accessible. -/
theorem State.Accessible.sub {s : State} {a n b k : Nat} (h : s.Accessible [(a, n)]) (hlo : a ≤ b) (hhi : b + k ≤ a + n) :
    s.Accessible [(b, k)] := by
  intro p hp j hj
  obtain rfl := List.mem_singleton.1 hp
  have hbacked := h _ (List.mem_singleton_self _) (b - a + j) (by dsimp only at hj ⊢; omega)
  rwa [show a + (b - a + j) = b + j by omega] at hbacked

/-- What MUX.PARSE needs to walk the container: legal parameters, and a region that fits and is backed. -/
structure State.Parsable (s : State) : Prop where
  aw : s.cfg.aw ≤ 60
  version : s.arg2 = s.cfg.abiVersion.setWidth 64
  accessible : s.Accessible [(s.arg0.toNat, s.arg1.toNat)]
  fits : s.arg0.toNat + s.arg1.toNat ≤ 2 ^ s.cfg.aw

section
variable {s : State} {copy : Bool} {n off : Nat} {m : Store} (hs : s.Parsable)
include hs

/-- The address of a payload inside the region is not cut (log 2). -/
theorem State.Parsable.chunkAt_addr (hoff : off + 8 ≤ s.arg1.toNat) :
    (s.chunkAt (s.arg0.toNat + off) copy).addr.toNat = s.arg0.toNat + off + 8 := by
  have htop : 2 ^ s.cfg.aw ≤ 2 ^ 60 := Nat.pow_le_pow_right (by decide) hs.aw
  have hfits := hs.fits
  exact Nat.mod_eq_of_lt (by omega)

/-- The chunk at an offset, field by field (R105, R300). -/
theorem State.Parsable.chunkAt_eq (hoff : off + 8 ≤ s.arg1.toNat) :
    s.chunkAt (s.arg0.toNat + off) copy =
      { tag := s.headerTag (s.arg0.toNat + off), addr := BitVec.ofNat 64 (s.arg0.toNat + off + 8)
        len := s.headerLen (s.arg0.toNat + off), copy := copy
        payload := if ownsCopy s.cfg (s.headerTag (s.arg0.toNat + off)) copy then
          s.readBytes (s.arg0.toNat + off + 8) (s.headerLen (s.arg0.toNat + off)).toNat else [] } := by
  have haddr : (BitVec.ofNat 64 (s.arg0.toNat + off + 8)).toNat = s.arg0.toNat + off + 8 :=
    hs.chunkAt_addr (copy := copy) hoff
  rw [State.chunkAt, State.incoming, haddr]

/-- The walk reads only the region (R62). -/
theorem State.Parsable.accessible_chunk
    (hwhole : off + 8 + paddedLen (s.headerLen (s.arg0.toNat + off)).toNat ≤ s.arg1.toNat) :
    s.Accessible [(s.arg0.toNat + off, 8), (s.chunkAt (s.arg0.toNat + off) copy).span s.cfg] := by
  have hheader := hs.accessible.sub (b := s.arg0.toNat + off) (k := 8) (by omega) (by omega)
  refine State.accessible_append hheader (Incoming.accessible_span fun _ => ?_)
  rw [hs.chunkAt_addr (by omega)]
  refine hs.accessible.sub (by omega) ?_
  unfold paddedLen at hwhole
  rw [State.chunkAt_len]
  omega

/-- The walk as it runs passes the same offsets and stores. -/
theorem State.ParsesTo.parseFrom_eq (h : s.ParsesTo copy n off m) (fuel : Nat) :
    ∃ spans, s.Accessible spans ∧
      s.parseFrom s.arg0.toNat s.arg1.toNat copy (n + fuel) 0 (s.mux.emptied true) 0 [] =
        s.parseFrom s.arg0.toNat s.arg1.toNat copy fuel off m n spans := by
  induction h generalizing fuel with
  | start => exact ⟨[], fun _ h => absurd h List.not_mem_nil, by rw [Nat.zero_add]⟩
  | @chunk n off i m m' _ hwhole hroute ih =>
    obtain ⟨spans, hacc, hrun⟩ := ih (fuel + 1)
    refine ⟨_, State.accessible_append hacc (hs.accessible_chunk (copy := copy) hwhole), ?_⟩
    rw [Nat.add_right_comm, Nat.add_assoc, hrun, State.parseFrom_chunk hwhole hroute]

/-- What MUX.PARSE answers when the walk's result is known (R300, R301). -/
def State.parseEnds (s : State) (result : Except Status (Store × Nat)) : Out :=
  match result with
  | .error e => raise { s with mux := s.mux.emptied true } e
  | .ok (m, n) =>
    if m.complete = false then raise { s with mux := s.mux.emptied true } .notFound
    else succeed { s with mux := m } (BitVec.ofNat 64 n) (BitVec.ofNat 64 m.frames.length)

/-- MUX.PARSE ends as the next round of its walk does. -/
theorem State.ParsesTo.execMuxParse_eq (h : s.ParsesTo copy n off m) {result : Except Status (Store × Nat)}
    {more : List (Nat × Nat)} (hmore : s.Accessible more)
    (hend : ∀ fuel spans, s.parseFrom s.arg0.toNat s.arg1.toNat copy (fuel + 1) off m n spans =
      { result := result, spans := spans ++ more }) :
    execMuxParse copy s = s.parseEnds result := by
  obtain ⟨hmin, hmax⟩ := h.bounds
  have hfuel : s.arg1.toNat / 8 + 1 = n + (s.arg1.toNat / 8 - n + 1) := by omega
  obtain ⟨spans, hacc, hrun⟩ := h.parseFrom_eq hs (s.arg1.toNat / 8 - n + 1)
  rw [hend] at hrun
  have hfits : ¬¬Sys2Proof.Machine.fits s.cfg s.arg0.toNat s.arg1.toNat = true := by
    simpa [Sys2Proof.Machine.fits] using hs.fits
  rw [execMuxParse, if_neg hfits, if_neg (not_not.2 hs.version), hfuel]
  dsimp only
  rw [hrun]
  exact State.touching_of_accessible (State.accessible_append hacc hmore) _

/-- The walk ends at the end of the region (R301). -/
theorem State.ParsesTo.execMuxParse_end (h : s.ParsesTo copy n off m) (hoff : off = s.arg1.toNat) :
    execMuxParse copy s = s.parseEnds (.ok (m, n)) :=
  h.execMuxParse_eq hs (more := []) (by simp [State.Accessible]) fun _ spans =>
    (State.parseFrom_end hoff).trans (by rw [List.append_nil])

/-- Less than a header is left (R300). -/
theorem State.ParsesTo.execMuxParse_short_header (h : s.ParsesTo copy n off m) (hoff : off < s.arg1.toNat)
    (hshort : s.arg1.toNat < off + 8) : execMuxParse copy s = s.parseEnds (.error .truncatedStream) :=
  h.execMuxParse_eq hs (more := []) (by simp [State.Accessible]) fun _ spans =>
    (State.parseFrom_short_header hoff hshort).trans (by rw [List.append_nil])

/-- The header of a chunk inside the region is backed. -/
theorem State.Parsable.accessible_header (hoff : off + 8 ≤ s.arg1.toNat) : s.Accessible [(s.arg0.toNat + off, 8)] :=
  hs.accessible.sub (by omega) (by omega)

/-- Less than the chunk is left (R300). -/
theorem State.ParsesTo.execMuxParse_short_payload (h : s.ParsesTo copy n off m) (hoff : off + 8 ≤ s.arg1.toNat)
    (hshort : s.arg1.toNat < off + 8 + paddedLen (s.headerLen (s.arg0.toNat + off)).toNat) :
    execMuxParse copy s = s.parseEnds (.error .truncatedStream) :=
  h.execMuxParse_eq hs (hs.accessible_header hoff) fun _ _ => State.parseFrom_short_payload hoff hshort

/-- A chunk that MUX.PUSH would refuse ends the walk (R300). -/
theorem State.ParsesTo.execMuxParse_error {e : Status} (h : s.ParsesTo copy n off m)
    (hwhole : off + 8 + paddedLen (s.headerLen (s.arg0.toNat + off)).toNat ≤ s.arg1.toNat)
    (hroute : m.route s.cfg (s.chunkAt (s.arg0.toNat + off) copy) = .error e) :
    execMuxParse copy s = s.parseEnds (.error e) :=
  h.execMuxParse_eq hs (hs.accessible_header (by omega)) fun _ _ => State.parseFrom_error_of_route hwhole hroute

end

/-! The command. -/

theorem Store.EmptyOf.eq_emptied {m m' : Store} (h : Store.EmptyOf m m') (hvalid : m'.valid = true) :
    m' = m.emptied true := by
  obtain ⟨hrecs, hdim, hicc, hanim, hexif, hxmp, hunknown, hframes, hheap⟩ := h
  cases m'
  simp_all [Store.emptied]

/-- A sequence of offsets and stores that follows the rounds is the walk. -/
theorem State.ParsesTo.of_rounds {s : State} {copy : Bool} {off : Nat → Nat} {m : Nat → Store} (hoff : off 0 = 0)
    (hm : m 0 = s.mux.emptied true) {n : Nat}
    (hround : ∀ k < n, off k + 8 + paddedLen (s.headerLen (s.arg0.toNat + off k)).toNat ≤ s.arg1.toNat ∧
      off (k + 1) = off k + 8 + paddedLen (s.headerLen (s.arg0.toNat + off k)).toNat ∧
      ∃ i, (m k).route s.cfg (s.chunkAt (s.arg0.toNat + off k) copy) = .ok (i, m (k + 1))) :
    s.ParsesTo copy n (off n) (m n) := by
  induction n with
  | zero =>
    rw [hoff, hm]
    exact .start
  | succ n ih =>
    obtain ⟨hwhole, hnext, i, hroute⟩ := hround n (Nat.lt_succ_self n)
    exact hnext ▸ (ih fun k hk => hround k (Nat.lt_succ_of_lt hk)).chunk hwhole hroute

theorem State.parseEnds_error (s : State) (e : Status) :
    s.parseEnds (.error e) = .next ({ s with mux := s.mux.emptied true }.raised e) := rfl

theorem State.parseEnds_incomplete (s : State) {m : Store} (n : Nat) (h : ¬m.complete = true) :
    s.parseEnds (.ok (m, n)) = .next ({ s with mux := s.mux.emptied true }.raised .notFound) :=
  if_pos (Bool.not_eq_true _ ▸ h)

theorem State.parseEnds_complete (s : State) {m : Store} (n : Nat) (h : m.complete = true) :
    s.parseEnds (.ok (m, n)) =
      .next ({ s with mux := m }.finish (BitVec.ofNat 64 n) (BitVec.ofNat 64 m.frames.length)) :=
  if_neg (by simp [h])

@[simp] theorem Store.record_emptied_present (m : Store) (valid : Bool) (i : Nat) :
    ((m.emptied valid).record i).present = false := by
  by_cases hi : i < (m.emptied valid).recs.length
  · have habsent : ∀ r ∈ (m.emptied valid).recs, r.present = false := by simp
    exact habsent _ (Store.record_mem hi)
  · rw [Store.record_of_le (Nat.not_lt.1 hi)]
    rfl

theorem ownsCopy_of_image {c : Config} {tag : Word} (h : classOf c tag = .image) (copy : Bool) :
    ownsCopy c tag copy = copy := by
  simp [ownsCopy_eq, h]

/-- The store that the smallest container gives: one record, the image of the one frame (R301). -/
def State.onlyImage (s : State) (copy : Bool) : Store :=
  ((s.mux.emptied true).withRecord s.cfg (s.chunkAt s.arg0.toNat copy) 0).addFrame (Frame.empty.put .image 0)

section
variable {s : State} {copy : Bool} (hrecs : s.mux.recs ≠ [])
include hrecs

theorem State.onlyImage_record : (s.onlyImage copy).record 0 = (s.chunkAt s.arg0.toNat copy).record s.cfg := by
  have hlen : 0 < (s.mux.emptied true).recs.length := by simpa using List.length_pos_iff.2 hrecs
  exact (Store.withRecord_record hlen 0).trans (if_pos rfl)

/-- The walk over the smallest container (R301). -/
theorem State.ParsesTo.onlyImage (hlen : s.arg1.toNat = 8 + paddedLen (s.headerLen s.arg0.toNat).toNat)
    (hclass : classOf s.cfg (s.headerTag s.arg0.toNat) = .image) (hframe : 1 ≤ s.cfg.nframe)
    (hheap : copy = true → (s.headerLen s.arg0.toNat).toNat ≤ s.cfg.heapLimit) :
    s.ParsesTo copy 1 s.arg1.toNat (s.onlyImage copy) := by
  have hfree : (s.mux.emptied true).freeIndex = some 0 :=
    Store.freeIndex_eq_some.2 ⟨by simpa using List.length_pos_iff.2 hrecs, Store.record_emptied_present .., by simp⟩
  have hclass' : classOf s.cfg (s.chunkAt s.arg0.toNat copy).tag = .image := hclass
  have htakes : (s.mux.emptied true).HeapTakes s.cfg (s.chunkAt s.arg0.toNat copy) := by
    intro howns
    rw [ownsCopy_of_image hclass'] at howns
    simpa using hheap howns
  have hdup : ¬(s.mux.emptied true).Duplicates s.cfg (s.chunkAt s.arg0.toNat copy) := by
    simp [Store.Duplicates, hclass]
  have hroute := Store.route_ok_iff.2 ⟨⟨hdup, fun _ => hframe⟩, hfree, htakes, rfl⟩
  rw [hclass'] at hroute
  have hend : 0 + 8 + paddedLen (s.headerLen (s.arg0.toNat + 0)).toNat = s.arg1.toNat := hlen.symm
  exact hend ▸ State.ParsesTo.start.chunk hend.le hroute

end

/-- Settles O54: the walk of the rule is the walk of the command, and each of its ends is one of the command's. -/
theorem muxParseRule : Obligations.MuxParseRule := by
  intro copy s len field padded chunk parse
  have hfits : fits s.cfg s.arg0.toNat s.arg1.toNat = true ↔ s.arg0.toNat + len ≤ 2 ^ s.cfg.aw := by simp [fits, len]
  refine ⟨fun hout => if_pos (by rw [hfits]; omega), fun hin hversion => ?_, ?_, ?_⟩
  · exact (if_neg (not_not.2 (hfits.2 hin))).trans (if_pos hversion)
  · intro hlegal hversion hacc hin n off m hoff hvalid hempty hround fail last complete
    have hs : s.Parsable := ⟨hlegal.2.1, hversion, hacc, hin⟩
    have hchunk : ∀ a, a + 8 ≤ len → chunk a = s.chunkAt (s.arg0.toNat + a) copy := fun a ha => (hs.chunkAt_eq ha).symm
    have hm := hempty.eq_emptied hvalid
    have hwalk : s.ParsesTo copy n (off n) last := .of_rounds hoff hm fun k hk => by
      obtain ⟨hwhole, hnext, hroute⟩ := hround k hk
      rw [hchunk _ (by omega)] at hroute
      exact ⟨hwhole, hnext, hroute⟩
    have hfail : ∀ x, s.parseEnds (.error x) = fail x := fun x => by rw [s.parseEnds_error, ← hm]
    refine ⟨fun hend hcomplete => ?_, fun hend hcomplete => ?_, fun h hshort => ?_, fun h _ hshort => ?_,
      fun hwhole hdup => ?_, fun hwhole hdup hroom => ?_⟩
    · exact (hwalk.execMuxParse_end hs hend).trans (s.parseEnds_complete n (last.complete_iff.2 hcomplete))
    · rw [← hfail]
      exact (hwalk.execMuxParse_end hs hend).trans (s.parseEnds_incomplete n (last.complete_iff.not.2 hcomplete))
    · exact (hwalk.execMuxParse_short_header hs h hshort).trans (hfail _)
    · exact (hwalk.execMuxParse_short_payload hs h hshort).trans (hfail _)
    · rw [hchunk _ (by omega)] at hdup
      exact (hwalk.execMuxParse_error hs hwhole (Store.route_duplicate hdup)).trans (hfail _)
    · rw [hchunk _ (by omega)] at hdup hroom
      exact (hwalk.execMuxParse_error hs hwhole (Store.route_no_room hdup hroom)).trans (hfail _)
  · intro hlegal hversion hacc hin hmin hlen hclass hframe hrecs hheap
    have hs : s.Parsable := ⟨hlegal.2.1, hversion, hacc, hin⟩
    have hwalk := State.ParsesTo.onlyImage (copy := copy) hrecs hlen hclass hframe hheap
    have hcomplete : (s.onlyImage copy).complete = true := rfl
    have hexec := (hwalk.execMuxParse_end hs rfl).trans (s.parseEnds_complete 1 hcomplete)
    have howns : ownsCopy s.cfg (s.chunkAt s.arg0.toNat copy).tag copy = copy := ownsCopy_of_image hclass copy
    refine ⟨_, hexec, rfl, rfl, rfl, ?_⟩
    rw [State.onlyImage_record hrecs]
    refine ⟨Incoming.record_present .., Incoming.record_tag .., Incoming.record_len .., ?_, fun hcopy => ?_, fun hcopy => ?_⟩
    · exact (Incoming.record_owner ..).trans howns
    · rw [Incoming.record_data (howns.trans hcopy)]
      exact (congrArg Incoming.payload (hs.chunkAt_eq (off := 0) hmin)).trans (if_pos (howns.trans hcopy))
    · exact Incoming.record_addr (howns.trans hcopy)

end Sys2Proof.Machine
end

section
/-! PROOFS. What a successful MUX.ASSEMBLE leaves for a MUX.PARSE to read (spec/44_chunkstore_mux.md R297, R302): a backed region
with the stream in it, and at each offset of the stream the chunk of one record of the walk. -/

namespace Sys2Proof.Machine

/-! A command that goes on has access to what it touches. -/

/-- The access check lets a span pass only when each of its bytes is backed. -/
theorem State.backed_of_not_barred {s : State} {p : Nat × Nat} (h : s.barred p = none) : ∀ k < p.2, s.Backed (p.1 + k) := by
  intro k hk
  unfold State.barred at h
  rw [if_neg (by omega)] at h
  split at h
  · cases h
  next hfits =>
    have hfits : p.1 + p.2 ≤ 2 ^ s.cfg.aw := by simpa [fits] using hfits
    split at h
    · split at h <;> cases h
    next hnone =>
      refine ⟨by omega, fun r hr hin => ?_⟩
      have hmiss := List.find?_eq_none.1 hnone r hr
      simp only [decide_eq_true_eq] at hmiss
      omega

theorem State.accessible_of_touching {s t : State} {spans : List (Nat × Nat)} {k : Out} (h : s.touching spans k = .next t) :
    s.Accessible spans := by
  intro p hp
  refine State.backed_of_not_barred ?_
  unfold State.touching at h
  split at h
  next stop hstop =>
    obtain ⟨q, -, hq⟩ := List.exists_of_findSome?_eq_some hstop
    exact absurd (h ▸ hq) (State.barred_not_next s t q)
  next hnone => exact List.findSome?_eq_none_iff.1 hnone p hp

/-! Reading bytes back. -/

/-- What is read depends on the memory, the writer's region and the free values in it alone. -/
theorem State.readBytes_congr {s t : State} (hmem : t.mem = s.mem) (hbw : t.bw = s.bw) (htick : t.tick = s.tick)
    (a n : Nat) : t.readBytes a n = s.readBytes a n := by
  unfold State.readBytes State.readByte
  rw [hmem, hbw, htick]

@[simp] theorem State.readBytes_length (s : State) (a n : Nat) : (s.readBytes a n).length = n := by simp [State.readBytes]

theorem State.readBytes_add (s : State) (a m n : Nat) :
    s.readBytes a (m + n) = s.readBytes a m ++ s.readBytes (a + m) n := by
  simp [State.readBytes, List.range_add, Nat.add_assoc]

/-- A region that holds two runs of bytes holds each of them in its place. -/
theorem State.readBytes_parts {s : State} {a : Nat} {before bs : List Byte}
    (h : s.readBytes a (before ++ bs).length = before ++ bs) :
    s.readBytes a before.length = before ∧ s.readBytes (a + before.length) bs.length = bs := by
  rw [List.length_append, State.readBytes_add] at h
  exact List.append_inj h (by simp)

/-- Bytes stored where the writer's region holds no free value read back. -/
theorem State.Stores.readBytes_eq {s t : State} {a : Nat} {bs : List Byte} (h : s.Stores t a bs)
    (hheld : ∀ x, InSpan (a, bs.length) x → s.bw.holds x = false) : t.readBytes a bs.length = bs := by
  obtain ⟨-, hin, -⟩ := h
  refine List.ext_getElem (by simp) fun k hk hk' => ?_
  rw [← List.getD_eq_getElem _ 0 hk, ← List.getD_eq_getElem _ 0 hk', State.readBytes_getD _ _ hk']
  exact hin k hk' (hheld _ ⟨Nat.le_add_right _ _, Nat.add_lt_add_left hk' _⟩)

theorem natOfBytes_bytesOfNat (n v : Nat) : natOfBytes (bytesOfNat n v) = v % 256 ^ n := by
  induction n generalizing v with
  | zero => simp [bytesOfNat, natOfBytes, Nat.mod_one]
  | succ n ih => rw [bytesOfNat, natOfBytes, ih, BitVec.toNat_ofNat, Nat.pow_succ' (n := n), Nat.mod_mul]

/-- A word of memory reads as the word whose bytes are there (R10, R63). -/
theorem State.readNat_of_word {s : State} {a : Nat} {v : Word} (h : s.readBytes a 4 = bytesOfNat 4 v.toNat) :
    BitVec.ofNat 32 (s.readNat a 4) = v := by
  rw [State.readNat, h, natOfBytes_bytesOfNat, Nat.mod_eq_of_lt (lt_of_lt_of_le v.isLt (by decide)), BitVec.ofNat_toNat,
    BitVec.setWidth_eq]

/-! The stream. -/

/-- The serialised chunks of several records (R297). -/
def State.stream (s : State) (is : List Nat) : List Byte := is.flatMap fun i => s.chunkBytes (s.mux.record i)

theorem State.serialised_eq_stream (s : State) : s.serialised = s.stream s.mux.walk := rfl

theorem State.stream_append (s : State) (is js : List Nat) : s.stream (is ++ js) = s.stream is ++ s.stream js :=
  List.flatMap_append

/-- `r` is ready to parse the stream of the store of `s`: the store of `s` is whole and meets its invariant, and the region of
`r` is accessible and holds the stream (R302). -/
structure State.Holds (s r : State) : Prop extends r.Parsable where
  cfg_eq : r.cfg = s.cfg
  arena : r.mux.recs.length = s.cfg.nchunk
  inv : s.mux.Inv s.cfg
  complete : s.mux.complete = true
  size : r.arg1.toNat = s.serialised.length
  bytes : r.readBytes r.arg0.toNat s.serialised.length = s.serialised

section
variable {s r : State} (h : s.Holds r) {done rest : List Nat} {a : Nat} (hwalk : s.mux.walk = done ++ a :: rest)
include h hwalk

theorem State.Holds.payload_length : (s.payload (s.mux.record a)).length = (s.mux.record a).len.toNat := by
  obtain ⟨-, -, -, -, hlinked, -, hpayloads⟩ := h.inv
  obtain ⟨hlt, hp⟩ := hlinked.2.1 a (by simp [hwalk])
  exact State.payload_length hpayloads (Store.record_mem hlt) hp

/-- The bytes of the chunk of a record of the walk, in their place. -/
theorem State.Holds.chunkBytes :
    r.readBytes (r.arg0.toNat + (s.stream done).length) (s.chunkBytes (s.mux.record a)).length =
      s.chunkBytes (s.mux.record a) := by
  have hbytes := h.bytes
  have hsplit : s.serialised = s.stream done ++ (s.chunkBytes (s.mux.record a) ++ s.stream rest) := by
    rw [State.serialised_eq_stream, hwalk, State.stream_append]
    rfl
  rw [hsplit] at hbytes
  exact (State.readBytes_parts (State.readBytes_parts hbytes).2).1

/-- The chunk at the offset of a record of the walk has the record's tag, length and payload (R105). -/
theorem State.Holds.header :
    r.headerTag (r.arg0.toNat + (s.stream done).length) = (s.mux.record a).tag ∧
      r.headerLen (r.arg0.toNat + (s.stream done).length) = (s.mux.record a).len ∧
      r.readBytes (r.arg0.toNat + (s.stream done).length + 8) (s.mux.record a).len.toNat = s.payload (s.mux.record a) := by
  have hchunk := h.chunkBytes hwalk
  unfold State.chunkBytes at hchunk
  obtain ⟨hhead, hpayload⟩ := State.readBytes_parts (State.readBytes_parts hchunk).1
  obtain ⟨htag, hlen⟩ := State.readBytes_parts hhead
  rw [bytesOfNat_length] at htag hlen
  rw [List.length_append, bytesOfNat_length, bytesOfNat_length, h.payload_length hwalk] at hpayload
  exact ⟨State.readNat_of_word htag, State.readNat_of_word (by rwa [bytesOfNat_length] at hlen), hpayload⟩

/-- The chunk ends where the chunks up to it end. -/
theorem State.Holds.stream_concat_length :
    (s.stream (done ++ [a])).length = (s.stream done).length + 8 + paddedLen (s.mux.record a).len.toNat := by
  have hchunk := State.chunkBytes_length (h.payload_length hwalk)
  rw [State.stream_append, List.length_append, Nat.add_assoc, ← hchunk]
  simp [State.stream]

/-- The chunk is inside the region. -/
theorem State.Holds.chunk_fits :
    (s.stream done).length + 8 + paddedLen (s.mux.record a).len.toNat ≤ r.arg1.toNat := by
  rw [← h.stream_concat_length hwalk, h.size, State.serialised_eq_stream, hwalk, List.append_cons done a rest,
    State.stream_append s (done ++ [a]), List.length_append]
  exact Nat.le_add_right _ _

end

/-- The payload of the record that a parsed chunk gets, whether it is copied or borrowed (R35). -/
theorem State.Parsable.payload_record {s : State} (hs : s.Parsable) {off : Nat} (hoff : off + 8 ≤ s.arg1.toNat)
    (copy : Bool) : s.payload ((s.chunkAt (s.arg0.toNat + off) copy).record s.cfg) =
      s.readBytes (s.arg0.toNat + off + 8) (s.headerLen (s.arg0.toNat + off)).toNat := by
  have haddr := hs.chunkAt_addr (copy := copy) hoff
  have hpayload := congrArg Incoming.payload (hs.chunkAt_eq (copy := copy) hoff)
  rw [State.payload, Incoming.record_owner]
  cases howns : ownsCopy s.cfg (s.headerTag (s.arg0.toNat + off)) copy with
  | true => exact (if_pos howns).trans ((Incoming.record_data howns).trans (hpayload.trans (if_pos howns)))
  | false =>
    refine (if_neg (by simp [howns])).trans ?_
    rw [Incoming.record_len, Incoming.record_addr howns, haddr, State.chunkAt_len]

/-- A MUX.ASSEMBLE that ends with OK leaves its stream ready to parse (R297, R302). -/
theorem State.holds_of_assemble {s t : State} (hlegal : s.cfg.Legal) (hinv : s.mux.Inv s.cfg)
    (h : execMuxAssemble s = .next t) (hok : t.status = .ok)
    (hheld : ∀ a, InSpan (s.arg0.toNat, t.res0.toNat) a → s.bw.holds a = false) :
    s.Holds { t with arg1 := t.res0, arg2 := s.cfg.abiVersion.setWidth 64 } ∧
      t.res1 = BitVec.ofNat 64 s.mux.presentCount := by
  obtain ⟨rfl, -⟩ | ⟨⟨hvalid, hfits⟩, ⟨-, rfl⟩ | ⟨hcomplete, ⟨-, rfl⟩ | ⟨hcap, ht⟩⟩⟩ := execMuxAssemble_next h
  · cases hok
  · cases hok
  · cases hok
  have hfit : s.arg0.toNat + s.arg1.toNat ≤ 2 ^ s.cfg.aw := by simpa [fits] using hfits
  obtain ⟨hlen, -, -, -, hlinked, -, hpayloads⟩ := id hinv
  have hserial := State.serialised_length hlinked hpayloads
  rw [execMuxAssemble_eq hvalid hfit, if_neg (by simp [hcomplete]), if_neg (Nat.not_lt.2 hcap)] at h
  have hacc : s.Accessible [(s.arg0.toNat, s.mux.serialSize)] := fun p hp =>
    State.accessible_of_touching h p (List.mem_append_right _ hp)
  have hcfg : t.cfg = s.cfg := by simp [ht]
  have hmux : t.mux = s.mux := by simp [ht]
  have harg0 : t.arg0 = s.arg0 := by simp [ht]
  have hsize : t.res0.toNat = s.serialised.length := by
    rw [ht, State.finish_res0, hserial, BitVec.toNat_ofNat, Nat.mod_eq_of_lt (hcap.trans_lt s.arg1.isLt)]
  have hstores : s.Stores (s.storeBytes s.arg0.toNat s.serialised) s.arg0.toNat s.serialised :=
    State.stores_storeBytes (by omega)
  have hread := hstores.readBytes_eq fun a ha => hheld a (by rwa [hsize])
  have hkept : ∀ a n, t.readBytes a n = (s.storeBytes s.arg0.toNat s.serialised).readBytes a n :=
    State.readBytes_congr (by rw [ht]; rfl) (by rw [ht]; rfl) (by rw [ht]; rfl)
  rw [← hkept, ← harg0] at hread
  have hregion : t.Accessible [(t.arg0.toNat, t.res0.toNat)] := by
    simpa only [State.Accessible, State.Backed, hcfg, harg0, hsize, hserial] using hacc
  have hinside : t.arg0.toNat + t.res0.toNat ≤ 2 ^ t.cfg.aw := by
    rw [hcfg, harg0]
    omega
  refine ⟨⟨⟨hcfg ▸ hlegal.2.1, by rw [hcfg], hregion, hinside⟩, hcfg, ?_, hinv, hcomplete, hsize, ?_⟩, by simp [ht]⟩
  · exact (congrArg (fun m : Store => m.recs.length) hmux).trans hlen
  · exact hread

end Sys2Proof.Machine
end

section
/-! PROOFS. Parsing what MUX.ASSEMBLE wrote (spec/44_chunkstore_mux.md R302): the walk over the stream routes the chunks of the
records in the order of the walk, and puts each at the place its record has. -/

namespace Sys2Proof.Machine

/-! Putting a record in its place while a list or a frame is being filled. -/

/-- Making a record and giving it a place are independent. -/
theorem Store.link_withRecord {c : Config} (m : Store) (x : Incoming) (j : Nat) (k : ChunkClass) (i : Nat) :
    (m.withRecord c x j).link k i = (m.link k i).withRecord c x j := by
  have hwhole : (m.withRecord c x j).lastWhole = m.lastWhole := rfl
  cases k with
  | dim | icc | anim | exif | xmp | frmh => rfl
  | alpha | image =>
    simp only [Store.link, hwhole]
    split_ifs <;> rfl
  | unknown =>
    by_cases hnil : m.frames = []
    · have hlink : m.link .unknown i = m.setList .unknown (m.unknown ++ [i]) := if_pos hnil
      exact hlink ▸ if_pos hnil
    · have hlink : m.link .unknown i = m.mapLast (Frame.put .unknown i) := if_neg hnil
      exact hlink ▸ if_neg hnil

/-- Before the first frame a record goes to the end of the list of its class (R291). -/
theorem Store.link_of_list {m : Store} {k : ChunkClass} (hk : frameClass k = false) (hframes : m.frames = [])
    (hsingle : k ≠ .unknown → m.list k = []) (i : Nat) : m.link k i = m.setList k (m.list k ++ [i]) := by
  cases k with
  | frmh | alpha | image => cases hk
  | dim | icc | anim | exif | xmp => rw [hsingle (by decide)]; rfl
  | unknown => exact if_pos hframes

/-- A class of the store's lists is no duplicate while its list can take a record, and opens no frame (R291). -/
theorem Store.admits_list {c : Config} {m : Store} {x : Incoming} {k : ChunkClass} (hk : frameClass k = false)
    (hsingle : k ≠ .unknown → m.list k = []) (hx : classOf c x.tag = k) : ¬m.Duplicates c x ∧ ¬m.Opens c x := by
  unfold Store.Duplicates Store.Opens
  rw [hx]
  cases k with
  | frmh | alpha | image => cases hk
  | dim | icc | anim | exif | xmp => exact ⟨not_not.2 (hsingle (by decide)), id⟩
  | unknown => exact ⟨id, id⟩

/-- The frames with the one being filled, once it holds something. -/
def framesWith (fs : List Frame) (g : Frame) : List Frame := if g.isEmpty then fs else fs ++ [g]

/-- The frame being filled takes a chunk of a class next, in the order of the walk (R296). -/
def Frame.Awaits (k : ChunkClass) (g : Frame) : Prop :=
  match k with
  | .frmh => g = Frame.empty
  | .alpha => g.alpha = none ∧ g.img = none
  | .image => g.img = none
  | .unknown => g.img ≠ none
  | .dim | .icc | .anim | .exif | .xmp => False

theorem Frame.eq_empty_of_isEmpty {g : Frame} (h : g.isEmpty = true) : g = Frame.empty := by
  obtain ⟨hdr, alpha, img, unk⟩ := g
  simpa [Frame.isEmpty, Frame.empty, and_assoc] using h

theorem Frame.Awaits.vacant {k : ChunkClass} {g : Frame} (h : g.Awaits k) : g.Vacant k := by
  cases k with
  | dim | icc | anim | exif | xmp => exact h
  | frmh => exact congrArg Frame.hdr h
  | alpha => exact h.1
  | image => exact h
  | unknown => trivial

/-- The frame being filled is not there yet, or it is the last one. -/
theorem framesWith_cases (fs : List Frame) (g : Frame) :
    (g = Frame.empty ∧ framesWith fs g = fs) ∨ (g ≠ Frame.empty ∧ framesWith fs g = fs ++ [g]) := by
  by_cases hempty : g.isEmpty = true
  · exact .inl ⟨Frame.eq_empty_of_isEmpty hempty, if_pos hempty⟩
  · refine .inr ⟨?_, if_neg hempty⟩
    rintro rfl
    exact hempty rfl

section
variable {c : Config} {m : Store} {fs : List Frame} {g : Frame} {k : ChunkClass}
  (hwhole : ∀ f ∈ fs, f.img ≠ none) (hframes : m.frames = framesWith fs g) (hg : g.Awaits k)

include hwhole in
theorem Store.lastWhole_of_all (hfs : m.frames = fs) : m.LastWhole := fun f hf =>
  hwhole f (List.mem_of_getLast? (hfs ▸ hf))

theorem Store.not_lastWhole_of_open (hfs : m.frames = fs ++ [g]) (himg : g.img = none) : ¬m.LastWhole := fun h =>
  h g (by simp [hfs]) himg

include hwhole hframes hg

/-- A chunk the frame being filled awaits goes into it, and opens it when it is the first (R291). -/
theorem Store.link_of_frame (i : Nat) :
    (m.link k i).frames = framesWith fs (g.put k i) ∧ (m.link k i).list = m.list := by
  have hput : framesWith fs (g.put k i) = fs ++ [g.put k i] := if_neg (by simp [Frame.put_not_empty hg.vacant i])
  rw [hput]
  obtain ⟨rfl, hfs⟩ | ⟨hne, hfs⟩ := framesWith_cases fs g
  · rw [hfs] at hframes
    have hlink : m.link k i = m.addFrame (Frame.empty.put k i) := by
      cases k with
      | dim | icc | anim | exif | xmp => exact hg.elim
      | frmh => rfl
      | alpha | image => exact if_pos (Store.lastWhole_iff.2 (Store.lastWhole_of_all hwhole hframes))
      | unknown => exact absurd rfl hg
    rw [hlink, Store.addFrame, hframes]
    exact ⟨rfl, funext fun k' => by cases k' <;> rfl⟩
  · rw [hfs] at hframes
    have hlink : m.link k i = m.mapLast (Frame.put k i) := by
      cases k with
      | dim | icc | anim | exif | xmp => exact hg.elim
      | frmh => exact absurd hg hne
      | alpha => exact if_neg (Store.lastWhole_iff.not.2 (Store.not_lastWhole_of_open hframes hg.2))
      | image => exact if_neg (Store.lastWhole_iff.not.2 (Store.not_lastWhole_of_open hframes hg))
      | unknown => exact if_neg (by simp [hframes])
    rw [hlink]
    exact ⟨by rw [Store.mapLast_concat hframes], funext (m.mapLast_list _)⟩

/-- Such a chunk is no duplicate, and while it opens the frame only the frames before it are there (R291). -/
theorem Store.admits_frame {x : Incoming} (hx : classOf c x.tag = k) :
    ¬m.Duplicates c x ∧ (m.Opens c x → m.frames.length = fs.length) := by
  unfold Store.Duplicates Store.Opens
  rw [hx]
  obtain ⟨rfl, hfs⟩ | ⟨hne, hfs⟩ := framesWith_cases fs g
  · rw [hfs] at hframes
    refine ⟨?_, fun _ => by rw [hframes]⟩
    cases k with
    | dim | icc | anim | exif | xmp => exact hg.elim
    | frmh | image | unknown => exact id
    | alpha =>
      rintro ⟨f, hf, himg, -⟩
      exact Store.lastWhole_of_all hwhole hframes f hf himg
  · rw [hfs] at hframes
    cases k with
    | dim | icc | anim | exif | xmp => exact hg.elim
    | frmh => exact absurd hg hne
    | unknown => exact ⟨id, False.elim⟩
    | image => exact ⟨id, fun h => absurd h (Store.not_lastWhole_of_open hframes hg)⟩
    | alpha =>
      obtain ⟨halpha, himg⟩ := hg
      refine ⟨?_, fun h => absurd h (Store.not_lastWhole_of_open hframes himg)⟩
      rintro ⟨f, hf, -, hsome⟩
      obtain rfl : g = f := by simpa [hframes] using hf
      exact hsome halpha

end

/-! The store that the walk over the stream makes. -/

/-- The records of the walk are the present ones. -/
theorem Store.walk_length {m : Store} (h : m.Linked) : m.walk.length = m.presentCount := by
  rw [← List.length_map (f := m.record), (Store.map_record_walk_perm h).length_eq, Store.presentCount]

/-- The tag and the payload of a record of a store, with the memory of a state (R35). -/
def State.contentIn (v : State) (m : Store) (i : Nat) : Word × List Byte := ((m.record i).tag, v.payload (m.record i))

/-- The bytes that copying the payloads of several records takes (R279). -/
def State.copiedBytes (s : State) (copy : Bool) (is : List Nat) : Nat :=
  ((is.filter fun i => ownsCopy s.cfg (s.mux.record i).tag copy).map fun i => (s.mux.record i).len.toNat).sum

theorem State.copiedBytes_append (s : State) (copy : Bool) (is js : List Nat) :
    s.copiedBytes copy (is ++ js) = s.copiedBytes copy is + s.copiedBytes copy js := by
  simp [State.copiedBytes]

theorem State.copiedBytes_singleton (s : State) (copy : Bool) (i : Nat) :
    s.copiedBytes copy [i] =
      if ownsCopy s.cfg (s.mux.record i).tag copy then (s.mux.record i).len.toNat else 0 := by
  unfold State.copiedBytes
  split <;> simp_all

/-- The index a record of the walk gets: its place in the walk (R279, R296). -/
def Store.ordinal (m : Store) (i : Nat) : Nat := m.walk.idxOf i

/-- After the chunks of the first records of the walk: the walk over the stream has come to their end, the arena holds as many
records, in order, and each has the tag and the payload of the one it was written from. -/
structure State.Copied (s r : State) (copy : Bool) (done : List Nat) (m : Store) : Prop where
  parses : r.ParsesTo copy done.length (s.stream done).length m
  arena : m.recs.length = s.cfg.nchunk
  present : ∀ p, (m.record p).present = true ↔ p < done.length
  heap : m.heapUsed.toNat = s.copiedBytes copy done
  same : ∀ a ∈ done, r.contentIn m (s.mux.ordinal a) = s.contentIn s.mux a

section
variable {s r : State} {copy : Bool} (h : s.Holds r)
include h

theorem State.Copied.start : s.Copied r copy [] (r.mux.emptied true) where
  parses := .start
  arena := by simpa using h.arena
  present := by simp
  heap := rfl
  same := fun a ha => absurd ha List.not_mem_nil

variable (hlimit : s.cfg.heapLimit < 2 ^ 33) (hheap : s.copiedBytes copy s.mux.walk ≤ s.cfg.heapLimit)
  {done rest : List Nat} {a : Nat} {m : Store} (hwalk : s.mux.walk = done ++ a :: rest) (hm : s.Copied r copy done m)

include hwalk in
theorem State.Holds.ordinal_eq : s.mux.ordinal a = done.length := by
  obtain ⟨-, -, -, -, hlinked, -⟩ := h.inv
  have hnodup := hwalk ▸ hlinked.1
  have hnot : a ∉ done := fun ha => (List.nodup_append.1 hnodup).2.2 a ha a List.mem_cons_self rfl
  rw [Store.ordinal, hwalk, List.idxOf_append_of_notMem hnot, List.idxOf_cons_self, Nat.add_zero]

omit h in
include hwalk in
theorem Store.ordinal_lt {b : Nat} (hb : b ∈ done) : s.mux.ordinal b < done.length := by
  rw [Store.ordinal, hwalk, List.idxOf_append_of_mem hb]
  exact List.idxOf_lt_length_of_mem hb

include hwalk in
/-- The record of the next chunk has the payload of the one it was written from. -/
theorem State.Holds.record_payload (copy : Bool) :
    r.payload ((r.chunkAt (r.arg0.toNat + (s.stream done).length) copy).record s.cfg) = s.payload (s.mux.record a) := by
  obtain ⟨-, hlen, hpayload⟩ := h.header hwalk
  have hfit := h.chunk_fits hwalk
  have hread := h.toParsable.payload_record (off := (s.stream done).length) (by omega) copy
  rwa [h.cfg_eq, hlen, hpayload] at hread

include hwalk hm

/-- The next record gets the lowest index after those before it. -/
theorem State.Copied.freeIndex_eq : m.freeIndex = some done.length := by
  obtain ⟨hlen, -, -, -, hlinked, -⟩ := h.inv
  have hcount : s.mux.walk.length ≤ s.cfg.nchunk := by
    rw [Store.walk_length hlinked, ← hlen]
    exact List.length_filter_le ..
  refine Store.freeIndex_eq_some.2 ⟨?_, ?_, fun j hj => (hm.present j).2 hj⟩
  · rw [hwalk, List.length_append, List.length_cons] at hcount
    rw [hm.arena]
    omega
  · rw [← Bool.not_eq_true, hm.present]
    exact Nat.lt_irrefl _

include hheap in
/-- The heap takes the payload of the next record (R302). -/
theorem State.Copied.heapTakes :
    m.HeapTakes r.cfg (r.chunkAt (r.arg0.toNat + (s.stream done).length) copy) := by
  intro howns
  obtain ⟨htag, hlen, -⟩ := h.header hwalk
  rw [State.chunkAt_tag, State.chunkAt_copy, htag, h.cfg_eq] at howns
  rw [State.chunkAt_len, hlen, hm.heap, h.cfg_eq]
  rw [hwalk, List.append_cons, State.copiedBytes_append, State.copiedBytes_append, State.copiedBytes_singleton,
    if_pos howns] at hheap
  omega

include hlimit in
/-- What the store is once the next record is made and put in its place. -/
theorem State.Copied.append {x : Incoming} {k : ChunkClass} {m' : Store}
    (hm' : m' = (m.withRecord s.cfg x done.length).link k done.length)
    (hparses : r.ParsesTo copy (done.length + 1) (s.stream (done ++ [a])).length m') (htakes : m.HeapTakes s.cfg x)
    (htag : x.tag = (s.mux.record a).tag) (hlen : x.len = (s.mux.record a).len) (hcopy : x.copy = copy)
    (hpayload : r.payload (x.record s.cfg) = s.payload (s.mux.record a)) : s.Copied r copy (done ++ [a]) m' := by
  have hlt := (Store.freeIndex_eq_some.1 (hm.freeIndex_eq h hwalk)).1
  have hrecord : ∀ j, m'.record j = if j = done.length then x.record s.cfg else m.record j := fun j => by
    rw [hm', Store.record, Store.link_recs]
    exact Store.withRecord_record hlt j
  refine ⟨?_, ?_, fun p => ?_, ?_, fun b hb => ?_⟩
  · rw [List.length_append]
    exact hparses
  · rw [hm', Store.link_recs, Store.withRecord_length, hm.arena]
  · rw [hrecord, List.length_append, List.length_singleton]
    split
    next heq => simp [heq]
    next hne =>
      rw [hm.present]
      omega
  · rw [hm', Store.link_heapUsed, Store.withRecord_heapUsed htakes hlimit, hm.heap, State.copiedBytes_append,
      State.copiedBytes_singleton, htag, hlen, hcopy]
  · rw [State.contentIn, hrecord]
    obtain hb | hb := List.mem_append.1 hb
    · rw [if_neg (Store.ordinal_lt hwalk hb).ne]
      exact hm.same b hb
    · obtain rfl := List.mem_singleton.1 hb
      rw [h.ordinal_eq hwalk, if_pos rfl]
      exact Prod.ext ((Incoming.record_tag ..).trans htag) hpayload

include hlimit hheap in
/-- The chunk of the next record of the walk is routed to its place, unless that is taken or no frame is left. -/
theorem State.Copied.step {k : ChunkClass} (hk : s.mux.classAt s.cfg a = k)
    (hadmits : ∀ x, classOf s.cfg x.tag = k →
      ¬m.Duplicates s.cfg x ∧ (m.Opens s.cfg x → m.frames.length < s.cfg.nframe)) :
    ∃ m', s.Copied r copy (done ++ [a]) m' ∧ m'.list = (m.link k (s.mux.ordinal a)).list ∧
      m'.frames = (m.link k (s.mux.ordinal a)).frames := by
  obtain ⟨htag, hlen, -⟩ := h.header hwalk
  have hclass : classOf s.cfg (r.chunkAt (r.arg0.toNat + (s.stream done).length) copy).tag = k := by
    rw [State.chunkAt_tag, htag]
    exact hk
  have htakes := hm.heapTakes h hheap hwalk
  rw [h.cfg_eq] at htakes
  have hroute := Store.route_ok_iff.2 ⟨hadmits _ hclass, hm.freeIndex_eq h hwalk, htakes, rfl⟩
  have hparses := hm.parses.chunk (by rw [hlen]; exact h.chunk_fits hwalk) (by rw [h.cfg_eq]; exact hroute)
  rw [hclass, hlen, ← h.stream_concat_length hwalk] at hparses
  have hcopied := hm.append h hlimit hwalk rfl hparses htakes htag hlen rfl (h.record_payload hwalk copy)
  refine ⟨_, hcopied, ?_, ?_⟩
  · rw [h.ordinal_eq hwalk, Store.link_withRecord]
    exact funext fun _ => Store.withRecord_list _
  · rw [h.ordinal_eq hwalk, Store.link_withRecord, Store.withRecord_frames]

end

/-! Filling the lists, then frame after frame. -/

/-- The walk over the stream comes to a store with these lists and frames after the chunks of the first records. -/
def State.Reaches (s r : State) (copy : Bool) (done : List Nat) (lists : ChunkClass → List Nat) (frames : List Frame) : Prop :=
  ∃ m, s.Copied r copy done m ∧ m.list = lists ∧ m.frames = frames

/-- A list of the store with more records at its end. -/
def appendTo (lists : ChunkClass → List Nat) (k : ChunkClass) (l : List Nat) (k' : ChunkClass) : List Nat :=
  if k' = k then lists k' ++ l else lists k'

theorem appendTo_nil (lists : ChunkClass → List Nat) (k : ChunkClass) : appendTo lists k [] = lists := by
  funext k'
  simp [appendTo]

theorem appendTo_appendTo (lists : ChunkClass → List Nat) (k : ChunkClass) (l l' : List Nat) :
    appendTo (appendTo lists k l) k l' = appendTo lists k (l ++ l') := by
  funext k'
  by_cases hk : k' = k <;> simp [appendTo, hk]

theorem Store.setList_append (m : Store) {k : ChunkClass} (hk : frameClass k = false) (l : List Nat) :
    (m.setList k (m.list k ++ l)).list = appendTo m.list k l := by
  funext k'
  rw [Store.list_setList m hk, appendTo]
  split
  next heq => rw [heq]
  next => rfl

/-- A frame with the indices that parsing gives to its records. -/
def Frame.rename (ρ : Nat → Nat) (f : Frame) : Frame :=
  { hdr := f.hdr.map ρ, alpha := f.alpha.map ρ, img := f.img.map ρ, unk := f.unk.map ρ }

section
variable {s r : State} {copy : Bool} (h : s.Holds r) (hlimit : s.cfg.heapLimit < 2 ^ 33)
  (hheap : s.copiedBytes copy s.mux.walk ≤ s.cfg.heapLimit) {done rest : List Nat} {lists : ChunkClass → List Nat}
include h hlimit hheap

/-- The chunks of a list's records fill the list. -/
theorem State.Reaches.appendTo {k : ChunkClass} (hk : frameClass k = false) {l : List Nat}
    (hclass : ∀ a ∈ l, s.mux.classAt s.cfg a = k) (hsingle : k ≠ .unknown → (lists k).length + l.length ≤ 1)
    (hwalk : s.mux.walk = done ++ (l ++ rest)) (hm : s.Reaches r copy done lists []) :
    s.Reaches r copy (done ++ l) (appendTo lists k (l.map s.mux.ordinal)) [] := by
  induction l generalizing done lists with
  | nil => rwa [List.append_nil, List.map_nil, appendTo_nil]
  | cons a l ih =>
    obtain ⟨m, hm, rfl, hframes⟩ := hm
    have hnil : k ≠ .unknown → m.list k = [] := fun hne => by
      have hle := hsingle hne
      rw [List.length_cons] at hle
      exact List.length_eq_zero_iff.1 (by omega)
    obtain ⟨m', hm', hlist', hframes'⟩ := hm.step h hlimit hheap hwalk (hclass a List.mem_cons_self) fun x hx => by
      obtain ⟨hdup, hopens⟩ := Store.admits_list hk hnil hx
      exact ⟨hdup, fun ho => absurd ho hopens⟩
    rw [Store.link_of_list hk hframes hnil] at hlist' hframes'
    rw [Store.setList_append m hk] at hlist'
    rw [Store.setList_frames, hframes] at hframes'
    have hrest := ih (fun b hb => hclass b (List.mem_cons_of_mem a hb)) (done := done ++ [a])
      (lists := Sys2Proof.Machine.appendTo m.list k [s.mux.ordinal a]) (fun hne => ?_) (by rw [hwalk]; simp)
      ⟨m', hm', hlist', hframes'⟩
    · rw [appendTo_appendTo] at hrest
      rwa [List.append_cons]
    · have hle := hsingle hne
      rw [List.length_cons] at hle
      simp only [Sys2Proof.Machine.appendTo, if_true, List.length_append, List.length_singleton]
      omega

variable {fs : List Frame} (hwhole : ∀ f ∈ fs, f.img ≠ none) (hroom : fs.length < s.cfg.nframe) {g : Frame}
include hwhole hroom

/-- The chunk of a record that the frame being filled awaits goes into it. -/
theorem State.Reaches.put {k : ChunkClass} {a : Nat} (hm : s.Reaches r copy done lists (framesWith fs g))
    (hwalk : s.mux.walk = done ++ a :: rest) (hclass : s.mux.classAt s.cfg a = k) (hg : g.Awaits k) :
    s.Reaches r copy (done ++ [a]) lists (framesWith fs (g.put k (s.mux.ordinal a))) := by
  obtain ⟨m, hm, rfl, hframes⟩ := hm
  obtain ⟨m', hm', hlist', hframes'⟩ := hm.step h hlimit hheap hwalk hclass fun x hx => by
    obtain ⟨hdup, hopens⟩ := Store.admits_frame hwhole hframes hg hx
    exact ⟨hdup, fun ho => hopens ho ▸ hroom⟩
  obtain ⟨hput, hlists⟩ := Store.link_of_frame hwhole hframes hg (s.mux.ordinal a)
  exact ⟨m', hm', hlist'.trans hlists, hframes'.trans hput⟩

theorem State.Reaches.putOption {k : ChunkClass} {o : Option Nat} (hm : s.Reaches r copy done lists (framesWith fs g))
    (hwalk : s.mux.walk = done ++ (o.toList ++ rest)) (hclass : ∀ a ∈ o.toList, s.mux.classAt s.cfg a = k)
    (hg : g.Awaits k) :
    s.Reaches r copy (done ++ o.toList) lists (framesWith fs (o.elim g fun a => g.put k (s.mux.ordinal a))) := by
  cases o with
  | none => rwa [Option.toList_none, List.append_nil]
  | some a => exact hm.put h hlimit hheap hwhole hroom hwalk (hclass a (List.mem_singleton_self a)) hg

theorem State.Reaches.putUnknown {l : List Nat} (hm : s.Reaches r copy done lists (framesWith fs g))
    (hwalk : s.mux.walk = done ++ (l ++ rest)) (hclass : ∀ a ∈ l, s.mux.classAt s.cfg a = .unknown) (hg : g.img ≠ none) :
    s.Reaches r copy (done ++ l) lists (framesWith fs { g with unk := g.unk ++ l.map s.mux.ordinal }) := by
  induction l generalizing done g with
  | nil => simpa using hm
  | cons a l ih =>
    have hput := hm.put h hlimit hheap hwhole hroom (k := .unknown) hwalk (hclass a List.mem_cons_self) hg
    have hrest := ih hput (by rw [hwalk]; simp) (fun b hb => hclass b (List.mem_cons_of_mem a hb)) hg
    simpa [Frame.put] using hrest

/-- The chunks of a frame's records make the frame (R291, R296). -/
theorem State.Reaches.addFrame {f : Frame} (hm : s.Reaches r copy done lists fs)
    (hwalk : s.mux.walk = done ++ (f.walk ++ rest)) (hclasses : f.Classes s.cfg s.mux) (himg : f.img ≠ none) :
    s.Reaches r copy (done ++ f.walk) lists (fs ++ [f.rename s.mux.ordinal]) := by
  obtain ⟨hdr, alpha, img, unk⟩ := f
  obtain ⟨i, rfl⟩ := Option.ne_none_iff_exists'.1 himg
  obtain ⟨hhdr, halpha, himage, hunk⟩ := hclasses
  simp only [Frame.walk, List.append_assoc] at hwalk ⊢
  have hdone : s.Reaches r copy (done ++ hdr.toList) lists
      (framesWith fs { hdr := hdr.map s.mux.ordinal, alpha := none, img := none, unk := [] }) := by
    have hput := State.Reaches.putOption h hlimit hheap hwhole hroom (g := Frame.empty) hm hwalk hhdr rfl
    cases hdr <;> exact hput
  have hdone : s.Reaches r copy (done ++ hdr.toList ++ alpha.toList) lists
      (framesWith fs { hdr := hdr.map s.mux.ordinal, alpha := alpha.map s.mux.ordinal, img := none, unk := [] }) := by
    have hput := hdone.putOption h hlimit hheap hwhole hroom (by rw [hwalk, List.append_assoc]) halpha ⟨rfl, rfl⟩
    cases alpha <;> exact hput
  have hput := hdone.put h hlimit hheap hwhole hroom (a := i) (rest := unk ++ rest) (by rw [hwalk]; simp)
    (himage i (List.mem_singleton_self i)) rfl
  have hfull := hput.putUnknown h hlimit hheap hwhole hroom (rest := rest) (by rw [hwalk]; simp) hunk (Option.some_ne_none _)
  simpa [framesWith, Frame.put, Frame.rename, Frame.isEmpty] using hfull

omit hwhole hroom in
/-- The chunks of the records of several frames make the frames (R291, R296). -/
theorem State.Reaches.addFrames {gs : List Frame} (hm : s.Reaches r copy done lists fs)
    (hwalk : s.mux.walk = done ++ (gs.flatMap Frame.walk ++ rest)) (hgs : ∀ f ∈ gs, f.Classes s.cfg s.mux ∧ f.img ≠ none)
    (hwhole : ∀ f ∈ fs, f.img ≠ none) (hroom : fs.length + gs.length ≤ s.cfg.nframe) :
    s.Reaches r copy (done ++ gs.flatMap Frame.walk) lists (fs ++ gs.map (Frame.rename s.mux.ordinal)) := by
  induction gs generalizing done fs with
  | nil => simpa using hm
  | cons f gs ih =>
    rw [List.length_cons] at hroom
    rw [List.flatMap_cons, List.append_assoc] at hwalk
    obtain ⟨hclasses, himg⟩ := hgs f List.mem_cons_self
    have hframe := hm.addFrame h hlimit hheap hwhole (by omega) hwalk hclasses himg
    have hrest := ih hframe (by rw [hwalk]; simp) (fun g hg => hgs g (List.mem_cons_of_mem f hg)) ?_
      (by rw [List.length_append, List.length_singleton]; omega)
    · simpa using hrest
    · intro g hg
      obtain hg | hg := List.mem_append.1 hg
      · exact hwhole g hg
      · rw [List.mem_singleton.1 hg]
        simpa [Frame.rename] using himg

omit hwhole hroom in
/-- The chunks of the records of several lists fill the lists (R291, R296). -/
theorem State.Reaches.fillLists {ks : List ChunkClass} (hm : s.Reaches r copy done lists [])
    (hwalk : s.mux.walk = done ++ (ks.flatMap s.mux.list ++ rest)) (hks : ∀ k ∈ ks, frameClass k = false)
    (hnodup : ks.Nodup) (hnil : ∀ k ∈ ks, lists k = []) :
    s.Reaches r copy (done ++ ks.flatMap s.mux.list)
      (fun k => if k ∈ ks then (s.mux.list k).map s.mux.ordinal else lists k) [] := by
  obtain ⟨hsingle, hclass, -⟩ := Store.classified_iff.1 h.inv.2.2.2.2.2.1
  induction ks generalizing done lists with
  | nil => simpa using hm
  | cons k ks ih =>
    obtain ⟨hnot, hnodup⟩ := List.nodup_cons.1 hnodup
    rw [List.flatMap_cons, List.append_assoc] at hwalk
    have hfirst := hm.appendTo h hlimit hheap (hks k List.mem_cons_self) (hclass k)
      (fun hne => by simpa [hnil k List.mem_cons_self] using hsingle k hne) hwalk
    have hrest := ih hfirst (by rw [hwalk]; simp) (fun k' hk' => hks k' (List.mem_cons_of_mem k hk')) hnodup
      fun k' hk' => ?_
    · rw [List.flatMap_cons, ← List.append_assoc]
      convert hrest using 2 with k'
      by_cases hk : k' = k
      · subst hk
        simp [hnot, Sys2Proof.Machine.appendTo, hnil k' List.mem_cons_self]
      · simp [hk, Sys2Proof.Machine.appendTo]
    · have hne : k' ≠ k := fun heq => hnot (heq ▸ hk')
      simp [Sys2Proof.Machine.appendTo, hne, hnil k' (List.mem_cons_of_mem k hk')]

end

/-- The walk over the stream comes to the store with the same lists and frames, under the new indices (R302). -/
theorem State.Holds.reaches {s r : State} {copy : Bool} (h : s.Holds r) (hlimit : s.cfg.heapLimit < 2 ^ 33)
    (hheap : s.copiedBytes copy s.mux.walk ≤ s.cfg.heapLimit) :
    s.Reaches r copy s.mux.walk (fun k => (s.mux.list k).map s.mux.ordinal)
      (s.mux.frames.map (Frame.rename s.mux.ordinal)) := by
  obtain ⟨-, hframes, -, -, -, hclassified, -⟩ := h.inv
  obtain ⟨-, himgs, -⟩ := s.mux.complete_iff.1 h.complete
  have hstart : s.Reaches r copy [] (fun _ => []) [] :=
    ⟨_, .start h, funext fun k => by cases k <;> rfl, rfl⟩
  have hlisted := hstart.fillLists h hlimit hheap (ks := [.dim, .icc, .anim, .exif, .xmp, .unknown]) (rest := s.mux.framed)
    s.mux.walk_eq (by decide) (by decide) (fun _ _ => rfl)
  have hframed := hlisted.addFrames h hlimit hheap (gs := s.mux.frames) (rest := [])
    (by rw [List.append_nil]; exact s.mux.walk_eq)
    (fun f hf => ⟨(Frame.inv_iff.1 (hclassified.2.2 f hf)).1, himgs f hf⟩) (by simp) (by simpa using hframes)
  have hwalk : [] ++ [ChunkClass.dim, .icc, .anim, .exif, .xmp, .unknown].flatMap s.mux.list ++
      s.mux.frames.flatMap Frame.walk = s.mux.walk := s.mux.walk_eq.symm
  rw [hwalk, List.nil_append] at hframed
  convert hframed using 1
  funext k
  cases k <;> rfl

/-- The bytes the copies take, said of the arena. -/
theorem State.copiedBytes_walk {s : State} (h : s.mux.Linked) (copy : Bool) :
    s.copiedBytes copy s.mux.walk =
      ((s.mux.recs.filter fun r => r.present && ownsCopy s.cfg r.tag copy).map fun r => r.len.toNat).sum := by
  have hperm := ((Store.map_record_walk_perm h).filter fun r => ownsCopy s.cfg r.tag copy).map fun r => r.len.toNat
  rw [List.filter_map, List.map_map, List.filter_filter] at hperm
  simp only [Bool.and_comm] at hperm
  exact hperm.sum_eq

/-- A store with the same lists and frames, under other indices, is complete when the first is (R295). -/
theorem Store.complete_of_renamed {m m' : Store} {ρ : Nat → Nat} (h : m.complete = true)
    (hlists : m'.list = fun k => (m.list k).map ρ) (hframes : m'.frames = m.frames.map (Frame.rename ρ)) :
    m'.complete = true := by
  obtain ⟨hne, himgs, hdim⟩ := m.complete_iff.1 h
  have hnil : ∀ k, m'.list k = [] ↔ m.list k = [] := fun k => by rw [hlists, List.map_eq_nil_iff]
  refine m'.complete_iff.2 ⟨by simpa [hframes] using hne, fun f hf => ?_, fun hmore => ?_⟩
  · rw [hframes] at hf
    obtain ⟨g, hg, rfl⟩ := List.mem_map.1 hf
    simpa [Frame.rename] using himgs g hg
  · rw [hframes, List.length_map] at hmore
    exact (hnil .dim).not.2 (hdim (hmore.imp_right (Or.imp (hnil .icc).not.1 (Or.imp (hnil .anim).not.1
      (Or.imp (hnil .exif).not.1 (hnil .xmp).not.1)))))

/-- A frame under new indices holds the same contents when each record does. -/
theorem Frame.rename_contents {γ : Type} {f : Frame} {ρ : Nat → Nat} {c c' : Nat → γ} (h : ∀ i ∈ f.walk, c' (ρ i) = c i) :
    ((f.rename ρ).hdr.map c', (f.rename ρ).alpha.map c', (f.rename ρ).img.map c', (f.rename ρ).unk.map c') =
      (f.hdr.map c, f.alpha.map c, f.img.map c, f.unk.map c) := by
  simp only [Frame.walk, List.mem_append, Option.mem_toList] at h
  simp only [Frame.rename, Option.map_map, List.map_map, Prod.mk.injEq]
  exact ⟨Option.map_congr fun i hi => h i (by simp [hi]), Option.map_congr fun i hi => h i (by simp [hi]),
    Option.map_congr fun i hi => h i (by simp [hi]), List.map_congr_left fun i hi => h i (by simp [hi])⟩

/-- Settles O55: the walk over the stream reaches the store with the same lists and frames, at whose end MUX.PARSE finds it
complete. -/
theorem containerRoundTrip : Obligations.ContainerRoundTrip := by
  intro copy s t hlegal hinv hexec hok hheld hheap
  obtain ⟨hholds, hres1⟩ := State.holds_of_assemble hlegal hinv hexec hok hheld
  have hlinked : s.mux.Linked := hinv.2.2.2.2.1
  have hlimit : s.cfg.heapLimit < 2 ^ 33 := hlegal.2.2.2.2.2.2.2.2
  rw [← State.copiedBytes_walk hlinked] at hheap
  obtain ⟨m, hm, hlists, hframes⟩ := hholds.reaches hlimit hheap
  have hcomplete := Store.complete_of_renamed hholds.complete hlists hframes
  have hparse := (hm.parses.execMuxParse_end hholds.toParsable hholds.size.symm).trans (State.parseEnds_complete _ _ hcomplete)
  refine ⟨_, hparse, rfl, ?_, fun k => ?_, ?_⟩
  · rw [hres1, ← Store.walk_length hlinked]
    rfl
  · change (m.list k).map _ = _
    rw [hlists, List.map_map]
    refine List.map_congr_left fun a ha => ?_
    exact hm.same a ((s.mux.list_sublist_walk k).subset ha)
  · change m.frames.map _ = _
    rw [hframes, List.map_map]
    refine List.map_congr_left fun f hf => Frame.rename_contents fun a ha => ?_
    exact hm.same a (s.mux.walk_eq ▸ List.mem_append_right _ (List.mem_flatMap.2 ⟨f, hf, ha⟩))

end Sys2Proof.Machine
end

section
/-! PROOFS. The system and codec commands (spec/45_system_codec.md R330, R331, R334, R335): what a reset brings about and keeps,
the command cycle as a step, and the argument checks before the refusal of an open function. -/

namespace Sys2Proof.Machine

/-! Reset (R330). -/

/-- A reset brings every piece of block state but CMD to its value at power-on, whatever the state before (R40, R330). -/
theorem State.blockReset_unitsAtReset (s : State) (cmd : Word) : (s.blockReset cmd).UnitsAtReset :=
  (powerOnValues.1 s.cfg).1

/-- A reset changes no byte read outside the writer's region, and after it no region holds any value (R80, R330). -/
theorem State.readByte_blockReset {s : State} {a : Nat} (cmd : Word) (h : s.bw.holds a = false) :
    (s.blockReset cmd).readByte a = s.readByte a := by
  have hunbound : (s.blockReset cmd).bw.holds a = false := rfl
  rw [State.readByte_of_not_held hunbound, State.readByte_of_not_held h, State.blockReset_mem,
    State.read_releasedMem_of_not_held h]

/-- Settles O9: SYS.RESET is the reset that keeps CMD, and the OK and zero results of its end are the values at reset. -/
theorem sysResetRule : Obligations.SysResetRule := fun s =>
  ⟨(s.blockReset s.cmd).finish 0 0, rfl, s.blockReset_unitsAtReset s.cmd, rfl, rfl, rfl, fun _ ha =>
    State.readByte_blockReset s.cmd ha⟩

/-! The command cycle (R331). -/

/-- Settles O5: the host's write of CMD is one command cycle, and what the word decodes to decides what the cycle does. -/
theorem stepRunsDecodedCommand : Obligations.StepRunsDecodedCommand := by
  intro s cw rest hhost u
  have hstep : step s = commandCycle (s.afterTake rest) cw := by
    rw [step_eq, hhost]
    exact hostAccess_command (s.afterTake rest) cw
  rw [hstep, commandCycle_eq]
  refine ⟨fun i hi => ?_, fun hnone => ?_⟩
  · rw [hi]
    rfl
  · rw [hnone]
    rfl

/-! The codec entry points (R334, R335). -/

/-- CODEC.DECODE with a region past the end of the address space (R71, R334). -/
theorem execCodecDecode_past_end {s : State}
    (h : ¬(s.arg0.toNat + s.arg1.toNat ≤ 2 ^ s.cfg.aw ∧ s.arg2.toNat + s.arg3.toNat ≤ 2 ^ s.cfg.aw)) :
    execCodecDecode s = raise s .invalidArgument :=
  if_pos (by simpa [fits, imp_iff_not_or] using h)

/-- CODEC.DECODE past its checks (R334, log 13). -/
theorem execCodecDecode_open {s : State} (hsrc : s.arg0.toNat + s.arg1.toNat ≤ 2 ^ s.cfg.aw)
    (hdst : s.arg2.toNat + s.arg3.toNat ≤ 2 ^ s.cfg.aw) : execCodecDecode s = .refused .codecDecodeOpen :=
  if_neg (by simp [fits, hsrc, hdst])

/-- CODEC.ENCODE without an image (R335). -/
theorem execCodecEncode_no_image {s : State} (h : s.pte.valid = false) : execCodecEncode s = raise s .invalidArgument :=
  if_pos h

/-- CODEC.ENCODE with a region past the end of the address space, whether or not an image is set (R71, R335). -/
theorem execCodecEncode_past_end {s : State}
    (h : ¬(s.arg0.toNat + 4 * s.imgW * s.imgH ≤ 2 ^ s.cfg.aw ∧ s.arg1.toNat + s.arg2.toNat ≤ 2 ^ s.cfg.aw)) :
    execCodecEncode s = raise s .invalidArgument :=
  ite_eq_left_iff.2 fun _ => if_pos (by simpa [fits, imp_iff_not_or] using h)

/-- CODEC.ENCODE past its checks (R335, log 13). -/
theorem execCodecEncode_open {s : State} (himg : s.pte.valid = true)
    (hsrc : s.arg0.toNat + 4 * s.imgW * s.imgH ≤ 2 ^ s.cfg.aw) (hdst : s.arg1.toNat + s.arg2.toNat ≤ 2 ^ s.cfg.aw) :
    execCodecEncode s = .refused .codecEncodeOpen := by
  rw [execCodecEncode, if_neg (by simp [himg]), if_neg (by simp [fits, hsrc, hdst])]

/-- Settles O56: the argument checks decide between InvalidArgument and the refusal. -/
theorem codecCommandsStop : Obligations.CodecCommandsStop := fun _ =>
  ⟨execCodecDecode_past_end, fun ⟨hsrc, hdst⟩ => execCodecDecode_open hsrc hdst,
    fun h => h.elim execCodecEncode_no_image execCodecEncode_past_end,
    fun ⟨himg, hsrc, hdst⟩ => execCodecEncode_open himg hsrc hdst⟩

end Sys2Proof.Machine
end

section
/-! PROOFS. How a command ends (spec/60_exceptions.md R340 to R344, R348, R350): with OK, or with one of the codes the rules let
it raise, on a state that differs from the one before in that error's listed effect alone. -/

namespace Sys2Proof.Machine

/-- The codes a command can raise without any effect but the error entry itself (R341 to R344, R348). -/
def codesWithoutEffect : Instr → List Status
  | .sysReset => []
  | .brInit _ | .brRead _ | .brGetbool _ | .bwInit | .bwPut _ | .hufBuild _ | .hufDecode _ | .hufReadlengths | .pteSetimg
  | .ptePredFwd _ | .ptePredInv _ | .pteSubgFwd | .pteSubgInv | .pteXcolFwd _ | .pteXcolInv _ | .ptePalFwd | .ptePalInv
  | .muxDestroy | .codecDecode | .codecEncode => [.invalidArgument]
  | .bwFinalize | .muxSet _ => [.invalidArgument, .allocationFailure]
  | .muxNew => [.unsupportedVersion]
  | .muxGet | .muxDelete | .muxFetch => [.invalidArgument, .notFound]
  | .muxPush _ => [.invalidArgument, .duplicateChunk, .allocationFailure]
  | .muxAssemble => [.invalidArgument, .notFound, .allocationFailure]
  | .muxParse _ => [.invalidArgument, .unsupportedVersion]

/-- The states a command can end in from `s`: with OK, with an error that changed nothing else, or with one of the four errors
of R348 that have an effect. A BW.PUT in which the writer already was in error is one of `writerInError` too (R168). -/
inductive CommandEnd (s : State) : Instr → State → Prop where
  | ok {i : Instr} {t : State} (hok : t.status = .ok) : CommandEnd s i t
  | unchanged {i : Instr} (x : Status) (hx : x ∈ codesWithoutEffect i) : CommandEnd s i (s.raised x)
  | writerInError {n : BitVec 8} :
    CommandEnd s (.bwPut n) (State.raised { s with bw := { s.bw with err := true } } .allocationFailure)
  | badLengths {k : BitVec 4} :
    CommandEnd s (.hufBuild k) ((s.setSlot k.toNat { s.slot k.toNat with valid := false }).raised .malformedTable)
  | badDescription {r : Reader} (x : Status) (hr : s.br.SameView r) (hx : x = .malformedTable ∨ x = .truncatedStream) :
    CommandEnd s .hufReadlengths (State.raised { s with br := r } x)
  | parseFailed {copy : Bool} (x : Status)
      (hx : x ∈ [Status.truncatedStream, .duplicateChunk, .allocationFailure, .notFound]) :
    CommandEnd s (.muxParse copy) (State.raised { s with mux := s.mux.emptied true } x)

/-- Setting the flag of a writer that is in error changes nothing (R168). -/
theorem State.setErr_of_err {s : State} (h : s.bw.err = true) : { s with bw := { s.bw with err := true } } = s :=
  congrArg (fun b => { s with bw := { s.bw with err := b } }) h.symm

/-- A transform ends with OK or raises InvalidArgument (R223). -/
theorem State.transform_end {i : Instr} {s t : State} {reads : List (Nat × Nat)} {dst : Nat × Nat} {ok : Bool}
    {out : List Byte} {r0 r1 : Reg} (hcode : .invalidArgument ∈ codesWithoutEffect i)
    (h : s.transform reads dst ok out r0 r1 = .next t) : CommandEnd s i t := by
  obtain rfl | ⟨-, -, -, rfl⟩ := State.transform_next h
  · exact .unchanged _ hcode
  · exact .ok rfl

/-- How each of the thirty commands ends. -/
theorem exec_end {i : Instr} {s t : State} (h : exec i s = .next t) : CommandEnd s i t := by
  cases i with
  | sysReset =>
    obtain rfl := execSysReset_next h
    exact .ok rfl
  | brInit _ =>
    obtain ⟨rfl, -⟩ | ⟨-, ⟨-, rfl⟩ | ⟨-, _, -, rfl⟩⟩ := execBrInit_next h
    · exact .unchanged _ (.head _)
    · exact .ok rfl
    · exact .ok rfl
  | brRead _ =>
    obtain ⟨rfl, -⟩ | ⟨-, rfl⟩ := execBrRead_next h
    · exact .unchanged _ (.head _)
    · exact .ok rfl
  | brGetbool _ =>
    obtain ⟨rfl, -⟩ | ⟨-, _, -, rfl⟩ := execBrGetbool_next h
    · exact .unchanged _ (.head _)
    · exact .ok rfl
  | bwInit =>
    obtain ⟨rfl, -⟩ | ⟨-, rfl⟩ := execBwInit_next h
    · exact .unchanged _ (.head _)
    · exact .ok rfl
  | bwPut _ =>
    obtain ⟨rfl, -⟩ | ⟨-, ⟨herr, rfl⟩ | ⟨-, ⟨-, rfl⟩ | ⟨-, ⟨-, rfl⟩ | ⟨-, -, -, rfl⟩ | ⟨-, -, rfl⟩⟩⟩⟩ :=
      execBwPut_next h
    · exact .unchanged _ (.head _)
    · exact congrArg (State.raised · .allocationFailure) (State.setErr_of_err herr) ▸ .writerInError
    · exact .unchanged _ (.head _)
    · exact .ok rfl
    · exact .writerInError
    · exact .ok rfl
  | bwFinalize =>
    obtain ⟨rfl, -⟩ | ⟨-, ⟨-, rfl⟩ | ⟨-, rfl⟩⟩ := execBwFinalize_next h
    · exact .unchanged _ (.head _)
    · exact .unchanged _ (.tail _ (.head _))
    · exact .ok rfl
  | hufBuild _ =>
    obtain ⟨rfl, -⟩ | ⟨-, ⟨-, rfl⟩ | ⟨_, -, rfl⟩⟩ := execHufBuild_next h
    · exact .unchanged _ (.head _)
    · exact .badLengths
    · exact .ok rfl
  | hufDecode _ =>
    obtain ⟨rfl, -⟩ | ⟨-, _, -, rfl⟩ := execHufDecode_next h
    · exact .unchanged _ (.head _)
    · exact .ok rfl
  | hufReadlengths =>
    obtain ⟨rfl, -⟩ | ⟨-, d, hd, ht⟩ := execHufReadlengths_next h
    · exact .unchanged _ (.head _)
    · have hsame : s.br.SameView d.reader := hd ▸ (readDescription_spec s.bitLsb s.cfg s.arg1.toNat s.br).1
      obtain ⟨-, rfl⟩ | ⟨-, -, rfl⟩ | ⟨-, _, _, -, rfl⟩ := ht
      · exact .badDescription _ hsame (.inr rfl)
      · exact .badDescription _ hsame (.inl rfl)
      · exact .ok rfl
  | pteSetimg =>
    obtain rfl | ⟨-, rfl⟩ := execPteSetimg_next h
    · exact .unchanged _ (.head _)
    · exact .ok rfl
  | ptePredFwd _ | ptePredInv _ | pteSubgFwd | pteSubgInv | pteXcolFwd _ | pteXcolInv _ =>
    exact State.transform_end (.head _) h
  | ptePalFwd =>
    obtain rfl | ⟨-, -, -, rfl⟩ := execPtePalFwd_next h
    · exact .unchanged _ (.head _)
    · exact .ok rfl
  | ptePalInv =>
    obtain rfl | ⟨-, -, rfl⟩ := execPtePalInv_next h
    · exact .unchanged _ (.head _)
    · exact .ok rfl
  | muxNew =>
    obtain ⟨-, rfl⟩ | ⟨-, rfl⟩ := execMuxNew_next h
    · exact .unchanged _ (.head _)
    · exact .ok rfl
  | muxSet _ =>
    obtain ⟨rfl, -⟩ | ⟨-, rfl | ⟨_, _, -, rfl⟩⟩ := execMuxSet_next h
    · exact .unchanged _ (.head _)
    · exact .unchanged _ (.tail _ (.head _))
    · exact .ok rfl
  | muxGet =>
    obtain ⟨rfl, -⟩ | ⟨-, ⟨-, rfl⟩ | ⟨_, -, rfl⟩⟩ := execMuxGet_next h
    · exact .unchanged _ (.head _)
    · exact .unchanged _ (.tail _ (.head _))
    · exact .ok rfl
  | muxDelete =>
    obtain ⟨-, rfl⟩ | ⟨-, ⟨-, rfl⟩ | ⟨-, rfl⟩⟩ := execMuxDelete_next h
    · exact .unchanged _ (.head _)
    · exact .unchanged _ (.tail _ (.head _))
    · exact .ok rfl
  | muxPush _ =>
    obtain ⟨rfl, -⟩ | ⟨-, ⟨e, he, rfl⟩ | ⟨_, _, -, rfl⟩⟩ := execMuxPush_next h
    · exact .unchanged _ (.head _)
    · exact .unchanged _ (.tail _ (List.mem_pair.2 (Store.route_error he)))
    · exact .ok rfl
  | muxAssemble =>
    obtain ⟨rfl, -⟩ | ⟨-, ⟨-, rfl⟩ | ⟨-, ⟨-, rfl⟩ | ⟨-, rfl⟩⟩⟩ := execMuxAssemble_next h
    · exact .unchanged _ (.head _)
    · exact .unchanged _ (.tail _ (.head _))
    · exact .unchanged _ (.tail _ (.tail _ (.head _)))
    · exact .ok rfl
  | muxParse _ =>
    obtain ⟨rfl, -⟩ | ⟨-, ⟨-, rfl⟩ | ⟨-, _, hrun, ⟨e, he, rfl⟩ | ⟨_, _, -, ⟨-, rfl⟩ | ⟨-, rfl⟩⟩⟩⟩ :=
      execMuxParse_next h
    · exact .unchanged _ (.head _)
    · exact .unchanged _ (.tail _ (.head _))
    · have hcode : e = .truncatedStream ∨ e = .duplicateChunk ∨ e = .allocationFailure :=
        State.parseFrom_error (hrun ▸ he)
      exact .parseFailed e (by simp only [List.mem_cons]; tauto)
    · exact .parseFailed _ (by decide)
    · exact .ok rfl
  | muxFetch =>
    obtain ⟨rfl, -⟩ | ⟨-, ⟨-, rfl⟩ | ⟨-, -, rfl⟩⟩ := execMuxFetch_next h
    · exact .unchanged _ (.head _)
    · exact .unchanged _ (.tail _ (.head _))
    · exact .ok rfl
  | muxDestroy =>
    obtain ⟨-, rfl⟩ | ⟨-, rfl⟩ := execMuxDestroy_next h
    · exact .unchanged _ (.head _)
    · exact .ok rfl
  | codecDecode =>
    obtain rfl := execCodecDecode_next h
    exact .unchanged _ (.head _)
  | codecEncode =>
    obtain rfl := execCodecEncode_next h
    exact .unchanged _ (.head _)

/-- Settles O11: an error without an effect is the error entry alone, and the others are the listed effects. -/
theorem errorChangesOnlyListedState : Obligations.ErrorChangesOnlyListedState := by
  intro i s t h herr u
  cases exec_end h with
  | ok hok => exact absurd hok herr
  | unchanged x hx =>
    cases i with
    | bwPut _ | hufBuild _ | hufReadlengths =>
      obtain rfl := List.mem_singleton.1 hx
      rfl
    | muxParse _ => exact (if_pos (List.mem_pair.1 hx)).mpr rfl
    | _ => rfl
  | writerInError | badLengths => rfl
  | badDescription x hr hx =>
    have hmoved := congrArg (fun r => State.raised { s with br := r } x) hr
    obtain rfl | rfl := hx
    · exact ⟨.inl rfl, hmoved⟩
    · exact ⟨.inr rfl, hmoved⟩
  | parseFailed x hx =>
    have hlate : ¬(x = .invalidArgument ∨ x = .unsupportedVersion) := by
      rintro (rfl | rfl)
      all_goals exact absurd hx (by decide)
    exact (if_neg hlate).mpr ⟨rfl, rfl, s.mux.emptyOf_emptied true⟩

/-- Settles O12: the status is OK or one of the codes the command can raise; no codec command ends with OK (log 13). -/
theorem statusesByCommand : Obligations.StatusesByCommand := by
  intro i s t h
  cases exec_end h with
  | ok hok =>
    cases i with
    | sysReset => exact hok
    | codecDecode =>
      obtain rfl := execCodecDecode_next h
      rfl
    | codecEncode =>
      obtain rfl := execCodecEncode_next h
      rfl
    | _ => exact hok ▸ .head _
  | unchanged x hx =>
    cases i with
    | sysReset => exact absurd hx List.not_mem_nil
    | codecDecode | codecEncode => exact List.mem_singleton.1 hx
    | bwPut _ | hufBuild _ | hufReadlengths =>
      obtain rfl := List.mem_singleton.1 hx
      exact .tail _ (.head _)
    | muxParse _ => exact List.mem_of_mem_take (i := 3) (.tail _ hx)
    | _ => exact .tail _ hx
  | writerInError => exact .tail _ (.tail _ (.head _))
  | badLengths => exact .tail _ (.tail _ (.head _))
  | badDescription _ _ hx =>
    obtain rfl | rfl := hx
    · exact .tail _ (.tail _ (.head _))
    · exact .tail _ (.tail _ (.tail _ (.head _)))
  | parseFailed _ hx => exact List.mem_of_mem_drop (i := 3) hx

end Sys2Proof.Machine
end

section
/-! PROOFS. The reset input (spec/70_reset_and_hazards.md R370, R371): between commands it is the reset that brings CMD to 0, and
during a command it differs from that in the memory of the command's destination alone. -/

namespace Sys2Proof.Machine

/-! What taking the access from the queue leaves as it was. -/

/-- The region a command writes is given by the registers, the units and the parameters, not by the queue (R62). -/
theorem destination_afterTake (i : Instr) (s : State) (rest : List HostAccess) :
    destination i (s.afterTake rest) = destination i s := by cases i <;> rfl

/-- Outside the writer's region a byte reads the same whatever the counter of free values (log 10). -/
theorem State.readByte_afterTake {s : State} {a : Nat} (rest : List HostAccess) (h : s.bw.holds a = false) :
    (s.afterTake rest).readByte a = s.readByte a :=
  (State.readByte_of_not_held (s := s.afterTake rest) h).trans (State.readByte_of_not_held h).symm

/-! The two resets. -/

/-- A reset during a command leaves no byte at any value outside the command's destination (R371). -/
theorem read_resetDuring_of_not_written {s : State} {cw : Word} {a : Nat}
    (hout : ∀ i, decode cw = some i → ¬InSpan (destination i s) a) :
    (resetDuring s cw).mem.read a = (resetInput s).mem.read a := by
  unfold resetDuring
  split
  · rfl
  next i hi =>
    split
    · rfl
    · exact State.read_leaving_outside (hout i hi)

/-- A reset during a command leaves every piece of block state as the reset between commands does (R40, R371). -/
theorem resetDuring_unitsAtReset (s : State) (cw : Word) : (resetDuring s cw).UnitsAtReset := by
  rw [resetDuring_eq]
  exact s.blockReset_unitsAtReset 0

/-- A byte outside the writer's region and outside the command's destination reads as before (R371). -/
theorem State.readByte_resetDuring {s : State} {cw : Word} {a : Nat} (ha : s.bw.holds a = false)
    (hout : ∀ i, decode cw = some i → ¬InSpan (destination i s) a) : (resetDuring s cw).readByte a = s.readByte a :=
  have hunbound : (resetDuring s cw).bw.holds a = false := by rw [resetDuring_eq]; rfl
  calc (resetDuring s cw).readByte a
    _ = (resetDuring s cw).mem.read a := State.readByte_of_not_held hunbound
    _ = (resetInput s).mem.read a := read_resetDuring_of_not_written hout
    _ = (resetInput s).readByte a := (State.readByte_of_not_held rfl).symm
    _ = s.readByte a := State.readByte_blockReset 0 ha

/-- Settles O10: the step is the reset in front of the queue, and a reset during a command differs from the one between commands
in the memory alone, inside the command's destination. -/
theorem resetInputRule : Obligations.ResetInputRule := by
  intro s rest cw
  refine ⟨fun hhost => ⟨resetInput (s.afterTake rest), ?_, State.blockReset_unitsAtReset _ 0, rfl, rfl, rfl, fun a ha => ?_⟩,
    fun hhost => ⟨resetDuring (s.afterTake rest) cw, ?_, resetDuring_unitsAtReset _ cw, ?_, resetDuring_cfg _ cw, ?_,
      fun a ha hout => ?_⟩⟩
  · rw [step_eq, hhost]
    rfl
  · calc (resetInput (s.afterTake rest)).readByte a
      _ = (s.afterTake rest).readByte a := State.readByte_blockReset 0 ha
      _ = s.readByte a := State.readByte_afterTake rest ha
  · rw [step_eq, hhost]
    rfl
  · rw [resetDuring_eq]
    rfl
  · rw [resetDuring_eq]
    rfl
  · calc (resetDuring (s.afterTake rest) cw).readByte a
      _ = (s.afterTake rest).readByte a :=
        State.readByte_resetDuring ha fun i hi => destination_afterTake i s rest ▸ hout i hi
      _ = s.readByte a := State.readByte_afterTake rest ha

end Sys2Proof.Machine
end
